-- ==== Sys2Proof/Word.lean ====
section
/-! DEFINITION. The words of the block: octets, septets, texts, and the two roundings of spec/00_scope.md R10, R11.
Everything a test could show wrong stands in a file under Machine/, not here. -/

namespace Sys2Proof

/-- An octet: 8 bits, bit 0 the least significant (R10, R52). -/
abbrev Byte := BitVec 8

/-- A septet: 7 bits, a number 0 to 127 (R10, R11). -/
abbrev Septet := BitVec 7

/-- An octet string, first octet first (R11). -/
abbrev Octets := List Byte

/-- A septet string (R11). -/
abbrev Septets := List Septet

/-- A text: a list of Unicode scalar values.  Lean's `Char` is exactly a number 0 to 0x10FFFF outside
0xD800 to 0xDFFF, so a text that R11 calls ill-typed cannot be written down. -/
abbrev Text := List Char

/-- An ASCII string: an octet string that the rules compare octet by octet (R11). -/
abbrev Ascii := List Byte

/-- A line of the serial peer, an ASCII string without its terminator (R11, R261). -/
abbrev Line := List Byte

/-- `ceil(a / b)` of R10, for `b > 0`. -/
def ceilDiv (a b : Nat) : Nat := (a + b - 1) / b

/-- The list of the ASCII codes of a quoted string's characters (R11). -/
def ascii (s : String) : Ascii := s.toList.map fun c => BitVec.ofNat 8 c.toNat

end Sys2Proof
end

