-- ==== Sys2Proof/Syntax.lean ====
section
/-! DEFINITION. The record types of the command and result ports (spec/10_state.md R27 to R33) and `Instr`, one
constructor for each row of spec/opcode_table.json: the 40 commands and 4 agent steps of R90 and the 27 wire-value
rows of R91 (what a wire-value constructor stands for: notes/assumptions/6.md). -/

namespace Sys2Proof

/-- `Address = {len, toa, val}` (R27), the wire triple. -/
structure Address where
  len : Byte
  toa : Byte
  val : Octets
  deriving DecidableEq, Repr

/-- `IE = {iei, ied}` (R28), one information element of a user-data header. -/
structure IE where
  iei : Byte
  ied : Octets
  deriving DecidableEq, Repr

/-- An octet string of length 7 (R29, R31), one field for each octet. -/
structure Octets7 where
  o0 : Byte
  o1 : Byte
  o2 : Byte
  o3 : Byte
  o4 : Byte
  o5 : Byte
  o6 : Byte
  deriving DecidableEq, Repr

/-- The validity period, kept as it stands on the wire (R29). -/
inductive VP
  | absent
  | relative (b : Byte)
  | enhanced (e : Octets7)
  | absolute (a : Octets7)
  deriving DecidableEq, Repr

/-- The payload of the user-data field (R30). -/
inductive Body
  | septets (s : Septets)
  | octets (o : Octets)
  deriving DecidableEq, Repr

/-- An SMS-SUBMIT record (R30). -/
structure Submit where
  rd : Bool
  srr : Bool
  rp : Bool
  mr : Byte
  da : Address
  pid : Byte
  dcs : Byte
  vp : VP
  udh : Option (List IE)
  body : Body
  deriving DecidableEq, Repr

/-- An SMS-DELIVER record (R31). -/
structure Deliver where
  mms : Bool
  lp : Bool
  sri : Bool
  rp : Bool
  oa : Address
  pid : Byte
  dcs : Byte
  scts : Octets7
  udh : Option (List IE)
  body : Body
  deriving DecidableEq, Repr

/-- `Tpdu = submit(Submit) | deliver(Deliver)` (R31). -/
inductive Tpdu
  | submit (t : Submit)
  | deliver (t : Deliver)
  deriving DecidableEq, Repr

/-- A decoded service-centre time stamp (R32); `tzMin` in minutes. -/
structure Timestamp where
  year : Nat
  month : Nat
  day : Nat
  hour : Nat
  minute : Nat
  second : Nat
  tzMin : Int
  deriving DecidableEq, Repr

/-- The service-centre address of a PDU-mode frame, without a digit count (R32, R211). -/
structure Smsc where
  toa : Byte
  val : Octets
  deriving DecidableEq, Repr

/-- The three alphabets of R100.  The fourth value of DCS [3:2], `reserved` in R172, is `none` where an
`Option Alphabet` stands. -/
inductive Alphabet
  | gsm7
  | bit8
  | ucs2
  deriving DecidableEq, Repr

/-- The width of a concatenation reference: IEI 0x00 carries 8 bits, IEI 0x08 carries 16 (R33, R83). -/
inductive RefWidth
  | w8
  | w16
  deriving DecidableEq, Repr

/-- What a concatenation element says: `(w, ref, total, seq)` (R157). -/
structure Concat where
  w : RefWidth
  ref : BitVec 16
  total : Byte
  seq : Byte
  deriving DecidableEq, Repr

/-- The legal payload and hint forms of `SEGMENT` (R220): the payload's type follows from the hint, so that the
forms R220 says cannot be presented cannot be written down. -/
inductive Payload
  | auto (t : Text)
  | forceUcs2 (t : Text)
  | force8bit (o : Octets)
  deriving DecidableEq, Repr

/-- The element and the value of `LN_CFG` (R283). -/
inductive LineConfig
  | finals (l : List Ascii)
  | urcs (l : List Ascii)
  | cmdset (m : List (Ascii × Ascii))
  | cmdTimeout (d : Nat)
  deriving DecidableEq, Repr

/-- One constructor for each row of spec/opcode_table.json. -/
inductive Instr
  -- Alphabet codec, 0x10 to 0x16 (spec/40_alphabet.md).
  /-- `GSM7_ENC(text)` R104. -/
  | gsm7Enc (t : Text)
  /-- `GSM7_DEC(septets)` R105. -/
  | gsm7Dec (q : Septets)
  /-- `PACK7(septets, k)` R108, `k` in 0..6. -/
  | pack7 (q : Septets) (k : Fin 7)
  /-- `UNPACK7(octets, L, k)` R109. -/
  | unpack7 (o : Octets) (l : Nat) (k : Fin 7)
  /-- `UCS2_ENC(text)` R112. -/
  | ucs2Enc (t : Text)
  /-- `UCS2_DEC(octets)` R113. -/
  | ucs2Dec (o : Octets)
  /-- `OCT8(octets)` R115. -/
  | oct8 (o : Octets)
  -- Address codec, 0x20 to 0x24 (spec/41_address.md).
  /-- `ADDR_ENC(ascii)` R131. -/
  | addrEnc (a : Ascii)
  /-- `ADDR_ENC_ALNUM(text)` R134. -/
  | addrEncAlnum (t : Text)
  /-- `ADDR_DEC(Address)` R136. -/
  | addrDec (a : Address)
  /-- `ADDR_SER(Address)` R138. -/
  | addrSer (a : Address)
  /-- `ADDR_PARSE(IN, pos)` R139. -/
  | addrParse (o : Octets) (pos : Nat)
  -- User-data-header codec, 0x30 to 0x34 (spec/42_udh.md).
  /-- `UDH_ENC(List IE)` R152. -/
  | udhEnc (h : List IE)
  /-- `UDH_DEC(IN, pos, limit)` R153. -/
  | udhDec (o : Octets) (pos limit : Nat)
  /-- `UDH_CONCAT8(ref, total, seq)` R155. -/
  | udhConcat8 (ref total seq : Nat)
  /-- `UDH_CONCAT16(ref, total, seq)` R156. -/
  | udhConcat16 (ref total seq : Nat)
  /-- `UDH_GETCONCAT(List IE)` R157. -/
  | udhGetconcat (h : List IE)
  -- TPDU codec, 0x40 to 0x49 (spec/43_tpdu.md).
  /-- `DCS_MK(alphabet, flash)` R173. -/
  | dcsMk (a : Alphabet) (flash : Bool)
  /-- `DCS_ALPHA(octet)` R172. -/
  | dcsAlpha (d : Byte)
  /-- `DCS_FLASH(octet)` R174. -/
  | dcsFlash (d : Byte)
  /-- `SCTS_DEC(7 octets)` R176. -/
  | sctsDec (o : Octets7)
  /-- `SCTS_ENC(Timestamp)` R177. -/
  | sctsEnc (ts : Timestamp)
  /-- `UD_BUILD(dcs, udh, body)` R181. -/
  | udBuild (dcs : Byte) (udh : Option (List IE)) (body : Body)
  /-- `UD_SPLIT(dcs, udhi, IN, pos)` R182. -/
  | udSplit (dcs : Byte) (udhi : Bool) (o : Octets) (pos : Nat)
  /-- `TPDU_SER_SUBMIT(Submit)` R190. -/
  | tpduSerSubmit (t : Submit)
  /-- `TPDU_SER_DELIVER(Deliver)` R191. -/
  | tpduSerDeliver (t : Deliver)
  /-- `TPDU_PARSE(IN)` R193. -/
  | tpduParse (o : Octets)
  -- PDU-mode frame, 0x50 and 0x51 (spec/44_frame.md).
  /-- `FRAME_ENC(Option Smsc, octets)` R212. -/
  | frameEnc (smsc : Option Smsc) (tpdu : Octets)
  /-- `FRAME_DEC(ascii)` R213. -/
  | frameDec (hex : Ascii)
  -- Segmenter and reassembler, 0x60 to 0x71 (spec/45_segmenter.md, spec/46_reassembler.md).
  /-- `SEGMENT(payload, dest, hint)` R226. -/
  | segment (p : Payload) (dest : Ascii)
  /-- `COLLECT(Deliver)` R242. -/
  | collect (t : Deliver)
  /-- `RSM_CFG(Option duration)` R246. -/
  | rsmCfg (d : Option Nat)
  -- Line unit, 0x80 to 0x87 (spec/47_line_unit.md).
  /-- `LN_PARSE(line)` R264. -/
  | lnParse (l : Line)
  /-- `LN_CLASSIFY(line, ascii)` R267. -/
  | lnClassify (l : Line) (c : Ascii)
  /-- `SEND(ascii)` R272. -/
  | send (text : Ascii)
  /-- `SEND_EXPECT(ascii, ascii)` R276. -/
  | sendExpect (text sub : Ascii)
  /-- `SIMPLE_QUERY(ascii)` R277. -/
  | simpleQuery (text : Ascii)
  /-- `CLOSE()` R278. -/
  | close
  /-- `IS_OPEN()` R280. -/
  | isOpen
  /-- `LN_CFG(element, value)` R283. -/
  | lnCfg (v : LineConfig)
  -- Agent steps, 0xE0 to 0xE3, which the host cannot issue.
  /-- `EXPIRE` R247. -/
  | expire
  /-- `LN_RX(b)` R262. -/
  | lnRx (b : Byte)
  /-- `LN_TIMEOUT` R281. -/
  | lnTimeout
  /-- `LN_EOS` R282. -/
  | lnEos
  -- First octets of a TPDU, with the octets that follow (R71, R72, R193, R196).
  /-- First octet `pus00r01`: SMS-SUBMIT without TP-VP. -/
  | foSubmitVpAbsent (rp udhi srr rd : Bool) (rest : Octets)
  /-- First octet `pus10r01`: SMS-SUBMIT with one TP-VP octet. -/
  | foSubmitVpRelative (rp udhi srr rd : Bool) (rest : Octets)
  /-- First octet `pus01r01`: SMS-SUBMIT with seven TP-VP octets, enhanced. -/
  | foSubmitVpEnhanced (rp udhi srr rd : Bool) (rest : Octets)
  /-- First octet `pus11r01`: SMS-SUBMIT with seven TP-VP octets, absolute. -/
  | foSubmitVpAbsolute (rp udhi srr rd : Bool) (rest : Octets)
  /-- First octet `pusxlm00`: SMS-DELIVER; `x` is the reserved bit 4. -/
  | foDeliver (rp udhi sri x lp mms : Bool) (rest : Octets)
  /-- First octet `xxxxxx10`: SMS-STATUS-REPORT. -/
  | foStatusReport (x : BitVec 6) (rest : Octets)
  /-- First octet `xxxxxx11`: the unknown TP-MTI. -/
  | foReservedMti (x : BitVec 6) (rest : Octets)
  -- TP-DCS values, with TP-UDHI and the TP-UDL and TP-UD octets they govern (R79, R172, R182).
  /-- `xxxf00xx`: GSM-7. -/
  | dcsGsm7 (hi : BitVec 3) (flash : Bool) (lo : BitVec 2) (udhi : Bool) (ud : Octets)
  /-- `xxxf01xx`: 8-bit. -/
  | dcs8bit (hi : BitVec 3) (flash : Bool) (lo : BitVec 2) (udhi : Bool) (ud : Octets)
  /-- `xxxf10xx`: UCS-2. -/
  | dcsUcs2 (hi : BitVec 3) (flash : Bool) (lo : BitVec 2) (udhi : Bool) (ud : Octets)
  /-- `xxxf11xx`: reserved. -/
  | dcsReserved (hi : BitVec 3) (flash : Bool) (lo : BitVec 2) (udhi : Bool) (ud : Octets)
  -- Address-type octets, with the length octet before them and the value octets after them (R77, R78, R139).
  /-- `1tttnnnn`, any type octet but the three named ones. -/
  | toa (ton : BitVec 3) (npi : BitVec 4) (len : Byte) (val : Octets)
  /-- `0x91`. -/
  | toaInternational (len : Byte) (val : Octets)
  /-- `0x81`. -/
  | toaUnknown (len : Byte) (val : Octets)
  /-- `0xD0`. -/
  | toaAlphanumeric (len : Byte) (val : Octets)
  /-- `0xxxxxxx`: bit 7 clear. -/
  | toaBit7Clear (x : BitVec 7) (len : Byte) (val : Octets)
  -- Information-element identifiers, with the element's data (R82, R83, R157).
  /-- IEI `0x00`. -/
  | ieiConcat8 (ied : Octets)
  /-- IEI `0x08`. -/
  | ieiConcat16 (ied : Octets)
  /-- Any other IEI. -/
  | ieiOther (iei : Byte) (ied : Octets)
  -- SMSC prefix lengths, with the octets that follow them in the frame (R84, R213).
  /-- Length `0x00`. -/
  | smscNone (rest : Octets)
  /-- Length 1 to 255. -/
  | smscPresent (l : Byte) (rest : Octets)
  -- Septets of a GSM-7 string, with the septets that follow (R101, R102, R105).
  /-- Septet `0x1B`. -/
  | gsm7Escape (rest : Septets)
  /-- Any septet but `0x1B`. -/
  | gsm7Default (s : Septet) (rest : Septets)
  -- Terminators (R84, R214, R261, R271).
  /-- `0x1A`, ending and committing a hex frame. -/
  | frameCommit (hex : Ascii)
  /-- `0x1B`, aborting a hex frame. -/
  | frameAbort (hex : Ascii)
  /-- `0x0D`, received. -/
  | lineCr
  /-- `0x0A`, received. -/
  | lineLf
  deriving DecidableEq, Repr

end Sys2Proof
end

