-- ==== Sys2Proof/Machine/Operands.lean ====
section
/-! DEFINITION. The operand forms shared by the operations: slices of an input octet string, nibbles, trimming,
prefix and substring tests (spec/00_scope.md R13, spec/20_memory.md R53, R55, spec/47_line_unit.md R261, R267). -/

namespace Sys2Proof.Machine

/-- `MemRead(addr, n)` of R13: the `n` octets `IN[addr .. addr+n)`.  Every rule tests the bound first. -/
def memRead (o : Octets) (addr n : Nat) : Octets := (o.drop addr).take n

/-- `IN[pos]`; every rule tests `pos < |IN|` first. -/
def octetAt (o : Octets) (pos : Nat) : Byte := o.getD pos 0

/-- The seven octets of R29, R31 as an octet string, in wire order. -/
def octets7 (o : Octets7) : Octets := [o.o0, o.o1, o.o2, o.o3, o.o4, o.o5, o.o6]

/-- `MemRead(pos, 7)` as the seven-octet record. -/
def octets7At (o : Octets) (pos : Nat) : Octets7 :=
  { o0 := octetAt o pos, o1 := octetAt o (pos + 1), o2 := octetAt o (pos + 2), o3 := octetAt o (pos + 3),
    o4 := octetAt o (pos + 4), o5 := octetAt o (pos + 5), o6 := octetAt o (pos + 6) }

/-- Bits [3:0] of an octet. -/
def lowNibble (b : Byte) : Nat := b.toNat % 16

/-- Bits [7:4] of an octet. -/
def highNibble (b : Byte) : Nat := b.toNat / 16

/-- `(hi << 4) | lo` for two nibbles. -/
def nibbles (hi lo : Nat) : Byte := BitVec.ofNat 8 (16 * hi + lo)

/-- The number whose base-`2^8` digits are the octets, the first the least significant: the bit stream of R54. -/
def streamOfOctets : Octets → Nat
  | [] => 0
  | b :: r => b.toNat + 256 * streamOfOctets r

/-- The number whose base-`2^7` digits are the septets, the first the least significant (R54). -/
def streamOfSeptets : Septets → Nat
  | [] => 0
  | s :: r => s.toNat + 128 * streamOfSeptets r

/-- The first `n` octets of a bit stream (R54). -/
def octetsOfStream : Nat → Nat → Octets
  | 0, _ => []
  | n + 1, v => BitVec.ofNat 8 v :: octetsOfStream n (v / 256)

/-- The first `n` septets of a bit stream (R54). -/
def septetsOfStream : Nat → Nat → Septets
  | 0, _ => []
  | n + 1, v => BitVec.ofNat 7 v :: septetsOfStream n (v / 128)

/-- The white space of R261. -/
def isSpace (b : Byte) : Bool := b == 0x20 || (0x09 ≤ b && b ≤ 0x0D)

/-- `TRIM(s)` of R261. -/
def trim (s : Ascii) : Ascii := ((s.dropWhile isSpace).reverse.dropWhile isSpace).reverse

/-- `STARTS(s, p)` of R267. -/
def starts (s p : Ascii) : Bool := p.isPrefixOf s

/-- Substring test of R276: some `i` has `l[i .. i+|sub|) = sub`. -/
def contains (sub : Ascii) : Ascii → Bool
  | [] => starts [] sub
  | c :: r => starts (c :: r) sub || contains sub r

/-- `rest split at every sep` (R264): `n` separators give `n + 1` parts. -/
def splitAt (sep : Byte) : Ascii → List Ascii
  | [] => [[]]
  | c :: r =>
    if c = sep then [] :: splitAt sep r
    else
      match splitAt sep r with
      | [] => [[c]]
      | h :: t => (c :: h) :: t

end Sys2Proof.Machine
end

