-- ==== Sys2Proof/Machine/Flags.lean ====
section
/-! DEFINITION. The flag octets.  The block has no status flag (spec/10_state.md R39); its flags are the fields of
the first octet (spec/30_encoding.md R71, R72) and of the data-coding scheme (R79): their composition, as the
serialisers write them, and their reading, as the parser reads them. -/

namespace Sys2Proof.Machine

/-- The value of a bit. -/
def bit (b : Bool) : Nat := if b then 1 else 0

/-- TP-VPF, bits [4:3], for each form of validity period (R75). -/
def vpfOf : VP → Nat
  | .absent => 0b00
  | .relative _ => 0b10
  | .enhanced _ => 0b01
  | .absolute _ => 0b11

/-- `FO-SUBMIT` (R71): MTI 01, RD 2, VPF [4:3], SRR 5, UDHI 6, RP 7. -/
def foSubmit (rd : Bool) (vpf : Nat) (srr udhi rp : Bool) : Byte :=
  BitVec.ofNat 8 (0b01 + 4 * bit rd + 8 * vpf + 32 * bit srr + 64 * bit udhi + 128 * bit rp)

/-- `FO-DELIVER` (R72): MTI 00, MMS 2, LP 3, bit 4 reserved, SRI 5, UDHI 6, RP 7. -/
def foDeliver (mms lp reserved sri udhi rp : Bool) : Byte :=
  BitVec.ofNat 8
    (4 * bit mms + 8 * bit lp + 16 * bit reserved + 32 * bit sri + 64 * bit udhi + 128 * bit rp)

/-- A first octet whose bits [7:2] are `x` (the rows with TP-MTI 10 and 11 of R73). -/
def foOther (x : BitVec 6) (mti : Nat) : Byte := BitVec.ofNat 8 (4 * x.toNat + mti)

/-- TP-MTI, bits [1:0] (R73). -/
def mtiOf (fo : Byte) : Nat := fo.toNat % 4

/-- TP-VPF, bits [4:3] (R75). -/
def vpfBits (fo : Byte) : Nat := fo.toNat / 8 % 4

/-- A single bit of an octet, bit 0 the least significant (R52). -/
def bitOf (b : Byte) (i : Nat) : Bool := b.getLsbD i

/-- A TP-DCS octet from its fields (R79): bits [7:5], flash 4, alphabet [3:2], bits [1:0]. -/
def dcsOctet (hi : BitVec 3) (flash : Bool) (alphabet : Nat) (lo : BitVec 2) : Byte :=
  BitVec.ofNat 8 (32 * hi.toNat + 16 * bit flash + 4 * alphabet + lo.toNat)

/-- An address-type octet with bit 7 set (R78): TON [6:4], NPI [3:0]. -/
def toaOctet (ton : BitVec 3) (npi : BitVec 4) : Byte := BitVec.ofNat 8 (128 + 16 * ton.toNat + npi.toNat)

/-- TON, bits [6:4] of an address-type octet (R78). -/
def tonOf (toa : Byte) : Nat := toa.toNat / 16 % 8

end Sys2Proof.Machine
end

