-- ==== Sys2Proof/WellFormed.lean ====
section
/-! DEFINITION. When an instruction's operands are well-typed (spec/10_state.md R27 to R33, R43).  What a Lean type
cannot say of an operand is checked here, once; the decoder refuses an instruction that fails (R43: "a model should
make a value that breaks them impossible to write down, and if it cannot, refuse it"). -/

namespace Sys2Proof

/-- R27: `|val| = ceil(len / 2)`. -/
def Address.wf (a : Address) : Bool := a.val.length == ceilDiv a.len.toNat 2

/-- R28: `|ied| <= 255`. -/
def IE.wf (e : IE) : Bool := e.ied.length ≤ 255

/-- R28 for each element of a header, if there is one. -/
def udhWf : Option (List IE) → Bool
  | none => true
  | some h => h.all IE.wf

/-- R32: the ranges of a time stamp. -/
def Timestamp.wf (ts : Timestamp) : Bool :=
  1970 ≤ ts.year && ts.year ≤ 2069 && ts.month ≤ 99 && ts.day ≤ 99 && ts.hour ≤ 99 && ts.minute ≤ 99 &&
    ts.second ≤ 99 && ts.tzMin.natAbs % 15 == 0 && ts.tzMin.natAbs ≤ 79 * 15

/-- R212: at most 254 value octets, so that the prefix length fits its octet. -/
def Smsc.wf (m : Smsc) : Bool := m.val.length ≤ 254

/-- The length invariants of a SUBMIT record (R27, R28). -/
def Submit.wf (t : Submit) : Bool := t.da.wf && udhWf t.udh

/-- The length invariants of a DELIVER record (R27, R28). -/
def Deliver.wf (t : Deliver) : Bool := t.oa.wf && udhWf t.udh

/-- R264, R267: a trimmed non-empty line. -/
def lineWf (l : Line) : Bool := !l.isEmpty && Machine.trim l == l

/-- R36: a duration is above zero; a map has each name once. -/
def LineConfig.wf : LineConfig → Bool
  | .cmdTimeout d => 0 < d
  | .cmdset m => decide (m.map Prod.fst).Nodup
  | .finals _ => true
  | .urcs _ => true

/-- The operands of an instruction are well-typed. -/
def Instr.wf : Instr → Bool
  | .gsm7Enc _ => true
  | .gsm7Dec _ => true
  | .pack7 _ _ => true
  | .unpack7 _ _ _ => true
  | .ucs2Enc _ => true
  | .ucs2Dec _ => true
  | .oct8 _ => true
  | .addrEnc _ => true
  | .addrEncAlnum _ => true
  | .addrDec a => a.wf
  | .addrSer a => a.wf
  | .addrParse _ _ => true
  | .udhEnc _ => true
  | .udhDec o _ limit => limit ≤ o.length
  | .udhConcat8 _ _ _ => true
  | .udhConcat16 _ _ _ => true
  | .udhGetconcat h => h.all IE.wf
  | .dcsMk _ _ => true
  | .dcsAlpha _ => true
  | .dcsFlash _ => true
  | .sctsDec _ => true
  | .sctsEnc ts => ts.wf
  | .udBuild _ _ _ => true
  | .udSplit _ _ _ _ => true
  | .tpduSerSubmit t => t.wf
  | .tpduSerDeliver t => t.wf
  | .tpduParse _ => true
  | .frameEnc m _ => m.all Smsc.wf
  | .frameDec _ => true
  | .segment _ _ => true
  | .collect t => t.wf
  | .rsmCfg d => d.all (0 < ·)
  | .lnParse l => lineWf l
  | .lnClassify l _ => lineWf l
  | .send _ => true
  | .sendExpect _ _ => true
  | .simpleQuery _ => true
  | .close => true
  | .isOpen => true
  | .lnCfg v => v.wf
  | .expire => true
  | .lnRx _ => true
  | .lnTimeout => true
  | .lnEos => true
  | .foSubmitVpAbsent _ _ _ _ _ => true
  | .foSubmitVpRelative _ _ _ _ _ => true
  | .foSubmitVpEnhanced _ _ _ _ _ => true
  | .foSubmitVpAbsolute _ _ _ _ _ => true
  | .foDeliver _ _ _ _ _ _ _ => true
  | .foStatusReport _ _ => true
  | .foReservedMti _ _ => true
  | .dcsGsm7 _ _ _ _ _ => true
  | .dcs8bit _ _ _ _ _ => true
  | .dcsUcs2 _ _ _ _ _ => true
  | .dcsReserved _ _ _ _ _ => true
  | .toa ton npi _ _ => !((ton == 1 && npi == 1) || (ton == 0 && npi == 1) || (ton == 5 && npi == 0))
  | .toaInternational _ _ => true
  | .toaUnknown _ _ => true
  | .toaAlphanumeric _ _ => true
  | .toaBit7Clear _ _ _ => true
  | .ieiConcat8 ied => ied.length ≤ 255
  | .ieiConcat16 ied => ied.length ≤ 255
  | .ieiOther iei ied => iei != 0 && iei != 8 && ied.length ≤ 255
  | .smscNone _ => true
  | .smscPresent l _ => l != 0
  | .gsm7Escape _ => true
  | .gsm7Default s _ => s != 0x1B
  | .frameCommit _ => true
  | .frameAbort _ => true
  | .lineCr => true
  | .lineLf => true

end Sys2Proof
end

