-- ==== Sys2Proof/Decode.lean ====
section
/-! DEFINITION. How a command or agent step is presented as octets, its decoder and its encoder.  The spec names the
operations, gives them codes as labels and leaves the presentation open (spec/30_encoding.md R90,
spec/92_eei_decisions.md D4); the octets of the wire values are the spec's (R71 to R84, R91).
DESIGN CHOICE (notes/assumptions/4.md): code octet, format octet (0 for R90's codes, 1 to 7 for the wire formats of
the table), operands.  DESIGN CHOICE (notes/assumptions/7.md): format 0 with an octet that is no code of R90 is the
wire value of the table row that fixes most bits of it. -/

namespace Sys2Proof

open Machine

/-- Why octets on the command port are no instruction. -/
inductive DecodeError
  /-- The code octet and the format octet name no row. -/
  | noSuchOperation
  /-- The octets end inside the instruction. -/
  | truncated
  /-- An operand is not of its type. -/
  | illTyped
  deriving DecidableEq, Repr

/-- A reader takes octets from the front and leaves the rest. -/
abbrev Reader (α : Type) := Octets → Except DecodeError (α × Octets)

/-- Reads nothing. -/
def Reader.pure (a : α) : Reader α := fun o => .ok (a, o)

/-- Reads one thing, then another that may depend on it. -/
def Reader.bind (r : Reader α) (f : α → Reader β) : Reader β := fun o =>
  match r o with
  | .error e => .error e
  | .ok (a, o') => f a o'

/-- What was read, passed through a function. -/
def Reader.map (r : Reader α) (f : α → β) : Reader β := r.bind fun a => Reader.pure (f a)

/-- Reads something that need not be a value of its type. -/
def Reader.mapCheck (r : Reader α) (f : α → Option β) : Reader β := r.bind fun a o =>
  match f a with
  | some b => .ok (b, o)
  | none => .error .illTyped

/-- An operand form: how a value is written and how it is read back. -/
structure Codec (α : Type) where
  write : α → Octets
  read : Reader α

/-- Reads one octet. -/
def readByte : Reader Byte
  | [] => .error .truncated
  | b :: r => .ok (b, r)

/-- An octet. -/
def cByte : Codec Byte := { write := fun b => [b], read := readByte }

/-- A number, base 128, the least significant digit first, every octet but the last with bit 7 set. -/
def writeNatFuel : Nat → Nat → Octets
  | 0, n => [BitVec.ofNat 8 (n % 128)]
  | fuel + 1, n => if n < 128 then [BitVec.ofNat 8 n] else BitVec.ofNat 8 (128 + n % 128) :: writeNatFuel fuel (n / 128)

/-- Reads a number. -/
def readNat : Reader Nat
  | [] => .error .truncated
  | b :: r =>
    if b.toNat < 128 then .ok (b.toNat, r)
    else
      match readNat r with
      | .error e => .error e
      | .ok (n, r') => .ok (b.toNat - 128 + 128 * n, r')

/-- A number. -/
def cNat : Codec Nat := { write := fun n => writeNatFuel n n, read := readNat }

/-- A value seen as a value of another type: written through `g`, read through the partial `f`. -/
def cVia (c : Codec α) (f : α → Option β) (g : β → α) : Codec β :=
  { write := fun b => c.write (g b), read := c.read.mapCheck f }

/-- Two values, one after the other. -/
def cPair (c : Codec α) (d : Codec β) : Codec (α × β) :=
  { write := fun p => c.write p.1 ++ d.write p.2
    read := c.read.bind fun a => d.read.bind fun b => Reader.pure (a, b) }

/-- Reads `n` values. -/
def readMany (r : Reader α) : Nat → Reader (List α)
  | 0 => Reader.pure []
  | n + 1 => r.bind fun a => (readMany r n).map fun l => a :: l

/-- A list: its length, then its elements. -/
def cList (c : Codec α) : Codec (List α) :=
  { write := fun l => cNat.write l.length ++ l.flatMap c.write
    read := cNat.read.bind fun n => readMany c.read n }

/-- A bit. -/
def cBool : Codec Bool :=
  cVia cByte (fun b => if b = 0 then some false else if b = 1 then some true else none) fun b => if b then 1 else 0

/-- One of two forms, after a bit that says which. -/
def cSum (c : Codec α) (d : Codec β) : Codec (α ⊕ β) :=
  { write := fun x =>
      match x with
      | .inl a => cBool.write false ++ c.write a
      | .inr b => cBool.write true ++ d.write b
    read := cBool.read.bind fun right => if right then d.read.map .inr else c.read.map .inl }

/-- Nothing. -/
def cUnit : Codec Unit := { write := fun _ => [], read := Reader.pure () }

/-- A value that may be absent. -/
def cOption (c : Codec α) : Codec (Option α) :=
  cVia (cSum cUnit c) (fun x => some (x.elim (fun _ => none) some)) fun x =>
    match x with
    | none => .inl ()
    | some a => .inr a

/-- A bit vector of at most 8 bits, in one octet. -/
def cBits (n : Nat) : Codec (BitVec n) :=
  cVia cByte (fun b => if b.toNat < 2 ^ n then some (BitVec.ofNat n b.toNat) else none) fun v => BitVec.ofNat 8 v.toNat

/-- A fill-bit count, 0 to 6. -/
def cFill : Codec (Fin 7) :=
  cVia cByte (fun b => if h : b.toNat < 7 then some ⟨b.toNat, h⟩ else none) fun k => BitVec.ofNat 8 k.val

/-- A Unicode scalar value. -/
def cChar : Codec Char :=
  cVia cNat (fun n => if n.isValidChar then some (Char.ofNat n) else none) fun c => c.toNat

/-- An octet string. -/
def cOctets : Codec Octets := cList cByte

/-- A septet string. -/
def cSeptets : Codec Septets := cList (cBits 7)

/-- A text. -/
def cText : Codec Text := cList cChar

/-- A line: its first octet, then the others; a line has at least one. -/
def cLine : Codec Line := cVia (cPair cByte cOctets) (fun p => some (p.1 :: p.2)) fun l => (l.headD 0, l.tail)

/-- An alphabet. -/
def cAlphabet : Codec Alphabet :=
  cVia cByte
    (fun b => if b = 0 then some .gsm7 else if b = 1 then some .bit8 else if b = 2 then some .ucs2 else none)
    fun a =>
      match a with
      | .gsm7 => 0
      | .bit8 => 1
      | .ucs2 => 2

/-- An address. -/
def cAddress : Codec Address :=
  cVia (cPair cByte (cPair cByte cOctets)) (fun p => some { len := p.1, toa := p.2.1, val := p.2.2 }) fun a =>
    (a.len, a.toa, a.val)

/-- A user-data header. -/
def cHeader : Codec (List IE) :=
  cList (cVia (cPair cByte cOctets) (fun p => some { iei := p.1, ied := p.2 }) fun e => (e.iei, e.ied))

/-- Seven octets. -/
def cOctets7 : Codec Octets7 :=
  cVia (cPair cByte (cPair cByte (cPair cByte (cPair cByte (cPair cByte (cPair cByte cByte))))))
    (fun p =>
      some { o0 := p.1, o1 := p.2.1, o2 := p.2.2.1, o3 := p.2.2.2.1, o4 := p.2.2.2.2.1, o5 := p.2.2.2.2.2.1,
             o6 := p.2.2.2.2.2.2 })
    fun o => (o.o0, o.o1, o.o2, o.o3, o.o4, o.o5, o.o6)

/-- A time stamp: the years since 1970, the five fields, the sign and the quarter-hours of the time zone. -/
def cTimestamp : Codec Timestamp :=
  cVia (cPair cNat (cPair cNat (cPair cNat (cPair cNat (cPair cNat (cPair cNat (cPair cBool cNat)))))))
    (fun p =>
      some { year := 1970 + p.1, month := p.2.1, day := p.2.2.1, hour := p.2.2.2.1, minute := p.2.2.2.2.1,
             second := p.2.2.2.2.2.1,
             tzMin := if p.2.2.2.2.2.2.1 then -(15 * p.2.2.2.2.2.2.2 : Nat) else (15 * p.2.2.2.2.2.2.2 : Nat) })
    fun t => (t.year - 1970, t.month, t.day, t.hour, t.minute, t.second, decide (t.tzMin < 0), t.tzMin.natAbs / 15)

/-- A payload of user data. -/
def cBody : Codec Body :=
  cVia (cSum cSeptets cOctets) (fun x => some (x.elim .septets .octets)) fun b =>
    match b with
    | .septets q => .inl q
    | .octets o => .inr o

/-- A validity period. -/
def cVp : Codec VP :=
  cVia (cSum (cSum cUnit cByte) (cSum cOctets7 cOctets7))
    (fun x => some (x.elim (fun y => y.elim (fun _ => .absent) .relative) fun y => y.elim .enhanced .absolute)) fun v =>
    match v with
    | .absent => .inl (.inl ())
    | .relative b => .inl (.inr b)
    | .enhanced e => .inr (.inl e)
    | .absolute a => .inr (.inr a)

/-- What SUBMIT and DELIVER records have in common after their own fields: PID, DCS, header, body. -/
def cTail : Codec (Byte × Byte × Option (List IE) × Body) :=
  cPair cByte (cPair cByte (cPair (cOption cHeader) cBody))

/-- A SUBMIT record. -/
def cSubmit : Codec Submit :=
  cVia (cPair (cPair cBool (cPair cBool cBool)) (cPair (cPair cByte (cPair cAddress cVp)) cTail))
    (fun p =>
      some { rd := p.1.1, srr := p.1.2.1, rp := p.1.2.2, mr := p.2.1.1, da := p.2.1.2.1, vp := p.2.1.2.2,
             pid := p.2.2.1, dcs := p.2.2.2.1, udh := p.2.2.2.2.1, body := p.2.2.2.2.2 })
    fun t => ((t.rd, t.srr, t.rp), (t.mr, t.da, t.vp), t.pid, t.dcs, t.udh, t.body)

/-- A DELIVER record. -/
def cDeliver : Codec Deliver :=
  cVia (cPair (cPair cBool (cPair cBool (cPair cBool cBool))) (cPair (cPair cAddress cOctets7) cTail))
    (fun p =>
      some { mms := p.1.1, lp := p.1.2.1, sri := p.1.2.2.1, rp := p.1.2.2.2, oa := p.2.1.1, scts := p.2.1.2,
             pid := p.2.2.1, dcs := p.2.2.2.1, udh := p.2.2.2.2.1, body := p.2.2.2.2.2 })
    fun t => ((t.mms, t.lp, t.sri, t.rp), (t.oa, t.scts), t.pid, t.dcs, t.udh, t.body)

/-- A service-centre address. -/
def cSmsc : Codec Smsc :=
  cVia (cPair cByte cOctets) (fun p => some { toa := p.1, val := p.2 }) fun m => (m.toa, m.val)

/-- The payload of `SEGMENT` with its hint. -/
def cPayload : Codec Payload :=
  cVia (cSum (cSum cText cText) cOctets)
    (fun x => some (x.elim (fun y => y.elim .auto .forceUcs2) .force8bit)) fun p =>
    match p with
    | .auto t => .inl (.inl t)
    | .forceUcs2 t => .inl (.inr t)
    | .force8bit o => .inr o

/-- The element and value of `LN_CFG`. -/
def cLineConfig : Codec LineConfig :=
  cVia (cSum (cSum (cList cOctets) (cList cOctets)) (cSum (cList (cPair cOctets cOctets)) cNat))
    (fun x => some (x.elim (fun y => y.elim .finals .urcs) fun y => y.elim .cmdset .cmdTimeout)) fun v =>
    match v with
    | .finals l => .inl (.inl l)
    | .urcs l => .inl (.inr l)
    | .cmdset m => .inr (.inl m)
    | .cmdTimeout d => .inr (.inr d)

/-- TP-UDHI and user-data octets, after a TP-DCS octet. -/
def cFlagged : Codec (Bool × Octets) := cPair cBool cOctets

/-- The length octet and the value octets around an address-type octet. -/
def cField : Codec (Byte × Octets) := cPair cByte cOctets

/-- The operations and agent steps, by the codes of R90. -/
def operationReader (code : Nat) : Option (Reader Instr) :=
  match code with
  | 0x10 => some (cText.read.map .gsm7Enc)
  | 0x11 => some (cSeptets.read.map .gsm7Dec)
  | 0x12 => some ((cPair cSeptets cFill).read.map fun (q, k) => .pack7 q k)
  | 0x13 => some ((cPair cOctets (cPair cNat cFill)).read.map fun (o, l, k) => .unpack7 o l k)
  | 0x14 => some (cText.read.map .ucs2Enc)
  | 0x15 => some (cOctets.read.map .ucs2Dec)
  | 0x16 => some (cOctets.read.map .oct8)
  | 0x20 => some (cOctets.read.map .addrEnc)
  | 0x21 => some (cText.read.map .addrEncAlnum)
  | 0x22 => some (cAddress.read.map .addrDec)
  | 0x23 => some (cAddress.read.map .addrSer)
  | 0x24 => some ((cPair cOctets cNat).read.map fun (o, pos) => .addrParse o pos)
  | 0x30 => some (cHeader.read.map .udhEnc)
  | 0x31 => some ((cPair cOctets (cPair cNat cNat)).read.map fun (o, pos, limit) => .udhDec o pos limit)
  | 0x32 => some ((cPair cNat (cPair cNat cNat)).read.map fun (ref, total, sq) => .udhConcat8 ref total sq)
  | 0x33 => some ((cPair cNat (cPair cNat cNat)).read.map fun (ref, total, sq) => .udhConcat16 ref total sq)
  | 0x34 => some (cHeader.read.map .udhGetconcat)
  | 0x40 => some ((cPair cAlphabet cBool).read.map fun (a, flash) => .dcsMk a flash)
  | 0x41 => some (cByte.read.map .dcsAlpha)
  | 0x42 => some (cByte.read.map .dcsFlash)
  | 0x43 => some (cOctets7.read.map .sctsDec)
  | 0x44 => some (cTimestamp.read.map .sctsEnc)
  | 0x45 => some ((cPair cByte (cPair (cOption cHeader) cBody)).read.map fun (dcs, udh, body) => .udBuild dcs udh body)
  | 0x46 => some ((cPair cByte (cPair cBool (cPair cOctets cNat))).read.map fun (dcs, udhi, o, pos) => .udSplit dcs udhi o pos)
  | 0x47 => some (cSubmit.read.map .tpduSerSubmit)
  | 0x48 => some (cDeliver.read.map .tpduSerDeliver)
  | 0x49 => some (cOctets.read.map .tpduParse)
  | 0x50 => some ((cPair (cOption cSmsc) cOctets).read.map fun (smsc, tpdu) => .frameEnc smsc tpdu)
  | 0x51 => some (cOctets.read.map .frameDec)
  | 0x60 => some ((cPair cPayload cOctets).read.map fun (p, dest) => .segment p dest)
  | 0x70 => some (cDeliver.read.map .collect)
  | 0x71 => some ((cOption cNat).read.map .rsmCfg)
  | 0x80 => some (cLine.read.map .lnParse)
  | 0x81 => some ((cPair cLine cOctets).read.map fun (l, c) => .lnClassify l c)
  | 0x82 => some (cOctets.read.map .send)
  | 0x83 => some ((cPair cOctets cOctets).read.map fun (text, sub) => .sendExpect text sub)
  | 0x84 => some (cOctets.read.map .simpleQuery)
  | 0x85 => some (Reader.pure .close)
  | 0x86 => some (Reader.pure .isOpen)
  | 0x87 => some (cLineConfig.read.map .lnCfg)
  | 0xE0 => some (Reader.pure .expire)
  | 0xE1 => some (cByte.read.map .lnRx)
  | 0xE2 => some (Reader.pure .lnTimeout)
  | 0xE3 => some (Reader.pure .lnEos)
  | _ => none

/-- A first octet and the octets after it, by TP-MTI and TP-VPF (R71 to R75). -/
def firstOctetReader (b : Byte) : Reader Instr :=
  cOctets.read.map fun rest =>
    match mtiOf b, vpfBits b with
    | 0, _ => .foDeliver (bitOf b 7) (bitOf b 6) (bitOf b 5) (bitOf b 4) (bitOf b 3) (bitOf b 2) rest
    | 1, 0b00 => .foSubmitVpAbsent (bitOf b 7) (bitOf b 6) (bitOf b 5) (bitOf b 2) rest
    | 1, 0b10 => .foSubmitVpRelative (bitOf b 7) (bitOf b 6) (bitOf b 5) (bitOf b 2) rest
    | 1, 0b01 => .foSubmitVpEnhanced (bitOf b 7) (bitOf b 6) (bitOf b 5) (bitOf b 2) rest
    | 1, _ => .foSubmitVpAbsolute (bitOf b 7) (bitOf b 6) (bitOf b 5) (bitOf b 2) rest
    | 2, _ => .foStatusReport (b.extractLsb' 2 6) rest
    | _, _ => .foReservedMti (b.extractLsb' 2 6) rest

/-- A TP-DCS octet with the user data it governs, by bits [3:2] (R79). -/
def dcsReader (b : Byte) : Reader Instr :=
  cFlagged.read.map fun (udhi, ud) =>
    match b.toNat / 4 % 4 with
    | 0 => .dcsGsm7 (b.extractLsb' 5 3) (bitOf b 4) (b.extractLsb' 0 2) udhi ud
    | 1 => .dcs8bit (b.extractLsb' 5 3) (bitOf b 4) (b.extractLsb' 0 2) udhi ud
    | 2 => .dcsUcs2 (b.extractLsb' 5 3) (bitOf b 4) (b.extractLsb' 0 2) udhi ud
    | _ => .dcsReserved (b.extractLsb' 5 3) (bitOf b 4) (b.extractLsb' 0 2) udhi ud

/-- An address-type octet with its field (R78). -/
def toaReader (b : Byte) : Reader Instr :=
  cField.read.map fun (len, val) =>
    if b = 0x91 then .toaInternational len val
    else if b = 0x81 then .toaUnknown len val
    else if b = 0xD0 then .toaAlphanumeric len val
    else if bitOf b 7 then .toa (b.extractLsb' 4 3) (b.extractLsb' 0 4) len val
    else .toaBit7Clear (b.extractLsb' 0 7) len val

/-- An information-element identifier with its data (R83). -/
def ieiReader (b : Byte) : Reader Instr :=
  cOctets.read.map fun ied =>
    if b = 0x00 then .ieiConcat8 ied else if b = 0x08 then .ieiConcat16 ied else .ieiOther b ied

/-- An SMSC prefix length with the octets after it (R84). -/
def smscReader (b : Byte) : Reader Instr :=
  cOctets.read.map fun rest => if b = 0x00 then .smscNone rest else .smscPresent b rest

/-- A septet with the septets after it (R101, R102); a septet has bit 7 clear. -/
def septetReader (b : Byte) : Option (Reader Instr) :=
  if bitOf b 7 then none
  else
    some (cSeptets.read.map fun rest =>
      if b = 0x1B then .gsm7Escape rest else .gsm7Default (b.extractLsb' 0 7) rest)

/-- A terminator (R91). -/
def terminatorReader (b : Byte) : Option (Reader Instr) :=
  if b = 0x1A then some (cOctets.read.map .frameCommit)
  else if b = 0x1B then some (cOctets.read.map .frameAbort)
  else if b = 0x0D then some (Reader.pure .lineCr)
  else if b = 0x0A then some (Reader.pure .lineLf)
  else none

/-- An octet with no format said that is no code of R90: the wire-value rows that fix all its bits before those that fix
some, then the row whose pattern it is with every open bit zero (DESIGN CHOICE, notes/assumptions/7.md). -/
def bareReader (b : Byte) : Reader Instr :=
  if b = 0x91 ∨ b = 0x81 ∨ b = 0xD0 then toaReader b
  else if b = 0x00 ∨ b = 0x08 then ieiReader b
  else if b = 0x04 ∨ b = 0x0C then dcsReader b
  else (terminatorReader b).getD (firstOctetReader b)

/-- The reader of the operands, by the code octet and the format octet. -/
def operandReader (code fmt : Byte) : Option (Reader Instr) :=
  match fmt.toNat with
  | 0 => some ((operationReader code.toNat).getD (bareReader code))
  | 1 => some (firstOctetReader code)
  | 2 => some (dcsReader code)
  | 3 => some (toaReader code)
  | 4 => some (ieiReader code)
  | 5 => some (smscReader code)
  | 6 => septetReader code
  | 7 => terminatorReader code
  | _ => none

/-- The instruction at the front of an octet string and the octets after it, or why there is none.  Total. -/
def decode : Reader Instr
  | code :: fmt :: o =>
    match operandReader code fmt with
    | none => .error .noSuchOperation
    | some r =>
      match r o with
      | .error e => .error e
      | .ok (i, rest) => if i.wf then .ok (i, rest) else .error .illTyped
  | _ => .error .truncated

/-- The code octet and the format octet. -/
def header (code fmt : Byte) : Octets := [code, fmt]

/-- The octets of an instruction. -/
def encode : Instr → Octets
  | .gsm7Enc t => header 0x10 0 ++ cText.write t
  | .gsm7Dec q => header 0x11 0 ++ cSeptets.write q
  | .pack7 q k => header 0x12 0 ++ (cPair cSeptets cFill).write (q, k)
  | .unpack7 o l k => header 0x13 0 ++ (cPair cOctets (cPair cNat cFill)).write (o, l, k)
  | .ucs2Enc t => header 0x14 0 ++ cText.write t
  | .ucs2Dec o => header 0x15 0 ++ cOctets.write o
  | .oct8 o => header 0x16 0 ++ cOctets.write o
  | .addrEnc a => header 0x20 0 ++ cOctets.write a
  | .addrEncAlnum t => header 0x21 0 ++ cText.write t
  | .addrDec a => header 0x22 0 ++ cAddress.write a
  | .addrSer a => header 0x23 0 ++ cAddress.write a
  | .addrParse o pos => header 0x24 0 ++ (cPair cOctets cNat).write (o, pos)
  | .udhEnc h => header 0x30 0 ++ cHeader.write h
  | .udhDec o pos limit => header 0x31 0 ++ (cPair cOctets (cPair cNat cNat)).write (o, pos, limit)
  | .udhConcat8 ref total sq => header 0x32 0 ++ (cPair cNat (cPair cNat cNat)).write (ref, total, sq)
  | .udhConcat16 ref total sq => header 0x33 0 ++ (cPair cNat (cPair cNat cNat)).write (ref, total, sq)
  | .udhGetconcat h => header 0x34 0 ++ cHeader.write h
  | .dcsMk a flash => header 0x40 0 ++ (cPair cAlphabet cBool).write (a, flash)
  | .dcsAlpha d => header 0x41 0 ++ cByte.write d
  | .dcsFlash d => header 0x42 0 ++ cByte.write d
  | .sctsDec o => header 0x43 0 ++ cOctets7.write o
  | .sctsEnc ts => header 0x44 0 ++ cTimestamp.write ts
  | .udBuild dcs udh body => header 0x45 0 ++ (cPair cByte (cPair (cOption cHeader) cBody)).write (dcs, udh, body)
  | .udSplit dcs udhi o pos => header 0x46 0 ++ (cPair cByte (cPair cBool (cPair cOctets cNat))).write (dcs, udhi, o, pos)
  | .tpduSerSubmit t => header 0x47 0 ++ cSubmit.write t
  | .tpduSerDeliver t => header 0x48 0 ++ cDeliver.write t
  | .tpduParse o => header 0x49 0 ++ cOctets.write o
  | .frameEnc smsc tpdu => header 0x50 0 ++ (cPair (cOption cSmsc) cOctets).write (smsc, tpdu)
  | .frameDec hex => header 0x51 0 ++ cOctets.write hex
  | .segment p dest => header 0x60 0 ++ (cPair cPayload cOctets).write (p, dest)
  | .collect t => header 0x70 0 ++ cDeliver.write t
  | .rsmCfg d => header 0x71 0 ++ (cOption cNat).write d
  | .lnParse l => header 0x80 0 ++ cLine.write l
  | .lnClassify l c => header 0x81 0 ++ (cPair cLine cOctets).write (l, c)
  | .send text => header 0x82 0 ++ cOctets.write text
  | .sendExpect text sub => header 0x83 0 ++ (cPair cOctets cOctets).write (text, sub)
  | .simpleQuery text => header 0x84 0 ++ cOctets.write text
  | .close => header 0x85 0
  | .isOpen => header 0x86 0
  | .lnCfg v => header 0x87 0 ++ cLineConfig.write v
  | .expire => header 0xE0 0
  | .lnRx b => header 0xE1 0 ++ cByte.write b
  | .lnTimeout => header 0xE2 0
  | .lnEos => header 0xE3 0
  | .foSubmitVpAbsent rp udhi srr rd rest => header (foSubmit rd 0b00 srr udhi rp) 1 ++ cOctets.write rest
  | .foSubmitVpRelative rp udhi srr rd rest => header (foSubmit rd 0b10 srr udhi rp) 1 ++ cOctets.write rest
  | .foSubmitVpEnhanced rp udhi srr rd rest => header (foSubmit rd 0b01 srr udhi rp) 1 ++ cOctets.write rest
  | .foSubmitVpAbsolute rp udhi srr rd rest => header (foSubmit rd 0b11 srr udhi rp) 1 ++ cOctets.write rest
  | .foDeliver rp udhi sri x lp mms rest => header (foDeliver mms lp x sri udhi rp) 1 ++ cOctets.write rest
  | .foStatusReport x rest => header (foOther x 0b10) 1 ++ cOctets.write rest
  | .foReservedMti x rest => header (foOther x 0b11) 1 ++ cOctets.write rest
  | .dcsGsm7 hi flash lo udhi ud => header (dcsOctet hi flash 0b00 lo) 2 ++ cFlagged.write (udhi, ud)
  | .dcs8bit hi flash lo udhi ud => header (dcsOctet hi flash 0b01 lo) 2 ++ cFlagged.write (udhi, ud)
  | .dcsUcs2 hi flash lo udhi ud => header (dcsOctet hi flash 0b10 lo) 2 ++ cFlagged.write (udhi, ud)
  | .dcsReserved hi flash lo udhi ud => header (dcsOctet hi flash 0b11 lo) 2 ++ cFlagged.write (udhi, ud)
  | .toa ton npi len val => header (toaOctet ton npi) 3 ++ cField.write (len, val)
  | .toaInternational len val => header 0x91 3 ++ cField.write (len, val)
  | .toaUnknown len val => header 0x81 3 ++ cField.write (len, val)
  | .toaAlphanumeric len val => header 0xD0 3 ++ cField.write (len, val)
  | .toaBit7Clear x len val => header (BitVec.ofNat 8 x.toNat) 3 ++ cField.write (len, val)
  | .ieiConcat8 ied => header 0x00 4 ++ cOctets.write ied
  | .ieiConcat16 ied => header 0x08 4 ++ cOctets.write ied
  | .ieiOther iei ied => header iei 4 ++ cOctets.write ied
  | .smscNone rest => header 0x00 5 ++ cOctets.write rest
  | .smscPresent l rest => header l 5 ++ cOctets.write rest
  | .gsm7Escape rest => header 0x1B 6 ++ cSeptets.write rest
  | .gsm7Default q rest => header (BitVec.ofNat 8 q.toNat) 6 ++ cSeptets.write rest
  | .frameCommit hex => header 0x1A 7 ++ cOctets.write hex
  | .frameAbort hex => header 0x1B 7 ++ cOctets.write hex
  | .lineCr => header 0x0D 7
  | .lineLf => header 0x0A 7

/-- The octets of an instruction of `nbits` bits (in whole octets) whose bits are `w`, bit 0 the least significant bit of
the first octet, followed by operand octets of zeros: more of them than any row's operands take when all are 0. -/
def wordOctets (nbits w : Nat) : Octets := octetsOfStream (ceilDiv nbits 8) w ++ List.replicate 40 0

/-- The instruction the decoder reads from a table word. -/
def decodeTableWord (nbits w : Nat) : Option Instr :=
  match decode (wordOctets nbits w) with
  | .ok (i, _) => some i
  | .error _ => none

end Sys2Proof
end

