-- ==== Sys2Proof/Config.lean ====
section
/-! DEFINITION. What an implementation of the block fixes: the fixed parameters of spec/00_scope.md R9 and the OPEN
parameters of the same table, which are an ARGUMENT of the model (`Params`): the state carries them, no step writes
them, and a statement about every state is a statement about every value of them. -/

namespace Sys2Proof.Config

/-- `CAP7_SINGLE` (R9, R221): septets of an unsegmented GSM-7 message. -/
def cap7Single : Nat := 160
/-- `CAP8_SINGLE` (R9, R221): octets of an unsegmented 8-bit or UCS-2 message. -/
def cap8Single : Nat := 140
/-- `CAP7_SEG` (R9, R221): septets of one segment of a concatenated GSM-7 message. -/
def cap7Seg : Nat := 153
/-- `CAP8_SEG` (R9, R221): octets of one segment of a concatenated 8-bit or UCS-2 message. -/
def cap8Seg : Nat := 134
/-- `UD_MAX` (R9, R183): the largest TP-UD field, in octets. -/
def udMax : Nat := 140
/-- `SEG_MAX` (R9, R226): the largest total a one-octet field can hold. -/
def segMax : Nat := 255
/-- `ADDR_MAX_DIGITS` (R9, R131). -/
def addrMaxDigits : Nat := 20
/-- `ADDR_MAX_ALNUM` (R9, R134), in septets. -/
def addrMaxAlnum : Nat := 11

/-- `STATUS_REPORT_POLICY` (R9, R196): what `TPDU_PARSE` does on TP-MTI = 10. -/
inductive StatusReportPolicy
  /-- The block gives the input no meaning (the spec's default for a model). -/
  | refuse
  /-- The block treats TP-MTI 10 like 11. -/
  | badPdu
  deriving DecidableEq, Repr

/-- Which results of a timed-out transaction carry the lines taken so far, besides that of `SEND`, which always does
(R279).  The spec's rules differ on this and no ruling of spec/90_conflicts.md names it, so it stays open
(notes/assumptions/12.md). -/
structure PartialLines where
  /-- The result of `SEND_EXPECT` (R276). -/
  expect : Bool
  /-- The result of `SIMPLE_QUERY` (R277). -/
  query : Bool
  deriving DecidableEq, Repr

/-- The OPEN parameters of R9 and the one parameter fixed at build (`RQ_CAP`, R36), with one point the
rules leave open (`timeoutLines`). -/
structure Params where
  /-- `STATUS_REPORT_POLICY` (R196). -/
  statusReport : StatusReportPolicy
  /-- `RSM_CAP` (R245): the most groups the reassembly table holds; `none` is unbounded. -/
  rsmCap : Option Nat
  /-- `LBUF_CAP` (R262): the most octets one line may hold before its terminator; `none` is unbounded. -/
  lbufCap : Option Nat
  /-- `RQ_CAP` (R36, R275): capacity of the response queue. -/
  rqCap : Nat
  /-- `REFCNT_RESET` (R9, R37): the value of `REFCNT` after reset. -/
  refcntReset : Byte
  /-- One second in the unit of `NOW` (R24: the unit is not specified), for the default of `CMD_TIMEOUT` (R36). -/
  second : Nat
  /-- Which timed-out operations besides `SEND` answer the lines taken so far (R22, R276, R277, R279). -/
  timeoutLines : PartialLines
  deriving DecidableEq, Repr

/-- The values the parameters have in `State.reset`.  Unbounded tables and `RQ_CAP` = 100 are the spec's defaults
(R9).  DESIGN CHOICE, unsafe (notes/assumptions/1.md): `refcntReset` is 0 although R331 says any value.
DESIGN CHOICE, unsafe (notes/assumptions/2.md): `statusReport` is `badPdu`, the one of the spec's two choices that
gives the input an effect.  DESIGN CHOICE (notes/assumptions/3.md): one second is 1 in the unit of `NOW`.
DESIGN CHOICE, unsafe (notes/assumptions/12.md): `timeoutLines` is true for both operations, as R276, R277 and R311 pass
the result of `SEND` on. -/
def defaults : Params :=
  { statusReport := .badPdu, rsmCap := none, lbufCap := none, rqCap := 100, refcntReset := 0, second := 1,
    timeoutLines := { expect := true, query := true } }

end Sys2Proof.Config
end

