-- ==== Sys2Proof/Machine/State.lean ====
section
/-! DEFINITION. The state of the block as plain data (spec/10_state.md R20, R33, R36 to R42; every field with its rule
in INVENTORY.md), what crosses its ports (R22, R23, R25, R300), the reasons a step can stop, and `State.reset`. -/

namespace Sys2Proof.Machine

/-- The eleven error kinds (R300), in the order of their codes 1 to 11. -/
inductive ErrorKind
  | closed
  | timeout
  | incompleteWrite
  | ioError
  | unexpectedResponse
  | badPdu
  | badUdh
  | badAddress
  | unsupportedAlphabet
  | duplicateSegment
  | reassemblyTimeout
  deriving DecidableEq, Repr

/-- `Final | Urc | Intermediate` (R267). -/
inductive LineClass
  | final
  | urc
  | intermediate
  deriving DecidableEq, Repr

/-- The result values of the operations (the result column of R90). -/
inductive Value
  | none
  | bit (b : Bool)
  | octet (b : Byte)
  | octets (o : Octets)
  | septets (q : Septets)
  | text (t : Text)
  | ascii (a : Ascii)
  | address (a : Address)
  | addressAt (a : Address) (pos : Nat)
  | element (e : IE)
  | elementsAt (h : List IE) (pos : Nat)
  | concat (c : Option Concat)
  | elementRead (e : IE) (c : Option Concat)
  | alphabet (a : Option Alphabet)
  | timestamp (ts : Timestamp)
  | userData (udl : Nat) (ud : Octets)
  | split (udh : Option (List IE)) (body : Body) (pos : Nat)
  | dcsRead (a : Option Alphabet) (flash : Bool) (udh : Option (List IE)) (body : Body) (pos : Nat)
  | tpdu (t : Tpdu)
  | frame (n : Nat) (hex : Ascii)
  | unframed (smsc : Option Smsc) (tpdu : Octets)
  | submits (l : List Submit)
  | delivers (l : List Deliver)
  | parsed (label : Ascii) (params : List Ascii)
  | lineClass (c : LineClass)
  | lines (l : List Line)
  | line (l : Line)
  deriving DecidableEq, Repr

/-- A result on the result port (R22): a value, an error kind, or an error kind with a value beside it (`Timeout` with the
lines taken so far, R279; notes/assumptions/12.md). -/
inductive Result
  | ok (v : Value)
  | err (k : ErrorKind)
  | errWith (k : ErrorKind) (partialLines : List Line)
  deriving DecidableEq, Repr

/-- An event on the event port (R23, R312).  `EV_EXPIRED` carries its error kind, `ReassemblyTimeout` (R23, R307).  The
text of `EV_LOG` is not specified (R313) and is not carried. -/
inductive Event
  | expired (kind : ErrorKind) (w : RefWidth) (ref : BitVec 16) (total : Byte) (received : Nat)
  | urc (label : Ascii) (params : List Ascii)
  | log
  deriving DecidableEq, Repr

/-- The serial port's answer to one write (R25, R273): how many octets it took, or a failure. -/
inductive TxAnswer
  | took (n : Nat)
  | failed
  deriving DecidableEq, Repr

/-- One thing that crossed a port of the block: the result of the operation with that code of R90, an event, a write
offered to the serial port with the port's answer, or `PORT_CLOSE`. -/
inductive Output
  | result (op : Byte) (r : Result)
  | event (e : Event)
  | tx (offered : Octets) (answer : TxAnswer)
  | portClose
  deriving DecidableEq, Repr

/-- `Key = {oa, w, ref, total}` (R33). -/
structure Key where
  oa : Address
  w : RefWidth
  ref : BitVec 16
  total : Byte
  deriving DecidableEq, Repr

/-- `Group = {segs, created}` (R33); `segs` maps a sequence number to its segment, in rising order. -/
structure Group where
  segs : List (Nat × Deliver)
  created : Nat
  deriving DecidableEq, Repr

/-- `LOCK` (R40). -/
inductive Lock
  | free
  | held
  deriving DecidableEq, Repr

/-- `DSTATE` (R40, R270). -/
inductive DState
  | idle
  | sending
  | awaiting
  | closed
  deriving DecidableEq, Repr

/-- Which operation a transaction belongs to and what it does with the returned lines (R272, R276, R277). -/
inductive SendKind
  | send
  | expect (sub : Ascii)
  | query
  deriving DecidableEq, Repr

/-- A `SEND` that waits for the lock (R272, suspension point (a)). -/
structure Request where
  kind : SendKind
  text : Ascii
  deriving DecidableEq, Repr

/-- The private variables of an open `SEND` transaction (R41, R270): `ACC` and `DL`. -/
structure Txn where
  kind : SendKind
  acc : List Line
  dl : Nat
  deriving DecidableEq, Repr

/-- What a step does: the next presented instruction, or one of the steps that no row of the table names: the take
step of R274, the resumption of a waiting `SEND` (R272), a read error of the port (R282). -/
inductive Turn
  | instr
  | take
  | resume
  | readError
  deriving DecidableEq, Repr

/-- The state of the block.  Fields from `port` on are the model's own: the ports' inputs and outputs as plain data. -/
structure State where
  /-- `REFCNT` (R37). -/
  refcnt : Byte
  /-- `RSM` (R38), strictly rising by `keyCode`. -/
  rsm : List (Key × Group)
  /-- `RSM_DEADLINE` (R36). -/
  rsmDeadline : Option Nat
  /-- `CLOSED` (R40). -/
  closed : Bool
  /-- `CUR` (R40). -/
  cur : Ascii
  /-- `RQ` (R40), oldest first. -/
  rq : List Line
  /-- `LOCK` (R40). -/
  lock : Lock
  /-- `DSTATE` (R40). -/
  dstate : DState
  /-- `LBUF` (R40). -/
  lbuf : Octets
  /-- `FINALS` (R36). -/
  finals : List Ascii
  /-- `URCS` (R36). -/
  urcs : List Ascii
  /-- `CMDSET` (R36). -/
  cmdset : List (Ascii × Ascii)
  /-- `CMD_TIMEOUT` (R36). -/
  cmdTimeout : Nat
  /-- The open transaction with its `ACC` and `DL`, if there is one (R41, R270). -/
  txn : Option Txn
  /-- The `SEND`s waiting for the lock, in issue order (R270, R278). -/
  waiters : List Request
  /-- The parameters of R9; no step writes them. -/
  params : Config.Params
  /-- `NOW` (R24). -/
  now : Nat
  /-- The encoded commands and agent steps presented and not yet taken, oldest first. -/
  port : Octets
  /-- The coming turns; when there is none, the next presented instruction is taken. -/
  turns : List Turn
  /-- How far `NOW` advances before each coming step; when there is none, not at all. -/
  nowIn : List Nat
  /-- The serial port's answers to the coming writes; when there is none, it takes all. -/
  txIn : List TxAnswer
  /-- Which of several overdue groups the coming `EXPIRE` steps take; when there is none, the first. -/
  picks : List Nat
  /-- The end of `RX` was reached (R282). -/
  rxEnded : Bool
  /-- What crossed the result, event and serial ports, oldest first. -/
  out : List Output
  deriving DecidableEq, Repr

/-- No fault stops the block: it has no trap (R314), an operation that fails answers an error kind and the block goes
on (R306). -/
inductive Fault
  deriving DecidableEq, Repr

/-- Why the model gives a step no meaning. -/
inductive Refusal
  /-- An instruction whose meaning is not written.  Raised by `exec` alone.  Safe. -/
  | notModelled (mnemonic : String)
  /-- The octets on the command port are the code of no row of the table (R86: "cannot be presented").  Raised by
  `step`.  Safe. -/
  | noSuchOperation
  /-- The octets on the command port end inside an instruction.  Raised by `step`.  Safe. -/
  | truncatedCommand
  /-- An operand is not of its type (R43, U14: "refuse").  Raised by `step`.  Safe. -/
  | illTyped
  /-- TP-MTI = 10 under `STATUS_REPORT_POLICY` = `refuse` (R196: "the model gives the input no meaning").  Raised by
  `TPDU_PARSE` and the first-octet rows.  Safe. -/
  | statusReport
  /-- A new group when `RSM_CAP` is finite and reached (R245, U6: "refuse").  Raised by `COLLECT`.  Safe. -/
  | reassemblyTableFull
  /-- An octet more than a finite `LBUF_CAP` (R262, U8: "refuse").  Raised by `LN_RX`.  Safe. -/
  | lineBufferFull
  deriving DecidableEq, Repr

/-- The default of `FINALS` (R268), in its order. -/
def defaultFinals : List Ascii :=
  ["OK", "ERROR", "NO CARRIER", "NO ANSWER", "NO DIALTONE", "BUSY", "CONNECT", "+CME ERROR", "+CMS ERROR",
    "+CIS ERROR", ">"].map ascii

/-- The default of `URCS` (R269): 36 prefixes. -/
def defaultUrcs : List Ascii :=
  (["RING", "+CRING", "+CLIP", "+CLCC", "+CCWA", "+COLP", "+CSSI", "+CSSU", "NO CARRIER", "BUSY", "NO ANSWER",
      "NO DIALTONE"] ++
    ["+CMTI", "+CMT", "+CDS", "+CBM", "+CNMA", "+CREG", "+CGREG", "+CEREG", "+C5GREG", "+CIREG", "+COPS", "+CSQ"] ++
    ["+CTZV", "+CTZU", "+CGEV", "+CIEV", "+CPIN", "+CUSD", "+RDY", "+BOOT", "+CIPOPEN", "+CIPCLOSE", "+CIPRXGOT",
      "+CIPSEND"]).map ascii

/-- The three entries of `CMDSET` the source names (R36). -/
def defaultCmdset : List (Ascii × Ascii) :=
  [(ascii "Test", ascii "AT"), (ascii "SignalQuality", ascii "AT+CSQ"), (ascii "SendSms", ascii "AT+CMGS")]

/-- The block right after reset, for given parameters (R42, R331). -/
def State.resetWith (p : Config.Params) : State :=
  { refcnt := p.refcntReset
    rsm := []
    rsmDeadline := none
    closed := false
    cur := []
    rq := []
    lock := .free
    dstate := .idle
    lbuf := []
    finals := defaultFinals
    urcs := defaultUrcs
    cmdset := defaultCmdset
    cmdTimeout := p.second
    txn := none
    waiters := []
    params := p
    now := 0
    port := []
    turns := []
    nowIn := []
    txIn := []
    picks := []
    rxEnded := false
    out := [] }

/-- The block right after reset (R42, R331), with the parameters of `Config.defaults`.  No rule of the spec fixes
`REFCNT` here (R331): a statement about reset is made of `resetWith p` for every `p`. -/
def State.reset : State := State.resetWith Config.defaults

end Sys2Proof.Machine
end

