-- ==== Sys2Proof/Machine/Ops.lean ====
section
/-! DEFINITION. The named operations over the state that the meanings share: what crosses the ports, raising an error
(the block's one kind of exception, spec/60_exceptions.md R306, R314), the passing of time, the finite maps of
`RSM` and of a group, and the take-over of the schedule's inputs. -/

namespace Sys2Proof.Machine

/-- An operation's outcome inside the block: its value or one error kind (R22, `raise K` of R13). -/
abbrev Answer (α : Type) := Except ErrorKind α

/-- The outcome of one step of the block. -/
abbrev Step := Host.Outcome State Fault Refusal

/-- Something crosses a port. -/
def State.emit (o : Output) (s : State) : State := { s with out := s.out ++ [o] }

/-- The result of operation `op` goes out on the result port (R22). -/
def State.answer (op : Byte) (r : Result) (s : State) : State := s.emit (.result op r)

/-- TAKING AN EXCEPTION.  The block has no trap (R314): an operation that raises `k` ends at once with the error result
`k` and has written nothing (R306); the block is then ready for the next command, so there is no return either. -/
def State.raise (op : Byte) (k : ErrorKind) (s : State) : State := s.answer op (.err k)

/-- An event goes out on the event port (R23). -/
def State.raiseEvent (e : Event) (s : State) : State := s.emit (.event e)

/-- A pure operation ends: with its value on the result port, or by raising. -/
def reply (op : Byte) (r : Answer Value) (s : State) : Step :=
  match r with
  | .ok v => .next (s.answer op (.ok v))
  | .error k => .next (s.raise op k)

/-- Time passes before a step (R24): `NOW` never decreases. -/
def State.tick (s : State) : State := { s with now := s.now + s.nowIn.headD 0, nowIn := s.nowIn.tail }

/-- The serial port's answer to a write of `w` (R25, R273). -/
def State.txAnswer (w : Octets) (s : State) : TxAnswer := s.txIn.headD (.took w.length)

/-- Bits of a concatenation reference width, as a number for the code of a key. -/
def widthCode : RefWidth → Nat
  | .w8 => 0
  | .w16 => 1

/-- A number for an octet string, different for different strings. -/
def octetsCode : Octets → Nat
  | [] => 0
  | b :: r => b.toNat + 1 + 257 * octetsCode r

/-- A number for a key, different for different keys; it orders the table's canonical form and nothing else. -/
def keyCode (k : Key) : Nat :=
  k.total.toNat + 256 * (k.ref.toNat + 65536 * (widthCode k.w + 2 *
    (k.oa.toa.toNat + 256 * (k.oa.len.toNat + 256 * octetsCode k.oa.val))))

/-- A finite map's value at `k`, the map a list whose keys rise strictly by `code`. -/
def FMap.get (code : κ → Nat) (k : κ) : List (κ × α) → Option α
  | [] => none
  | (k', a) :: r => if code k' = code k then some a else FMap.get code k r

/-- The map with `a` at `k`. -/
def FMap.put (code : κ → Nat) (k : κ) (a : α) : List (κ × α) → List (κ × α)
  | [] => [(k, a)]
  | (k', a') :: r =>
    if code k < code k' then (k, a) :: (k', a') :: r
    else if code k = code k' then (k, a) :: r
    else (k', a') :: FMap.put code k a r

/-- The map without `k`. -/
def FMap.erase (code : κ → Nat) (k : κ) (m : List (κ × α)) : List (κ × α) :=
  m.filter fun e => code e.1 != code k

/-- The canonical form: the codes of the keys rise strictly. -/
abbrev FMap.Rising (code : κ → Nat) (m : List (κ × α)) : Prop := m.Pairwise fun a b => code a.1 < code b.1

/-- `x[RSM][key]` (R38). -/
def State.group (s : State) (k : Key) : Option Group := FMap.get keyCode k s.rsm

/-- The segment a group holds at `seq` (R33). -/
def Group.seg (g : Group) (seq : Nat) : Option Deliver := FMap.get id seq g.segs

/-- `g.segs[seq] <- t` (R242). -/
def Group.put (g : Group) (seq : Nat) (t : Deliver) : Group := { g with segs := FMap.put id seq t g.segs }

end Sys2Proof.Machine
end

