-- ==== Sys2Proof/Machine/Alphabet.lean ====
section
/-! DEFINITION. The alphabet codec C1 (spec/40_alphabet.md): the GSM-7 tables, septet packing, UCS-2, 8-bit, and the
meanings of `GSM7_ENC`, `GSM7_DEC`, `PACK7`, `UNPACK7`, `UCS2_ENC`, `UCS2_DEC`, `OCT8`. -/

namespace Sys2Proof.Machine

/-- `DEFAULT` (R101), as pairs of a septet and its Unicode scalar; septet 0x1B has no entry. -/
def defaultTable : List (Nat × Nat) :=
  [(0x00, 0x0040), (0x01, 0x00A3), (0x02, 0x0024), (0x03, 0x00A5),
    (0x04, 0x00E8), (0x05, 0x00E9), (0x06, 0x00F9), (0x07, 0x00EC),
    (0x08, 0x00F2), (0x09, 0x00C7), (0x0A, 0x000A), (0x0B, 0x00D8),
    (0x0C, 0x00F8), (0x0D, 0x000D), (0x0E, 0x00C5), (0x0F, 0x00E5)] ++
  [(0x10, 0x0394), (0x11, 0x005F), (0x12, 0x03A6), (0x13, 0x0393),
    (0x14, 0x039B), (0x15, 0x03A9), (0x16, 0x03A0), (0x17, 0x03A8),
    (0x18, 0x03A3), (0x19, 0x0398), (0x1A, 0x039E),
    (0x1C, 0x00C6), (0x1D, 0x00E6), (0x1E, 0x00DF), (0x1F, 0x00C9)] ++
  [(0x20, 0x0020), (0x21, 0x0021), (0x22, 0x0022), (0x23, 0x0023),
    (0x24, 0x00A4), (0x25, 0x0025), (0x26, 0x0026), (0x27, 0x0027),
    (0x28, 0x0028), (0x29, 0x0029), (0x2A, 0x002A), (0x2B, 0x002B),
    (0x2C, 0x002C), (0x2D, 0x002D), (0x2E, 0x002E), (0x2F, 0x002F)] ++
  [(0x30, 0x0030), (0x31, 0x0031), (0x32, 0x0032), (0x33, 0x0033),
    (0x34, 0x0034), (0x35, 0x0035), (0x36, 0x0036), (0x37, 0x0037),
    (0x38, 0x0038), (0x39, 0x0039), (0x3A, 0x003A), (0x3B, 0x003B),
    (0x3C, 0x003C), (0x3D, 0x003D), (0x3E, 0x003E), (0x3F, 0x003F)] ++
  [(0x40, 0x00A1), (0x41, 0x0041), (0x42, 0x0042), (0x43, 0x0043),
    (0x44, 0x0044), (0x45, 0x0045), (0x46, 0x0046), (0x47, 0x0047),
    (0x48, 0x0048), (0x49, 0x0049), (0x4A, 0x004A), (0x4B, 0x004B),
    (0x4C, 0x004C), (0x4D, 0x004D), (0x4E, 0x004E), (0x4F, 0x004F)] ++
  [(0x50, 0x0050), (0x51, 0x0051), (0x52, 0x0052), (0x53, 0x0053),
    (0x54, 0x0054), (0x55, 0x0055), (0x56, 0x0056), (0x57, 0x0057),
    (0x58, 0x0058), (0x59, 0x0059), (0x5A, 0x005A), (0x5B, 0x00C4),
    (0x5C, 0x00D6), (0x5D, 0x00D1), (0x5E, 0x00DC), (0x5F, 0x00A7)] ++
  [(0x60, 0x00BF), (0x61, 0x0061), (0x62, 0x0062), (0x63, 0x0063),
    (0x64, 0x0064), (0x65, 0x0065), (0x66, 0x0066), (0x67, 0x0067),
    (0x68, 0x0068), (0x69, 0x0069), (0x6A, 0x006A), (0x6B, 0x006B),
    (0x6C, 0x006C), (0x6D, 0x006D), (0x6E, 0x006E), (0x6F, 0x006F)] ++
  [(0x70, 0x0070), (0x71, 0x0071), (0x72, 0x0072), (0x73, 0x0073),
    (0x74, 0x0074), (0x75, 0x0075), (0x76, 0x0076), (0x77, 0x0077),
    (0x78, 0x0078), (0x79, 0x0079), (0x7A, 0x007A), (0x7B, 0x00E4),
    (0x7C, 0x00F6), (0x7D, 0x00F1), (0x7E, 0x00FC), (0x7F, 0x00E0)]

/-- `EXT` (R102), as pairs of the code after 0x1B and its Unicode scalar. -/
def extTable : List (Nat × Nat) :=
  [(0x0A, 0x000C), (0x14, 0x005E), (0x28, 0x007B), (0x29, 0x007D), (0x2F, 0x005C), (0x3C, 0x005B), (0x3D, 0x007E),
    (0x3E, 0x005D), (0x40, 0x007C), (0x65, 0x20AC)]

/-- The escape septet (R102). -/
def esc : Septet := 0x1B

/-- The character a table has at a septet. -/
def charAt (table : List (Nat × Nat)) (s : Septet) : Option Char :=
  (table.find? fun e => e.1 == s.toNat).map fun e => Char.ofNat e.2

/-- The septet at which a table has a character: `DEFAULT_INV`, `EXT_INV` (R101, R102). -/
def septetOf (table : List (Nat × Nat)) (c : Char) : Option Septet :=
  (table.find? fun e => e.2 == c.toNat).map fun e => BitVec.ofNat 7 e.1

/-- One character of `GSM7_ENC` (R104): default table first, then extension. -/
def gsm7EncChar (c : Char) : Answer Septets :=
  match septetOf defaultTable c with
  | some s => .ok [s]
  | none =>
    match septetOf extTable c with
    | some s => .ok [esc, s]
    | none => .error .unsupportedAlphabet

/-- `GSM7_ENC` (R104). -/
def gsm7Enc : Text → Answer Septets
  | [] => .ok []
  | c :: r => do
    let q ← gsm7EncChar c
    let qs ← gsm7Enc r
    .ok (q ++ qs)

/-- The character at a septet other than the escape; every such septet has one (R101). -/
def defaultChar (s : Septet) : Answer Char :=
  match charAt defaultTable s with
  | some c => .ok c
  | none => .error .unsupportedAlphabet

/-- The character of an escape pair (R105). -/
def extChar (s : Septet) : Answer Char :=
  match charAt extTable s with
  | some c => .ok c
  | none => .error .unsupportedAlphabet

/-- `GSM7_DEC` (R105). -/
def gsm7Dec : Septets → Answer Text
  | [] => .ok []
  | [s] => do
    let c ← if s = esc then .error .unsupportedAlphabet else defaultChar s
    .ok [c]
  | s :: x :: r =>
    if s = esc then do
      let c ← extChar x
      let t ← gsm7Dec r
      .ok (c :: t)
    else do
      let c ← defaultChar s
      let t ← gsm7Dec (x :: r)
      .ok (c :: t)

/-- `PACK7(s, k)` (R108) in its bit-stream form: `ceil(B / 8)` octets of `N`, with `B = k + 7L`.  The accumulator form
of the same rule is `pack7Acc`. -/
def pack7 (q : Septets) (k : Nat) : Octets :=
  octetsOfStream (ceilDiv (k + 7 * q.length) 8) (2 ^ k * streamOfSeptets q)

/-- The inner `while n >= 8` of R108's accumulator form: at most `fuel` octets are flushed. -/
def flushAcc : Nat → Nat → Nat → Octets × Nat × Nat
  | 0, acc, n => ([], acc, n)
  | fuel + 1, acc, n =>
    if 8 ≤ n then
      let (o, acc', n') := flushAcc fuel (acc / 256) (n - 8)
      (BitVec.ofNat 8 acc :: o, acc', n')
    else ([], acc, n)

/-- The loop of R108's accumulator form, from accumulator `acc` and bit count `n` (R41). -/
def packLoop : Septets → Nat → Nat → Octets
  | [], acc, n => if 0 < n then [BitVec.ofNat 8 acc] else []
  | s :: r, acc, n =>
    let (o, acc', n') := flushAcc 2 (acc ||| s.toNat <<< n) (n + 7)
    o ++ packLoop r acc' n'

/-- `PACK7` as R108's pseudocode writes it, with the accumulator and the bit count of R41. -/
def pack7Acc (q : Septets) (k : Nat) : Octets := packLoop q 0 k

/-- `UNPACK7(o, L, k)` (R109). -/
def unpack7 (o : Octets) (l k : Nat) : Answer Septets :=
  if o.length * 8 < k + 7 * l then .error .badPdu
  else .ok (septetsOfStream l (streamOfOctets o / 2 ^ k))

/-- A 16-bit code unit, big-endian (R51). -/
def unitOctets (u : Nat) : Octets := [BitVec.ofNat 8 (u / 256), BitVec.ofNat 8 u]

/-- The UTF-16 code units of a scalar (R112). -/
def unitsOf (c : Char) : List Nat :=
  if c.toNat < 0x10000 then [c.toNat]
  else [0xD800 + (c.toNat - 0x10000) / 1024, 0xDC00 + (c.toNat - 0x10000) % 1024]

/-- `UCS2_ENC` (R112). -/
def ucs2Enc (t : Text) : Octets := t.flatMap fun c => (unitsOf c).flatMap unitOctets

/-- The code units of an octet string with an even number of octets (R85 (b)). -/
def codeUnits : Octets → List Nat
  | a :: b :: r => (a.toNat * 256 + b.toNat) :: codeUnits r
  | _ => []

/-- A high surrogate (R113). -/
def isHigh (u : Nat) : Bool := 0xD800 ≤ u && u ≤ 0xDBFF

/-- A low surrogate (R113). -/
def isLow (u : Nat) : Bool := 0xDC00 ≤ u && u ≤ 0xDFFF

/-- The loop of `UCS2_DEC` over the code units (R113). -/
def textOfUnits : List Nat → Answer Text
  | [] => .ok []
  | [u] => if isHigh u || isLow u then .error .badPdu else .ok [Char.ofNat u]
  | u :: v :: r =>
    if isHigh u then
      if isLow v then do
        let t ← textOfUnits r
        .ok (Char.ofNat (0x10000 + (u - 0xD800) * 1024 + (v - 0xDC00)) :: t)
      else .error .badPdu
    else if isLow u then .error .badPdu
    else do
      let t ← textOfUnits (v :: r)
      .ok (Char.ofNat u :: t)

/-- `UCS2_DEC` (R113). -/
def ucs2Dec (o : Octets) : Answer Text :=
  if o.length % 2 = 1 then .error .badPdu else textOfUnits (codeUnits o)

/-- `GSM7_ENC` (R104). -/
def execGsm7Enc (t : Text) (s : State) : Step := reply 0x10 ((gsm7Enc t).map .septets) s

/-- `GSM7_DEC` (R105). -/
def execGsm7Dec (q : Septets) (s : State) : Step := reply 0x11 ((gsm7Dec q).map .text) s

/-- `PACK7` (R108). -/
def execPack7 (q : Septets) (k : Fin 7) (s : State) : Step := reply 0x12 (.ok (.octets (pack7 q k))) s

/-- `UNPACK7` (R109). -/
def execUnpack7 (o : Octets) (l : Nat) (k : Fin 7) (s : State) : Step :=
  reply 0x13 ((unpack7 o l k).map .septets) s

/-- `UCS2_ENC` (R112). -/
def execUcs2Enc (t : Text) (s : State) : Step := reply 0x14 (.ok (.octets (ucs2Enc t))) s

/-- `UCS2_DEC` (R113). -/
def execUcs2Dec (o : Octets) (s : State) : Step := reply 0x15 ((ucs2Dec o).map .text) s

/-- `OCT8` (R115): the identity. -/
def execOct8 (o : Octets) (s : State) : Step := reply 0x16 (.ok (.octets o)) s

end Sys2Proof.Machine
end

