-- ==== Sys2Proof/Machine/AddressCodec.lean ====
section
/-! DEFINITION. The address codec C2 (spec/41_address.md) and the meanings of `ADDR_ENC`, `ADDR_ENC_ALNUM`, `ADDR_DEC`,
`ADDR_SER`, `ADDR_PARSE`. -/

namespace Sys2Proof.Machine

/-- The decimal digit an ASCII code stands for, if it is one of `0` to `9`. -/
def digitOf (c : Byte) : Option Nat := if 0x30 ≤ c.toNat ∧ c.toNat ≤ 0x39 then some (c.toNat - 0x30) else none

/-- The digits of a string, in order; every other character is dropped (R131). -/
def digitsOf (a : Ascii) : List Nat := a.filterMap digitOf

/-- Semi-octets (R53): the earlier digit in the low nibble, an odd count padded with nibble 0xF. -/
def semiOctets : List Nat → Octets
  | [] => []
  | [d] => [nibbles 0xF d]
  | d :: e :: r => nibbles e d :: semiOctets r

/-- The nibbles of an octet string, low nibble first (R53, R136). -/
def nibblesOf (o : Octets) : List Nat := o.flatMap fun b => [lowNibble b, highNibble b]

/-- `'+'`. -/
def plus : Byte := 0x2B

/-- `ADDR_ENC` (R131). -/
def addrEnc (a : Ascii) : Answer Address :=
  let d := digitsOf a
  if Config.addrMaxDigits < d.length then .error .badAddress
  else
    .ok { len := BitVec.ofNat 8 d.length, toa := if a.head? = some plus then 0x91 else 0x81, val := semiOctets d }

/-- `ADDR_ENC_ALNUM` (R134). -/
def addrEncAlnum (t : Text) : Answer Address := do
  let q ← gsm7Enc t
  if Config.addrMaxAlnum < q.length then .error .badAddress
  else .ok { len := BitVec.ofNat 8 (ceilDiv (7 * q.length) 4), toa := 0xD0, val := pack7 q 0 }

/-- The septet count of an alphanumeric address (R135). -/
def alnumSeptets (len : Byte) : Nat := 4 * len.toNat / 7

/-- The numeric case of `ADDR_DEC` (R136), without the `+`. -/
def numericDigits (a : Address) : Answer Ascii :=
  let nib := nibblesOf a.val
  if a.len.toNat % 2 = 1 ∧ nib[a.len.toNat]? ≠ some 0xF then .error .badAddress
  else if (nib.take a.len.toNat).any (9 < ·) then .error .badAddress
  else .ok ((nib.take a.len.toNat).map fun d => BitVec.ofNat 8 (0x30 + d))

/-- `ADDR_DEC` (R136): a text for TON 101, an ASCII string for every other TON, with `+` for TON 001. -/
def addrDec (a : Address) : Answer Value :=
  if tonOf a.toa = 0b101 then do
    let q ← unpack7 a.val (alnumSeptets a.len) 0
    let t ← gsm7Dec q
    .ok (.text t)
  else do
    let d ← numericDigits a
    .ok (.ascii (if tonOf a.toa = 0b001 then plus :: d else d))

/-- `ADDR_SER` (R138). -/
def addrSer (a : Address) : Octets := [a.len, a.toa] ++ a.val

/-- `ADDR_PARSE(IN, pos)` (R139). -/
def addrParse (o : Octets) (pos : Nat) : Answer (Address × Nat) :=
  if o.length < pos + 2 then .error .badPdu
  else
    let len := octetAt o pos
    let toa := octetAt o (pos + 1)
    let m := ceilDiv len.toNat 2
    if bitOf toa 7 = false then .error .badAddress
    else if o.length < pos + 2 + m then .error .badPdu
    else .ok ({ len := len, toa := toa, val := memRead o (pos + 2) m }, pos + 2 + m)

/-- `ADDR_ENC` (R131). -/
def execAddrEnc (a : Ascii) (s : State) : Step := reply 0x20 ((addrEnc a).map .address) s

/-- `ADDR_ENC_ALNUM` (R134). -/
def execAddrEncAlnum (t : Text) (s : State) : Step := reply 0x21 ((addrEncAlnum t).map .address) s

/-- `ADDR_DEC` (R136). -/
def execAddrDec (a : Address) (s : State) : Step := reply 0x22 (addrDec a) s

/-- `ADDR_SER` (R138). -/
def execAddrSer (a : Address) (s : State) : Step := reply 0x23 (.ok (.octets (addrSer a))) s

/-- `ADDR_PARSE` (R139). -/
def execAddrParse (o : Octets) (pos : Nat) (s : State) : Step :=
  reply 0x24 ((addrParse o pos).map fun r => .addressAt r.1 r.2) s

end Sys2Proof.Machine
end

