-- ==== Sys2Proof/Machine/Frame.lean ====
section
/-! DEFINITION. The PDU-mode frame C10 (spec/44_frame.md) and the meanings of `FRAME_ENC` and `FRAME_DEC`; the command
text that announces a frame (R214). -/

namespace Sys2Proof.Machine

/-- `HEXDIGIT(v)` (R212): upper case. -/
def hexDigit (v : Nat) : Byte := BitVec.ofNat 8 (if v < 10 then 0x30 + v else 0x41 + v - 10)

/-- An octet string as hex text, the high nibble first (R55). -/
def hexText (o : Octets) : Ascii := o.flatMap fun b => [hexDigit (highNibble b), hexDigit (lowNibble b)]

/-- The value of a hex digit, upper or lower case (R213). -/
def hexValue (c : Byte) : Option Nat :=
  let v := c.toNat
  if 0x30 ≤ v ∧ v ≤ 0x39 then some (v - 0x30)
  else if 0x41 ≤ v ∧ v ≤ 0x46 then some (v - 0x41 + 10)
  else if 0x61 ≤ v ∧ v ≤ 0x66 then some (v - 0x61 + 10)
  else none

/-- Hex pairs to octets (R85 (i)): `BadPdu` on an odd count or a character that is not a hex digit (R213). -/
def hexOctets : Ascii → Answer Octets
  | [] => .ok []
  | [_] => .error .badPdu
  | c :: d :: r =>
    match hexValue c, hexValue d with
    | some a, some b => do
      let o ← hexOctets r
      .ok (nibbles a b :: o)
    | _, _ => .error .badPdu

/-- The SMSC prefix (R84, R211, R212). -/
def smscPrefix : Option Smsc → Octets
  | none => [0x00]
  | some m => [BitVec.ofNat 8 (1 + m.val.length), m.toa] ++ m.val

/-- `FRAME_ENC` (R212): the TPDU's octet count and the hex text. -/
def frameEnc (smsc : Option Smsc) (tpdu : Octets) : Nat × Ascii := (tpdu.length, hexText (smscPrefix smsc ++ tpdu))

/-- The prefix split of `FRAME_DEC` (R213), after the hex text is octets. -/
def splitPrefix : Octets → Answer (Option Smsc × Octets)
  | [] => .error .badPdu
  | l :: r =>
    if l = 0 then .ok (none, r)
    else if r.length < l.toNat then .error .badPdu
    else .ok (some { toa := octetAt r 0, val := memRead r 1 (l.toNat - 1) }, r.drop l.toNat)

/-- `FRAME_DEC` (R213). -/
def frameDec (hex : Ascii) : Answer (Option Smsc × Octets) := do
  let o ← hexOctets hex
  splitPrefix o

/-- `decimal(n)` of R214: no sign and no leading zero. -/
def decimal (n : Nat) : Ascii := (Nat.toDigits 10 n).map fun c => BitVec.ofNat 8 c.toNat

/-- The command text that announces a frame of `n` TPDU octets (R214): `CMDSET[SendSms] ++ "=" ++ decimal(n)`. -/
def frameCommand (s : State) (n : Nat) : Option Ascii :=
  (s.cmdset.lookup (ascii "SendSms")).map fun c => c ++ ascii "=" ++ decimal n

/-- `FRAME_ENC` (R212). -/
def execFrameEnc (smsc : Option Smsc) (tpdu : Octets) (s : State) : Step :=
  reply 0x50 (.ok (.frame (frameEnc smsc tpdu).1 (frameEnc smsc tpdu).2)) s

/-- `FRAME_DEC` (R213). -/
def execFrameDec (hex : Ascii) (s : State) : Step :=
  reply 0x51 ((frameDec hex).map fun r => .unframed r.1 r.2) s

end Sys2Proof.Machine
end

