-- ==== Sys2Proof/Machine/LineUnit.lean ====
section
/-! DEFINITION. The line unit C7, C8, C9 (spec/47_line_unit.md): frame detection, classifier, the command transaction,
and the meanings of `LN_PARSE` to `LN_CFG`, `LN_RX`, `LN_TIMEOUT`, `LN_EOS`; and the steps that no row of the table
names: the take step (R274), the resumption of a waiting `SEND` (R272), a read error (R282). -/

namespace Sys2Proof.Machine

/-- `UNQUOTE(v)` (R264): one matched pair of outer quotes removed. -/
def unquote (v : Ascii) : Ascii :=
  if 2 ≤ v.length ∧ v.head? = v.getLast? ∧ (v.head? = some 0x22 ∨ v.head? = some 0x27) then v.tail.dropLast else v

/-- `LN_PARSE(line)` (R264): split at the first colon. -/
def lnParse (l : Line) : Ascii × List Ascii :=
  if 0x3A ∈ l then
    let label := l.takeWhile (· != 0x3A)
    let rest := (l.dropWhile (· != 0x3A)).tail
    (trim label, (splitAt 0x2C (trim rest)).map fun p => unquote (trim p))
  else (l, [])

/-- Some non-empty token of `FINALS` begins the line (R267, R274). -/
def isFinal (finals : List Ascii) (l : Line) : Bool := finals.any fun t => !t.isEmpty && starts l t

/-- Some URC prefix begins the line, is not one of the two error prefixes, and does not collide with the current
command (R267). -/
def isUrc (urcs : List Ascii) (l : Line) (c : Ascii) : Bool :=
  urcs.any fun p =>
    !p.isEmpty && starts l p && p != ascii "+CME ERROR" && p != ascii "+CMS ERROR" && !starts c (ascii "AT" ++ p)

/-- `LN_CLASSIFY(L, C)` (R267), the tests in their order. -/
def classify (finals urcs : List Ascii) (l : Line) (c : Ascii) : LineClass :=
  if isFinal finals l then .final else if isUrc urcs l c then .urc else .intermediate

/-- `ROUTE(line)` (R263, R275). -/
def State.route (l : Line) (s : State) : State :=
  match classify s.finals s.urcs l s.cur with
  | .urc => s.raiseEvent (.urc (lnParse l).1 (lnParse l).2)
  | _ => if s.rq.length < s.params.rqCap then { s with rq := s.rq ++ [l] } else s.raiseEvent .log

/-- The reader runs: not closed and not at the end of `RX` (R262, R282). -/
def State.reading (s : State) : Bool := !s.closed && !s.rxEnded

/-- A line terminator (R261). -/
def isTerminator (b : Byte) : Bool := b == 0x0D || b == 0x0A

/-- The received line is complete (R262). -/
def State.endLine (s : State) : State :=
  let s' := { s with lbuf := [] }
  if (trim s.lbuf).isEmpty then s' else s'.route (trim s.lbuf)

/-- The next octet of `RX` is taken (R262); where the step is not enabled nothing happens. -/
def receive (b : Byte) (s : State) : Step :=
  if s.reading then
    if isTerminator b then .next s.endLine
    else if s.params.lbufCap.any (· ≤ s.lbuf.length) then .refused .lineBufferFull
    else .next { s with lbuf := s.lbuf ++ [b] }
  else .next s

/-- `TERMINATE(text)` (R271): only the last octet is looked at. -/
def terminate (text : Ascii) : Octets :=
  match text.getLast? with
  | some b => if b == 0x0D || b == 0x0A || b == 0x1A || b == 0x1B then text else text ++ [0x0D, 0x0A]
  | none => text ++ [0x0D, 0x0A]

/-- The code of R90 under which a transaction's result goes out. -/
def SendKind.op : SendKind → Byte
  | .send => 0x82
  | .expect _ => 0x83
  | .query => 0x84

/-- The result of a transaction that ended with a final line (R272, R276, R277). -/
def SendKind.result (k : SendKind) (r : List Line) : Result :=
  match k with
  | .send => .ok (.lines r)
  | .expect sub => if r.any (contains sub) then .ok .none else .err .unexpectedResponse
  | .query =>
    match r.find? fun l => !starts l (ascii "AT") with
    | some l => .ok (.line l)
    | none => .err .unexpectedResponse

/-- A `Timeout` result, with the lines taken so far or without them. -/
def timeoutResult (withLines : Bool) (r : List Line) : Result := if withLines then .errWith .timeout r else .err .timeout

/-- The result of a transaction that timed out: with the partial lines for `SEND` (R279); for the two operations defined
over it as the open parameter says (R22, R276, R277, R300, R301; notes/assumptions/12.md). -/
def SendKind.timeout (p : Config.PartialLines) (k : SendKind) (r : List Line) : Result :=
  match k with
  | .send => timeoutResult true r
  | .expect _ => timeoutResult p.expect r
  | .query => timeoutResult p.query r

/-- `END(result)` (R272), for a transaction of that kind. -/
def State.endSend (k : SendKind) (r : Result) (s : State) : State :=
  { s with cur := [], dstate := if s.closed then .closed else .idle, lock := .free, txn := none }.answer k.op r

/-- The start of a transaction up to the write (R272): the lock is taken, the queue drained, `CUR` recorded. -/
def State.beginSend (text : Ascii) (s : State) : State :=
  { s with lock := .held, rq := [], dstate := .sending, cur := text }

/-- `TX(w)` (R273): the write is offered and the port's answer taken. -/
def State.write (w : Octets) (s : State) : State :=
  { s with txIn := s.txIn.tail }.emit (.tx w (s.txAnswer w))

/-- The write is complete: the transaction waits for lines (R272). -/
def State.await (k : SendKind) (s : State) : State :=
  { s with dstate := .awaiting, txn := some { kind := k, acc := [], dl := s.now + s.cmdTimeout } }

/-- The start step of `SEND` once the lock is free (R272, R273). -/
def State.startSend (k : SendKind) (text : Ascii) (s : State) : State :=
  let w := terminate text
  let s' := (s.beginSend text).write w
  match s.txAnswer w with
  | .failed => s'.endSend k (.err .ioError)
  | .took n => if n < w.length then s'.endSend k (.err .incompleteWrite) else s'.await k

/-- `SEND` as issued (R272): `Closed` at once, or the start step, or waiting for the lock behind the `SEND`s that wait
already. -/
def issueSend (k : SendKind) (text : Ascii) (s : State) : Step :=
  if s.closed then .next (s.raise k.op .closed)
  else if s.lock = .free ∧ s.waiters = [] then .next (s.startSend k text)
  else .next { s with waiters := s.waiters ++ [{ kind := k, text := text }] }

/-- A waiting `SEND` resumes when the lock is free (R272, suspension point (a)), the longest waiting first. -/
def State.resumeSend (s : State) : State :=
  match s.waiters with
  | [] => s
  | r :: ws =>
    if s.lock = .free then
      if s.closed then { s with waiters := ws }.raise r.kind.op .closed
      else { s with waiters := ws }.startSend r.kind r.text
    else s

/-- The take step of an open `SEND` (R274): enabled in `Awaiting` with a line in `RQ`. -/
def State.takeLine (s : State) : State :=
  match s.dstate, s.txn, s.rq with
  | .awaiting, some x, l :: rest =>
    let acc := x.acc ++ [l]
    let s' := { s with rq := rest, txn := some { x with acc := acc } }
    if isFinal s.finals l then s'.endSend x.kind (x.kind.result acc) else s'
  | _, _, _ => s

/-- A read error of the port (R282): logged, nothing else; the reader resumes. -/
def State.readError (s : State) : State := if s.reading then s.raiseEvent .log else s

/-- Every waiting `SEND` returns `Closed` (R278). -/
def State.cancelWaiters (s : State) : State :=
  { s with waiters := [], out := s.out ++ s.waiters.map fun r => .result r.kind.op (.err .closed) }

/-- The open `SEND`, if there is one, ends with `Closed` (R278). -/
def State.cancelOpen (s : State) : State :=
  match s.txn with
  | some x => s.endSend x.kind (.err .closed)
  | none => s

/-- `LN_PARSE` (R264). -/
def execLnParse (l : Line) (s : State) : Step := reply 0x80 (.ok (.parsed (lnParse l).1 (lnParse l).2)) s

/-- `LN_CLASSIFY` (R267). -/
def execLnClassify (l : Line) (c : Ascii) (s : State) : Step :=
  reply 0x81 (.ok (.lineClass (classify s.finals s.urcs l c))) s

/-- `SEND` (R272). -/
def execSend (text : Ascii) (s : State) : Step := issueSend .send text s

/-- `SEND_EXPECT` (R276). -/
def execSendExpect (text sub : Ascii) (s : State) : Step := issueSend (.expect sub) text s

/-- `SIMPLE_QUERY` (R277). -/
def execSimpleQuery (text : Ascii) (s : State) : Step := issueSend .query text s

/-- `CLOSE` (R278). -/
def execClose (s : State) : Step :=
  if s.closed then .next (s.answer 0x85 (.ok .none))
  else
    let s' := ({ s with closed := true }.emit .portClose).cancelOpen.cancelWaiters
    .next ({ s' with dstate := .closed }.answer 0x85 (.ok .none))

/-- `IS_OPEN` (R280). -/
def execIsOpen (s : State) : Step := reply 0x86 (.ok (.bit !s.closed)) s

/-- `LN_CFG` (R283): the whole value is replaced. -/
def execLnCfg (v : LineConfig) (s : State) : Step :=
  let s' :=
    match v with
    | .finals l => { s with finals := l }
    | .urcs l => { s with urcs := l }
    | .cmdset m => { s with cmdset := m }
    | .cmdTimeout d => { s with cmdTimeout := d }
  .next (s'.answer 0x87 (.ok .none))

/-- `LN_RX` (R262). -/
def execLnRx (b : Byte) (s : State) : Step := receive b s

/-- `LN_TIMEOUT` (R281): enabled in `Awaiting` when `NOW >= DL`; else nothing happens. -/
def execLnTimeout (s : State) : Step :=
  match s.dstate, s.txn with
  | .awaiting, some x => if x.dl ≤ s.now then .next (s.endSend x.kind (x.kind.timeout s.params.timeoutLines x.acc)) else .next s
  | _, _ => .next s

/-- `LN_EOS` (R282): no `LN_RX` step is enabled any more; `CLOSED` is not set. -/
def execLnEos (s : State) : Step := .next { s with rxEnded := true }

end Sys2Proof.Machine
end

