-- ==== Sys2Proof/Machine/Udh.lean ====
section
/-! DEFINITION. The user-data-header codec C3 (spec/42_udh.md) and the meanings of `UDH_ENC`, `UDH_DEC`, `UDH_CONCAT8`,
`UDH_CONCAT16`, `UDH_GETCONCAT`. -/

namespace Sys2Proof.Machine

/-- `UDHL(h)` (R151): the octets of the header after the UDHL octet. -/
def udhl (h : List IE) : Nat := (h.map fun e => 2 + e.ied.length).sum

/-- The elements of a header back to back (R82). -/
def udhBody (h : List IE) : Octets := h.flatMap fun e => [e.iei, BitVec.ofNat 8 e.ied.length] ++ e.ied

/-- `UDH_ENC` (R152). -/
def udhEnc (h : List IE) : Answer Octets :=
  if h.any fun e => 255 < e.ied.length then .error .badUdh
  else if 255 < (udhBody h).length then .error .badUdh
  else .ok (BitVec.ofNat 8 (udhBody h).length :: udhBody h)

/-- The loop of `UDH_DEC` (R153) over the octets from `p` to `end`; each element takes at least two of them, so their
number is enough fuel. -/
def udhElements : Nat → Octets → Answer (List IE)
  | _, [] => .ok []
  | 0, _ :: _ => .error .badUdh
  | _ + 1, [_] => .error .badUdh
  | fuel + 1, iei :: l :: r =>
    if r.length < l.toNat then .error .badUdh
    else do
      let h ← udhElements fuel (r.drop l.toNat)
      .ok ({ iei := iei, ied := r.take l.toNat } :: h)

/-- `UDH_DEC(IN, pos, limit)` (R153). -/
def udhDec (o : Octets) (pos limit : Nat) : Answer (List IE × Nat) :=
  if limit ≤ pos then .error .badUdh
  else
    let n := (octetAt o pos).toNat
    if limit < pos + 1 + n then .error .badUdh
    else do
      let h ← udhElements n (memRead o (pos + 1) n)
      .ok (h, pos + 1 + n)

/-- The 8-bit concatenation element (R83, R155). -/
def concat8IE (ref total seq : Nat) : IE :=
  { iei := 0x00, ied := [BitVec.ofNat 8 ref, BitVec.ofNat 8 total, BitVec.ofNat 8 seq] }

/-- The 16-bit concatenation element, the reference big-endian (R83, R156). -/
def concat16IE (ref total seq : Nat) : IE :=
  { iei := 0x08,
    ied := [BitVec.ofNat 8 (ref / 256), BitVec.ofNat 8 ref, BitVec.ofNat 8 total, BitVec.ofNat 8 seq] }

/-- `2 <= total <= 255 and 1 <= seq <= total` (R155, R156). -/
def totalSeqOk (total seq : Nat) : Bool := 2 ≤ total && total ≤ 255 && 1 ≤ seq && seq ≤ total

/-- `UDH_CONCAT8` (R155). -/
def udhConcat8 (ref total seq : Nat) : Answer IE :=
  if ref ≤ 255 && totalSeqOk total seq then .ok (concat8IE ref total seq) else .error .badUdh

/-- `UDH_CONCAT16` (R156). -/
def udhConcat16 (ref total seq : Nat) : Answer IE :=
  if ref ≤ 65535 && totalSeqOk total seq then .ok (concat16IE ref total seq) else .error .badUdh

/-- The numbers of an element with identifier 0x00 or 0x08 (R157). -/
def concatFields (e : IE) : Answer Concat :=
  match e.iei == 0, e.ied with
  | true, [r, t, q] => .ok { w := .w8, ref := BitVec.ofNat 16 r.toNat, total := t, seq := q }
  | false, [r1, r0, t, q] => .ok { w := .w16, ref := BitVec.ofNat 16 (r1.toNat * 256 + r0.toNat), total := t, seq := q }
  | _, _ => .error .badUdh

/-- One element with identifier 0x00 or 0x08, read (R157). -/
def concatOf (e : IE) : Answer Concat := do
  let c ← concatFields e
  if 2 ≤ c.total.toNat ∧ 1 ≤ c.seq.toNat ∧ c.seq.toNat ≤ c.total.toNat then .ok c else .error .badUdh

/-- The loop of `UDH_GETCONCAT` (R157), with what was found so far. -/
def getConcatFrom : Option Concat → List IE → Answer (Option Concat)
  | found, [] => .ok found
  | found, e :: r =>
    if e.iei = 0x00 ∨ e.iei = 0x08 then
      match found with
      | some _ => .error .badUdh
      | none => do
        let c ← concatOf e
        getConcatFrom (some c) r
    else getConcatFrom found r

/-- `UDH_GETCONCAT` (R157). -/
def udhGetconcat (h : List IE) : Answer (Option Concat) := getConcatFrom none h

/-- `UDH_ENC` (R152). -/
def execUdhEnc (h : List IE) (s : State) : Step := reply 0x30 ((udhEnc h).map .octets) s

/-- `UDH_DEC` (R153). -/
def execUdhDec (o : Octets) (pos limit : Nat) (s : State) : Step :=
  reply 0x31 ((udhDec o pos limit).map fun r => .elementsAt r.1 r.2) s

/-- `UDH_CONCAT8` (R155). -/
def execUdhConcat8 (ref total seq : Nat) (s : State) : Step := reply 0x32 ((udhConcat8 ref total seq).map .element) s

/-- `UDH_CONCAT16` (R156). -/
def execUdhConcat16 (ref total seq : Nat) (s : State) : Step := reply 0x33 ((udhConcat16 ref total seq).map .element) s

/-- `UDH_GETCONCAT` (R157). -/
def execUdhGetconcat (h : List IE) (s : State) : Step := reply 0x34 ((udhGetconcat h).map .concat) s

end Sys2Proof.Machine
end

