-- ==== Sys2Proof/Machine/Reassembler.lean ====
section
/-! DEFINITION. The reassembler C6 (spec/46_reassembler.md) and the meanings of `COLLECT`, `RSM_CFG` and the agent step
`EXPIRE`. -/

namespace Sys2Proof.Machine

/-- The concatenation element of a DELIVER record's header, if it carries one (R242). -/
def concatIn (t : Deliver) : Answer (Option Concat) :=
  match t.udh with
  | none => .ok none
  | some h => udhGetconcat h

/-- The key of a segment (R33, R242). -/
def keyOf (t : Deliver) (c : Concat) : Key := { oa := t.oa, w := c.w, ref := c.ref, total := c.total }

/-- `x[RSM][key] <- g` (R242). -/
def State.putGroup (k : Key) (g : Group) (s : State) : State := { s with rsm := FMap.put keyCode k g s.rsm }

/-- `x[RSM] <- x[RSM] without key` (R242, R247). -/
def State.dropGroup (k : Key) (s : State) : State := { s with rsm := FMap.erase keyCode k s.rsm }

/-- No group can be added: a finite `RSM_CAP` is reached (R245). -/
def State.tableFull (s : State) : Bool := s.params.rsmCap.any (· ≤ s.rsm.length)

/-- A segment joins the group of its key, an existing one or a new one (R242). -/
def collectInto (t : Deliver) (c : Concat) (g : Group) (s : State) : Step :=
  match g.seg c.seq.toNat with
  | some _ => .next (s.raise 0x70 .duplicateSegment)
  | none =>
    let g' := g.put c.seq.toNat t
    if g'.segs.length = c.total.toNat then
      .next ((s.dropGroup (keyOf t c)).answer 0x70 (.ok (.delivers (g'.segs.map Prod.snd))))
    else .next ((s.putGroup (keyOf t c) g').answer 0x70 (.ok (.delivers [])))

/-- `COLLECT` (R242). -/
def execCollect (t : Deliver) (s : State) : Step :=
  match concatIn t with
  | .error k => .next (s.raise 0x70 k)
  | .ok none => .next (s.answer 0x70 (.ok (.delivers [t])))
  | .ok (some c) =>
    match s.group (keyOf t c) with
    | some g => collectInto t c g s
    | none =>
      if s.tableFull then .refused .reassemblyTableFull else collectInto t c { segs := [], created := s.now } s

/-- `RSM_CFG` (R246). -/
def execRsmCfg (d : Option Nat) (s : State) : Step :=
  .next ({ s with rsmDeadline := d }.answer 0x71 (.ok .none))

/-- The groups whose deadline has passed (R247): `NOW - created >= d`. -/
def State.overdue (s : State) : List (Key × Group) :=
  match s.rsmDeadline with
  | none => []
  | some d => s.rsm.filter fun e => e.2.created + d ≤ s.now

/-- The overdue group that this `EXPIRE` takes: any one of them, by the environment's choice (R247, R310). -/
def State.pick (s : State) : Option (Key × Group) :=
  match s.overdue with
  | [] => none
  | e :: r => some ((e :: r).getD (s.picks.headD 0 % (e :: r).length) e)

/-- `EV_EXPIRED(w, ref, total, received)` for a group that is given up, of kind `ReassemblyTimeout` (R23, R307, R312). -/
def expiredEvent (k : Key) (g : Group) : Event := .expired .reassemblyTimeout k.w k.ref k.total g.segs.length

/-- `EXPIRE` (R247); where no group is overdue the step is not enabled and nothing happens. -/
def execExpire (s : State) : Step :=
  match s.pick with
  | none => .next s
  | some (k, g) =>
    .next (({ s with picks := s.picks.tail }.dropGroup k).raiseEvent (expiredEvent k g))

end Sys2Proof.Machine
end

