-- ==== Sys2Proof/Machine/Tpdu.lean ====
section
/-! DEFINITION. The TPDU codec C4 (spec/43_tpdu.md): data coding scheme, time stamp, user data, SUBMIT and DELIVER, and
the meanings of `DCS_MK` to `TPDU_PARSE`. -/

namespace Sys2Proof.Machine

/-- `ALPHA(d)` (R172), `none` for `reserved`: bits [3:2] and nothing else (R79). -/
def alphaOf (d : Byte) : Option Alphabet :=
  match d.toNat / 4 % 4 with
  | 0 => some .gsm7
  | 1 => some .bit8
  | 2 => some .ucs2
  | _ => none

/-- `DCS_FLASH(d)` (R174): bit 4. -/
def dcsFlash (d : Byte) : Bool := bitOf d 4

/-- The alphabet bits of R173. -/
def alphabetBits : Alphabet → Nat
  | .gsm7 => 0x00
  | .bit8 => 0x04
  | .ucs2 => 0x08

/-- `DCS_MK` (R173). -/
def dcsMk (a : Alphabet) (flash : Bool) : Byte := BitVec.ofNat 8 (alphabetBits a + 16 * bit flash)

/-- A decimal pair in semi-octets (R85 (c)), if both nibbles are decimal digits (R176). -/
def decimalPair (b : Byte) : Answer Nat :=
  if 9 < lowNibble b ∨ 9 < highNibble b then .error .badPdu else .ok (lowNibble b * 10 + highNibble b)

/-- The time zone of a time stamp in minutes (R85 (d), R176): sign in bit 3, sign and magnitude. -/
def zoneMinutes (z : Byte) : Answer Int :=
  if 9 < highNibble z then .error .badPdu
  else
    let q : Int := (z.toNat % 8 * 10 + highNibble z : Nat)
    .ok ((if bitOf z 3 then -1 else 1) * q * 15)

/-- The year of a two-digit year (R85 (j)). -/
def yearOf (yy : Nat) : Nat := if yy < 70 then 2000 + yy else 1900 + yy

/-- `SCTS_DEC` (R176). -/
def sctsDec (o : Octets7) : Answer Timestamp := do
  let yy ← decimalPair o.o0
  let month ← decimalPair o.o1
  let day ← decimalPair o.o2
  let hour ← decimalPair o.o3
  let minute ← decimalPair o.o4
  let second ← decimalPair o.o5
  let tz ← zoneMinutes o.o6
  .ok { year := yearOf yy, month, day, hour, minute, second, tzMin := tz }

/-- `bcd(n)` of R177, for `n` in 0..99. -/
def bcd (n : Nat) : Byte := nibbles (n % 10) (n / 10)

/-- `SCTS_ENC` (R177). -/
def sctsEnc (ts : Timestamp) : Octets7 :=
  let q := ts.tzMin.natAbs / 15
  { o0 := bcd (ts.year % 100), o1 := bcd ts.month, o2 := bcd ts.day, o3 := bcd ts.hour, o4 := bcd ts.minute,
    o5 := bcd ts.second, o6 := nibbles (q % 10) (q / 10 + if ts.tzMin < 0 then 8 else 0) }

/-- `HS(UDHL)` (R180): the septets counted for a header. -/
def headerSeptets (u : Nat) : Nat := ceilDiv ((u + 1) * 8) 7

/-- `FILL(UDHL)` (R180): the zero bits between a header and the first text septet. -/
def fillBits (u : Nat) : Nat := (7 - (u + 1) * 8 % 7) % 7

/-- The body is of the kind the alphabet asks for (R43, R181). -/
def bodyFits (a : Alphabet) : Body → Bool
  | .septets _ => a == .gsm7
  | .octets _ => a != .gsm7

/-- The header octets of TP-UD, empty when there is no header (R181). -/
def headerOctets : Option (List IE) → Answer Octets
  | none => .ok []
  | some h => udhEnc h

/-- TP-UDL and TP-UD for a header already serialised (R181). -/
def udFields (h : Octets) (udh : Option (List IE)) : Body → Nat × Octets
  | .septets q =>
    match udh with
    | some _ =>
      let u := (octetAt h 0).toNat
      (headerSeptets u + q.length, h ++ pack7 q (fillBits u))
    | none => (q.length, h ++ pack7 q 0)
  | .octets o => ((h ++ o).length, h ++ o)

/-- `UD_BUILD` (R181). -/
def udBuild (dcs : Byte) (udh : Option (List IE)) (body : Body) : Answer (Nat × Octets) :=
  match alphaOf dcs with
  | none => .error .unsupportedAlphabet
  | some a =>
    if bodyFits a body = false then .error .badPdu
    else do
      let h ← headerOctets udh
      let r := udFields h udh body
      if Config.udMax < r.2.length then .error .badPdu else .ok r

/-- `UDOCTETS` (R81). -/
def udOctets (a : Alphabet) (udl : Nat) : Nat := if a = .gsm7 then ceilDiv (udl * 7) 8 else udl

/-- The header part of `UD_SPLIT` (R182): the header, where the payload begins, the septets the header takes, the fill
bits. -/
def splitHeader (a : Alphabet) (udhi : Bool) (udl : Nat) (o : Octets) (pos limit : Nat) :
    Answer (Option (List IE) × Nat × Nat × Nat) :=
  if udhi then do
    let r ← udhDec o pos limit
    let u := (octetAt o pos).toNat
    if a = .gsm7 then
      if udl < headerSeptets u then .error .badUdh else .ok (some r.1, r.2, headerSeptets u, fillBits u)
    else .ok (some r.1, r.2, 0, 0)
  else .ok (none, pos, 0, 0)

/-- The payload part of `UD_SPLIT` (R182). -/
def splitBody (a : Alphabet) (payload : Octets) (count k : Nat) : Answer Body :=
  if a = .gsm7 then do
    let q ← unpack7 payload count k
    .ok (.septets q)
  else .ok (.octets payload)

/-- `UD_SPLIT(dcs, udhi, IN, pos)` (R182). -/
def udSplit (dcs : Byte) (udhi : Bool) (o : Octets) (pos : Nat) : Answer (Option (List IE) × Body × Nat) :=
  match alphaOf dcs with
  | none => .error .unsupportedAlphabet
  | some a =>
    if o.length ≤ pos then .error .badPdu
    else
      let udl := (octetAt o pos).toNat
      let n := udOctets a udl
      if Config.udMax < n then .error .badPdu
      else if o.length < pos + 1 + n then .error .badPdu
      else if pos + 1 + n < o.length then .error .badPdu
      else do
        let (udh, p, hs, k) ← splitHeader a udhi udl o (pos + 1) (pos + 1 + n)
        let body ← splitBody a (memRead o p (pos + 1 + n - p)) (udl - hs) k
        .ok (udh, body, pos + 1 + n)

/-- The TP-VP octets of a validity period (R75, R190). -/
def vpOctets : VP → Octets
  | .absent => []
  | .relative b => [b]
  | .enhanced e => octets7 e
  | .absolute a => octets7 a

/-- How many TP-VP octets a TP-VPF asks for (R75, R193). -/
def vpLength (vpf : Nat) : Nat := if vpf = 0b00 then 0 else if vpf = 0b10 then 1 else 7

/-- The validity period read at `pos` under a TP-VPF (R75, R193). -/
def vpAt (vpf : Nat) (o : Octets) (pos : Nat) : VP :=
  if vpf = 0b00 then .absent
  else if vpf = 0b10 then .relative (octetAt o pos)
  else if vpf = 0b01 then .enhanced (octets7At o pos)
  else .absolute (octets7At o pos)

/-- `TPDU_SER_SUBMIT` (R190), layout R74. -/
def tpduSerSubmit (t : Submit) : Answer Octets := do
  let (udl, ud) ← udBuild t.dcs t.udh t.body
  .ok ([foSubmit t.rd (vpfOf t.vp) t.srr t.udh.isSome t.rp, t.mr] ++ addrSer t.da ++ [t.pid, t.dcs] ++ vpOctets t.vp ++
    [BitVec.ofNat 8 udl] ++ ud)

/-- `TPDU_SER_DELIVER` (R191), layout R76; bit 4 of the first octet is written 0. -/
def tpduSerDeliver (t : Deliver) : Answer Octets := do
  let (udl, ud) ← udBuild t.dcs t.udh t.body
  .ok ([foDeliver t.mms t.lp false t.sri t.udh.isSome t.rp] ++ addrSer t.oa ++ [t.pid, t.dcs] ++ octets7 t.scts ++
    [BitVec.ofNat 8 udl] ++ ud)

/-- The SMS-SUBMIT branch of `TPDU_PARSE` (R193). -/
def parseSubmit (o : Octets) : Answer Submit :=
  let fo := octetAt o 0
  if o.length < 2 then .error .badPdu
  else do
    let (da, pos) ← addrParse o 2
    if o.length < pos + 2 then .error .badPdu
    else
      let vpf := vpfBits fo
      if o.length < pos + 2 + vpLength vpf then .error .badPdu
      else do
        let dcs := octetAt o (pos + 1)
        let (udh, body, _) ← udSplit dcs (bitOf fo 6) o (pos + 2 + vpLength vpf)
        .ok { rd := bitOf fo 2, srr := bitOf fo 5, rp := bitOf fo 7, mr := octetAt o 1, da := da,
              pid := octetAt o pos, dcs := dcs, vp := vpAt vpf o (pos + 2), udh := udh, body := body }

/-- The SMS-DELIVER branch of `TPDU_PARSE` (R193). -/
def parseDeliver (o : Octets) : Answer Deliver := do
  let fo := octetAt o 0
  let (oa, pos) ← addrParse o 1
  if o.length < pos + 2 then .error .badPdu
  else if o.length < pos + 2 + 7 then .error .badPdu
  else do
    let dcs := octetAt o (pos + 1)
    let (udh, body, _) ← udSplit dcs (bitOf fo 6) o (pos + 2 + 7)
    .ok { mms := bitOf fo 2, lp := bitOf fo 3, sri := bitOf fo 5, rp := bitOf fo 7, oa := oa,
          pid := octetAt o pos, dcs := dcs, scts := octets7At o (pos + 2), udh := udh, body := body }

/-- `TPDU_PARSE` (R193), TP-MTI 10 read like 11. -/
def tpduRead (o : Octets) : Answer Tpdu :=
  if o.length < 1 then .error .badPdu
  else
    match mtiOf (octetAt o 0) with
    | 0 => (parseDeliver o).map .deliver
    | 1 => (parseSubmit o).map .submit
    | _ => .error .badPdu

/-- The input is a TPDU with TP-MTI = 10 (R196). -/
def isStatusReport (o : Octets) : Bool := !o.isEmpty && mtiOf (octetAt o 0) == 2

/-- `TPDU_PARSE` under `STATUS_REPORT_POLICY` (R193, R196): an answer, or no meaning at all under `refuse`. -/
def parseStep (o : Octets) (s : State) : Step :=
  if isStatusReport o && s.params.statusReport == .refuse then .refused .statusReport
  else reply 0x49 ((tpduRead o).map .tpdu) s

/-- `DCS_MK` (R173). -/
def execDcsMk (a : Alphabet) (flash : Bool) (s : State) : Step := reply 0x40 (.ok (.octet (dcsMk a flash))) s

/-- `DCS_ALPHA` (R172). -/
def execDcsAlpha (d : Byte) (s : State) : Step := reply 0x41 (.ok (.alphabet (alphaOf d))) s

/-- `DCS_FLASH` (R174). -/
def execDcsFlash (d : Byte) (s : State) : Step := reply 0x42 (.ok (.bit (dcsFlash d))) s

/-- `SCTS_DEC` (R176). -/
def execSctsDec (o : Octets7) (s : State) : Step := reply 0x43 ((sctsDec o).map .timestamp) s

/-- `SCTS_ENC` (R177). -/
def execSctsEnc (ts : Timestamp) (s : State) : Step := reply 0x44 (.ok (.octets (octets7 (sctsEnc ts)))) s

/-- `UD_BUILD` (R181). -/
def execUdBuild (dcs : Byte) (udh : Option (List IE)) (body : Body) (s : State) : Step :=
  reply 0x45 ((udBuild dcs udh body).map fun r => .userData r.1 r.2) s

/-- `UD_SPLIT` (R182). -/
def execUdSplit (dcs : Byte) (udhi : Bool) (o : Octets) (pos : Nat) (s : State) : Step :=
  reply 0x46 ((udSplit dcs udhi o pos).map fun r => .split r.1 r.2.1 r.2.2) s

/-- `TPDU_SER_SUBMIT` (R190). -/
def execTpduSerSubmit (t : Submit) (s : State) : Step := reply 0x47 ((tpduSerSubmit t).map .octets) s

/-- `TPDU_SER_DELIVER` (R191). -/
def execTpduSerDeliver (t : Deliver) (s : State) : Step := reply 0x48 ((tpduSerDeliver t).map .octets) s

/-- `TPDU_PARSE` (R193). -/
def execTpduParse (o : Octets) (s : State) : Step := parseStep o s

end Sys2Proof.Machine
end

