-- ==== Sys2Proof/Machine/Segmenter.lean ====
section
/-! DEFINITION. The segmenter C5 (spec/45_segmenter.md) and the meaning of `SEGMENT`. -/

namespace Sys2Proof.Machine

/-- Step 1 of `SEGMENT` (R222): the alphabet and the encoded payload. -/
def segmentUnits : Payload → Alphabet × Body
  | .auto t =>
    match gsm7Enc t with
    | .ok q => (.gsm7, .septets q)
    | .error _ => (.ucs2, .octets (ucs2Enc t))
  | .forceUcs2 t => (.ucs2, .octets (ucs2Enc t))
  | .force8bit o => (.bit8, .octets o)

/-- How many units a body has: the encoded length of R221. -/
def bodyLength : Body → Nat
  | .septets q => q.length
  | .octets o => o.length

/-- `single` of R223. -/
def singleCap (a : Alphabet) : Nat := if a = .gsm7 then Config.cap7Single else Config.cap8Single

/-- `cap` of R224. -/
def segCap (a : Alphabet) : Nat := if a = .gsm7 then Config.cap7Seg else Config.cap8Seg

/-- Greedy chunks (R225): each of `cap` units, or of `cut` of them where the alphabet forbids a cut there, the last one
what is left.  `fuel` at least the number of units is enough: a cut is never 0. -/
def chunks {α : Type} (cap : Nat) (cut : List α → Nat) : Nat → List α → List (List α)
  | 0, _ => []
  | _ + 1, [] => []
  | fuel + 1, u :: r =>
    if (u :: r).length ≤ cap then [u :: r]
    else (u :: r).take (cut (u :: r)) :: chunks cap cut fuel ((u :: r).drop (cut (u :: r)))

/-- Where a GSM-7 chunk ends: never between the escape and its code (R225). -/
def cutSeptets (q : Septets) : Nat := if q[Config.cap7Seg - 1]? = some esc then Config.cap7Seg - 1 else Config.cap7Seg

/-- Where a UCS-2 chunk ends: never between the halves of a surrogate pair (R225). -/
def cutUcs2 (o : Octets) : Nat :=
  let high := (octetAt o (Config.cap8Seg - 2)).toNat
  if 0xD8 ≤ high ∧ high ≤ 0xDB then Config.cap8Seg - 2 else Config.cap8Seg

/-- The chunks of an encoded payload (R225). -/
def segmentChunks (a : Alphabet) : Body → List Body
  | .septets q => (chunks Config.cap7Seg cutSeptets q.length q).map .septets
  | .octets o =>
    (chunks Config.cap8Seg (if a = .ucs2 then cutUcs2 else fun _ => Config.cap8Seg) o.length o).map .octets

/-- `base` of R226. -/
def segmentBase (a : Alphabet) (da : Address) (body : Body) : Submit :=
  { rd := false, srr := false, rp := false, mr := 0, da := da, pid := 0, dcs := dcsMk a false, vp := .absent,
    udh := none, body := body }

/-- The records of a concatenated message from segment `i` on (R224, R226). -/
def segmentRecords (a : Alphabet) (da : Address) (ref : Byte) (n : Nat) : Nat → List Body → List Submit
  | _, [] => []
  | i, b :: r =>
    { segmentBase a da b with udh := some [concat8IE ref.toNat n i] } :: segmentRecords a da ref n (i + 1) r

/-- `SEGMENT` as a function of `REFCNT` (R226): the records and the new value of `REFCNT`. -/
def segment (refcnt : Byte) (p : Payload) (dest : Ascii) : Answer (List Submit × Byte) := do
  let (a, units) := segmentUnits p
  let da ← addrEnc dest
  if bodyLength units ≤ singleCap a then .ok ([segmentBase a da units], refcnt)
  else
    let cs := segmentChunks a units
    if Config.segMax < cs.length then .error .badUdh
    else .ok (segmentRecords a da refcnt cs.length 1 cs, refcnt + 1)

/-- `SEGMENT` (R226): `REFCNT` is written on success only. -/
def execSegment (p : Payload) (dest : Ascii) (s : State) : Step :=
  match segment s.refcnt p dest with
  | .ok (l, c) => .next ({ s with refcnt := c }.answer 0x60 (.ok (.submits l)))
  | .error k => .next (s.raise 0x60 k)

end Sys2Proof.Machine
end

