-- ==== Sys2Proof/Machine/Wire.lean ====
section
/-! DEFINITION. The meanings of the 27 wire-value rows (spec/30_encoding.md R91).  A wire value is not a command: its
constructor stands for an octet string that opens with the value (or, for a terminator, ends with it), and its meaning
is the operation that reads such a string (DESIGN CHOICE, notes/assumptions/6.md). -/

namespace Sys2Proof.Machine

/-- First octet of SMS-SUBMIT with TP-VPF 00 (R71, R75), and the octets after it: `TPDU_PARSE` (R193). -/
def execFoSubmitVpAbsent (rp udhi srr rd : Bool) (rest : Octets) (s : State) : Step :=
  parseStep (foSubmit rd 0b00 srr udhi rp :: rest) s

/-- First octet of SMS-SUBMIT with TP-VPF 10 (R71, R75): one TP-VP octet. -/
def execFoSubmitVpRelative (rp udhi srr rd : Bool) (rest : Octets) (s : State) : Step :=
  parseStep (foSubmit rd 0b10 srr udhi rp :: rest) s

/-- First octet of SMS-SUBMIT with TP-VPF 01 (R71, R75): seven TP-VP octets. -/
def execFoSubmitVpEnhanced (rp udhi srr rd : Bool) (rest : Octets) (s : State) : Step :=
  parseStep (foSubmit rd 0b01 srr udhi rp :: rest) s

/-- First octet of SMS-SUBMIT with TP-VPF 11 (R71, R75): seven TP-VP octets. -/
def execFoSubmitVpAbsolute (rp udhi srr rd : Bool) (rest : Octets) (s : State) : Step :=
  parseStep (foSubmit rd 0b11 srr udhi rp :: rest) s

/-- First octet of SMS-DELIVER (R72), its reserved bit 4 ignored (R86). -/
def execFoDeliver (rp udhi sri x lp mms : Bool) (rest : Octets) (s : State) : Step :=
  parseStep (foDeliver mms lp x sri udhi rp :: rest) s

/-- First octet with TP-MTI 10 (R73, R196): `STATUS_REPORT_POLICY`. -/
def execFoStatusReport (x : BitVec 6) (rest : Octets) (s : State) : Step := parseStep (foOther x 0b10 :: rest) s

/-- First octet with TP-MTI 11 (R73, R193): `BadPdu`. -/
def execFoReservedMti (x : BitVec 6) (rest : Octets) (s : State) : Step := parseStep (foOther x 0b11 :: rest) s

/-- A TP-DCS octet and the user data it governs (R79, R87): what the block reads in the octet (R172, R174) and how it
splits TP-UDL and TP-UD under it (R182). -/
def readDcs (d : Byte) (udhi : Bool) (ud : Octets) (s : State) : Step :=
  reply 0x46 ((udSplit d udhi ud 0).map fun r => .dcsRead (alphaOf d) (dcsFlash d) r.1 r.2.1 r.2.2) s

/-- DCS [3:2] = 00 (R172). -/
def execDcsGsm7 (hi : BitVec 3) (flash : Bool) (lo : BitVec 2) (udhi : Bool) (ud : Octets) (s : State) : Step :=
  readDcs (dcsOctet hi flash 0b00 lo) udhi ud s

/-- DCS [3:2] = 01 (R172). -/
def execDcs8bit (hi : BitVec 3) (flash : Bool) (lo : BitVec 2) (udhi : Bool) (ud : Octets) (s : State) : Step :=
  readDcs (dcsOctet hi flash 0b01 lo) udhi ud s

/-- DCS [3:2] = 10 (R172). -/
def execDcsUcs2 (hi : BitVec 3) (flash : Bool) (lo : BitVec 2) (udhi : Bool) (ud : Octets) (s : State) : Step :=
  readDcs (dcsOctet hi flash 0b10 lo) udhi ud s

/-- DCS [3:2] = 11 (R172): `UnsupportedAlphabet` wherever an alphabet is needed. -/
def execDcsReserved (hi : BitVec 3) (flash : Bool) (lo : BitVec 2) (udhi : Bool) (ud : Octets) (s : State) : Step :=
  readDcs (dcsOctet hi flash 0b11 lo) udhi ud s

/-- An address field (R77) read as the source's one-step decode, `ADDR_DEC(ADDR_PARSE(..))` (R130). -/
def readAddress (toa len : Byte) (val : Octets) (s : State) : Step :=
  reply 0x22 ((addrParse (len :: toa :: val) 0).bind fun r => addrDec r.1) s

/-- Address-type octet `1tttnnnn` (R78). -/
def execToa (ton : BitVec 3) (npi : BitVec 4) (len : Byte) (val : Octets) (s : State) : Step :=
  readAddress (toaOctet ton npi) len val s

/-- Address-type octet 0x91 (R78). -/
def execToaInternational (len : Byte) (val : Octets) (s : State) : Step := readAddress 0x91 len val s

/-- Address-type octet 0x81 (R78). -/
def execToaUnknown (len : Byte) (val : Octets) (s : State) : Step := readAddress 0x81 len val s

/-- Address-type octet 0xD0 (R78). -/
def execToaAlphanumeric (len : Byte) (val : Octets) (s : State) : Step := readAddress 0xD0 len val s

/-- Address-type octet with bit 7 clear: rejected with `BadAddress` (R139). -/
def execToaBit7Clear (x : BitVec 7) (len : Byte) (val : Octets) (s : State) : Step :=
  readAddress (BitVec.ofNat 8 x.toNat) len val s

/-- An information element (R82): kept in the list (R153), and read by `UDH_GETCONCAT` (R157). -/
def readElement (e : IE) (s : State) : Step := reply 0x34 ((udhGetconcat [e]).map fun c => .elementRead e c) s

/-- IEI 0x00: 8-bit concatenation (R83, R157). -/
def execIeiConcat8 (ied : Octets) (s : State) : Step := readElement { iei := 0x00, ied := ied } s

/-- IEI 0x08: 16-bit concatenation (R83, R157). -/
def execIeiConcat16 (ied : Octets) (s : State) : Step := readElement { iei := 0x08, ied := ied } s

/-- Any other IEI: carried, uninterpreted (R86, R153). -/
def execIeiOther (iei : Byte) (ied : Octets) (s : State) : Step := readElement { iei := iei, ied := ied } s

/-- The octets of a frame that open with an SMSC prefix length (R84, R213). -/
def readPrefix (l : Byte) (rest : Octets) (s : State) : Step :=
  reply 0x51 ((splitPrefix (l :: rest)).map fun r => .unframed r.1 r.2) s

/-- SMSC prefix length 0 (R84): the default SMSC. -/
def execSmscNone (rest : Octets) (s : State) : Step := readPrefix 0 rest s

/-- SMSC prefix length 1 to 255 (R84). -/
def execSmscPresent (l : Byte) (rest : Octets) (s : State) : Step := readPrefix l rest s

/-- The escape septet and the septets after it: `GSM7_DEC` (R102, R105). -/
def execGsm7Escape (rest : Septets) (s : State) : Step := reply 0x11 ((gsm7Dec (esc :: rest)).map .text) s

/-- A septet of the default table and the septets after it: `GSM7_DEC` (R101, R105). -/
def execGsm7Default (q : Septet) (rest : Septets) (s : State) : Step := reply 0x11 ((gsm7Dec (q :: rest)).map .text) s

/-- A hex frame committed by 0x1A (R84, R214): `SEND(hex ++ [0x1A])`. -/
def execFrameCommit (hex : Ascii) (s : State) : Step := issueSend .send (hex ++ [0x1A]) s

/-- A hex frame aborted by 0x1B (R84, R214): `SEND(hex ++ [0x1B])`. -/
def execFrameAbort (hex : Ascii) (s : State) : Step := issueSend .send (hex ++ [0x1B]) s

/-- CR received (R261, R262). -/
def execLineCr (s : State) : Step := receive 0x0D s

/-- LF received (R261, R262). -/
def execLineLf (s : State) : Step := receive 0x0A s

end Sys2Proof.Machine
end

