-- ==== Sys2Proof/Machine/Dispatch.lean ====
section
/-! DEFINITION. One arm for each row of spec/opcode_table.json: the meaning of each instruction. -/

namespace Sys2Proof.Machine

def exec (i : Instr) (s : State) : Host.Outcome State Fault Refusal :=
  match i with
  -- Alphabet codec (spec/40_alphabet.md).
  | .gsm7Enc t => Sys2Proof.Machine.execGsm7Enc t s
  | .gsm7Dec q => Sys2Proof.Machine.execGsm7Dec q s
  | .pack7 q k => Sys2Proof.Machine.execPack7 q k s
  | .unpack7 o l k => Sys2Proof.Machine.execUnpack7 o l k s
  | .ucs2Enc t => Sys2Proof.Machine.execUcs2Enc t s
  | .ucs2Dec o => Sys2Proof.Machine.execUcs2Dec o s
  | .oct8 o => Sys2Proof.Machine.execOct8 o s
  -- Address codec (spec/41_address.md).
  | .addrEnc a => Sys2Proof.Machine.execAddrEnc a s
  | .addrEncAlnum t => Sys2Proof.Machine.execAddrEncAlnum t s
  | .addrDec a => Sys2Proof.Machine.execAddrDec a s
  | .addrSer a => Sys2Proof.Machine.execAddrSer a s
  | .addrParse o pos => Sys2Proof.Machine.execAddrParse o pos s
  -- User-data-header codec (spec/42_udh.md).
  | .udhEnc h => Sys2Proof.Machine.execUdhEnc h s
  | .udhDec o pos limit => Sys2Proof.Machine.execUdhDec o pos limit s
  | .udhConcat8 ref total seq => Sys2Proof.Machine.execUdhConcat8 ref total seq s
  | .udhConcat16 ref total seq => Sys2Proof.Machine.execUdhConcat16 ref total seq s
  | .udhGetconcat h => Sys2Proof.Machine.execUdhGetconcat h s
  -- TPDU codec (spec/43_tpdu.md).
  | .dcsMk a flash => Sys2Proof.Machine.execDcsMk a flash s
  | .dcsAlpha d => Sys2Proof.Machine.execDcsAlpha d s
  | .dcsFlash d => Sys2Proof.Machine.execDcsFlash d s
  | .sctsDec o => Sys2Proof.Machine.execSctsDec o s
  | .sctsEnc ts => Sys2Proof.Machine.execSctsEnc ts s
  | .udBuild dcs udh body => Sys2Proof.Machine.execUdBuild dcs udh body s
  | .udSplit dcs udhi o pos => Sys2Proof.Machine.execUdSplit dcs udhi o pos s
  | .tpduSerSubmit t => Sys2Proof.Machine.execTpduSerSubmit t s
  | .tpduSerDeliver t => Sys2Proof.Machine.execTpduSerDeliver t s
  | .tpduParse o => Sys2Proof.Machine.execTpduParse o s
  -- PDU-mode frame (spec/44_frame.md).
  | .frameEnc smsc tpdu => Sys2Proof.Machine.execFrameEnc smsc tpdu s
  | .frameDec hex => Sys2Proof.Machine.execFrameDec hex s
  -- Segmenter and reassembler (spec/45_segmenter.md, spec/46_reassembler.md).
  | .segment p dest => Sys2Proof.Machine.execSegment p dest s
  | .collect t => Sys2Proof.Machine.execCollect t s
  | .rsmCfg d => Sys2Proof.Machine.execRsmCfg d s
  -- Line unit (spec/47_line_unit.md).
  | .lnParse l => Sys2Proof.Machine.execLnParse l s
  | .lnClassify l c => Sys2Proof.Machine.execLnClassify l c s
  | .send text => Sys2Proof.Machine.execSend text s
  | .sendExpect text sub => Sys2Proof.Machine.execSendExpect text sub s
  | .simpleQuery text => Sys2Proof.Machine.execSimpleQuery text s
  | .close => Sys2Proof.Machine.execClose s
  | .isOpen => Sys2Proof.Machine.execIsOpen s
  | .lnCfg v => Sys2Proof.Machine.execLnCfg v s
  -- Agent steps (R90).
  | .expire => Sys2Proof.Machine.execExpire s
  | .lnRx b => Sys2Proof.Machine.execLnRx b s
  | .lnTimeout => Sys2Proof.Machine.execLnTimeout s
  | .lnEos => Sys2Proof.Machine.execLnEos s
  -- Wire values (R91).
  | .foSubmitVpAbsent rp udhi srr rd rest => Sys2Proof.Machine.execFoSubmitVpAbsent rp udhi srr rd rest s
  | .foSubmitVpRelative rp udhi srr rd rest => Sys2Proof.Machine.execFoSubmitVpRelative rp udhi srr rd rest s
  | .foSubmitVpEnhanced rp udhi srr rd rest => Sys2Proof.Machine.execFoSubmitVpEnhanced rp udhi srr rd rest s
  | .foSubmitVpAbsolute rp udhi srr rd rest => Sys2Proof.Machine.execFoSubmitVpAbsolute rp udhi srr rd rest s
  | .foDeliver rp udhi sri x lp mms rest => Sys2Proof.Machine.execFoDeliver rp udhi sri x lp mms rest s
  | .foStatusReport x rest => Sys2Proof.Machine.execFoStatusReport x rest s
  | .foReservedMti x rest => Sys2Proof.Machine.execFoReservedMti x rest s
  | .dcsGsm7 hi flash lo udhi ud => Sys2Proof.Machine.execDcsGsm7 hi flash lo udhi ud s
  | .dcs8bit hi flash lo udhi ud => Sys2Proof.Machine.execDcs8bit hi flash lo udhi ud s
  | .dcsUcs2 hi flash lo udhi ud => Sys2Proof.Machine.execDcsUcs2 hi flash lo udhi ud s
  | .dcsReserved hi flash lo udhi ud => Sys2Proof.Machine.execDcsReserved hi flash lo udhi ud s
  | .toa ton npi len val => Sys2Proof.Machine.execToa ton npi len val s
  | .toaInternational len val => Sys2Proof.Machine.execToaInternational len val s
  | .toaUnknown len val => Sys2Proof.Machine.execToaUnknown len val s
  | .toaAlphanumeric len val => Sys2Proof.Machine.execToaAlphanumeric len val s
  | .toaBit7Clear x len val => Sys2Proof.Machine.execToaBit7Clear x len val s
  | .ieiConcat8 ied => Sys2Proof.Machine.execIeiConcat8 ied s
  | .ieiConcat16 ied => Sys2Proof.Machine.execIeiConcat16 ied s
  | .ieiOther iei ied => Sys2Proof.Machine.execIeiOther iei ied s
  | .smscNone rest => Sys2Proof.Machine.execSmscNone rest s
  | .smscPresent l rest => Sys2Proof.Machine.execSmscPresent l rest s
  | .gsm7Escape rest => Sys2Proof.Machine.execGsm7Escape rest s
  | .gsm7Default q rest => Sys2Proof.Machine.execGsm7Default q rest s
  | .frameCommit hex => Sys2Proof.Machine.execFrameCommit hex s
  | .frameAbort hex => Sys2Proof.Machine.execFrameAbort hex s
  | .lineCr => Sys2Proof.Machine.execLineCr s
  | .lineLf => Sys2Proof.Machine.execLineLf s

end Sys2Proof.Machine
end

