-- ==== Sys2Proof/Machine/Fetch.lean ====
section
/-! DEFINITION. What one step of the block takes: the next presented instruction from the command port (spec/10_state.md
R21, R26), or one of the internal turns of an open or waiting `SEND` and of the port (spec/47_line_unit.md R272, R274,
R282).  The block has no program counter (R35): what is presented next is what runs next. -/

namespace Sys2Proof.Machine

/-- Why octets on the command port run no instruction. -/
def portRefusal : DecodeError → Refusal
  | .noSuchOperation => .noSuchOperation
  | .truncated => .truncatedCommand
  | .illTyped => .illTyped

/-- The instruction at the front of the command port and the state with it taken off the port; `none` where nothing is
presented. -/
def fetch (s : State) : Except Refusal (Option (Instr × State)) :=
  if s.port = [] then .ok none
  else
    match decode s.port with
    | .ok (i, rest) => .ok (some (i, { s with port := rest }))
    | .error e => .error (portRefusal e)

/-- The next presented instruction runs; where nothing is presented the engine is idle (R332) and nothing happens. -/
def runPort (s : State) : Step :=
  match fetch s with
  | .ok (some (i, s')) => exec i s'
  | .ok none => .next s
  | .error r => .refused r

/-- One turn, already taken off the schedule. -/
def runTurn : Turn → State → Step
  | .instr, s => runPort s
  | .take, s => .next s.takeLine
  | .resume, s => .next s.resumeSend
  | .readError, s => .next s.readError

/-- The turn that comes next; an empty schedule means the next presented instruction (notes/assumptions/8.md). -/
def State.nextTurn (s : State) : Turn := s.turns.headD .instr

/-- One step: time passes (R24), then the turn that comes next is taken. -/
def stepOnce (s : State) : Step := runTurn s.nextTurn { s.tick with turns := s.turns.tail }

/-- The octets of an instruction on the command port, and the port's turn next. -/
def presentOctets (o : Octets) (s : State) : State :=
  { s with port := o, turns := if s.nextTurn = .instr then s.turns else .instr :: s.turns }

end Sys2Proof.Machine
end

