-- ==== Sys2Proof/Machine/Step.lean ====
section
/-! DEFINITION. One step of the block, and how an instruction is placed where the next step takes it. -/

namespace Sys2Proof.Machine

/-- One step of the block (spec/10_state.md R26): time passes, then the next turn is taken; the instruction turn takes
the next presented command or agent step. -/
def step (s : State) : Host.Outcome State Fault Refusal := stepOnce s

/-- `s` with the instruction of `nbits` bits whose bits are `w` presented on the command port, so that the very next
step runs it (notes/assumptions/5.md). -/
def State.withFetchWord (s : State) (nbits w : Nat) : State := presentOctets (wordOctets nbits w) s

end Sys2Proof.Machine
end

