-- ==== Sys2Proof/Machine/Flows.lean ====
section
/-! DEFINITION. The pseudo-operations of spec/30_encoding.md R89: named compositions of operations, with no code of their
own.  Each is a host's program over the command port; the operations it issues run by `exec`, between steps of the block. -/

namespace Sys2Proof.Machine

/-- A host's program: what it issues next and how it goes on from the result. -/
inductive Flow
  /-- The composition is over, with this result. -/
  | done (r : Result)
  /-- An operation is issued. -/
  | issue (i : Instr) (next : Result → Flow)
  /-- The `SEND` that announces a frame of `n` TPDU octets is issued (R89 (a), R214). -/
  | announce (n : Nat) (next : Result → Flow)

/-- The operation a flow issues in a state, and how it goes on.  `CMDSET[SendSms]` is read at this moment, and a `CMDSET`
without that entry stops the flow (DESIGN CHOICE, notes/assumptions/28.md). -/
def Flow.command (s : State) : Flow → Option (Instr × (Result → Flow))
  | .done _ => none
  | .issue i next => some (i, next)
  | .announce n next => (frameCommand s n).map fun c => (.send c, next)

/-- The result is a list of lines whose last line starts with `>` (R89 (a)). -/
def endsInPrompt : Result → Bool
  | .ok (.lines l) => l.getLast?.any fun x => starts x (ascii ">")
  | _ => false

/-- One frame is sent (R89 (a), R214, R286): announced, and committed by 0x1A behind the prompt.  Without a prompt the
flow ends with the announcement's result; an error of the second `SEND` ends it too (DESIGN CHOICE,
notes/assumptions/28.md). -/
def sendFrame (n : Nat) (hex : Ascii) (next : Result → Flow) : Flow :=
  .announce n fun r =>
    if endsInPrompt r then
      .issue (.send (hex ++ [0x1A])) fun
        | .ok v => next (.ok v)
        | e => .done e
    else .done r

/-- One record is sent (R89 (a)): serialised, wrapped, and its frame sent. -/
def sendRecord (smsc : Option Smsc) (t : Submit) (next : Result → Flow) : Flow :=
  .issue (.tpduSerSubmit t) fun
    | .ok (.octets o) => .issue (.frameEnc smsc o) fun
      | .ok (.frame n hex) => sendFrame n hex next
      | r => .done r
    | r => .done r

/-- The records are sent one after another (R89 (a)); the flow ends with the last result. -/
def sendRecords (smsc : Option Smsc) : List Submit → Result → Flow
  | [], r => .done r
  | t :: rest, _ => sendRecord smsc t (sendRecords smsc rest)

/-- "SMS send" (R89 (a)). -/
def smsSend (smsc : Option Smsc) (p : Payload) (dest : Ascii) : Flow :=
  .issue (.segment p dest) fun
    | .ok (.submits l) => sendRecords smsc l (.ok (.submits l))
    | r => .done r

/-- The concatenation of two bodies (R89 (b), R228, R243).  R241 lets the segments of a group differ in DCS, so septets can
meet octets; no rule says what their concatenation is.  DESIGN CHOICE, unsafe (notes/assumptions/27.md): the body that
stands first is kept and the other dropped. -/
def joinBody : Body → Body → Body
  | .septets a, .septets b => .septets (a ++ b)
  | .octets a, .octets b => .octets (a ++ b)
  | a, _ => a

/-- The concatenation of the bodies of a message's segments, in order (R89 (b), R243). -/
def joinBodies : List Body → Body
  | [] => .octets []
  | [b] => b
  | b :: r => joinBody b (joinBodies r)

/-- The text of a completed message by the alphabet of its first segment (R89 (b), R243); 8-bit data is returned as it
stands.  A reserved alphabet is `UnsupportedAlphabet` (R172).  No rule says what a body means that is not of the kind that
alphabet asks for (`COLLECT` does not test it): `UnsupportedAlphabet` too, DESIGN CHOICE, unsafe
(notes/assumptions/27.md). -/
def messageOf (dcs : Byte) (body : Body) : Flow :=
  match alphaOf dcs, body with
  | some .gsm7, .septets q => .issue (.gsm7Dec q) .done
  | some .ucs2, .octets o => .issue (.ucs2Dec o) .done
  | some .bit8, .octets o => .done (.ok (.octets o))
  | _, _ => .done (.err .unsupportedAlphabet)

/-- What `COLLECT` returned is decoded (R89 (b)): nothing while the message is incomplete, else its text. -/
def readCollected : List Deliver → Flow
  | [] => .done (.ok (.delivers []))
  | s₁ :: r => messageOf s₁.dcs (joinBodies ((s₁ :: r).map fun s => s.body))

/-- "SMS receive" (R89 (b)).  A frame that holds an SMS-SUBMIT ends the flow with its record (DESIGN CHOICE,
notes/assumptions/28.md: R89 (b) speaks of `deliver(t)` only). -/
def smsReceive (hex : Ascii) : Flow :=
  .issue (.frameDec hex) fun
    | .ok (.unframed _ o) => .issue (.tpduParse o) fun
      | .ok (.tpdu (.deliver t)) => .issue (.collect t) fun
        | .ok (.delivers l) => readCollected l
        | r => .done r
      | r => .done r
    | r => .done r

/-- Where a flow stands: about to go on, or with a `SEND` issued whose result is still to come (R26, R270). -/
inductive FlowState
  | ready (f : Flow)
  | waiting (next : Result → Flow)

/-- The results that went out from `s` to `t`, with their codes. -/
def newResults (s t : State) : List (Byte × Result) :=
  (t.out.drop s.out.length).filterMap fun
    | .result op r => some (op, r)
    | _ => none

/-- A flow that waits for the result of its `SEND` goes on when it comes; no other host uses the line unit meanwhile. -/
def FlowState.hear (s t : State) : FlowState → FlowState
  | .waiting next =>
    match (newResults s t).lookup 0x82 with
    | some r => .ready (next r)
    | none => .waiting next
  | .ready f => .ready f

/-- The host's turn: the flow's next operation is issued; a result that comes at once is used at once. -/
def FlowState.hostTurn (s : State) : FlowState → Host.Outcome (FlowState × State) Fault Refusal
  | .waiting next => .next (.waiting next, s)
  | .ready f =>
    match f.command s with
    | none => .next (.ready f, s)
    | some (i, next) =>
      match exec i s with
      | .next t =>
        match newResults s t with
        | (_, r) :: _ => .next (.ready (next r), t)
        | [] => .next (.waiting next, t)
      | .fault e => .fault e
      | .refused e => .refused e

/-- The block's turn: one step of it (received octets, take steps, deadlines, R26), which the flow hears. -/
def FlowState.blockTurn (s : State) (f : FlowState) : Host.Outcome (FlowState × State) Fault Refusal :=
  match step s with
  | .next t => .next (f.hear s t, t)
  | .fault e => .fault e
  | .refused e => .refused e

/-- A run of a flow beside the block: `true` is the host's turn, `false` the block's. -/
def runFlow : List Bool → FlowState → State → Host.Outcome (FlowState × State) Fault Refusal
  | [], f, s => .next (f, s)
  | host :: r, f, s =>
    match (if host then f.hostTurn s else f.blockTurn s) with
    | .next (f', t) => runFlow r f' t
    | .fault e => .fault e
    | .refused e => .refused e

end Sys2Proof.Machine
end

