-- ==== Sys2Proof/Safety.lean ====
section
/-! DEFINITION. What a good state of the block is, in the terms the statements use: the invariants that the spec says hold
between steps (spec/10_state.md R38, R40, spec/46_reassembler.md R241, spec/47_line_unit.md R270, R278), the well-formed
records of R43, the canonical octet strings of R199, what it is for an instruction to answer and change nothing else. -/

namespace Sys2Proof.Machine

/-- The instruction completes: its result goes out under the code `op` and nothing else of the state changes (R22,
R306). -/
abbrev Replies (i : Instr) (s : State) (op : Byte) (r : Result) : Prop :=
  exec i s = .next { s with out := s.out ++ [.result op r] }

/-- Instructions run one after another, as long as each answers a next state. -/
def execAll : List Instr → State → Step
  | [], s => .next s
  | i :: r, s =>
    match exec i s with
    | .next s' => execAll r s'
    | .fault f => .fault f
    | .refused f => .refused f

/-- A segment belongs in the group of `k` at `q` (R38): it has the group's originator and its concatenation element says
the group's width, reference and total, and `q`. -/
def SegmentFits (k : Key) (q : Nat) (t : Deliver) : Prop :=
  ∃ c : Concat, concatIn t = .ok (some c) ∧ keyOf t c = k ∧ c.seq.toNat = q

/-- A group as R38, R241 say it is between steps, `now` the time. -/
structure GroupOk (now : Nat) (k : Key) (g : Group) : Prop where
  /-- The map is in its canonical form. -/
  rising : FMap.Rising id g.segs
  /-- At least one segment. -/
  nonempty : g.segs ≠ []
  /-- Fewer than `total` segments. -/
  incomplete : g.segs.length < k.total.toNat
  /-- Every segment belongs where it stands. -/
  fits : ∀ e ∈ g.segs, SegmentFits k e.1 e.2
  /-- No group was created after now (R24). -/
  created : g.created ≤ now

/-- The reassembly table between steps (R38, R241, R245). -/
structure TableOk (s : State) : Prop where
  rising : FMap.Rising keyCode s.rsm
  groups : ∀ e ∈ s.rsm, GroupOk s.now e.1 e.2
  capacity : ∀ n, s.params.rsmCap = some n → s.rsm.length ≤ n

/-- The line unit between steps (R40, R261, R270, R278). -/
structure LineUnitOk (s : State) : Prop where
  /-- `RQ` holds at most `RQ_CAP` lines (R40, R275). -/
  rqBound : s.rq.length ≤ s.params.rqCap
  /-- Every queued line is trimmed and not empty (R261, R262). -/
  rqLines : ∀ l ∈ s.rq, lineWf l = true
  /-- No terminator stays in `LBUF` (R262). -/
  lbufOpen : ∀ b ∈ s.lbuf, isTerminator b = false
  /-- `LBUF` holds at most `LBUF_CAP` octets, where that is finite (U8). -/
  lbufBound : ∀ n, s.params.lbufCap = some n → s.lbuf.length ≤ n
  /-- `DSTATE` is `Closed` exactly when `CLOSED` is 1 (R278). -/
  closed : s.dstate = .closed ↔ s.closed = true
  /-- A transaction is open exactly in `Awaiting` (R270). -/
  awaiting : s.dstate = .awaiting ↔ s.txn.isSome = true
  /-- The lock is held exactly by the open transaction (R272). -/
  held : s.lock = .held ↔ s.txn.isSome = true
  /-- The start step ends in `Awaiting`, `Idle` or `Closed`: `Sending` is over before the step is (R272). -/
  notSending : s.dstate ≠ .sending
  /-- No command in flight, no current command (R272, R285). -/
  quiet : s.txn = none → s.cur = []
  /-- Every line an open transaction has taken is trimmed and not empty. -/
  accLines : ∀ x, s.txn = some x → ∀ l ∈ x.acc, lineWf l = true
  /-- Nobody waits for a closed line unit (R278). -/
  noWaiters : s.closed = true → s.waiters = []

/-- What holds between steps of the block. -/
structure Inv (s : State) : Prop where
  table : TableOk s
  line : LineUnitOk s

/-- The octets of a header that fits (R82, R152): UDHL, then each element. -/
def headerWire (h : List IE) : Octets :=
  BitVec.ofNat 8 (udhl h) :: h.flatMap fun e => e.iei :: BitVec.ofNat 8 e.ied.length :: e.ied

/-- `H` of R44: how many octets a header takes, UDHL included. -/
def headerSize : Option (List IE) → Nat
  | none => 0
  | some h => 1 + udhl h

/-- `UDL(t)` of R44. -/
def udlOf (udh : Option (List IE)) : Body → Nat
  | .septets q => ceilDiv (headerSize udh * 8) 7 + q.length
  | .octets o => headerSize udh + o.length

/-- How many octets TP-UD takes (R81), from TP-UDL. -/
def udSize (udh : Option (List IE)) (body : Body) : Nat :=
  match body with
  | .septets _ => ceilDiv (udlOf udh body * 7) 8
  | .octets _ => udlOf udh body

/-- The user data of a record can be built (R43): a named alphabet, a body of its kind, a header that fits its length
octet, at most 140 octets of TP-UD. -/
structure UserDataOk (dcs : Byte) (udh : Option (List IE)) (body : Body) : Prop where
  alphabet : ∃ a, alphaOf dcs = some a ∧ (a = .gsm7 ↔ ∃ q, body = .septets q)
  header : ∀ h, udh = some h → udhl h ≤ 255
  size : udSize udh body ≤ 140

/-- A well-formed SUBMIT record (R43). -/
structure SubmitOk (t : Submit) : Prop where
  address : t.da.wf = true
  userData : UserDataOk t.dcs t.udh t.body

/-- A well-formed DELIVER record (R43). -/
structure DeliverOk (t : Deliver) : Prop where
  address : t.oa.wf = true
  userData : UserDataOk t.dcs t.udh t.body

/-- A well-formed record (R43). -/
def TpduOk : Tpdu → Prop
  | .submit t => SubmitOk t
  | .deliver t => DeliverOk t

/-- The result of the serialiser that serves a record (R190, R191). -/
def tpduSer : Tpdu → Answer Octets
  | .submit t => tpduSerSubmit t
  | .deliver t => tpduSerDeliver t

/-- The command that serialises a record. -/
def serInstr : Tpdu → Instr
  | .submit t => .tpduSerSubmit t
  | .deliver t => .tpduSerDeliver t

/-- The code of that command (R90). -/
def serCode : Tpdu → Byte
  | .submit _ => 0x47
  | .deliver _ => 0x48

/-- Bit 7 of the address-type octet of a record's address is 1 (R78). -/
def addressTyped : Tpdu → Prop
  | .submit t => t.da.toa.getLsbD 7 = true
  | .deliver t => t.oa.toa.getLsbD 7 = true

/-- Packed octets `o` that hold `n` septets after `k` fill bits have zeros in every bit that the parser ignores: in the
fill bits and above the last septet (R199). -/
def packedCanonical (o : Octets) (n k : Nat) : Prop :=
  streamOfOctets o % 2 ^ k = 0 ∧ streamOfOctets o < 2 ^ (k + 7 * n)

/-- User data (TP-UDL at `pos`, up to the end of `o`) that is canonical (R199): in GSM-7 the packed septets are; in the
other alphabets the parser ignores nothing. -/
def udCanonical (dcs : Byte) (udhi : Bool) (o : Octets) (pos : Nat) : Prop :=
  alphaOf dcs = some .gsm7 →
    let udl := (octetAt o pos).toNat
    if udhi then
      let u := (octetAt o (pos + 1)).toNat
      packedCanonical (o.drop (pos + 2 + u)) (udl - headerSeptets u) (fillBits u)
    else packedCanonical (o.drop (pos + 1)) udl 0

/-- The offset just after the address field at `pos` (R77). -/
def afterAddress (o : Octets) (pos : Nat) : Nat := pos + 2 + ceilDiv (octetAt o pos).toNat 2

/-- A TPDU octet string in which every bit the parser ignores is zero (R199). -/
def tpduCanonical (o : Octets) : Prop :=
  let fo := octetAt o 0
  if mtiOf fo = 0 then
    bitOf fo 4 = false ∧ udCanonical (octetAt o (afterAddress o 1 + 1)) (bitOf fo 6) o (afterAddress o 1 + 9)
  else
    udCanonical (octetAt o (afterAddress o 2 + 1)) (bitOf fo 6) o (afterAddress o 2 + 2 + vpLength (vpfBits fo))

/-- The rows that start a `SEND` transaction, with its kind and its text (R272, R276, R277, R214). -/
def sendForm : Instr → Option (SendKind × Ascii)
  | .send text => some (.send, text)
  | .sendExpect text sub => some (.expect sub, text)
  | .simpleQuery text => some (.query, text)
  | .frameCommit hex => some (.send, hex ++ [0x1A])
  | .frameAbort hex => some (.send, hex ++ [0x1B])
  | _ => none

/-- The state at the start of a turn: time has passed and the turn is off the schedule (R24). -/
def State.turned (s : State) : State :=
  { s with turns := s.turns.tail, now := s.now + s.nowIn.headD 0, nowIn := s.nowIn.tail }

/-- The row of the first octet of a SUBMIT record, by its validity period (R71, R75), with the octets after it. -/
def firstOctetRow (t : Submit) (rest : Octets) : Instr :=
  match t.vp with
  | .absent => .foSubmitVpAbsent t.rp t.udh.isSome t.srr t.rd rest
  | .relative _ => .foSubmitVpRelative t.rp t.udh.isSome t.srr t.rd rest
  | .enhanced _ => .foSubmitVpEnhanced t.rp t.udh.isSome t.srr t.rd rest
  | .absolute _ => .foSubmitVpAbsolute t.rp t.udh.isSome t.srr t.rd rest

/-- The text ends in CR, LF, 0x1A or 0x1B (R271). -/
def EndsInTerminator (text : Octets) : Prop :=
  ∃ init, ∃ b : Byte, text = init ++ [b] ∧ (b = 0x0D ∨ b = 0x0A ∨ b = 0x1A ∨ b = 0x1B)

/-- What is written for a text (R271): the text itself if it ends in a terminator, else the text with CR LF. -/
def Terminated (text w : Octets) : Prop :=
  (EndsInTerminator text ∧ w = text) ∨ (¬ EndsInTerminator text ∧ w = text ++ [0x0D, 0x0A])

/-- What a transaction answers when its last line is final, from all its lines (R272, R276, R277). -/
def FinalResult : SendKind → List Line → Result → Prop
  | .send, ls, r => r = .ok (.lines ls)
  | .expect sub, ls, r =>
    ((∃ l ∈ ls, sub <:+: l) ∧ r = .ok .none) ∨ ((∀ l ∈ ls, ¬ sub <:+: l) ∧ r = .err .unexpectedResponse)
  | .query, ls, r =>
    (∃ pre l post, ls = pre ++ l :: post ∧ (∀ y ∈ pre, ascii "AT" <+: y) ∧ ¬ ascii "AT" <+: l ∧ r = .ok (.line l)) ∨
      ((∀ y ∈ ls, ascii "AT" <+: y) ∧ r = .err .unexpectedResponse)

/-- A line is final under a list of tokens: it starts with a non-empty one (R267, R274). -/
def FinalLine (finals : List Ascii) (l : Line) : Prop := ∃ t ∈ finals, t ≠ [] ∧ t <+: l

/-- A line is a URC under a list of prefixes and the current command (R267), the finality test apart. -/
def UrcLine (urcs : List Ascii) (c : Ascii) (l : Line) : Prop :=
  ∃ p ∈ urcs, p ≠ [] ∧ p <+: l ∧ p ≠ ascii "+CME ERROR" ∧ p ≠ ascii "+CMS ERROR" ∧ ¬ ascii "AT" ++ p <+: c

/-- A step by which the line reader takes an octet: the agent step, or one of the two terminator rows. -/
def isReceive : Instr → Bool
  | .lnRx _ => true
  | .lineCr => true
  | .lineLf => true
  | _ => false

/-- The commands and wire values whose result is a function of their operands and of configuration, and that write no
state (R306): with the code under which the result goes out. -/
def pureCode : Instr → Option Byte
  | .gsm7Enc _ => some 0x10
  | .gsm7Dec _ => some 0x11
  | .pack7 _ _ => some 0x12
  | .unpack7 _ _ _ => some 0x13
  | .ucs2Enc _ => some 0x14
  | .ucs2Dec _ => some 0x15
  | .oct8 _ => some 0x16
  | .addrEnc _ => some 0x20
  | .addrEncAlnum _ => some 0x21
  | .addrDec _ => some 0x22
  | .addrSer _ => some 0x23
  | .addrParse _ _ => some 0x24
  | .udhEnc _ => some 0x30
  | .udhDec _ _ _ => some 0x31
  | .udhConcat8 _ _ _ => some 0x32
  | .udhConcat16 _ _ _ => some 0x33
  | .udhGetconcat _ => some 0x34
  | .dcsMk _ _ => some 0x40
  | .dcsAlpha _ => some 0x41
  | .dcsFlash _ => some 0x42
  | .sctsDec _ => some 0x43
  | .sctsEnc _ => some 0x44
  | .udBuild _ _ _ => some 0x45
  | .udSplit _ _ _ _ => some 0x46
  | .tpduSerSubmit _ => some 0x47
  | .tpduSerDeliver _ => some 0x48
  | .tpduParse _ => some 0x49
  | .frameEnc _ _ => some 0x50
  | .frameDec _ => some 0x51
  | .lnParse _ => some 0x80
  | .lnClassify _ _ => some 0x81
  | .isOpen => some 0x86
  | .foSubmitVpAbsent _ _ _ _ _ => some 0x49
  | .foSubmitVpRelative _ _ _ _ _ => some 0x49
  | .foSubmitVpEnhanced _ _ _ _ _ => some 0x49
  | .foSubmitVpAbsolute _ _ _ _ _ => some 0x49
  | .foDeliver _ _ _ _ _ _ _ => some 0x49
  | .foStatusReport _ _ => some 0x49
  | .foReservedMti _ _ => some 0x49
  | .dcsGsm7 _ _ _ _ _ => some 0x46
  | .dcs8bit _ _ _ _ _ => some 0x46
  | .dcsUcs2 _ _ _ _ _ => some 0x46
  | .dcsReserved _ _ _ _ _ => some 0x46
  | .toa _ _ _ _ => some 0x22
  | .toaInternational _ _ => some 0x22
  | .toaUnknown _ _ => some 0x22
  | .toaAlphanumeric _ _ => some 0x22
  | .toaBit7Clear _ _ _ => some 0x22
  | .ieiConcat8 _ => some 0x34
  | .ieiConcat16 _ => some 0x34
  | .ieiOther _ _ => some 0x34
  | .smscNone _ => some 0x51
  | .smscPresent _ _ => some 0x51
  | .gsm7Escape _ => some 0x11
  | .gsm7Default _ _ => some 0x11
  | .segment _ _ => none
  | .collect _ => none
  | .rsmCfg _ => none
  | .send _ => none
  | .sendExpect _ _ => none
  | .simpleQuery _ => none
  | .close => none
  | .lnCfg _ => none
  | .expire => none
  | .lnRx _ => none
  | .lnTimeout => none
  | .lnEos => none
  | .frameCommit _ => none
  | .frameAbort _ => none
  | .lineCr => none
  | .lineLf => none

end Sys2Proof.Machine
end

