-- ==== Sys2Proof/Certificates/Slice0/Obligations.lean ====
section
/-! DEFINITION. The statements for the provers.  Each says in its docstring which rules of spec/ it formalises; a clause that
rests on a choice of the model names the assumption-log entry. -/

open Sys2Proof Sys2Proof.Machine

/-! ### The step, the command port, reset -/

/-- R21, R26: a step whose turn is the command port runs the instruction presented there, takes its octets off the port
and lets time pass (R24); with nothing presented the engine is idle (R332); octets that are no instruction are refused by
name (R86, R43).  The presentation as octets is the model's (notes/assumptions/4.md, 8.md). -/
def Obligations.StepRunsPresented : Prop :=
  ∀ s : State, s.nextTurn = .instr →
    (∀ i rest, decode s.port = .ok (i, rest) → i.wf = true ∧ step s = exec i { s.turned with port := rest }) ∧
    (s.port = [] → step s = .next s.turned) ∧
    (∀ e, s.port ≠ [] → decode s.port = .error e →
      (e = .noSuchOperation → step s = .refused .noSuchOperation) ∧
      (e = .truncated → step s = .refused .truncatedCommand) ∧
      (e = .illTyped → step s = .refused .illTyped))

/-- Decoding reads back what the encoder writes, for every well-formed instruction of every family and every operand
(notes/assumptions/4.md: the presentation is the model's; the wire octets in it are those of R71 to R84). -/
def Obligations.DecodeEncodeAgree : Prop :=
  ∀ (i : Instr) (rest : Octets), i.wf = true → decode (encode i ++ rest) = .ok (i, rest)

/-- Words written out octet by octet decode to the instruction they stand for.  The octet form of an operation (one word of
code and format, operands with their lengths) is the model's (notes/assumptions/4.md); the codes in the words are those of
R90, the wire values those of R71, R72, R78, R79, R83, R84, R91. -/
def Obligations.KnownWordsDecode : Prop :=
  decode [0x16, 0x00, 0x02, 0xDE, 0xAD] = .ok (.oct8 [0xDE, 0xAD], []) ∧
  decode [0x12, 0x00, 0x02, 0x68, 0x65, 0x01] = .ok (.pack7 [0x68, 0x65] 1, []) ∧
  decode [0x22, 0x00, 0x05, 0x81, 0x03, 0x21, 0x43, 0xF5] =
    .ok (.addrDec { len := 5, toa := 0x81, val := [0x21, 0x43, 0xF5] }, []) ∧
  decode [0x34, 0x00, 0x01, 0x00, 0x03, 0x42, 0x02, 0x01] =
    .ok (.udhGetconcat [{ iei := 0x00, ied := [0x42, 0x02, 0x01] }], []) ∧
  decode [0x50, 0x00, 0x00, 0x02, 0x01, 0x00] = .ok (.frameEnc none [0x01, 0x00], []) ∧
  decode [0x71, 0x00, 0x01, 0x1E] = .ok (.rsmCfg (some 30), []) ∧
  decode [0x82, 0x00, 0x02, 0x41, 0x54] = .ok (.send [0x41, 0x54], []) ∧
  decode [0xE1, 0x00, 0x0D] = .ok (.lnRx 0x0D, []) ∧
  decode [0x31, 0x01, 0x01, 0x2A] = .ok (.foSubmitVpRelative false false true false [0x2A], []) ∧
  decode [0x44, 0x01, 0x00] = .ok (.foDeliver false true false false false true [], []) ∧
  decode [0xF4, 0x02, 0x00, 0x01, 0x00] = .ok (.dcs8bit 7 true 0 false [0x00], []) ∧
  decode [0x91, 0x03, 0x01, 0x01, 0xF1] = .ok (.toaInternational 1 [0xF1], []) ∧
  decode [0x24, 0x04, 0x01, 0x01] = .ok (.ieiOther 0x24 [0x01], []) ∧
  decode [0x07, 0x05, 0x00] = .ok (.smscPresent 7 [], []) ∧
  decode [0x1B, 0x06, 0x01, 0x65] = .ok (.gsm7Escape [0x65], []) ∧
  decode [0x0A, 0x07] = .ok (.lineLf, [])

/-- R42, R331: what reset leaves, for every value of the open parameters (`REFCNT_RESET` among them) where `RQ_CAP` has
its default 100; `p.second` is the 1 second of `CMD_TIMEOUT` in the unit of `NOW`.  `State.reset` is the case of
`Config.defaults` (notes/assumptions/1.md, 2.md, 3.md).  And the state right after reset is a good state (R38, R40),
whatever the parameters. -/
def Obligations.ResetState : Prop :=
  State.reset = State.resetWith Config.defaults ∧ (∀ p : Config.Params, Inv (State.resetWith p)) ∧
  ∀ p : Config.Params, p.rqCap = 100 →
    let s := State.resetWith p
    s.refcnt = p.refcntReset ∧ s.rsm = [] ∧ s.rsmDeadline = none ∧ s.closed = false ∧ s.cur = [] ∧ s.rq = [] ∧
    s.lock = .free ∧ s.dstate = .idle ∧ s.lbuf = [] ∧ s.txn = none ∧ s.waiters = [] ∧ s.cmdTimeout = p.second ∧
    s.params.rqCap = 100 ∧
    s.port = [] ∧ s.out = [] ∧
    s.finals = [ascii "OK", ascii "ERROR", ascii "NO CARRIER", ascii "NO ANSWER", ascii "NO DIALTONE", ascii "BUSY",
      ascii "CONNECT", ascii "+CME ERROR", ascii "+CMS ERROR", ascii "+CIS ERROR", ascii ">"] ∧
    s.urcs = [ascii "RING", ascii "+CRING", ascii "+CLIP", ascii "+CLCC", ascii "+CCWA", ascii "+COLP", ascii "+CSSI",
      ascii "+CSSU", ascii "NO CARRIER", ascii "BUSY", ascii "NO ANSWER", ascii "NO DIALTONE", ascii "+CMTI",
      ascii "+CMT", ascii "+CDS", ascii "+CBM", ascii "+CNMA", ascii "+CREG", ascii "+CGREG", ascii "+CEREG",
      ascii "+C5GREG", ascii "+CIREG", ascii "+COPS", ascii "+CSQ", ascii "+CTZV", ascii "+CTZU", ascii "+CGEV",
      ascii "+CIEV", ascii "+CPIN", ascii "+CUSD", ascii "+RDY", ascii "+BOOT", ascii "+CIPOPEN", ascii "+CIPCLOSE",
      ascii "+CIPRXGOT", ascii "+CIPSEND"] ∧
    s.cmdset.lookup (ascii "Test") = some (ascii "AT") ∧
    s.cmdset.lookup (ascii "SignalQuality") = some (ascii "AT+CSQ") ∧
    s.cmdset.lookup (ascii "SendSms") = some (ascii "AT+CMGS")

/-! ### The whole machine -/

/-- Every step keeps what R38, R40, R241, R262, R270, R272 and R278 say holds between steps: the reassembly table in its
canonical form with every group incomplete, non-empty and holding only segments that belong where they stand; `RQ` within
`RQ_CAP`; `LBUF` free of terminators; the dispatcher's lock, transaction, current command and state in agreement. -/
def Obligations.StepKeepsInvariant : Prop := ∀ s t : State, Inv s → step s = .next t → Inv t

/-- R22, R306, R314: every instruction answers a next state, in every state and with every operand, but for the three inputs
to which the spec gives no meaning: TP-MTI 10 under the policy `refuse` (R196), a new group in a full finite table (U6),
an octet into a full finite line buffer (U8).  That an agent step answers a next state where it is not enabled is
the model's choice (notes/assumptions/9.md), and that the 27 wire values are instructions at all is too
(notes/assumptions/6.md). -/
def Obligations.EveryInstructionCompletes : Prop :=
  ∀ (i : Instr) (s : State),
    (∃ t, exec i s = .next t) ∨
    (exec i s = .refused .statusReport ∧ s.params.statusReport = .refuse ∧
      ((∃ fo rest, i = .tpduParse (fo :: rest) ∧ fo.toNat % 4 = 2) ∨ ∃ x rest, i = .foStatusReport x rest)) ∨
    (exec i s = .refused .reassemblyTableFull ∧ (∃ t, i = .collect t) ∧
      ∃ n, s.params.rsmCap = some n ∧ n ≤ s.rsm.length) ∨
    (exec i s = .refused .lineBufferFull ∧ (∃ b, i = .lnRx b) ∧ ∃ n, s.params.lbufCap = some n ∧ n ≤ s.lbuf.length)

/-- R36, R37, R38, R40: which instruction may write which element of the state; the parameters, `NOW`, the command port
and the schedule are written by no instruction. -/
def Obligations.StateWriters : Prop :=
  ∀ (i : Instr) (s t : State), exec i s = .next t →
    (t.refcnt ≠ s.refcnt → ∃ p dest, i = .segment p dest) ∧
    (t.rsm ≠ s.rsm → (∃ d, i = .collect d) ∨ i = .expire) ∧
    (t.rsmDeadline ≠ s.rsmDeadline → ∃ d, i = .rsmCfg d) ∧
    ((t.finals ≠ s.finals ∨ t.urcs ≠ s.urcs ∨ t.cmdset ≠ s.cmdset ∨ t.cmdTimeout ≠ s.cmdTimeout) → ∃ v, i = .lnCfg v) ∧
    (t.closed ≠ s.closed → i = .close ∧ t.closed = true) ∧
    ((t.cur ≠ s.cur ∨ t.lock ≠ s.lock ∨ t.dstate ≠ s.dstate ∨ t.txn ≠ s.txn) →
      (sendForm i).isSome ∨ i = .close ∨ i = .lnTimeout) ∧
    (t.rq ≠ s.rq → (sendForm i).isSome ∨ isReceive i = true) ∧
    (t.lbuf ≠ s.lbuf → isReceive i = true) ∧
    (t.waiters ≠ s.waiters → (sendForm i).isSome ∨ i = .close) ∧
    (t.rxEnded ≠ s.rxEnded → i = .lnEos) ∧
    (t.txIn ≠ s.txIn → (sendForm i).isSome) ∧ (t.picks ≠ s.picks → i = .expire) ∧
    t.params = s.params ∧ t.now = s.now ∧ t.port = s.port ∧ t.turns = s.turns ∧ t.nowIn = s.nowIn

/-- R306 with R22: a codec command, a wire value that a codec command reads, `LN_PARSE`, `LN_CLASSIFY` and `IS_OPEN` put out
exactly one result and write no state; `SEGMENT` and `COLLECT` too put out exactly one result, and where it is an error
they have written no state.  Which codec command reads a wire value, and so the code its result has, is the model's
reading (notes/assumptions/6.md). -/
def Obligations.ErrorsArePrecise : Prop :=
  (∀ (i : Instr) (s t : State) (op : Byte), pureCode i = some op → exec i s = .next t →
    ∃ r, t = { s with out := s.out ++ [.result op r] }) ∧
  (∀ (p : Payload) (dest : Ascii) (s t : State), exec (.segment p dest) s = .next t →
    ∃ r, t = { s with out := s.out ++ [.result 0x60 r], refcnt := t.refcnt } ∧
      ((∃ k, r = .err k) → t.refcnt = s.refcnt)) ∧
  (∀ (d : Deliver) (s t : State), exec (.collect d) s = .next t →
    ∃ r, t = { s with out := s.out ++ [.result 0x70 r], rsm := t.rsm } ∧ ((∃ k, r = .err k) → t.rsm = s.rsm))

/-- R24: `NOW` never decreases; R39: `CLOSED` only goes from 0 to 1; R282: the end of `RX` is for ever; R26: nothing that
crossed a port is taken back.  No step writes a parameter (R9). -/
def Obligations.HistoryOnlyGrows : Prop :=
  ∀ s t : State, step s = .next t →
    s.now ≤ t.now ∧ (∃ new, t.out = s.out ++ new) ∧ (s.closed = true → t.closed = true) ∧
    (s.rxEnded = true → t.rxEnded = true) ∧ t.params = s.params

/-! ### Alphabets (40_alphabet.md) -/

/-- R104: `GSM7_ENC` writes each character by the default table, else by the extension table after 0x1B; one character in
neither table makes it raise `UnsupportedAlphabet`. -/
def Obligations.Gsm7EncodesByTables : Prop :=
  ∀ (t : Text) (s : State),
    let code := fun c : Char =>
      match septetOf defaultTable c, septetOf extTable c with
      | some q, _ => some [q]
      | none, some q => some [0x1B, q]
      | none, none => none
    ((∀ c ∈ t, code c ≠ none) →
      Replies (.gsm7Enc t) s 0x10 (.ok (.septets (t.flatMap fun c => (code c).getD [])))) ∧
    ((∃ c ∈ t, code c = none) → Replies (.gsm7Enc t) s 0x10 (.err .unsupportedAlphabet))

/-- R107, R105: `GSM7_DEC` answers the text that `GSM7_ENC` encodes to these septets; where there is none (the escape last,
or before a code with no entry) it raises `UnsupportedAlphabet`; and the source's round trip through packed octets, with
any fill. -/
def Obligations.Gsm7RoundTrip : Prop :=
  ∀ (q : Septets) (s : State),
    (∀ t, Replies (.gsm7Enc t) s 0x10 (.ok (.septets q)) →
      Replies (.gsm7Dec q) s 0x11 (.ok (.text t)) ∧
      ∀ k, ∃ o, Replies (.pack7 q k) s 0x12 (.ok (.octets o)) ∧
        ∃ q', Replies (.unpack7 o q.length k) s 0x13 (.ok (.septets q')) ∧
          Replies (.gsm7Dec q') s 0x11 (.ok (.text t))) ∧
    ((∀ t, ¬ Replies (.gsm7Enc t) s 0x10 (.ok (.septets q))) →
      Replies (.gsm7Dec q) s 0x11 (.err .unsupportedAlphabet))

/-- R108, R54: `PACK7` in closed form, `ceil((k + 7L) / 8)` octets of the sum of the shifted septets; its accumulator form,
the source's algorithm, gives the same octets.  R110: the size law, with the corrected bound. -/
def Obligations.Pack7BitStream : Prop :=
  ∀ (q : Septets) (k : Fin 7) (s : State),
    let n := ((List.range q.length).map fun j => (q.getD j 0).toNat * 2 ^ (k.val + 7 * j)).sum
    ∃ o, Replies (.pack7 q k) s 0x12 (.ok (.octets o)) ∧ o.length = (k.val + 7 * q.length + 7) / 8 ∧
      (∀ i, i < o.length → (o.getD i 0).toNat = n / 2 ^ (8 * i) % 256) ∧ pack7Acc q k.val = o ∧
      (k = 0 → 7 * q.length ≤ 8 * o.length ∧ 8 * o.length ≤ 7 * q.length + 7)

/-- R109: `UNPACK7` reads septet `j` at bit `k + 7j` of the octets' bit stream, and raises `BadPdu` exactly where they hold
too few bits. -/
def Obligations.Unpack7BitStream : Prop :=
  ∀ (o : Octets) (l : Nat) (k : Fin 7) (s : State),
    let n := ((List.range o.length).map fun i => (o.getD i 0).toNat * 2 ^ (8 * i)).sum
    (k.val + 7 * l ≤ o.length * 8 → ∃ q : Septets, Replies (.unpack7 o l k) s 0x13 (.ok (.septets q)) ∧ q.length = l ∧
      ∀ j, j < l → (q.getD j 0).toNat = n / 2 ^ (k.val + 7 * j) % 128) ∧
    (o.length * 8 < k.val + 7 * l → Replies (.unpack7 o l k) s 0x13 (.err .badPdu))

/-- R112, R51: `UCS2_ENC` writes each scalar as one big-endian code unit, or as a surrogate pair above U+FFFF. -/
def Obligations.Ucs2EncodesBigEndian : Prop :=
  ∀ (t : Text) (s : State),
    Replies (.ucs2Enc t) s 0x14 (.ok (.octets (t.flatMap fun c =>
      let v := c.toNat
      if v < 0x10000 then [BitVec.ofNat 8 (v / 256), BitVec.ofNat 8 v]
      else
        let hi := 0xD800 + (v - 0x10000) / 1024
        let lo := 0xDC00 + (v - 0x10000) % 1024
        [BitVec.ofNat 8 (hi / 256), BitVec.ofNat 8 hi, BitVec.ofNat 8 (lo / 256), BitVec.ofNat 8 lo])))

/-- R114, both directions: `UCS2_DEC` answers `t` exactly on the octets `UCS2_ENC` writes for `t`; on octets that no text
encodes to (R113: an odd number, an unpaired surrogate) it raises `BadPdu`. -/
def Obligations.Ucs2RoundTrip : Prop :=
  ∀ (o : Octets) (s : State),
    (∀ t, Replies (.ucs2Enc t) s 0x14 (.ok (.octets o)) ↔ Replies (.ucs2Dec o) s 0x15 (.ok (.text t))) ∧
    ((∀ t, ¬ Replies (.ucs2Enc t) s 0x14 (.ok (.octets o))) → Replies (.ucs2Dec o) s 0x15 (.err .badPdu))

/-! ### Addresses (41_address.md) -/

/-- R131, R53: `ADDR_ENC` keeps the digits, counts them, takes the type from a leading `+`, lays two digits to an octet with
the earlier in the low nibble and pads an odd count with nibble 0xF; more than 20 digits raise `BadAddress`.  R134:
`ADDR_ENC_ALNUM` counts semi-octets, writes type 0xD0 and the packed septets; a character in no table raises
`UnsupportedAlphabet`, more than 11 septets `BadAddress`. -/
def Obligations.AddressEncodes : Prop :=
  (∀ (a : Ascii) (s : State),
    let d := (a.filter fun c => decide (0x30 ≤ c.toNat ∧ c.toNat ≤ 0x39)).map fun c => c.toNat - 0x30
    (20 < d.length → Replies (.addrEnc a) s 0x20 (.err .badAddress)) ∧
    (d.length ≤ 20 → ∃ v : Octets,
      Replies (.addrEnc a) s 0x20 (.ok (.address
        { len := BitVec.ofNat 8 d.length, toa := if a.head? = some 0x2B then 0x91 else 0x81, val := v })) ∧
      v.length = (d.length + 1) / 2 ∧
      ∀ i, i < v.length → (v.getD i 0).toNat = 16 * (d ++ [0xF]).getD (2 * i + 1) 0 + d.getD (2 * i) 0)) ∧
  (∀ (t : Text) (s : State),
    (Replies (.gsm7Enc t) s 0x10 (.err .unsupportedAlphabet) →
      Replies (.addrEncAlnum t) s 0x21 (.err .unsupportedAlphabet)) ∧
    (∀ q, Replies (.gsm7Enc t) s 0x10 (.ok (.septets q)) →
      (11 < q.length → Replies (.addrEncAlnum t) s 0x21 (.err .badAddress)) ∧
      (q.length ≤ 11 → ∃ v, Replies (.pack7 q 0) s 0x12 (.ok (.octets v)) ∧
        Replies (.addrEncAlnum t) s 0x21 (.ok (.address
          { len := BitVec.ofNat 8 ((7 * q.length + 3) / 4), toa := 0xD0, val := v })))))

/-- R136, R135: `ADDR_DEC`, for every address of its type.  Numeric: the first `len` nibbles, low nibble first, as digits,
with `+` exactly for TON 001; a nibble above 9 among them, or a pad nibble other than 0xF, raises `BadAddress`.
Alphanumeric: the text of `floor(4 × len / 7)` unpacked septets. -/
def Obligations.AddressDecodes : Prop :=
  ∀ (a : Address) (s : State), a.wf = true →
    let ton := a.toa.toNat / 16 % 8
    let n := a.len.toNat
    let nib := fun i => if i % 2 = 0 then (a.val.getD (i / 2) 0).toNat % 16 else (a.val.getD (i / 2) 0).toNat / 16
    let good := (n % 2 = 1 → nib n = 0xF) ∧ ∀ i, i < n → nib i ≤ 9
    (ton ≠ 5 → good → Replies (.addrDec a) s 0x22 (.ok (.ascii
      ((if ton = 1 then [0x2B] else []) ++ (List.range n).map fun i => BitVec.ofNat 8 (0x30 + nib i))))) ∧
    (ton ≠ 5 → ¬ good → Replies (.addrDec a) s 0x22 (.err .badAddress)) ∧
    (ton = 5 → ∃ q, Replies (.unpack7 a.val (4 * n / 7) 0) s 0x13 (.ok (.septets q)) ∧
      (∀ t, Replies (.gsm7Dec q) s 0x11 (.ok (.text t)) → Replies (.addrDec a) s 0x22 (.ok (.text t))) ∧
      (∀ k, Replies (.gsm7Dec q) s 0x11 (.err k) → Replies (.addrDec a) s 0x22 (.err k)))

/-- R137: the round trip of a phone number (every character but the digits and a leading `+` removed), of a text in an
alphanumeric address, and the failure of the other direction. -/
def Obligations.AddressRoundTrip : Prop :=
  (∀ (n : Ascii) (s : State),
    let d := n.filter fun c => decide (0x30 ≤ c.toNat ∧ c.toNat ≤ 0x39)
    d.length ≤ 20 → ∃ a, Replies (.addrEnc n) s 0x20 (.ok (.address a)) ∧
      Replies (.addrDec a) s 0x22 (.ok (.ascii ((if n.head? = some 0x2B then [0x2B] else []) ++ d)))) ∧
  (∀ (t : Text) (q : Septets) (s : State), Replies (.gsm7Enc t) s 0x10 (.ok (.septets q)) → q.length ≤ 11 →
    ∃ a, Replies (.addrEncAlnum t) s 0x21 (.ok (.address a)) ∧ Replies (.addrDec a) s 0x22 (.ok (.text t))) ∧
  (∃ (a a' : Address) (n : Ascii) (s : State), a.wf = true ∧ Replies (.addrDec a) s 0x22 (.ok (.ascii n)) ∧
    Replies (.addrEnc n) s 0x20 (.ok (.address a')) ∧ a' ≠ a)

/-- R138, R140: `ADDR_SER` writes the three fields; `ADDR_PARSE` reads them back, whatever follows; and what `ADDR_PARSE`
accepts, `ADDR_SER` writes again as the slice it was read from.  R139, R309: when `ADDR_PARSE` answers and which error it
raises where, in the order tested. -/
def Obligations.AddressOctetsRoundTrip : Prop :=
  (∀ (a : Address) (s : State), Replies (.addrSer a) s 0x23 (.ok (.octets (a.len :: a.toa :: a.val)))) ∧
  (∀ (a : Address) (rest : Octets) (s : State), a.wf = true → a.toa.getLsbD 7 = true →
    Replies (.addrParse (a.len :: a.toa :: a.val ++ rest) 0) s 0x24 (.ok (.addressAt a (2 + a.val.length)))) ∧
  (∀ (o : Octets) (pos pos' : Nat) (a : Address) (s : State),
    Replies (.addrParse o pos) s 0x24 (.ok (.addressAt a pos')) →
    Replies (.addrSer a) s 0x23 (.ok (.octets ((o.drop pos).take (pos' - pos))))) ∧
  (∀ (o : Octets) (pos : Nat) (s : State),
    let len := o.getD pos 0
    let toa := o.getD (pos + 1) 0
    let m := (len.toNat + 1) / 2
    (o.length < pos + 2 → Replies (.addrParse o pos) s 0x24 (.err .badPdu)) ∧
    (pos + 2 ≤ o.length → toa.getLsbD 7 = false → Replies (.addrParse o pos) s 0x24 (.err .badAddress)) ∧
    (pos + 2 ≤ o.length → toa.getLsbD 7 = true → o.length < pos + 2 + m →
      Replies (.addrParse o pos) s 0x24 (.err .badPdu)) ∧
    (toa.getLsbD 7 = true → pos + 2 + m ≤ o.length →
      Replies (.addrParse o pos) s 0x24 (.ok (.addressAt
        { len := len, toa := toa, val := (o.drop (pos + 2)).take m } (pos + 2 + m)))))

/-! ### User-data headers (42_udh.md) -/

/-- R151, R152: `UDH_ENC` writes UDHL and the elements in order; a header above 255 octets raises `BadUdh`. -/
def Obligations.HeaderEncodes : Prop :=
  ∀ (h : List IE) (s : State),
    let n := (h.map fun e => 2 + e.ied.length).sum
    (n ≤ 255 → Replies (.udhEnc h) s 0x30 (.ok (.octets
      (BitVec.ofNat 8 n :: h.flatMap fun e => e.iei :: BitVec.ofNat 8 e.ied.length :: e.ied)))) ∧
    (255 < n → Replies (.udhEnc h) s 0x30 (.err .badUdh))

/-- R154, R153: `UDH_DEC` reads back what `UDH_ENC` writes, whatever follows and under any limit that leaves room; what it
accepts, `UDH_ENC` writes again as the slice it was read from; and every input of its type that it does not accept raises
`BadUdh`. -/
def Obligations.HeaderRoundTrip : Prop :=
  (∀ (h : List IE) (rest : Octets) (limit : Nat) (s : State), udhl h ≤ 255 → 1 + udhl h ≤ limit →
    ∃ e, Replies (.udhEnc h) s 0x30 (.ok (.octets e)) ∧
      Replies (.udhDec (e ++ rest) 0 limit) s 0x31 (.ok (.elementsAt h (1 + udhl h)))) ∧
  (∀ (o : Octets) (pos limit : Nat) (s : State), limit ≤ o.length →
    (∃ h pos', Replies (.udhDec o pos limit) s 0x31 (.ok (.elementsAt h pos')) ∧ pos' ≤ limit ∧
      Replies (.udhEnc h) s 0x30 (.ok (.octets ((o.drop pos).take (pos' - pos))))) ∨
    (Replies (.udhDec o pos limit) s 0x31 (.err .badUdh) ∧
      ∀ h e, Replies (.udhEnc h) s 0x30 (.ok (.octets e)) → pos + e.length ≤ limit →
        (o.drop pos).take e.length ≠ e))

/-- R155, R156, R158: the two concatenation constructors answer exactly on operands in range, with the reference big-endian
in the 16-bit form, and `UDH_GETCONCAT` reads their elements back.  R157: `UDH_GETCONCAT` skips every identifier but 0x00
and 0x08; it answers `none` where no such element is left, the element's numbers where one is left and well-formed, and
raises `BadUdh` where it is malformed or there are two. -/
def Obligations.ConcatElements : Prop :=
  (∀ (ref total seq : Nat) (s : State),
    let ok := 2 ≤ total ∧ total ≤ 255 ∧ 1 ≤ seq ∧ seq ≤ total
    let e8 : IE := { iei := 0x00, ied := [BitVec.ofNat 8 ref, BitVec.ofNat 8 total, BitVec.ofNat 8 seq] }
    let e16 : IE :=
      { iei := 0x08, ied := [BitVec.ofNat 8 (ref / 256), BitVec.ofNat 8 ref, BitVec.ofNat 8 total, BitVec.ofNat 8 seq] }
    (ref ≤ 255 ∧ ok → Replies (.udhConcat8 ref total seq) s 0x32 (.ok (.element e8)) ∧
      Replies (.udhGetconcat [e8]) s 0x34 (.ok (.concat (some
        { w := .w8, ref := BitVec.ofNat 16 ref, total := BitVec.ofNat 8 total, seq := BitVec.ofNat 8 seq })))) ∧
    (¬ (ref ≤ 255 ∧ ok) → Replies (.udhConcat8 ref total seq) s 0x32 (.err .badUdh)) ∧
    (ref ≤ 65535 ∧ ok → Replies (.udhConcat16 ref total seq) s 0x33 (.ok (.element e16)) ∧
      Replies (.udhGetconcat [e16]) s 0x34 (.ok (.concat (some
        { w := .w16, ref := BitVec.ofNat 16 ref, total := BitVec.ofNat 8 total, seq := BitVec.ofNat 8 seq })))) ∧
    (¬ (ref ≤ 65535 ∧ ok) → Replies (.udhConcat16 ref total seq) s 0x33 (.err .badUdh))) ∧
  (∀ (h : List IE) (s : State),
    let es := h.filter fun e => e.iei == 0x00 || e.iei == 0x08
    let inRange := fun total seq : Byte => 2 ≤ total.toNat ∧ 1 ≤ seq.toNat ∧ seq.toNat ≤ total.toNat
    (es = [] → Replies (.udhGetconcat h) s 0x34 (.ok (.concat none))) ∧
    (∀ r total seq : Byte, es = [{ iei := 0x00, ied := [r, total, seq] }] → inRange total seq →
      Replies (.udhGetconcat h) s 0x34 (.ok (.concat (some
        { w := .w8, ref := r.setWidth 16, total := total, seq := seq })))) ∧
    (∀ r1 r0 total seq : Byte, es = [{ iei := 0x08, ied := [r1, r0, total, seq] }] → inRange total seq →
      Replies (.udhGetconcat h) s 0x34 (.ok (.concat (some
        { w := .w16, ref := BitVec.ofNat 16 (256 * r1.toNat + r0.toNat), total := total, seq := seq })))) ∧
    (es ≠ [] →
      (∀ r total seq : Byte, es = [{ iei := 0x00, ied := [r, total, seq] }] → ¬ inRange total seq) →
      (∀ r1 r0 total seq : Byte, es = [{ iei := 0x08, ied := [r1, r0, total, seq] }] → ¬ inRange total seq) →
      Replies (.udhGetconcat h) s 0x34 (.err .badUdh)))

/-! ### TPDUs (43_tpdu.md) -/

/-- R172, R173, R174: the alphabet is bits [3:2] and the flash flag bit 4 of every octet; `DCS_MK` writes 0x00, 0x04 or 0x08
with 0x10 for flash, and the two readers read it back. -/
def Obligations.DataCodingOctets : Prop :=
  ∀ s : State,
    (∀ d : Byte,
      (d &&& 0x0C = 0x00 → Replies (.dcsAlpha d) s 0x41 (.ok (.alphabet (some .gsm7)))) ∧
      (d &&& 0x0C = 0x04 → Replies (.dcsAlpha d) s 0x41 (.ok (.alphabet (some .bit8)))) ∧
      (d &&& 0x0C = 0x08 → Replies (.dcsAlpha d) s 0x41 (.ok (.alphabet (some .ucs2)))) ∧
      (d &&& 0x0C = 0x0C → Replies (.dcsAlpha d) s 0x41 (.ok (.alphabet none))) ∧
      Replies (.dcsFlash d) s 0x42 (.ok (.bit (d &&& 0x10 != 0)))) ∧
    (∀ (a : Alphabet) (flash : Bool),
      let d : Byte := (if a = .gsm7 then 0x00 else if a = .bit8 then 0x04 else 0x08) ||| if flash then 0x10 else 0x00
      Replies (.dcsMk a flash) s 0x40 (.ok (.octet d)) ∧ Replies (.dcsAlpha d) s 0x41 (.ok (.alphabet (some a))) ∧
        Replies (.dcsFlash d) s 0x42 (.ok (.bit flash)))

/-- R178: the round trip of the time stamp in both directions, minus zero coming back as plus zero.  R176, R85 (c), (d), (j):
the fields `SCTS_DEC` reads, for every seven octets without a nibble above 9; and `BadPdu` for all others. -/
def Obligations.TimestampRoundTrip : Prop :=
  (∀ (ts : Timestamp) (s : State), ts.wf = true →
    ∃ o, Replies (.sctsEnc ts) s 0x44 (.ok (.octets (octets7 o))) ∧ Replies (.sctsDec o) s 0x43 (.ok (.timestamp ts))) ∧
  (∀ (o : Octets7) (ts : Timestamp) (s : State), Replies (.sctsDec o) s 0x43 (.ok (.timestamp ts)) →
    ts.wf = true ∧
    (o.o6 ≠ 0x08 → Replies (.sctsEnc ts) s 0x44 (.ok (.octets (octets7 o)))) ∧
    (o.o6 = 0x08 → Replies (.sctsEnc ts) s 0x44 (.ok (.octets (octets7 { o with o6 := 0x00 }))))) ∧
  (∀ (o : Octets7) (s : State),
    let lo := fun b : Byte => b.toNat % 16
    let hi := fun b : Byte => b.toNat / 16
    let v := fun b : Byte => lo b * 10 + hi b
    let q : Nat := o.o6.toNat % 8 * 10 + hi o.o6
    let good := (∀ b ∈ [o.o0, o.o1, o.o2, o.o3, o.o4, o.o5], lo b ≤ 9 ∧ hi b ≤ 9) ∧ hi o.o6 ≤ 9
    (good → Replies (.sctsDec o) s 0x43 (.ok (.timestamp
      { year := if v o.o0 < 70 then 2000 + v o.o0 else 1900 + v o.o0, month := v o.o1, day := v o.o2, hour := v o.o3,
        minute := v o.o4, second := v o.o5,
        tzMin := if o.o6.getLsbD 3 then -(15 * (q : Int)) else 15 * (q : Int) }))) ∧
    (¬ good → Replies (.sctsDec o) s 0x43 (.err .badPdu)))

/-- R181, R44, R180, R309: what `UD_BUILD` answers, and its errors in their order. -/
def Obligations.UserDataBuilds : Prop :=
  ∀ (dcs : Byte) (udh : Option (List IE)) (body : Body) (s : State),
    let named := dcs &&& 0x0C ≠ 0x0C
    let fits := dcs &&& 0x0C = 0x00 ↔ ∃ q, body = .septets q
    let headerFits := ∀ h, udh = some h → udhl h ≤ 255
    let hdr := (udh.map headerWire).getD []
    let fill := fun h => (7 - (udhl h + 1) * 8 % 7) % 7
    (¬ named → Replies (.udBuild dcs udh body) s 0x45 (.err .unsupportedAlphabet)) ∧
    (named → ¬ fits → Replies (.udBuild dcs udh body) s 0x45 (.err .badPdu)) ∧
    (named → fits → ¬ headerFits → Replies (.udBuild dcs udh body) s 0x45 (.err .badUdh)) ∧
    (named → fits → headerFits → 140 < udSize udh body → Replies (.udBuild dcs udh body) s 0x45 (.err .badPdu)) ∧
    (named → fits → headerFits → udSize udh body ≤ 140 →
      udlOf udh body ≤ 160 ∧ ∃ ud, ud.length = udSize udh body ∧
        Replies (.udBuild dcs udh body) s 0x45 (.ok (.userData (udlOf udh body) ud)) ∧
        (∀ o, body = .octets o → ud = hdr ++ o) ∧
        (∀ q, body = .septets q → udh = none → ud = pack7 q 0) ∧
        (∀ q h, body = .septets q → udh = some h → ud = hdr ++ pack7 q (fill h)))

/-- R184: `UD_SPLIT` reads back what `UD_BUILD` writes. -/
def Obligations.UserDataRoundTrip : Prop :=
  ∀ (dcs : Byte) (udh : Option (List IE)) (body : Body) (udl : Nat) (ud : Octets) (s : State),
    Replies (.udBuild dcs udh body) s 0x45 (.ok (.userData udl ud)) →
    Replies (.udSplit dcs udh.isSome (BitVec.ofNat 8 udl :: ud) 0) s 0x46 (.ok (.split udh body (1 + ud.length)))

/-- R182, R309: the errors of `UD_SPLIT` in their order, and what it answers on every input it accepts: under TP-UDHI the
header `UDH_DEC` reads, whose errors it passes on, then the payload behind it (`UNPACK7` past the header's septets and the
fill bits, whatever their value, or the octets as they stand); a header longer than TP-UDL raises `BadUdh`. -/
def Obligations.UserDataSplits : Prop :=
  ∀ (dcs : Byte) (udhi : Bool) (o : Octets) (pos : Nat) (s : State),
    let splits := Replies (.udSplit dcs udhi o pos) s 0x46
    let named := dcs &&& 0x0C ≠ 0x0C
    let gsm7 := dcs &&& 0x0C = 0x00
    let udl := (o.getD pos 0).toNat
    let n := if gsm7 then (7 * udl + 7) / 8 else udl
    let u := (o.getD (pos + 1) 0).toNat
    let hs := ((u + 1) * 8 + 6) / 7
    let fill := Fin.ofNat 7 (7 - (u + 1) * 8 % 7)
    let reads := fun (payload : Octets) (count : Nat) (k : Fin 7) (udh : Option (List IE)) =>
      (gsm7 → ∃ q, Replies (.unpack7 payload count k) s 0x13 (.ok (.septets q)) ∧
        splits (.ok (.split udh (.septets q) o.length))) ∧
      (¬ gsm7 → splits (.ok (.split udh (.octets payload) o.length)))
    (¬ named → splits (.err .unsupportedAlphabet)) ∧
    (named → (o.length ≤ pos ∨ 140 < n ∨ o.length ≠ pos + 1 + n) → splits (.err .badPdu)) ∧
    (named → n ≤ 140 → o.length = pos + 1 + n →
      (udhi = false → reads (o.drop (pos + 1)) udl 0 none) ∧
      (udhi = true →
        (Replies (.udhDec o (pos + 1) o.length) s 0x31 (.err .badUdh) ∧ splits (.err .badUdh)) ∨
        (∃ h p, Replies (.udhDec o (pos + 1) o.length) s 0x31 (.ok (.elementsAt h p)) ∧
          (gsm7 → udl < hs → splits (.err .badUdh)) ∧
          (gsm7 → hs ≤ udl → reads (o.drop p) (udl - hs) fill (some h)) ∧
          (¬ gsm7 → reads (o.drop p) 0 0 (some h)))) ∧
      ((udhi = true ∧ splits (.err .badUdh)) ∨
        (∃ udh body, splits (.ok (.split udh body o.length)) ∧ udh.isSome = udhi ∧
          (gsm7 ↔ ∃ q, body = .septets q) ∧ udlOf udh body = udl)))

/-- R190, R191, R74, R76, R71, R72: the octets of a serialised record, given those of its user data; a record whose user
data cannot be built raises the error of `UD_BUILD`. -/
def Obligations.TpduLayout : Prop :=
  (∀ (t : Submit) (s : State),
    (∀ udl ud, Replies (.udBuild t.dcs t.udh t.body) s 0x45 (.ok (.userData udl ud)) →
      ∃ fo : Byte, fo.toNat % 4 = 1 ∧ fo.getLsbD 2 = t.rd ∧ fo.getLsbD 5 = t.srr ∧ fo.getLsbD 6 = t.udh.isSome ∧
        fo.getLsbD 7 = t.rp ∧
        (match t.vp with
          | .absent => fo.toNat / 8 % 4 = 0
          | .relative _ => fo.toNat / 8 % 4 = 2
          | .enhanced _ => fo.toNat / 8 % 4 = 1
          | .absolute _ => fo.toNat / 8 % 4 = 3) ∧
        Replies (.tpduSerSubmit t) s 0x47 (.ok (.octets
          (fo :: t.mr :: t.da.len :: t.da.toa :: t.da.val ++ [t.pid, t.dcs] ++
            (match t.vp with
              | .absent => []
              | .relative b => [b]
              | .enhanced e => [e.o0, e.o1, e.o2, e.o3, e.o4, e.o5, e.o6]
              | .absolute e => [e.o0, e.o1, e.o2, e.o3, e.o4, e.o5, e.o6]) ++
            BitVec.ofNat 8 udl :: ud)))) ∧
    (∀ k, Replies (.udBuild t.dcs t.udh t.body) s 0x45 (.err k) → Replies (.tpduSerSubmit t) s 0x47 (.err k))) ∧
  (∀ (t : Deliver) (s : State),
    (∀ udl ud, Replies (.udBuild t.dcs t.udh t.body) s 0x45 (.ok (.userData udl ud)) →
      ∃ fo : Byte, fo.toNat % 4 = 0 ∧ fo.getLsbD 2 = t.mms ∧ fo.getLsbD 3 = t.lp ∧ fo.getLsbD 4 = false ∧
        fo.getLsbD 5 = t.sri ∧ fo.getLsbD 6 = t.udh.isSome ∧ fo.getLsbD 7 = t.rp ∧
        Replies (.tpduSerDeliver t) s 0x48 (.ok (.octets
          (fo :: t.oa.len :: t.oa.toa :: t.oa.val ++ [t.pid, t.dcs, t.scts.o0, t.scts.o1, t.scts.o2, t.scts.o3,
            t.scts.o4, t.scts.o5, t.scts.o6] ++ BitVec.ofNat 8 udl :: ud)))) ∧
    (∀ k, Replies (.udBuild t.dcs t.udh t.body) s 0x45 (.err k) → Replies (.tpduSerDeliver t) s 0x48 (.err k)))

/-- R198: parsing reads back every serialised well-formed record whose address type has bit 7 set. -/
def Obligations.TpduRoundTrip : Prop :=
  ∀ (t : Tpdu) (s : State), TpduOk t → addressTyped t →
    ∃ o, Replies (serInstr t) s (serCode t) (.ok (.octets o)) ∧ Replies (.tpduParse o) s 0x49 (.ok (.tpdu t))

/-- R199: an accepted octet string serialises back to an octet string of the same length that is canonical and parses to the
same record; where the string was canonical itself, it comes back unchanged.  R43: the record is well-formed. -/
def Obligations.CanonicalForm : Prop :=
  ∀ (o : Octets) (t : Tpdu) (s : State), Replies (.tpduParse o) s 0x49 (.ok (.tpdu t)) →
    TpduOk t ∧ addressTyped t ∧
    ∃ o', Replies (serInstr t) s (serCode t) (.ok (.octets o')) ∧ o'.length = o.length ∧ tpduCanonical o' ∧
      Replies (.tpduParse o') s 0x49 (.ok (.tpdu t)) ∧ (tpduCanonical o → o' = o)

/-- R193, R196, R73: TP-MTI 11 and the empty input raise `BadPdu`; TP-MTI 10 raises `BadPdu` under the policy `BadPdu` and is
given no meaning under the policy `refuse`; for every other input TP-MTI alone chooses the kind of the record.  That the two first-octet rows
stand for `TPDU_PARSE` of their octets is the model's reading (notes/assumptions/6.md).  The other errors of `TPDU_PARSE`
are in `TpduParses`. -/
def Obligations.MessageTypes : Prop :=
  ∀ (x : BitVec 6) (fo : Byte) (rest : Octets) (s : State),
    Replies (.tpduParse []) s 0x49 (.err .badPdu) ∧
    (fo.toNat % 4 = 3 → Replies (.tpduParse (fo :: rest)) s 0x49 (.err .badPdu)) ∧
    Replies (.foReservedMti x rest) s 0x49 (.err .badPdu) ∧
    (s.params.statusReport = .badPdu →
      (fo.toNat % 4 = 2 → Replies (.tpduParse (fo :: rest)) s 0x49 (.err .badPdu)) ∧
      Replies (.foStatusReport x rest) s 0x49 (.err .badPdu)) ∧
    (s.params.statusReport = .refuse →
      (fo.toNat % 4 = 2 → exec (.tpduParse (fo :: rest)) s = .refused .statusReport) ∧
      exec (.foStatusReport x rest) s = .refused .statusReport) ∧
    (fo.toNat % 4 = 0 → ∃ r, Replies (.tpduParse (fo :: rest)) s 0x49 r ∧ ∀ t, r ≠ .ok (.tpdu (.submit t))) ∧
    (fo.toNat % 4 = 1 → ∃ r, Replies (.tpduParse (fo :: rest)) s 0x49 r ∧ ∀ t, r ≠ .ok (.tpdu (.deliver t)))

/-- R193, R309, R182: `TPDU_PARSE` on every input with TP-MTI 01 or 00, the fields in wire order: an input that ends before a
field ends raises `BadPdu`; the errors of `ADDR_PARSE` and of `UD_SPLIT` are passed on; otherwise the record has every
field as it was read, whether or not the octets are the ones a serialiser writes. -/
def Obligations.TpduParses : Prop :=
  ∀ (fo : Byte) (rest : Octets) (s : State),
    let o := fo :: rest
    let parses := Replies (.tpduParse o) s 0x49
    let octet := fun i : Nat => o.getD i 0
    let seven := fun i : Nat =>
      ({ o0 := octet i, o1 := octet (i + 1), o2 := octet (i + 2), o3 := octet (i + 3), o4 := octet (i + 4),
         o5 := octet (i + 5), o6 := octet (i + 6) } : Octets7)
    let udhi := fo.getLsbD 6
    (fo.toNat % 4 = 1 →
      let vpf := fo.toNat / 8 % 4
      let vpLength := if vpf = 0 then 0 else if vpf = 2 then 1 else 7
      let vpAt := fun p : Nat =>
        if vpf = 0 then VP.absent else if vpf = 2 then .relative (octet p)
        else if vpf = 1 then .enhanced (seven p) else .absolute (seven p)
      (o.length < 2 → parses (.err .badPdu)) ∧
      (2 ≤ o.length →
        (∃ k, Replies (.addrParse o 2) s 0x24 (.err k) ∧ parses (.err k)) ∨
        (∃ da p, Replies (.addrParse o 2) s 0x24 (.ok (.addressAt da p)) ∧
          (o.length < p + 2 + vpLength → parses (.err .badPdu)) ∧
          (p + 2 + vpLength ≤ o.length →
            (∃ k, Replies (.udSplit (octet (p + 1)) udhi o (p + 2 + vpLength)) s 0x46 (.err k) ∧ parses (.err k)) ∨
            (∃ udh body last,
              Replies (.udSplit (octet (p + 1)) udhi o (p + 2 + vpLength)) s 0x46 (.ok (.split udh body last)) ∧
              parses (.ok (.tpdu (.submit
                { rd := fo.getLsbD 2, srr := fo.getLsbD 5, rp := fo.getLsbD 7, mr := octet 1, da := da, pid := octet p,
                  dcs := octet (p + 1), vp := vpAt (p + 2), udh := udh, body := body })))))))) ∧
    (fo.toNat % 4 = 0 →
      (∃ k, Replies (.addrParse o 1) s 0x24 (.err k) ∧ parses (.err k)) ∨
      (∃ oa p, Replies (.addrParse o 1) s 0x24 (.ok (.addressAt oa p)) ∧
        (o.length < p + 9 → parses (.err .badPdu)) ∧
        (p + 9 ≤ o.length →
          (∃ k, Replies (.udSplit (octet (p + 1)) udhi o (p + 9)) s 0x46 (.err k) ∧ parses (.err k)) ∨
          (∃ udh body last, Replies (.udSplit (octet (p + 1)) udhi o (p + 9)) s 0x46 (.ok (.split udh body last)) ∧
            parses (.ok (.tpdu (.deliver
              { mms := fo.getLsbD 2, lp := fo.getLsbD 3, sri := fo.getLsbD 5, rp := fo.getLsbD 7, oa := oa,
                pid := octet p, dcs := octet (p + 1), scts := seven (p + 2), udh := udh, body := body })))))))

/-! ### Wire values (30_encoding.md R91; what these rows stand for is the model's choice, notes/assumptions/6.md) -/

/-- R71, R72, R75, R193: the first-octet rows read a serialised record back, by the flags in the octet; bit 4 of a DELIVER
first octet does not matter (R72, R86).  Whatever octets follow, the record that a first-octet row answers has the octet's
flags and the validity period of its TP-VPF; where it answers none it answers an error. -/
def Obligations.FirstOctetRows : Prop :=
  (∀ (t : Submit) (s : State), SubmitOk t → t.da.toa.getLsbD 7 = true →
    ∃ fo rest, Replies (.tpduSerSubmit t) s 0x47 (.ok (.octets (fo :: rest))) ∧
      Replies (firstOctetRow t rest) s 0x49 (.ok (.tpdu (.submit t)))) ∧
  (∀ (t : Deliver) (x : Bool) (s : State), DeliverOk t → t.oa.toa.getLsbD 7 = true →
    ∃ fo rest, Replies (.tpduSerDeliver t) s 0x48 (.ok (.octets (fo :: rest))) ∧
      Replies (.foDeliver t.rp t.udh.isSome t.sri x t.lp t.mms rest) s 0x49 (.ok (.tpdu (.deliver t)))) ∧
  (∀ (rp udhi srr rd sri x lp mms : Bool) (rest : Octets) (s : State),
    let answers := fun (i : Instr) (ok : Tpdu → Prop) =>
      (∃ t, Replies i s 0x49 (.ok (.tpdu t)) ∧ ok t) ∨ ∃ k, Replies i s 0x49 (.err k)
    let submit := fun (vp : VP → Prop) (t : Tpdu) =>
      ∃ r, t = .submit r ∧ r.rp = rp ∧ r.udh.isSome = udhi ∧ r.srr = srr ∧ r.rd = rd ∧ vp r.vp
    answers (.foSubmitVpAbsent rp udhi srr rd rest) (submit fun v => v = .absent) ∧
    answers (.foSubmitVpRelative rp udhi srr rd rest) (submit fun v => ∃ b, v = .relative b) ∧
    answers (.foSubmitVpEnhanced rp udhi srr rd rest) (submit fun v => ∃ e, v = .enhanced e) ∧
    answers (.foSubmitVpAbsolute rp udhi srr rd rest) (submit fun v => ∃ a, v = .absolute a) ∧
    answers (.foDeliver rp udhi sri x lp mms rest) (fun t =>
      ∃ r, t = .deliver r ∧ r.rp = rp ∧ r.udh.isSome = udhi ∧ r.sri = sri ∧ r.lp = lp ∧ r.mms = mms))

/-- R79, R81, R172, R182: the TP-DCS rows split the user data that `UD_BUILD` makes under their alphabet, whatever the bits
the block does not examine; the reserved alphabet raises `UnsupportedAlphabet` whatever follows. -/
def Obligations.DataCodingRows : Prop :=
  ∀ (hi : BitVec 3) (flash flash' : Bool) (lo : BitVec 2) (udh : Option (List IE)) (body : Body) (udl : Nat) (ud : Octets)
    (udhi : Bool) (any : Octets) (s : State),
    let field := BitVec.ofNat 8 udl :: ud
    let answer := fun a => Result.ok (.dcsRead (some a) flash udh body (1 + ud.length))
    (Replies (.udBuild (dcsMk .gsm7 flash') udh body) s 0x45 (.ok (.userData udl ud)) →
      Replies (.dcsGsm7 hi flash lo udh.isSome field) s 0x46 (answer .gsm7)) ∧
    (Replies (.udBuild (dcsMk .bit8 flash') udh body) s 0x45 (.ok (.userData udl ud)) →
      Replies (.dcs8bit hi flash lo udh.isSome field) s 0x46 (answer .bit8)) ∧
    (Replies (.udBuild (dcsMk .ucs2 flash') udh body) s 0x45 (.ok (.userData udl ud)) →
      Replies (.dcsUcs2 hi flash lo udh.isSome field) s 0x46 (answer .ucs2)) ∧
    Replies (.dcsReserved hi flash lo udhi any) s 0x46 (.err .unsupportedAlphabet)

/-- R77, R78, R136, R139: the address-type rows answer what `ADDR_DEC` answers for the address with that type octet, its
value the octets the length octet asks for; too few octets raise `BadPdu`; bit 7 clear raises `BadAddress`. -/
def Obligations.AddressTypeRows : Prop :=
  ∀ (ton : BitVec 3) (npi : BitVec 4) (x : BitVec 7) (len : Byte) (val : Octets) (s : State),
    let m := (len.toNat + 1) / 2
    let reads := fun (i : Instr) (toa : Byte) =>
      (m ≤ val.length → ∃ r, Replies (.addrDec { len := len, toa := toa, val := val.take m }) s 0x22 r ∧
        Replies i s 0x22 r) ∧
      (val.length < m → Replies i s 0x22 (.err .badPdu))
    reads (.toa ton npi len val) (BitVec.ofNat 8 (128 + 16 * ton.toNat + npi.toNat)) ∧
    reads (.toaInternational len val) 0x91 ∧ reads (.toaUnknown len val) 0x81 ∧
    reads (.toaAlphanumeric len val) 0xD0 ∧
    Replies (.toaBit7Clear x len val) s 0x22 (.err .badAddress)

/-- R83, R157, R86: the element rows.  A concatenation element of the right length with its numbers in range is read, any
other raises `BadUdh`; an element with any other identifier is kept and not read.  R84, R211, R213: the SMSC rows.  Length
0 leaves the whole rest; a length `l` above 0 takes a type octet and `l - 1` value octets, and raises `BadPdu` where they
run past the end.  R101, R102, R105: the septet rows decode a septet string that opens with the escape or with any other
septet. -/
def Obligations.CarriedValueRows : Prop :=
  (∀ (ied : Octets) (iei : Byte) (s : State),
    let inRange := fun total seq : Byte => 2 ≤ total.toNat ∧ 1 ≤ seq.toNat ∧ seq.toNat ≤ total.toNat
    (∀ r total seq : Byte, ied = [r, total, seq] → inRange total seq →
      Replies (.ieiConcat8 ied) s 0x34 (.ok (.elementRead { iei := 0x00, ied := ied }
        (some { w := .w8, ref := r.setWidth 16, total := total, seq := seq })))) ∧
    ((∀ r total seq : Byte, ied = [r, total, seq] → ¬ inRange total seq) →
      Replies (.ieiConcat8 ied) s 0x34 (.err .badUdh)) ∧
    (∀ r1 r0 total seq : Byte, ied = [r1, r0, total, seq] → inRange total seq →
      Replies (.ieiConcat16 ied) s 0x34 (.ok (.elementRead { iei := 0x08, ied := ied }
        (some { w := .w16, ref := BitVec.ofNat 16 (256 * r1.toNat + r0.toNat), total := total, seq := seq })))) ∧
    ((∀ r1 r0 total seq : Byte, ied = [r1, r0, total, seq] → ¬ inRange total seq) →
      Replies (.ieiConcat16 ied) s 0x34 (.err .badUdh)) ∧
    (iei ≠ 0x00 → iei ≠ 0x08 →
      Replies (.ieiOther iei ied) s 0x34 (.ok (.elementRead { iei := iei, ied := ied } none)))) ∧
  (∀ (l toa : Byte) (val rest : Octets) (s : State),
    Replies (.smscNone rest) s 0x51 (.ok (.unframed none rest)) ∧
    (l.toNat = 1 + val.length →
      Replies (.smscPresent l (toa :: val ++ rest)) s 0x51 (.ok (.unframed (some { toa := toa, val := val }) rest))) ∧
    (rest.length < l.toNat → Replies (.smscPresent l rest) s 0x51 (.err .badPdu))) ∧
  (∀ (q : Septet) (rest : Septets) (t : Text) (k : ErrorKind) (s : State),
    (Replies (.gsm7Dec (0x1B :: rest)) s 0x11 (.ok (.text t)) → Replies (.gsm7Escape rest) s 0x11 (.ok (.text t))) ∧
    (Replies (.gsm7Dec (0x1B :: rest)) s 0x11 (.err k) → Replies (.gsm7Escape rest) s 0x11 (.err k)) ∧
    (Replies (.gsm7Dec (q :: rest)) s 0x11 (.ok (.text t)) → Replies (.gsm7Default q rest) s 0x11 (.ok (.text t))) ∧
    (Replies (.gsm7Dec (q :: rest)) s 0x11 (.err k) → Replies (.gsm7Default q rest) s 0x11 (.err k)) ∧
    (∃ r, Replies (.gsm7Escape rest) s 0x11 r) ∧ (∃ r, Replies (.gsm7Default q rest) s 0x11 r))

/-! ### PDU-mode frames (44_frame.md) -/

/-- R212, R216: `FRAME_ENC` answers the TPDU's octet count and upper-case hex text, two characters an octet, and
`FRAME_DEC` reads it back. -/
def Obligations.FrameRoundTrip : Prop :=
  ∀ (smsc : Option Smsc) (tpdu : Octets) (s : State), (∀ m, smsc = some m → 1 + m.val.length ≤ 255) →
    ∃ hex, Replies (.frameEnc smsc tpdu) s 0x50 (.ok (.frame tpdu.length hex)) ∧
      Replies (.frameDec hex) s 0x51 (.ok (.unframed smsc tpdu)) ∧
      (∀ c ∈ hex, c ∈ ascii "0123456789ABCDEF") ∧
      hex.length = 2 * ((match smsc with | none => 1 | some m => 2 + m.val.length) + tpdu.length)

/-- R213, R309: `FRAME_DEC` for every ASCII string: an odd number of characters or a character that is no hex digit raises
`BadPdu`; otherwise the octets' first one is the prefix length; the empty string and a prefix that runs past the end raise
`BadPdu`.  Lower case is read as upper case. -/
def Obligations.FrameDecodes : Prop :=
  ∀ (hex : Ascii) (s : State),
    let digit := fun c : Byte =>
      if c.toNat < 0x3A then c.toNat - 0x30 else if c.toNat < 0x47 then c.toNat - 0x37 else c.toNat - 0x57
    (hex.length % 2 = 1 → Replies (.frameDec hex) s 0x51 (.err .badPdu)) ∧
    ((∃ c ∈ hex, c ∉ ascii "0123456789ABCDEFabcdef") → Replies (.frameDec hex) s 0x51 (.err .badPdu)) ∧
    (hex = [] → Replies (.frameDec hex) s 0x51 (.err .badPdu)) ∧
    (∀ l r, hex.length = 2 * (l :: r : Octets).length → (∀ c ∈ hex, c ∈ ascii "0123456789ABCDEFabcdef") →
      (∀ i, i < (l :: r : Octets).length →
        ((l :: r).getD i 0).toNat = 16 * digit (hex.getD (2 * i) 0) + digit (hex.getD (2 * i + 1) 0)) →
      (l = 0 → Replies (.frameDec hex) s 0x51 (.ok (.unframed none r))) ∧
      (r.length < l.toNat → Replies (.frameDec hex) s 0x51 (.err .badPdu)) ∧
      (l ≠ 0 → l.toNat ≤ r.length → Replies (.frameDec hex) s 0x51 (.ok (.unframed
        (some { toa := r.getD 0 0, val := (r.drop 1).take (l.toNat - 1) }) (r.drop l.toNat)))))

/-! ### Segmenter (45_segmenter.md) -/

/-- R222, R223, R226: a payload that fits one message gives one record with no header and the whole encoded payload, and
`REFCNT` is not touched; `auto` takes GSM-7 where it can and UCS-2 where it cannot. -/
def Obligations.SegmentSingle : Prop :=
  ∀ (dest : Ascii) (da : Address) (s : State), Replies (.addrEnc dest) s 0x20 (.ok (.address da)) →
    let record := fun (dcs : Byte) (body : Body) =>
      ({ rd := false, srr := false, rp := false, mr := 0, da := da, pid := 0, dcs := dcs, vp := .absent, udh := none,
         body := body } : Submit)
    let gives := fun (p : Payload) (dcs : Byte) (body : Body) =>
      Replies (.segment p dest) s 0x60 (.ok (.submits [record dcs body]))
    (∀ t q, Replies (.gsm7Enc t) s 0x10 (.ok (.septets q)) → q.length ≤ 160 → gives (.auto t) 0x00 (.septets q)) ∧
    (∀ t o k, Replies (.gsm7Enc t) s 0x10 (.err k) → Replies (.ucs2Enc t) s 0x14 (.ok (.octets o)) → o.length ≤ 140 →
      gives (.auto t) 0x08 (.octets o)) ∧
    (∀ t o, Replies (.ucs2Enc t) s 0x14 (.ok (.octets o)) → o.length ≤ 140 →
      gives (.forceUcs2 t) 0x08 (.octets o)) ∧
    (∀ o, o.length ≤ 140 → gives (.force8bit o) 0x04 (.octets o))

/-- R224, R225, R226, R227: a longer payload is cut into chunks within the segment capacity, whose concatenation is the
encoded payload; record `i` carries the 8-bit concatenation element with the old `REFCNT`, the number of records and
`i`; `REFCNT` advances by one modulo 256.  More than 255 chunks raise `BadUdh`, a bad destination `BadAddress`, with
`REFCNT` as it was. -/
def Obligations.SegmentConcatenated : Prop :=
  ∀ (p : Payload) (dest : Ascii) (s : State) (a : Alphabet) (units : Body), segmentUnits p = (a, units) →
    (Replies (.addrEnc dest) s 0x20 (.err .badAddress) → Replies (.segment p dest) s 0x60 (.err .badAddress)) ∧
    (∀ da, Replies (.addrEnc dest) s 0x20 (.ok (.address da)) → (if a = .gsm7 then 160 else 140) < bodyLength units →
      (255 < (segmentChunks a units).length → Replies (.segment p dest) s 0x60 (.err .badUdh)) ∧
      ((segmentChunks a units).length ≤ 255 → ∃ bodies : List Body,
        2 ≤ bodies.length ∧ bodies.length ≤ 255 ∧ joinBodies bodies = units ∧
        (∀ b ∈ bodies, 1 ≤ bodyLength b ∧ bodyLength b ≤ if a = .gsm7 then 153 else 134) ∧
        (∀ b ∈ bodies.dropLast, match a with
          | .gsm7 => 152 ≤ bodyLength b
          | .ucs2 => bodyLength b = 134 ∨ bodyLength b = 132
          | .bit8 => bodyLength b = 134) ∧
        exec (.segment p dest) s = .next { s with
          refcnt := s.refcnt + 1
          out := s.out ++ [.result 0x60 (.ok (.submits (bodies.mapIdx fun i b =>
            { rd := false, srr := false, rp := false, mr := 0, da := da, pid := 0,
              dcs := match a with | .gsm7 => 0x00 | .bit8 => 0x04 | .ucs2 => 0x08
              vp := .absent
              udh := some [{ iei := 0x00,
                             ied := [s.refcnt, BitVec.ofNat 8 bodies.length, BitVec.ofNat 8 (i + 1)] }]
              body := b })))] }))

/-- R228: the bodies of the segments concatenate to the encoded payload, which decodes to the payload; each segment of a
text decodes on its own, and the segments' texts concatenate to the payload. -/
def Obligations.SegmentsDecodeAlone : Prop :=
  ∀ (p : Payload) (dest : Ascii) (s s' : State) (l : List Submit), exec (.segment p dest) s = .next s' →
    s'.out = s.out ++ [.result 0x60 (.ok (.submits l))] →
    let units := joinBodies (l.map fun r => r.body)
    units = (segmentUnits p).2 ∧
    (∀ o, p = .force8bit o → units = .octets o ∧ ∀ r ∈ l, r.dcs = 0x04) ∧
    (∀ t, p = .auto t ∨ p = .forceUcs2 t →
      ((∃ q, units = .septets q ∧ Replies (.gsm7Dec q) s 0x11 (.ok (.text t))) ∨
        (∃ o, units = .octets o ∧ Replies (.ucs2Dec o) s 0x15 (.ok (.text t)))) ∧
      ∃ texts : List Text, texts.flatten = t ∧ List.Forall₂ (fun (r : Submit) (x : Text) =>
        (∃ q, r.body = .septets q ∧ r.dcs = 0x00 ∧ Replies (.gsm7Dec q) s 0x11 (.ok (.text x))) ∨
        (∃ o, r.body = .octets o ∧ r.dcs = 0x08 ∧ Replies (.ucs2Dec o) s 0x15 (.ok (.text x)))) l texts)

/-- R226 with R190, R212, R213, R193: every record `SEGMENT` returns is well-formed, serialises, travels in a PDU-mode frame
and is parsed back to itself. -/
def Obligations.SegmentsTravel : Prop :=
  ∀ (p : Payload) (dest : Ascii) (smsc : Option Smsc) (s s' : State) (l : List Submit),
    exec (.segment p dest) s = .next s' → s'.out = s.out ++ [.result 0x60 (.ok (.submits l))] →
    (∀ m, smsc = some m → 1 + m.val.length ≤ 255) → ∀ r ∈ l, SubmitOk r ∧ ∃ o hex,
      Replies (.tpduSerSubmit r) s 0x47 (.ok (.octets o)) ∧
      Replies (.frameEnc smsc o) s 0x50 (.ok (.frame o.length hex)) ∧
      Replies (.frameDec hex) s 0x51 (.ok (.unframed smsc o)) ∧
      Replies (.tpduParse o) s 0x49 (.ok (.tpdu (.submit r)))

/-! ### Reassembler (46_reassembler.md) -/

/-- R242, R306: what one `COLLECT` answers and what it leaves in the table, seen through the table's lookup: a record with
no concatenation element goes straight back; a malformed element raises `BadUdh`; a segment already held raises
`DuplicateSegment`; a new segment that leaves its group incomplete is stored, in a group created now if there was none. -/
def Obligations.CollectStores : Prop :=
  ∀ (t : Deliver) (s : State),
    let found : Result := match t.udh with
      | none => .ok (.concat none)
      | some h => match udhGetconcat h with
        | .ok c => .ok (.concat c)
        | .error k => .err k
    (∀ k, found = .err k → k = .badUdh ∧ Replies (.collect t) s 0x70 (.err .badUdh)) ∧
    (found = .ok (.concat none) → Replies (.collect t) s 0x70 (.ok (.delivers [t]))) ∧
    (∀ c, found = .ok (.concat (some c)) →
      let key : Key := { oa := t.oa, w := c.w, ref := c.ref, total := c.total }
      (∀ g d, s.group key = some g → g.seg c.seq.toNat = some d →
        Replies (.collect t) s 0x70 (.err .duplicateSegment)) ∧
      (∀ g, s.group key = some g → g.seg c.seq.toNat = none → g.segs.length + 1 ≠ c.total.toNat →
        ∃ m g', exec (.collect t) s = .next { s with rsm := m, out := s.out ++ [.result 0x70 (.ok (.delivers []))] } ∧
          FMap.get keyCode key m = some g' ∧ g'.created = g.created ∧
          (∀ q, g'.seg q = if q = c.seq.toNat then some t else g.seg q) ∧
          ∀ k, k ≠ key → FMap.get keyCode k m = s.group k) ∧
      (s.group key = none → (∀ n, s.params.rsmCap = some n → s.rsm.length < n) →
        ∃ m g', exec (.collect t) s = .next { s with rsm := m, out := s.out ++ [.result 0x70 (.ok (.delivers []))] } ∧
          FMap.get keyCode key m = some g' ∧ g'.created = s.now ∧
          (∀ q, g'.seg q = if q = c.seq.toNat then some t else none) ∧
          ∀ k, k ≠ key → FMap.get keyCode k m = s.group k))

/-- R242, R244: in a state whose table is as the invariant says, the segment that completes its group is answered with
exactly `total` records in ascending sequence order, and the group is gone. -/
def Obligations.CollectCompletes : Prop :=
  ∀ (t : Deliver) (c : Concat) (g : Group) (s : State), TableOk s →
    (∃ h, t.udh = some h ∧ udhGetconcat h = .ok (some c)) →
    let key : Key := { oa := t.oa, w := c.w, ref := c.ref, total := c.total }
    s.group key = some g → g.seg c.seq.toNat = none → g.segs.length + 1 = c.total.toNat →
    ∃ m l, exec (.collect t) s = .next { s with rsm := m, out := s.out ++ [.result 0x70 (.ok (.delivers l))] } ∧
      l.length = c.total.toNat ∧
      (∀ i, i < l.length → l[i]? = if i + 1 = c.seq.toNat then some t else g.seg (i + 1)) ∧
      (∀ i d, l[i]? = some d → SegmentFits key (i + 1) d) ∧
      FMap.get keyCode key m = none ∧ ∀ k, k ≠ key → FMap.get keyCode k m = s.group k

/-- R242, R244: the segments of one message, collected in any order into a table that holds none of them, are answered once,
complete and in order, at the last one; the table is then exactly as it was. -/
def Obligations.CollectAnyOrder : Prop :=
  ∀ (key : Key) (message arrivals : List Deliver) (s : State), TableOk s → s.params.rsmCap = none →
    s.group key = none → message ≠ [] → key.total.toNat = message.length →
    (∀ i d, message[i]? = some d → SegmentFits key (i + 1) d) → arrivals.Perm message →
    execAll (arrivals.map .collect) s = .next { s with
      out := s.out ++ List.replicate (message.length - 1) (.result 0x70 (.ok (.delivers []))) ++
        [.result 0x70 (.ok (.delivers message))] }

/-- R247, R310, R23, R307: where a deadline is set and groups are overdue, `EXPIRE` removes one of them, whichever the environment
picks, and raises `EV_EXPIRED` of the kind `ReassemblyTimeout` with its width, reference, total and number of segments; where none is overdue the step is
not enabled and nothing happens (notes/assumptions/9.md). -/
def Obligations.ExpireOverdue : Prop :=
  ∀ s : State,
    let overdue := fun (d : Nat) (k : Key) (g : Group) => s.group k = some g ∧ g.created + d ≤ s.now
    (∀ d, s.rsmDeadline = some d → (∃ k g, overdue d k g) → FMap.Rising keyCode s.rsm →
      ∃ k g m, overdue d k g ∧
        exec .expire s = .next { s with
          rsm := m, picks := s.picks.tail,
          out := s.out ++ [.event (.expired .reassemblyTimeout k.w k.ref k.total g.segs.length)] } ∧
        FMap.get keyCode k m = none ∧ ∀ k', k' ≠ k → FMap.get keyCode k' m = s.group k') ∧
    (∀ d k g, s.rsmDeadline = some d → overdue d k g → ∃ n, ∃ m,
      exec .expire { s with picks := [n] } = .next { s with
        rsm := m, picks := [],
        out := s.out ++ [.event (.expired .reassemblyTimeout k.w k.ref k.total g.segs.length)] } ∧
        FMap.get keyCode k m = none) ∧
    ((∀ d, s.rsmDeadline = some d → ∀ e ∈ s.rsm, s.now < e.2.created + d) → exec .expire s = .next s)

/-- R246, R283, R36: the configuration writes replace the whole value of the element they name and nothing else.  R115:
`OCT8` is the identity.  R280: `IS_OPEN` answers 1 exactly while `CLOSED` is 0. -/
def Obligations.PlainCommands : Prop :=
  ∀ s : State,
    (∀ d, exec (.rsmCfg d) s = .next { s with rsmDeadline := d, out := s.out ++ [.result 0x71 (.ok .none)] }) ∧
    (∀ l, exec (.lnCfg (.finals l)) s = .next { s with finals := l, out := s.out ++ [.result 0x87 (.ok .none)] }) ∧
    (∀ l, exec (.lnCfg (.urcs l)) s = .next { s with urcs := l, out := s.out ++ [.result 0x87 (.ok .none)] }) ∧
    (∀ m, exec (.lnCfg (.cmdset m)) s = .next { s with cmdset := m, out := s.out ++ [.result 0x87 (.ok .none)] }) ∧
    (∀ d, exec (.lnCfg (.cmdTimeout d)) s =
      .next { s with cmdTimeout := d, out := s.out ++ [.result 0x87 (.ok .none)] }) ∧
    (∀ o, Replies (.oct8 o) s 0x16 (.ok (.octets o))) ∧
    (s.closed = false → Replies .isOpen s 0x86 (.ok (.bit true))) ∧
    (s.closed = true → Replies .isOpen s 0x86 (.ok (.bit false)))

/-! ### Line unit (47_line_unit.md) -/

/-- R261: `TRIM` removes white space from both ends and nothing else. -/
def Obligations.TrimsWhiteSpace : Prop :=
  ∀ a : Ascii,
    let white : Ascii := [0x09, 0x0A, 0x0B, 0x0C, 0x0D, 0x20]
    (∃ pre post, a = pre ++ trim a ++ post ∧ (∀ b ∈ pre, b ∈ white) ∧ ∀ b ∈ post, b ∈ white) ∧
    (∀ b, (trim a).head? = some b → b ∉ white) ∧ ∀ b, (trim a).getLast? = some b → b ∉ white

/-- R264: `LN_PARSE` splits at the first colon, the rest at every comma, trims each part and removes one matched pair of
outer quotes; a line without a colon is its own label. -/
def Obligations.LineParses : Prop :=
  ∀ (l : Line) (s : State),
    (0x3A ∉ l → Replies (.lnParse l) s 0x80 (.ok (.parsed l []))) ∧
    (∀ label rest, l = label ++ 0x3A :: rest → 0x3A ∉ label →
      ∃ parts params : List Ascii, parts ≠ [] ∧ (∀ p ∈ parts, 0x2C ∉ p) ∧ [0x2C].intercalate parts = trim rest ∧
        List.Forall₂ (fun part param =>
          (∃ q : Byte, (q = 0x22 ∨ q = 0x27) ∧ trim part = q :: param ++ [q]) ∨
          ((∀ (q : Byte) mid, (q = 0x22 ∨ q = 0x27) → trim part ≠ q :: mid ++ [q]) ∧ param = trim part)) parts params ∧
        Replies (.lnParse l) s 0x80 (.ok (.parsed (trim label) params)))

/-- R267: `LN_CLASSIFY` applies the finality test, then the URC test with its two exceptions, then answers
`Intermediate`.  R285: the source's four classifier invariants, with the default lists of R268 and R269. -/
def Obligations.LineClasses : Prop :=
  (∀ (l : Line) (c : Ascii) (s : State),
    (FinalLine s.finals l → Replies (.lnClassify l c) s 0x81 (.ok (.lineClass .final))) ∧
    (¬ FinalLine s.finals l → UrcLine s.urcs c l → Replies (.lnClassify l c) s 0x81 (.ok (.lineClass .urc))) ∧
    (¬ FinalLine s.finals l → ¬ UrcLine s.urcs c l →
      Replies (.lnClassify l c) s 0x81 (.ok (.lineClass .intermediate)))) ∧
  (∀ (l : Line) (c : Ascii) (s : State), s.finals = defaultFinals → s.urcs = defaultUrcs →
    Replies (.lnClassify (ascii "OK") c) s 0x81 (.ok (.lineClass .final)) ∧
    (ascii "+CMTI:" <+: l → Replies (.lnClassify l []) s 0x81 (.ok (.lineClass .urc))) ∧
    (ascii "+CREG:" <+: l → ascii "AT+CREG" <+: c → ∃ k, k ≠ .urc ∧ Replies (.lnClassify l c) s 0x81 (.ok (.lineClass k))) ∧
    (ascii "+CME ERROR" <+: l → Replies (.lnClassify l c) s 0x81 (.ok (.lineClass .final))))

/-- R262, R263, R266, R275: what the reader does with an octet, and the CR and LF rows with it: an octet that is no
terminator joins `LBUF`; a terminator ends the line, which is suppressed when empty, raised as a URC, queued, or lost
with a log entry when the queue is full.  R282: `LN_EOS` writes no state of the block, and after it, as after `CLOSE`,
no octet is taken (notes/assumptions/9.md, 13.md); a read error raises a log entry and changes nothing else, and does
nothing where nothing is read any more (notes/assumptions/8.md for the turn, 23.md).  That the CR and LF rows are octets
received is the model's reading (notes/assumptions/6.md). -/
def Obligations.ReaderTakesOctets : Prop :=
  ∀ s : State,
    (s.nextTurn = .readError →
      (s.closed = false → s.rxEnded = false → step s = .next { s.turned with out := s.out ++ [.event .log] }) ∧
      (s.closed = true ∨ s.rxEnded = true → step s = .next s.turned)) ∧
    exec .lnEos s = .next { s with rxEnded := true } ∧
    (s.closed = true ∨ s.rxEnded = true →
      (∀ b, exec (.lnRx b) s = .next s) ∧ exec .lineCr s = .next s ∧ exec .lineLf s = .next s) ∧
    (s.closed = false → s.rxEnded = false →
      (∀ b, b ≠ 0x0D → b ≠ 0x0A → (∀ n, s.params.lbufCap = some n → s.lbuf.length < n) →
        exec (.lnRx b) s = .next { s with lbuf := s.lbuf ++ [b] }) ∧
      (∀ b n, b ≠ 0x0D → b ≠ 0x0A → s.params.lbufCap = some n → n ≤ s.lbuf.length →
        exec (.lnRx b) s = .refused .lineBufferFull) ∧
      ∀ i ∈ [Instr.lnRx 0x0D, .lnRx 0x0A, .lineCr, .lineLf],
        let l := trim s.lbuf
        (l = [] → exec i s = .next { s with lbuf := [] }) ∧
        (l ≠ [] → ¬ FinalLine s.finals l → UrcLine s.urcs s.cur l →
          exec i s = .next { s with lbuf := [], out := s.out ++ [.event (.urc (lnParse l).1 (lnParse l).2)] }) ∧
        (l ≠ [] → FinalLine s.finals l ∨ ¬ UrcLine s.urcs s.cur l → s.rq.length < s.params.rqCap →
          exec i s = .next { s with lbuf := [], rq := s.rq ++ [l] }) ∧
        (l ≠ [] → FinalLine s.finals l ∨ ¬ UrcLine s.urcs s.cur l → s.params.rqCap ≤ s.rq.length →
          exec i s = .next { s with lbuf := [], out := s.out ++ [.event .log] }))

/-- R263: "URC lines never enter the response queue": what a step adds to `RQ` is at most one line, not a URC for the
current command, and only where there was room; otherwise a step only removes lines, from the front. -/
def Obligations.UrcNeverQueued : Prop :=
  ∀ s t : State, step s = .next t →
    (∃ gone, s.rq = gone ++ t.rq) ∨
    (∃ l, t.rq = s.rq ++ [l] ∧ s.rq.length < s.params.rqCap ∧
      (FinalLine s.finals l ∨ ¬ UrcLine s.urcs s.cur l))

/-- R271, R272, R273: the start step of `SEND`, `SEND_EXPECT`, `SIMPLE_QUERY` and of the two frame terminators, by what
the port answers to the write; `Closed` at once on a closed unit (R278); waiting in issue order while the lock is held
(R270, notes/assumptions/10.md).  That the two frame terminators stand for a `SEND` is the model's reading
(notes/assumptions/6.md), and that a port with no answer listed takes all octets is the model's too (8.md). -/
def Obligations.SendStarts : Prop :=
  ∀ (i : Instr) (kind : SendKind) (text w : Ascii) (s : State), sendForm i = some (kind, text) → Terminated text w →
    let op := match kind with | .send => 0x82 | .expect _ => 0x83 | .query => 0x84
    let answer := s.txIn.headD (.took w.length)
    let ended := fun k : ErrorKind =>
      exec i s = .next { s with rq := [], cur := [], dstate := .idle, lock := .free, txn := none, txIn := s.txIn.tail,
                                out := s.out ++ [.tx w answer, .result op (.err k)] }
    (s.closed = true → Replies i s op (.err .closed)) ∧
    (s.closed = false → s.lock = .held ∨ s.waiters ≠ [] →
      exec i s = .next { s with waiters := s.waiters ++ [{ kind := kind, text := text }] }) ∧
    (s.closed = false → s.lock = .free → s.waiters = [] →
      (∀ n, answer = .took n → w.length ≤ n →
        exec i s = .next { s with rq := [], cur := text, dstate := .awaiting, lock := .held,
                                  txn := some { kind := kind, acc := [], dl := s.now + s.cmdTimeout },
                                  txIn := s.txIn.tail, out := s.out ++ [.tx w answer] }) ∧
      (∀ n, answer = .took n → n < w.length → ended .incompleteWrite) ∧
      (answer = .failed → ended .ioError))

/-- R272 suspension point (a), R278: the turn of the longest waiting `SEND` starts it once the lock is free, exactly as if
it were issued then with nobody waiting before it, whatever the port answers to its write; on a closed unit it returns
`Closed`; while the lock is held, or with nobody waiting, nothing happens.  The turn is the model's
(notes/assumptions/8.md). -/
def Obligations.WaitingSendResumes : Prop :=
  ∀ (s : State), s.nextTurn = .resume →
    (s.waiters = [] ∨ s.lock = .held → step s = .next s.turned) ∧
    (∀ (r : Request) (ws : List Request) (w : Ascii), s.waiters = r :: ws → s.lock = .free → Terminated r.text w →
      let op := match r.kind with | .send => 0x82 | .expect _ => 0x83 | .query => 0x84
      let answer := s.txIn.headD (.took w.length)
      let ended := fun k : ErrorKind =>
        step s = .next { s.turned with waiters := ws, rq := [], cur := [], dstate := .idle, lock := .free, txn := none,
                                       txIn := s.txIn.tail, out := s.out ++ [.tx w answer, .result op (.err k)] }
      (s.closed = true →
        step s = .next { s.turned with waiters := ws, out := s.out ++ [.result op (.err .closed)] }) ∧
      (∀ n, s.closed = false → answer = .took n → n < w.length → ended .incompleteWrite) ∧
      (s.closed = false → answer = .failed → ended .ioError) ∧
      (∀ n, s.closed = false → answer = .took n → w.length ≤ n →
        step s = .next { s.turned with waiters := ws, rq := [], cur := r.text, dstate := .awaiting, lock := .held,
                                       txn := some { kind := r.kind, acc := [], dl := s.turned.now + s.cmdTimeout },
                                       txIn := s.txIn.tail, out := s.out ++ [.tx w answer] }))

/-- R274, R276, R277: the take step of an open transaction moves the first queued line to `ACC`; a final line ends the
transaction with the result its kind gives.  Where it is not enabled nothing happens, which is the model's choice
(notes/assumptions/9.md); the turn is the model's (8.md). -/
def Obligations.TakeStep : Prop :=
  ∀ s : State, s.nextTurn = .take →
    ((s.dstate ≠ .awaiting ∨ s.txn = none ∨ s.rq = []) → step s = .next s.turned) ∧
    (∀ x l rest, s.dstate = .awaiting → s.txn = some x → s.rq = l :: rest →
      (¬ FinalLine s.finals l →
        step s = .next { s.turned with rq := rest, txn := some { x with acc := x.acc ++ [l] } }) ∧
      (FinalLine s.finals l → ∃ r, FinalResult x.kind (x.acc ++ [l]) r ∧
        step s = .next { s.turned with
          rq := rest, cur := [], dstate := if s.closed then .closed else .idle, lock := .free, txn := none,
          out := s.out ++ [.result (match x.kind with | .send => 0x82 | .expect _ => 0x83 | .query => 0x84) r] }))

/-- R279, R281: `LN_TIMEOUT` ends an open transaction whose deadline has come with `Timeout`, for `SEND` together with the
lines taken so far; whether the results of `SEND_EXPECT` and `SIMPLE_QUERY` carry them is an open parameter
(notes/assumptions/12.md).  Before the deadline, and with no transaction open, the step is not enabled, and that nothing
happens then is the model's choice (notes/assumptions/9.md). -/
def Obligations.TimeoutEndsSend : Prop :=
  ∀ s : State,
    (∀ x, s.dstate = .awaiting → s.txn = some x → x.dl ≤ s.now →
      let timedOut := fun withLines : Bool => if withLines then Result.errWith .timeout x.acc else .err .timeout
      exec .lnTimeout s = .next { s with
        cur := [], dstate := if s.closed then .closed else .idle, lock := .free, txn := none,
        out := s.out ++ [match x.kind with
          | .send => .result 0x82 (.errWith .timeout x.acc)
          | .expect _ => .result 0x83 (timedOut s.params.timeoutLines.expect)
          | .query => .result 0x84 (timedOut s.params.timeoutLines.query)] }) ∧
    ((s.dstate ≠ .awaiting ∨ s.txn = none ∨ ∃ x, s.txn = some x ∧ s.now < x.dl) → exec .lnTimeout s = .next s)

/-- R278: `CLOSE` sets `CLOSED`, closes the port, ends the open transaction and every waiting one with `Closed`; on a
closed unit it only answers (idempotent).  The order in which the results go out is the model's
(notes/assumptions/24.md). -/
def Obligations.CloseEndsAll : Prop :=
  ∀ s : State,
    let code := fun k : SendKind => match k with | .send => (0x82 : Byte) | .expect _ => 0x83 | .query => 0x84
    (s.closed = true → Replies .close s 0x85 (.ok .none)) ∧
    (s.closed = false → s.txn = none → exec .close s = .next { s with
      closed := true, dstate := .closed, waiters := [],
      out := s.out ++ [.portClose] ++ (s.waiters.map fun r => .result (code r.kind) (.err .closed)) ++
        [.result 0x85 (.ok .none)] }) ∧
    (∀ x, s.closed = false → s.txn = some x → exec .close s = .next { s with
      closed := true, dstate := .closed, waiters := [], cur := [], lock := .free, txn := none,
      out := s.out ++ [.portClose, .result (code x.kind) (.err .closed)] ++
        (s.waiters.map fun r => .result (code r.kind) (.err .closed)) ++ [.result 0x85 (.ok .none)] })

/-- R284 "Terminal", R278: from a closed state on, in every run, nothing is written to the port, no line is received or
queued, and every result of a `SEND` is `Closed`. -/
def Obligations.ClosedIsTerminal : Prop :=
  ∀ (n : Nat) (s t : State), Inv s → s.closed = true → Sys2Proof.core.run n s = .next t →
    t.closed = true ∧ t.dstate = .closed ∧ t.lbuf = s.lbuf ∧ t.rq = s.rq ∧
    ∃ new, t.out = s.out ++ new ∧ ∀ o ∈ new,
      (∀ w a, o ≠ .tx w a) ∧ o ≠ .portClose ∧
      ∀ op r, o = .result op r → op = 0x82 ∨ op = 0x83 ∨ op = 0x84 → r = .err .closed

/-- R284 "Exclusive", R63, R64, R273: a step that writes to the port writes once, with the lock free before it, the unit
open, and the response queue empty when it has written. -/
def Obligations.ExclusiveWriter : Prop :=
  ∀ (s t : State) (new : List Output), step s = .next t → t.out = s.out ++ new →
    (∃ w a, Output.tx w a ∈ new) →
    s.lock = .free ∧ s.closed = false ∧ t.rq = [] ∧
      ∃ w a, new = [.tx w a] ∨ ∃ op k, new = [.tx w a, .result op (.err k)]

/-! ### Completion -/

/-- Where the commands whose result is stated elsewhere through another command's result complete, on conditions on the
operands alone.  R105, R107: septets that are the codes of characters decode to those characters.  R134: a text of at most
11 septets has an alphanumeric address.  R112, R113: the code units of a text decode to it.  R224, R226: a payload of at most
255 chunks, to at most 20 digits, is segmented.  R182, with the TP-DCS rows of R79 (the model's reading,
notes/assumptions/6.md): user data that can be built, laid out as R181 says, is split again. -/
def Obligations.CodecsComplete : Prop :=
  (∀ (t : Text) (s : State),
    let code := fun c : Char =>
      match septetOf defaultTable c, septetOf extTable c with
      | some q, _ => some [q]
      | none, some q => some [0x1B, q]
      | none, none => none
    let q := t.flatMap fun c => (code c).getD []
    (∀ c ∈ t, code c ≠ none) →
      Replies (.gsm7Dec q) s 0x11 (.ok (.text t)) ∧
      (q.length ≤ 11 → Replies (.addrEncAlnum t) s 0x21 (.ok (.address
        { len := BitVec.ofNat 8 ((7 * q.length + 3) / 4), toa := 0xD0, val := pack7 q 0 })))) ∧
  (∀ (t : Text) (s : State),
    Replies (.ucs2Dec (t.flatMap fun c =>
      let v := c.toNat
      let unit := fun u : Nat => [BitVec.ofNat 8 (u / 256), BitVec.ofNat 8 u]
      if v < 0x10000 then unit v
      else unit (0xD800 + (v - 0x10000) / 1024) ++ unit (0xDC00 + (v - 0x10000) % 1024))) s 0x15 (.ok (.text t))) ∧
  (∀ (p : Payload) (dest : Ascii) (s : State),
    (dest.filter fun c => decide (0x30 ≤ c.toNat ∧ c.toNat ≤ 0x39)).length ≤ 20 →
    (segmentChunks (segmentUnits p).1 (segmentUnits p).2).length ≤ 255 →
    ∃ l, l ≠ [] ∧ exec (.segment p dest) s = .next { s with
      refcnt := if l.length = 1 then s.refcnt else s.refcnt + 1
      out := s.out ++ [.result 0x60 (.ok (.submits l))] }) ∧
  (∀ (hi : BitVec 3) (flash : Bool) (lo : BitVec 2) (udh : Option (List IE)) (body : Body) (s : State),
    let hdr := (udh.map headerWire).getD []
    let payload := match body with
      | .octets o => o
      | .septets q => pack7 q (match udh with | none => 0 | some h => (7 - (udhl h + 1) * 8 % 7) % 7)
    let field := BitVec.ofNat 8 (udlOf udh body) :: (hdr ++ payload)
    let answer := fun a => Result.ok (.dcsRead (some a) flash udh body field.length)
    (∀ h, udh = some h → udhl h ≤ 255) → udSize udh body ≤ 140 →
      ((∃ q, body = .septets q) → Replies (.dcsGsm7 hi flash lo udh.isSome field) s 0x46 (answer .gsm7)) ∧
      ((∃ o, body = .octets o) → Replies (.dcs8bit hi flash lo udh.isSome field) s 0x46 (answer .bit8)) ∧
      ((∃ o, body = .octets o) → Replies (.dcsUcs2 hi flash lo udh.isSome field) s 0x46 (answer .ucs2)))
end

