-- ==== Sys2Proof/Laws/Streams.lean ====
section
/-! SUPPORT. The bit streams of spec/20_memory.md R54: octet strings and septet strings as numbers in base 256 and 128. -/

namespace Sys2Proof.Laws

open Sys2Proof Sys2Proof.Machine

theorem octetsOfStream_length (n v : Nat) : (octetsOfStream n v).length = n := by
  induction n generalizing v with
  | zero => rfl
  | succ n ih => simp [octetsOfStream, ih]

theorem septetsOfStream_length (n v : Nat) : (septetsOfStream n v).length = n := by
  induction n generalizing v with
  | zero => rfl
  | succ n ih => simp [septetsOfStream, ih]

theorem octetsOfStream_getD (n v i : Nat) (h : i < n) :
    ((octetsOfStream n v).getD i 0).toNat = v / 2 ^ (8 * i) % 256 := by
  induction n generalizing v i with
  | zero => omega
  | succ n ih =>
    cases i with
    | zero => simp [octetsOfStream]
    | succ i =>
      have := ih (v / 256) i (by omega)
      rw [Nat.div_div_eq_div_mul] at this
      simp only [octetsOfStream, List.getD_cons_succ, this]
      congr 2
      rw [show 8 * (i + 1) = 8 + 8 * i by ring, pow_add]; rfl

theorem septetsOfStream_getD (n v i : Nat) (h : i < n) :
    ((septetsOfStream n v).getD i 0).toNat = v / 2 ^ (7 * i) % 128 := by
  induction n generalizing v i with
  | zero => omega
  | succ n ih =>
    cases i with
    | zero => simp [septetsOfStream]
    | succ i =>
      have := ih (v / 128) i (by omega)
      rw [Nat.div_div_eq_div_mul] at this
      simp only [septetsOfStream, List.getD_cons_succ, this]
      congr 2
      rw [show 7 * (i + 1) = 7 + 7 * i by ring, pow_add]; rfl

theorem streamOfOctets_lt (o : Octets) : streamOfOctets o < 2 ^ (8 * o.length) := by
  induction o with
  | nil => simp [streamOfOctets]
  | cons b r ih =>
    have hb := b.isLt
    rw [List.length_cons, show 8 * (r.length + 1) = 8 * r.length + 8 by ring, pow_add]
    simp only [streamOfOctets]
    omega

theorem streamOfSeptets_lt (q : Septets) : streamOfSeptets q < 2 ^ (7 * q.length) := by
  induction q with
  | nil => simp [streamOfSeptets]
  | cons b r ih =>
    have hb := b.isLt
    rw [List.length_cons, show 7 * (r.length + 1) = 7 * r.length + 7 by ring, pow_add]
    simp only [streamOfSeptets]
    omega

/-- The octets of the number of an octet string are that octet string. -/
theorem octetsOfStream_streamOfOctets (o : Octets) : octetsOfStream o.length (streamOfOctets o) = o := by
  induction o with
  | nil => rfl
  | cons b r ih =>
    have hb := b.isLt
    simp only [List.length_cons, octetsOfStream, streamOfOctets]
    rw [show (b.toNat + 256 * streamOfOctets r) / 256 = streamOfOctets r by omega, ih]
    congr 1
    apply BitVec.eq_of_toNat_eq
    simp only [BitVec.toNat_ofNat]
    omega

/-- The septets of the number of a septet string are that septet string, whatever stands above them. -/
theorem septetsOfStream_streamOfSeptets (q : Septets) (x : Nat) :
    septetsOfStream q.length (streamOfSeptets q + 2 ^ (7 * q.length) * x) = q := by
  induction q with
  | nil => rfl
  | cons b r ih =>
    have hb := b.isLt
    simp only [List.length_cons, septetsOfStream, streamOfSeptets]
    rw [show 2 ^ (7 * (r.length + 1)) * x = 128 * (2 ^ (7 * r.length) * x) by
      rw [show 7 * (r.length + 1) = 7 + 7 * r.length by ring, pow_add]; ring]
    rw [show (b.toNat + 128 * streamOfSeptets r + 128 * (2 ^ (7 * r.length) * x)) / 128 =
      streamOfSeptets r + 2 ^ (7 * r.length) * x by omega, ih]
    congr 1
    apply BitVec.eq_of_toNat_eq
    simp only [BitVec.toNat_ofNat]
    omega

/-- The number of the first `n` octets of a stream that has no more of them. -/
theorem streamOfOctets_octetsOfStream (n v : Nat) (h : v < 2 ^ (8 * n)) : streamOfOctets (octetsOfStream n v) = v := by
  induction n generalizing v with
  | zero => simp at h; simp [h, octetsOfStream, streamOfOctets]
  | succ n ih =>
    have h' : v / 256 < 2 ^ (8 * n) := by
      rw [Nat.div_lt_iff_lt_mul (by decide), show (256 : Nat) = 2 ^ 8 from rfl, ← pow_add]
      simpa [Nat.mul_add] using h
    simp only [octetsOfStream, streamOfOctets, ih _ h', BitVec.toNat_ofNat]
    omega

/-- The number of `n` septets of a stream. -/
theorem streamOfSeptets_septetsOfStream (n v : Nat) : streamOfSeptets (septetsOfStream n v) = v % 2 ^ (7 * n) := by
  induction n generalizing v with
  | zero => simp [septetsOfStream, streamOfSeptets, Nat.mod_one]
  | succ n ih =>
    simp only [septetsOfStream, streamOfSeptets, ih, BitVec.toNat_ofNat]
    rw [show 7 * (n + 1) = 7 + 7 * n by ring, pow_add, Nat.mod_mul, show (2 : Nat) ^ 7 = 128 from rfl]

/-- The number of an octet string as the sum that R109 writes. -/
theorem streamOfOctets_eq_sum (o : Octets) :
    streamOfOctets o = ((List.range o.length).map fun i => (o.getD i 0).toNat * 2 ^ (8 * i)).sum := by
  induction o with
  | nil => rfl
  | cons b r ih =>
    rw [List.length_cons, List.range_succ_eq_map]
    simp only [List.map_cons, List.map_map, List.sum_cons, streamOfOctets, ih]
    rw [← List.sum_map_mul_left]
    simp only [List.getD_cons_zero, Nat.mul_zero, pow_zero, mul_one, Nat.add_left_cancel_iff]
    congr 1
    apply List.map_congr_left
    intro i _
    simp only [Function.comp, List.getD_cons_succ]
    rw [show 8 * (i + 1) = 8 + 8 * i by ring, pow_add]; ring

/-- The number of a septet string after `k` fill bits as the sum that R108 writes. -/
theorem streamOfSeptets_eq_sum (q : Septets) (k : Nat) :
    2 ^ k * streamOfSeptets q = ((List.range q.length).map fun j => (q.getD j 0).toNat * 2 ^ (k + 7 * j)).sum := by
  induction q generalizing k with
  | nil => simp [streamOfSeptets]
  | cons b r ih =>
    rw [List.length_cons, List.range_succ_eq_map]
    simp only [List.map_cons, List.map_map, List.sum_cons, streamOfSeptets]
    rw [show 2 ^ k * (b.toNat + 128 * streamOfSeptets r) = b.toNat * 2 ^ k + 2 ^ (k + 7) * streamOfSeptets r by
      rw [pow_add]; ring, ih (k + 7)]
    simp only [List.getD_cons_zero, Nat.mul_zero, add_zero, Nat.add_left_cancel_iff]
    congr 1
    apply List.map_congr_left
    intro i _
    simp only [Function.comp, List.getD_cons_succ]
    rw [show k + 7 * (i + 1) = k + 7 + 7 * i by ring]

theorem streamOfOctets_append (a b : Octets) :
    streamOfOctets (a ++ b) = streamOfOctets a + 2 ^ (8 * a.length) * streamOfOctets b := by
  induction a with
  | nil => simp [streamOfOctets]
  | cons x r ih =>
    simp only [List.cons_append, streamOfOctets, ih, List.length_cons]
    rw [show 8 * (r.length + 1) = 8 + 8 * r.length by ring, pow_add]; ring

end Sys2Proof.Laws
end

