-- ==== Sys2Proof/Laws/Alphabets.lean ====
section
/-! SUPPORT. Spec lemmas of the alphabet codec (spec/40_alphabet.md): packing and unpacking, the two GSM-7 tables and the
UTF-16 code units. -/

namespace Sys2Proof.Laws

open Sys2Proof Sys2Proof.Machine

theorem pack7_length (q : Septets) (k : Nat) : (pack7 q k).length = ceilDiv (k + 7 * q.length) 8 :=
  octetsOfStream_length _ _

/-- The stream of packed octets is the septets' stream after the fill bits. -/
theorem streamOfOctets_pack7 (q : Septets) (k : Nat) : streamOfOctets (pack7 q k) = 2 ^ k * streamOfSeptets q := by
  refine streamOfOctets_octetsOfStream _ _ ?_
  calc 2 ^ k * streamOfSeptets q < 2 ^ k * 2 ^ (7 * q.length) :=
        Nat.mul_lt_mul_of_pos_left (streamOfSeptets_lt q) (by positivity)
    _ = 2 ^ (k + 7 * q.length) := by rw [pow_add]
    _ ≤ 2 ^ (8 * ceilDiv (k + 7 * q.length) 8) := Nat.pow_le_pow_right (by decide) (by unfold ceilDiv; omega)

/-- Unpacking reads back what packing wrote, whatever octets follow. -/
theorem unpack7_pack7 (q : Septets) (k : Nat) (rest : Octets) : unpack7 (pack7 q k ++ rest) q.length k = .ok q := by
  have hl : k + 7 * q.length ≤ 8 * (pack7 q k).length := by rw [pack7_length]; unfold ceilDiv; omega
  have hs := septetsOfStream_streamOfSeptets q
    (2 ^ (8 * (pack7 q k).length - (k + 7 * q.length)) * streamOfOctets rest)
  rw [unpack7, if_neg (by rw [List.length_append]; omega), streamOfOctets_append, streamOfOctets_pack7]
  congr 1
  rw [← Nat.add_sub_of_le hl, pow_add, pow_add,
    show 2 ^ k * streamOfSeptets q + 2 ^ k * 2 ^ (7 * q.length) *
        2 ^ (8 * (pack7 q k).length - (k + 7 * q.length)) * streamOfOctets rest =
      2 ^ k * (streamOfSeptets q + 2 ^ (7 * q.length) *
        (2 ^ (8 * (pack7 q k).length - (k + 7 * q.length)) * streamOfOctets rest)) by ring,
    Nat.mul_div_cancel_left _ (by positivity)]
  exact hs

/-- Packing writes back what unpacking read, where the bits that unpacking ignores are zero. -/
theorem pack7_unpack7 (o : Octets) (l k : Nat) (q : Septets) (h : unpack7 o l k = .ok q)
    (ho : o.length = ceilDiv (k + 7 * l) 8) (hk : streamOfOctets o % 2 ^ k = 0)
    (ht : streamOfOctets o < 2 ^ (k + 7 * l)) : pack7 q k = o := by
  simp only [unpack7] at h
  split at h
  · cases h
  injection h with h
  subst h
  have hd : streamOfOctets o / 2 ^ k < 2 ^ (7 * l) := by
    rw [Nat.div_lt_iff_lt_mul (by positivity), ← pow_add, Nat.add_comm]; exact ht
  rw [pack7, septetsOfStream_length, streamOfSeptets_septetsOfStream, Nat.mod_eq_of_lt hd,
    Nat.mul_div_cancel' (Nat.dvd_of_mod_eq_zero hk), ← ho, octetsOfStream_streamOfOctets]

theorem unpack7_length (o : Octets) (l k : Nat) (q : Septets) (h : unpack7 o l k = .ok q) : q.length = l := by
  simp only [unpack7] at h
  split at h
  · cases h
  · injection h with h; rw [← h, septetsOfStream_length]

/-! ### The accumulator form of R108 -/

theorem flushAcc_eq (acc n : Nat) (h : n < 16) : flushAcc 2 acc n =
    if 8 ≤ n then ([BitVec.ofNat 8 acc], acc / 256, n - 8) else ([], acc, n) := by
  simp only [flushAcc]
  split
  · rw [if_neg (by omega)]
  · rfl

/-- The loop writes the octets of the stream that the accumulator and the coming septets make. -/
theorem packLoop_eq (q : Septets) (acc n : Nat) (hn : n < 8) (ha : acc < 2 ^ n) :
    packLoop q acc n = octetsOfStream (ceilDiv (n + 7 * q.length) 8) (acc + 2 ^ n * streamOfSeptets q) := by
  induction q generalizing acc n with
  | nil =>
    simp only [packLoop, streamOfSeptets, List.length_nil]
    split
    · rw [show ceilDiv (n + 7 * 0) 8 = 1 by unfold ceilDiv; omega]; rfl
    · rw [show ceilDiv (n + 7 * 0) 8 = 0 by unfold ceilDiv; omega]; rfl
  | cons b r ih =>
    have hb := b.isLt
    have hor : acc ||| b.toNat <<< n = acc + 2 ^ n * b.toNat := by
      rw [Nat.or_comm, Nat.shiftLeft_eq, Nat.mul_comm, ← Nat.two_pow_add_eq_or_of_lt ha, Nat.add_comm]
    have hlt : acc + 2 ^ n * b.toNat < 2 ^ (n + 7) := by
      rw [pow_add]
      calc acc + 2 ^ n * b.toNat < 2 ^ n + 2 ^ n * b.toNat := by omega
        _ = 2 ^ n * (b.toNat + 1) := by ring
        _ ≤ 2 ^ n * 2 ^ 7 := Nat.mul_le_mul_left _ (by omega)
    simp only [packLoop, hor, flushAcc_eq _ (n + 7) (by omega)]
    have key : acc + 2 ^ n * (b.toNat + 128 * streamOfSeptets r) =
        acc + 2 ^ n * b.toNat + 2 ^ (n + 7) * streamOfSeptets r := by rw [pow_add]; ring
    rw [streamOfSeptets, key, List.length_cons]
    generalize acc + 2 ^ n * b.toNat = x at hlt
    split
    · next h8 =>
      obtain ⟨m, rfl⟩ : ∃ m, n = m + 1 := ⟨n - 1, by omega⟩
      simp only [show m + 1 + 7 - 8 = m by omega, List.singleton_append]
      rw [ih _ m (by omega) (by
        rw [Nat.div_lt_iff_lt_mul (by decide), show (256 : Nat) = 2 ^ 8 from rfl, ← pow_add]; simpa [Nat.add_assoc] using hlt)]
      rw [show ceilDiv (m + 1 + 7 * (r.length + 1)) 8 = ceilDiv (m + 7 * r.length) 8 + 1 by unfold ceilDiv; omega]
      have e : 2 ^ (m + 1 + 7) * streamOfSeptets r = 256 * (2 ^ m * streamOfSeptets r) := by
        rw [show m + 1 + 7 = m + 8 by ring, pow_add]; ring
      rw [octetsOfStream, e, show (x + 256 * (2 ^ m * streamOfSeptets r)) / 256 = x / 256 + 2 ^ m * streamOfSeptets r by
        omega]
      congr 1
      apply BitVec.eq_of_toNat_eq
      simp only [BitVec.toNat_ofNat]
      omega
    · next h8 =>
      obtain rfl : n = 0 := by omega
      rw [List.nil_append, ih _ 7 (by omega) (by simpa using hlt)]
      rw [show ceilDiv (0 + 7 * (r.length + 1)) 8 = ceilDiv (7 + 7 * r.length) 8 by congr 1; ring]

/-! ### The tables of R101 and R102 -/

theorem defaultTable_back : ∀ e ∈ defaultTable,
    charAt defaultTable (BitVec.ofNat 7 e.1) = some (Char.ofNat e.2) ∧ BitVec.ofNat 7 e.1 ≠ esc := by decide +kernel

theorem extTable_back : ∀ e ∈ extTable, charAt extTable (BitVec.ofNat 7 e.1) = some (Char.ofNat e.2) := by decide +kernel

/-- A septet of the default table stands for its character, and is not the escape. -/
theorem charAt_of_septetOf_default {c : Char} {q : Septet} (h : septetOf defaultTable c = some q) :
    charAt defaultTable q = some c ∧ q ≠ esc := by
  simp only [septetOf, Option.map_eq_some_iff] at h
  obtain ⟨e, he, rfl⟩ := h
  have hc : e.2 = c.toNat := by simpa using List.find?_some he
  have := defaultTable_back e (List.mem_of_find?_eq_some he)
  rwa [hc, Char.ofNat_toNat] at this

theorem charAt_of_septetOf_ext {c : Char} {q : Septet} (h : septetOf extTable c = some q) : charAt extTable q = some c := by
  simp only [septetOf, Option.map_eq_some_iff] at h
  obtain ⟨e, he, rfl⟩ := h
  have hc : e.2 = c.toNat := by simpa using List.find?_some he
  have := extTable_back e (List.mem_of_find?_eq_some he)
  rwa [hc, Char.ofNat_toNat] at this

theorem defaultTable_forth : ∀ e ∈ defaultTable, septetOf defaultTable (Char.ofNat e.2) = some (BitVec.ofNat 7 e.1) := by
  decide +kernel

theorem extTable_forth : ∀ e ∈ extTable, septetOf extTable (Char.ofNat e.2) = some (BitVec.ofNat 7 e.1) ∧
    septetOf defaultTable (Char.ofNat e.2) = none := by decide +kernel

theorem charAt_eq_some {table : List (Nat × Nat)} {q : Septet} {c : Char} (h : charAt table q = some c) :
    ∃ e ∈ table, c = Char.ofNat e.2 ∧ q = BitVec.ofNat 7 e.1 := by
  simp only [charAt, Option.map_eq_some_iff] at h
  obtain ⟨e, he, rfl⟩ := h
  have hq : e.1 = q.toNat := by simpa using List.find?_some he
  exact ⟨e, List.mem_of_find?_eq_some he, rfl, by rw [hq, BitVec.ofNat_toNat, BitVec.setWidth_eq]⟩

/-- The default table gives a character one septet (R101). -/
theorem septetOf_of_charAt_default {q : Septet} {c : Char} (h : charAt defaultTable q = some c) :
    septetOf defaultTable c = some q := by
  obtain ⟨e, he, rfl, rfl⟩ := charAt_eq_some h
  exact defaultTable_forth e he

/-- The extension table gives a character one code, and no character of it is in the default table (R102). -/
theorem septetOf_of_charAt_ext {q : Septet} {c : Char} (h : charAt extTable q = some c) :
    septetOf extTable c = some q ∧ septetOf defaultTable c = none := by
  obtain ⟨e, he, rfl, rfl⟩ := charAt_eq_some h
  exact extTable_forth e he

/-- `GSM7_ENC` of one character, read back: a septet of the default table, or the escape and a code (R104, R105). -/
theorem gsm7EncChar_eq_ok_iff (c : Char) (q : Septets) :
    gsm7EncChar c = .ok q ↔
      (∃ x, q = [x] ∧ x ≠ esc ∧ charAt defaultTable x = some c) ∨ ∃ x, q = [esc, x] ∧ charAt extTable x = some c := by
  constructor
  · intro h
    simp only [gsm7EncChar] at h
    split at h
    · next x hx =>
      injection h with h
      exact .inl ⟨x, h.symm, (charAt_of_septetOf_default hx).2, (charAt_of_septetOf_default hx).1⟩
    · split at h
      · next x hx => injection h with h; exact .inr ⟨x, h.symm, charAt_of_septetOf_ext hx⟩
      · cases h
  · rintro (⟨x, rfl, -, hx⟩ | ⟨x, rfl, hx⟩)
    · simp only [gsm7EncChar, septetOf_of_charAt_default hx]
    · simp only [gsm7EncChar, septetOf_of_charAt_ext hx]

theorem gsm7Enc_cons_eq_ok_iff (c : Char) (t : Text) (q : Septets) :
    gsm7Enc (c :: t) = .ok q ↔ ∃ a b, gsm7EncChar c = .ok a ∧ gsm7Enc t = .ok b ∧ q = a ++ b := by
  simp only [gsm7Enc, bind, Except.bind]
  cases gsm7EncChar c with
  | error e => simp
  | ok a => cases gsm7Enc t <;> simp [eq_comm]

theorem gsm7Dec_default {q : Septet} (hq : q ≠ esc) (r : Septets) (t : Text) :
    gsm7Dec (q :: r) = .ok t ↔ ∃ c t', charAt defaultTable q = some c ∧ gsm7Dec r = .ok t' ∧ t = c :: t' := by
  cases r with
  | nil =>
    simp only [gsm7Dec, hq, if_false, bind, Except.bind, defaultChar]
    cases charAt defaultTable q <;> simp [eq_comm]
  | cons x r =>
    simp only [gsm7Dec, hq, if_false, bind, Except.bind, defaultChar]
    cases charAt defaultTable q with
    | none => simp
    | some c => cases gsm7Dec (x :: r) <;> simp [eq_comm]

theorem gsm7Dec_esc (x : Septet) (r : Septets) (t : Text) :
    gsm7Dec (esc :: x :: r) = .ok t ↔ ∃ c t', charAt extTable x = some c ∧ gsm7Dec r = .ok t' ∧ t = c :: t' := by
  simp only [gsm7Dec, if_true, bind, Except.bind, extChar]
  cases charAt extTable x with
  | none => simp
  | some c => cases gsm7Dec r <;> simp [eq_comm]

theorem gsm7Dec_esc_nil (t : Text) : gsm7Dec [esc] ≠ .ok t := by
  simp [gsm7Dec, bind, Except.bind]

/-- `GSM7_DEC` accepts exactly what `GSM7_ENC` writes (R105). -/
theorem gsm7Dec_eq_ok_iff (q : Septets) (t : Text) : gsm7Dec q = .ok t ↔ gsm7Enc t = .ok q := by
  induction t generalizing q with
  | nil =>
    simp only [gsm7Enc, Except.ok.injEq]
    constructor
    · intro h
      match q with
      | [] => rfl
      | s :: r =>
        by_cases hs : s = esc
        · subst hs
          match r with
          | [] => exact absurd h (gsm7Dec_esc_nil _)
          | x :: r => obtain ⟨_, _, _, _, h⟩ := (gsm7Dec_esc x r []).1 h; cases h
        · obtain ⟨_, _, _, _, h⟩ := (gsm7Dec_default hs r []).1 h; cases h
    · rintro rfl; rfl
  | cons c t ih =>
    rw [gsm7Enc_cons_eq_ok_iff]
    constructor
    · intro h
      match q with
      | [] => cases h
      | s :: r =>
        by_cases hs : s = esc
        · subst hs
          match r with
          | [] => exact absurd h (gsm7Dec_esc_nil _)
          | x :: r =>
            obtain ⟨c', t', hc, ht, h⟩ := (gsm7Dec_esc x r _).1 h
            injection h with h1 h2
            subst h1 h2
            exact ⟨[esc, x], r, (gsm7EncChar_eq_ok_iff _ _).2 (.inr ⟨x, rfl, hc⟩), (ih r).1 ht, rfl⟩
        · obtain ⟨c', t', hc, ht, h⟩ := (gsm7Dec_default hs r _).1 h
          injection h with h1 h2
          subst h1 h2
          exact ⟨[s], r, (gsm7EncChar_eq_ok_iff _ _).2 (.inl ⟨s, rfl, hs, hc⟩), (ih r).1 ht, rfl⟩
    · rintro ⟨a, b, ha, hb, rfl⟩
      rcases (gsm7EncChar_eq_ok_iff _ _).1 ha with ⟨x, rfl, hx, hc⟩ | ⟨x, rfl, hc⟩
      · exact (gsm7Dec_default hx b _).2 ⟨c, t, hc, (ih b).2 hb, rfl⟩
      · exact (gsm7Dec_esc x b _).2 ⟨c, t, hc, (ih b).2 hb, rfl⟩

/-- An error of a sequence of two operations is an error of one of them. -/
theorem bind_eq_error {x : Answer α} {f : α → Answer β} {k : ErrorKind} (h : (x >>= f) = .error k) :
    x = .error k ∨ ∃ a, x = .ok a ∧ f a = .error k := by
  cases x with
  | error e => injection h with h; exact .inl (by rw [h])
  | ok a => exact .inr ⟨a, rfl, h⟩

theorem bind_eq_ok {x : Answer α} {f : α → Answer β} {b : β} : (x >>= f) = .ok b ↔ ∃ a, x = .ok a ∧ f a = .ok b := by
  cases x with
  | error e => simp [bind, Except.bind]
  | ok a => simp [bind, Except.bind]

theorem defaultChar_error {q : Septet} {k : ErrorKind} (h : defaultChar q = .error k) : k = .unsupportedAlphabet := by
  simp only [defaultChar] at h
  split at h <;> simp_all

theorem extChar_error {q : Septet} {k : ErrorKind} (h : extChar q = .error k) : k = .unsupportedAlphabet := by
  simp only [extChar] at h
  split at h <;> simp_all

theorem gsm7EncChar_error {c : Char} {k : ErrorKind} (h : gsm7EncChar c = .error k) : k = .unsupportedAlphabet := by
  simp only [gsm7EncChar] at h
  repeat' split at h
  all_goals simp_all

/-- The only error of `GSM7_DEC` (R105). -/
theorem gsm7Dec_error (q : Septets) (k : ErrorKind) (h : gsm7Dec q = .error k) : k = .unsupportedAlphabet := by
  match q with
  | [] => cases h
  | [s] =>
    simp only [gsm7Dec] at h
    split at h
    · injection h with h; exact h.symm
    · rcases bind_eq_error h with h | ⟨_, _, h⟩
      · exact defaultChar_error h
      · cases h
  | s :: x :: r =>
    simp only [gsm7Dec] at h
    split at h
    · rcases bind_eq_error h with h | ⟨_, _, h⟩
      · exact extChar_error h
      · rcases bind_eq_error h with h | ⟨_, _, h⟩
        · exact gsm7Dec_error r k h
        · cases h
    · rcases bind_eq_error h with h | ⟨_, _, h⟩
      · exact defaultChar_error h
      · rcases bind_eq_error h with h | ⟨_, _, h⟩
        · exact gsm7Dec_error (x :: r) k h
        · cases h
termination_by q.length

/-- The only error of `GSM7_ENC` (R104). -/
theorem gsm7Enc_error (t : Text) (k : ErrorKind) (h : gsm7Enc t = .error k) : k = .unsupportedAlphabet := by
  induction t with
  | nil => cases h
  | cons c t ih =>
    rcases bind_eq_error h with h | ⟨_, _, h⟩
    · exact gsm7EncChar_error h
    · rcases bind_eq_error h with h | ⟨_, _, h⟩
      · exact ih h
      · cases h

/-! ### UCS-2 -/

theorem char_range (c : Char) : c.toNat < 0xD800 ∨ (0xDFFF < c.toNat ∧ c.toNat < 0x110000) := c.valid

theorem toNat_ofNat_char {n : Nat} (h : n < 0xD800 ∨ (0xDFFF < n ∧ n < 0x110000)) : (Char.ofNat n).toNat = n :=
  by rw [Char.ofNat, dif_pos h]; rfl

theorem unitsOf_small {c : Char} (h : c.toNat < 0x10000) :
    unitsOf c = [c.toNat] ∧ isHigh c.toNat = false ∧ isLow c.toNat = false := by
  have := char_range c
  refine ⟨by simp [unitsOf, h], ?_, ?_⟩ <;> simp only [isHigh, isLow, Bool.and_eq_false_iff, decide_eq_false_iff_not] <;>
    omega

theorem unitsOf_large {c : Char} (h : ¬ c.toNat < 0x10000) :
    ∃ u v, unitsOf c = [u, v] ∧ isHigh u = true ∧ isLow v = true ∧
      0x10000 + (u - 0xD800) * 1024 + (v - 0xDC00) = c.toNat := by
  have := char_range c
  refine ⟨0xD800 + (c.toNat - 0x10000) / 1024, 0xDC00 + (c.toNat - 0x10000) % 1024,
    by simp only [unitsOf, h, if_false], ?_, ?_, by omega⟩ <;>
    simp only [isHigh, isLow, Bool.and_eq_true, decide_eq_true_eq] <;> omega

theorem textOfUnits_single {u : Nat} (hh : isHigh u = false) (hl : isLow u = false) (r : List Nat) (t : Text) :
    textOfUnits (u :: r) = .ok t ↔ ∃ t', textOfUnits r = .ok t' ∧ t = Char.ofNat u :: t' := by
  cases r with
  | nil => simp [textOfUnits, hh, hl, eq_comm]
  | cons v r =>
    simp only [textOfUnits, hh, hl, Bool.false_eq_true, if_false, bind_eq_ok, Except.ok.injEq, eq_comm (a := t)]

theorem textOfUnits_double {u v : Nat} (hh : isHigh u = true) (hl : isLow v = true) (r : List Nat) (t : Text) :
    textOfUnits (u :: v :: r) = .ok t ↔
      ∃ t', textOfUnits r = .ok t' ∧ t = Char.ofNat (0x10000 + (u - 0xD800) * 1024 + (v - 0xDC00)) :: t' := by
  simp only [textOfUnits, hh, hl, if_true, bind_eq_ok, Except.ok.injEq, eq_comm (a := t)]

/-- `UCS2_DEC` of a unit string answers exactly the text with these units (R112, R113). -/
theorem textOfUnits_eq_ok_iff (u : List Nat) (hu : ∀ x ∈ u, x < 0x10000) (t : Text) :
    textOfUnits u = .ok t ↔ t.flatMap unitsOf = u := by
  induction t generalizing u with
  | nil =>
    simp only [List.flatMap_nil]
    constructor
    · intro h
      match u with
      | [] => rfl
      | [a] => simp only [textOfUnits] at h; split at h <;> cases h
      | a :: b :: r =>
        simp only [textOfUnits] at h
        repeat' split at h
        all_goals first | (obtain ⟨_, _, h⟩ := bind_eq_ok.1 h; cases h) | cases h
    · rintro rfl; rfl
  | cons c t ih =>
    rw [List.flatMap_cons]
    constructor
    · intro h
      match u with
      | [] => cases h
      | a :: r =>
        by_cases hh : isHigh a = true
        · match r with
          | [] => simp [textOfUnits, hh] at h
          | b :: r =>
            by_cases hl : isLow b = true
            · obtain ⟨t', ht, h⟩ := (textOfUnits_double hh hl r _).1 h
              injection h with h1 h2
              subst h2
              have hc : c.toNat = 0x10000 + (a - 0xD800) * 1024 + (b - 0xDC00) := by
                rw [h1]; apply toNat_ofNat_char
                simp only [isHigh, isLow, Bool.and_eq_true, decide_eq_true_eq] at hh hl; omega
              rw [(ih r fun x hx => hu x (by simp [hx])).1 ht]
              simp only [isHigh, isLow, Bool.and_eq_true, decide_eq_true_eq] at hh hl
              rw [unitsOf, if_neg (by omega)]
              simp only [List.cons_append, List.nil_append, List.cons.injEq, and_true]
              omega
            · simp [textOfUnits, hh, hl] at h
        · by_cases hl : isLow a = true
          · match r with
            | [] => simp [textOfUnits, hl] at h
            | b :: r => simp [textOfUnits, hh, hl] at h
          · simp only [Bool.not_eq_true] at hh hl
            obtain ⟨t', ht, h⟩ := (textOfUnits_single hh hl r _).1 h
            injection h with h1 h2
            subst h2
            have ha := hu a (by simp)
            have hc : c.toNat = a := by
              rw [h1]; apply toNat_ofNat_char
              simp only [isHigh, isLow, Bool.and_eq_false_iff, decide_eq_false_iff_not] at hh hl; omega
            rw [(ih r fun x hx => hu x (by simp [hx])).1 ht, unitsOf, if_pos (by omega), hc]; rfl
    · rintro rfl
      by_cases hc : c.toNat < 0x10000
      · obtain ⟨h1, h2, h3⟩ := unitsOf_small hc
        rw [h1] at hu ⊢
        exact (textOfUnits_single h2 h3 _ _).2 ⟨t, (ih _ fun x hx => hu x (by simp at hx ⊢; exact .inr hx)).2 rfl, by
          rw [Char.ofNat_toNat]⟩
      · obtain ⟨a, b, h1, h2, h3, h4⟩ := unitsOf_large hc
        rw [h1] at hu ⊢
        exact (textOfUnits_double h2 h3 _ _).2 ⟨t, (ih _ fun x hx => hu x (by simp at hx ⊢; exact .inr (.inr hx))).2 rfl, by
          rw [h4, Char.ofNat_toNat]⟩

theorem codeUnits_lt (o : Octets) : ∀ x ∈ codeUnits o, x < 0x10000 := by
  match o with
  | [] => simp [codeUnits]
  | [a] => simp [codeUnits]
  | a :: b :: r =>
    have ha := a.isLt
    have hb := b.isLt
    intro x hx
    simp only [codeUnits, List.mem_cons] at hx
    rcases hx with rfl | hx
    · omega
    · exact codeUnits_lt r x hx
termination_by o.length

/-- Code units and octets are the same thing, for an even number of octets (R51). -/
theorem flatMap_unitOctets_eq_iff (u : List Nat) (hu : ∀ x ∈ u, x < 0x10000) (o : Octets) :
    u.flatMap unitOctets = o ↔ o.length % 2 = 0 ∧ codeUnits o = u := by
  induction u generalizing o with
  | nil =>
    match o with
    | [] => simp [codeUnits]
    | [a] => simp [codeUnits]
    | a :: b :: r => simp [codeUnits]
  | cons x u ih =>
    match o with
    | [] => simp [codeUnits, unitOctets]
    | [a] => simp [codeUnits, unitOctets]
    | a :: b :: r =>
      have ha := a.isLt
      have hb := b.isLt
      have hx := hu x (by simp)
      have := ih (fun y hy => hu y (by simp [hy])) r
      simp only [List.flatMap_cons, unitOctets, List.cons_append, List.nil_append, List.cons.injEq, codeUnits, this,
        List.length_cons]
      constructor
      · rintro ⟨rfl, rfl, h1, h2⟩
        refine ⟨by omega, ?_, h2⟩
        simp only [BitVec.toNat_ofNat]; omega
      · rintro ⟨h1, rfl, h2⟩
        refine ⟨?_, ?_, by omega, h2⟩ <;> apply BitVec.eq_of_toNat_eq <;> simp only [BitVec.toNat_ofNat] <;> omega

theorem unitsOf_lt (c : Char) : ∀ x ∈ unitsOf c, x < 0x10000 := by
  have := char_range c
  by_cases h : c.toNat < 0x10000
  · simp [unitsOf, h]
  · simp only [unitsOf, h, if_false, List.mem_cons, List.not_mem_nil, or_false]
    rintro x (h | h) <;> omega

/-- `UCS2_DEC` accepts exactly what `UCS2_ENC` writes (R113, R112). -/
theorem ucs2Dec_eq_ok_iff (o : Octets) (t : Text) : ucs2Dec o = .ok t ↔ ucs2Enc t = o := by
  have he : ucs2Enc t = (t.flatMap unitsOf).flatMap unitOctets := by rw [ucs2Enc, List.flatMap_assoc]
  have hu : ∀ x ∈ t.flatMap unitsOf, x < 0x10000 := by
    simp only [List.mem_flatMap]
    rintro x ⟨c, -, hx⟩
    exact unitsOf_lt c x hx
  rw [he, flatMap_unitOctets_eq_iff _ hu, ucs2Dec]
  split
  · next h => simp; omega
  · next h =>
    rw [textOfUnits_eq_ok_iff _ (codeUnits_lt o), eq_comm (a := t.flatMap unitsOf)]
    constructor
    · exact fun h' => ⟨by omega, h'⟩
    · exact fun h' => h'.2

/-- The only error of `UCS2_DEC` (R113). -/
theorem textOfUnits_error (u : List Nat) (k : ErrorKind) (h : textOfUnits u = .error k) : k = .badPdu := by
  match u with
  | [] => cases h
  | [a] => simp only [textOfUnits] at h; split at h <;> simp_all
  | a :: b :: r =>
    simp only [textOfUnits] at h
    repeat' split at h
    · rcases bind_eq_error h with h | ⟨_, _, h⟩
      · exact textOfUnits_error r k h
      · cases h
    · injection h with h; exact h.symm
    · injection h with h; exact h.symm
    · rcases bind_eq_error h with h | ⟨_, _, h⟩
      · exact textOfUnits_error (b :: r) k h
      · cases h
termination_by u.length

theorem ucs2Dec_error (o : Octets) (k : ErrorKind) (h : ucs2Dec o = .error k) : k = .badPdu := by
  simp only [ucs2Dec] at h
  split at h
  · injection h with h; exact h.symm
  · exact textOfUnits_error _ k h

end Sys2Proof.Laws
end

