-- ==== Sys2Proof/Laws/Addresses.lean ====
section
/-! SUPPORT. Spec lemmas of the address codec (spec/41_address.md): digits and semi-octets, and the address field. -/

namespace Sys2Proof.Laws

open Sys2Proof Sys2Proof.Machine

/-- The digit characters of R131. -/
def isDigitOctet (c : Byte) : Bool := decide (0x30 ≤ c.toNat ∧ c.toNat ≤ 0x39)

theorem digitsOf_eq (a : Ascii) : digitsOf a = (a.filter isDigitOctet).map fun c => c.toNat - 0x30 := by
  induction a with
  | nil => rfl
  | cons c a ih =>
    simp only [digitsOf, List.filterMap_cons, digitOf, List.filter_cons, isDigitOctet, decide_eq_true_eq] at ih ⊢
    split
    · next h => rw [if_neg (by intro h'; simp [h'] at h)]; exact ih
    · next h => split at h <;> simp_all

theorem digitsOf_le (a : Ascii) : ∀ d ∈ digitsOf a, d ≤ 9 := by
  rw [digitsOf_eq]
  simp only [List.mem_map, List.mem_filter, isDigitOctet, decide_eq_true_eq]
  rintro d ⟨c, ⟨-, h⟩, rfl⟩
  omega

theorem nibbles_toNat {hi lo : Nat} (hh : hi < 16) (hl : lo < 16) : (nibbles hi lo).toNat = 16 * hi + lo := by
  simp only [nibbles, BitVec.toNat_ofNat]; omega

theorem semiOctets_length (d : List Nat) : (semiOctets d).length = ceilDiv d.length 2 := by
  match d with
  | [] => rfl
  | [_] => simp [semiOctets, ceilDiv]
  | a :: b :: r =>
    have := semiOctets_length r
    simp only [semiOctets, List.length_cons, this]
    unfold ceilDiv; omega
termination_by d.length

/-- The digit pair of each octet, an odd count padded with 0xF (R53). -/
theorem semiOctets_getD (d : List Nat) (h : ∀ x ∈ d, x ≤ 9) (i : Nat) (hi : i < (semiOctets d).length) :
    ((semiOctets d).getD i 0).toNat = 16 * (d ++ [0xF]).getD (2 * i + 1) 0 + d.getD (2 * i) 0 := by
  match d, i with
  | [], _ => simp [semiOctets] at hi
  | [a], 0 =>
    have := h a (by simp)
    simp [semiOctets, nibbles_toNat (show 15 < 16 by decide) (show a < 16 by omega)]
  | [_], _ + 1 => simp [semiOctets] at hi
  | a :: b :: r, 0 =>
    have ha := h a (by simp)
    have hb := h b (by simp)
    simp [semiOctets, nibbles_toNat (show b < 16 by omega) (show a < 16 by omega)]
  | a :: b :: r, i + 1 =>
    have := semiOctets_getD r (fun x hx => h x (by simp [hx])) i (by simpa [semiOctets] using hi)
    simpa [semiOctets, show 2 * (i + 1) + 1 = 2 * i + 1 + 1 + 1 by ring, show 2 * (i + 1) = 2 * i + 1 + 1 by ring]
      using this
termination_by d.length

theorem nibblesOf_length (o : Octets) : (nibblesOf o).length = 2 * o.length := by
  induction o with
  | nil => rfl
  | cons b r ih => simp only [nibblesOf, List.flatMap_cons, List.length_append, List.length_cons] at ih ⊢; simp [ih]; omega

/-- Nibble `i` of an octet string, the low nibble first (R53). -/
theorem nibblesOf_getElem? (o : Octets) (i : Nat) (h : i < 2 * o.length) :
    (nibblesOf o)[i]? = some (if i % 2 = 0 then (o.getD (i / 2) 0).toNat % 16 else (o.getD (i / 2) 0).toNat / 16) := by
  induction o generalizing i with
  | nil => simp at h
  | cons b r ih =>
    match i with
    | 0 => simp [nibblesOf, lowNibble]
    | 1 => simp [nibblesOf, highNibble]
    | i + 2 =>
      have := ih i (by simp at h; omega)
      simp only [nibblesOf, List.flatMap_cons, List.cons_append, List.nil_append, List.getElem?_cons_succ] at this ⊢
      rw [this, show (i + 2) % 2 = i % 2 by omega, show (i + 2) / 2 = i / 2 + 1 by omega, List.getD_cons_succ]

/-- The nibbles of the semi-octets of digits are the digits, and the pad of an odd count (R53). -/
theorem nibblesOf_semiOctets (d : List Nat) (h : ∀ x ∈ d, x ≤ 9) :
    nibblesOf (semiOctets d) = if d.length % 2 = 1 then d ++ [0xF] else d := by
  match d with
  | [] => rfl
  | [a] =>
    have := h a (by simp)
    simp [semiOctets, nibblesOf, lowNibble, highNibble, nibbles_toNat (show 15 < 16 by decide) (show a < 16 by omega)]
    omega
  | a :: b :: r =>
    have ha := h a (by simp)
    have hb := h b (by simp)
    have ih := nibblesOf_semiOctets r fun x hx => h x (by simp [hx])
    have hn : nibblesOf (semiOctets (a :: b :: r)) = a :: b :: nibblesOf (semiOctets r) := by
      simp only [semiOctets, nibblesOf, List.flatMap_cons, lowNibble, highNibble,
        nibbles_toNat (show b < 16 by omega) (show a < 16 by omega), List.cons_append, List.nil_append]
      congr 1; · omega
      congr 1; omega
    rw [hn, ih]
    simp only [List.length_cons, show (r.length + 1 + 1) % 2 = r.length % 2 by omega]
    split <;> rfl
termination_by d.length

/-- `ADDR_DEC` of digits laid in semi-octets, as many as the length says (R136). -/
theorem numericDigits_semiOctets (d : List Nat) (h : ∀ x ∈ d, x ≤ 9) (toa : Byte) (hl : d.length < 256) :
    numericDigits { len := BitVec.ofNat 8 d.length, toa := toa, val := semiOctets d } =
      .ok (d.map fun x => BitVec.ofNat 8 (0x30 + x)) := by
  simp only [numericDigits, BitVec.toNat_ofNat, nibblesOf_semiOctets d h]
  rw [show d.length % 2 ^ 8 = d.length from Nat.mod_eq_of_lt hl]
  split
  · next hodd =>
    rw [if_neg (by simp), List.take_left', if_neg]
    · simp only [List.any_eq_true, decide_eq_true_eq, not_exists, not_and, not_lt]; exact h
    · rfl
  · next hodd =>
    rw [if_neg (by simp [hodd]), List.take_length, if_neg]
    simp only [List.any_eq_true, decide_eq_true_eq, not_exists, not_and, not_lt]; exact h

/-- Where the numeric case of `ADDR_DEC` answers, and what (R136), for an address of its type. -/
theorem numericDigits_eq (a : Address) (hw : a.wf = true) :
    let nib := fun i => if i % 2 = 0 then (a.val.getD (i / 2) 0).toNat % 16 else (a.val.getD (i / 2) 0).toNat / 16
    (((a.len.toNat % 2 = 1 → nib a.len.toNat = 0xF) ∧ ∀ i, i < a.len.toNat → nib i ≤ 9) →
      numericDigits a = .ok ((List.range a.len.toNat).map fun i => BitVec.ofNat 8 (0x30 + nib i))) ∧
    (¬ ((a.len.toNat % 2 = 1 → nib a.len.toNat = 0xF) ∧ ∀ i, i < a.len.toNat → nib i ≤ 9) →
      numericDigits a = .error .badAddress) := by
  intro nib
  have hv : a.val.length = ceilDiv a.len.toNat 2 := by simpa [Address.wf] using hw
  have hlen : a.len.toNat ≤ 2 * a.val.length := by rw [hv]; unfold ceilDiv; omega
  have hget : ∀ i, i < 2 * a.val.length → (nibblesOf a.val)[i]? = some (nib i) := nibblesOf_getElem? a.val
  have htake : (nibblesOf a.val).take a.len.toNat = (List.range a.len.toNat).map nib := by
    apply List.ext_getElem?
    intro i
    by_cases hi : i < a.len.toNat
    · rw [List.getElem?_take_of_lt hi, hget i (by omega)]
      simp [hi]
    · rw [List.getElem?_eq_none (by simp; omega), List.getElem?_eq_none (by simp; omega)]
  have hpad : a.len.toNat % 2 = 1 → (nibblesOf a.val)[a.len.toNat]? = some (nib a.len.toNat) := fun ho =>
    hget _ (by rw [hv]; unfold ceilDiv; omega)
  simp only [numericDigits, htake, List.any_map, List.map_map]
  constructor
  · rintro ⟨h1, h2⟩
    rw [if_neg, if_neg]
    · rfl
    · simp only [List.any_eq_true, List.mem_range, Function.comp, decide_eq_true_eq, not_exists, not_and, not_lt]
      exact h2
    · rintro ⟨ho, hne⟩
      exact hne (by rw [hpad ho, h1 ho])
  · intro h
    split
    · rfl
    · next hp =>
      rw [if_pos]
      simp only [List.any_eq_true, List.mem_range, Function.comp, decide_eq_true_eq]
      by_contra hc
      push Not at hc
      refine h ⟨fun ho => ?_, hc⟩
      by_contra hne
      exact hp ⟨ho, by rw [hpad ho]; simpa using hne⟩

/-- The septet count of an alphanumeric address is recovered from its length (R135). -/
theorem alnumSeptets_ofNat (n : Nat) (h : n ≤ 11) : alnumSeptets (BitVec.ofNat 8 (ceilDiv (7 * n) 4)) = n := by
  interval_cases n <;> rfl

/-- `ADDR_PARSE` of a serialised address, at any offset and whatever follows (R140). -/
theorem addrParse_addrSer (a : Address) (pre rest : Octets) (hw : a.wf = true) (h7 : bitOf a.toa 7 = true) :
    addrParse (pre ++ addrSer a ++ rest) pre.length = .ok (a, pre.length + (2 + a.val.length)) := by
  have hv : a.val.length = ceilDiv a.len.toNat 2 := by simpa [Address.wf] using hw
  have e : pre ++ addrSer a ++ rest = pre ++ (a.len :: a.toa :: (a.val ++ rest)) := by simp [addrSer]
  have h0 : octetAt (pre ++ addrSer a ++ rest) pre.length = a.len := by
    rw [e, octetAt, List.getD_append_right _ _ _ _ (le_refl _)]; simp
  have h1 : octetAt (pre ++ addrSer a ++ rest) (pre.length + 1) = a.toa := by
    rw [e, octetAt, List.getD_append_right _ _ _ _ (by omega)]; simp
  have h2 : memRead (pre ++ addrSer a ++ rest) (pre.length + 2) a.val.length = a.val := by
    rw [e, memRead, List.drop_append, List.drop_eq_nil_of_le (by omega)]
    simp
  have hl : (pre ++ addrSer a ++ rest).length = pre.length + 2 + a.val.length + rest.length := by
    rw [e]; simp; omega
  simp only [addrParse, h0, h1, h7, ← hv, h2, hl, Bool.true_eq_false, if_false]
  rw [if_neg (by omega), if_neg (by omega)]
  simp only [Except.ok.injEq, Prod.mk.injEq, true_and]
  omega

theorem memRead_succ (o : Octets) (pos n : Nat) (h : pos < o.length) :
    memRead o pos (n + 1) = octetAt o pos :: memRead o (pos + 1) n := by
  simp only [memRead, octetAt, List.drop_eq_getElem_cons h, List.take_succ_cons, List.getD_eq_getElem?_getD,
    List.getElem?_eq_getElem h, Option.getD_some]

theorem memRead_length (o : Octets) (pos n : Nat) (h : pos + n ≤ o.length) : (memRead o pos n).length = n := by
  simp only [memRead, List.length_take, List.length_drop]; omega

/-- What `ADDR_PARSE` accepts: the address is of its type, has bit 7 of its type octet set, and is the slice it was read
from (R139, R140). -/
theorem addrParse_eq_ok {o : Octets} {pos : Nat} {a : Address} {pos' : Nat} (h : addrParse o pos = .ok (a, pos')) :
    pos' ≤ o.length ∧ a.wf = true ∧ bitOf a.toa 7 = true ∧ pos' = pos + 2 + a.val.length ∧
      memRead o pos (2 + a.val.length) = addrSer a := by
  simp only [addrParse] at h
  split at h
  · cases h
  split at h
  · cases h
  split at h
  · cases h
  next h1 h2 h3 =>
  injection h with h
  injection h with ha hp
  subst ha hp
  have hl := memRead_length o (pos + 2) (ceilDiv (octetAt o pos).toNat 2) (by omega)
  refine ⟨by omega, by simp [Address.wf, hl], by simpa using h2, by rw [hl], ?_⟩
  rw [hl, Nat.add_comm 2, memRead_succ _ _ _ (by omega), memRead_succ _ _ _ (by omega)]
  rfl

/-- The errors of `ADDR_PARSE` (R139). -/
theorem addrParse_error {o : Octets} {pos : Nat} {k : ErrorKind} (h : addrParse o pos = .error k) :
    k = .badPdu ∨ k = .badAddress := by
  simp only [addrParse] at h
  repeat' split at h
  all_goals simp_all

end Sys2Proof.Laws
end

