-- ==== Sys2Proof/Laws/Codecs.lean ====
section
/-! SUPPORT. Every operand form reads back what it writes, whatever follows: one lemma for each form, from which the
decoding of a whole instruction is assembled. -/

namespace Sys2Proof.Laws

open Sys2Proof Sys2Proof.Machine

/-- The form reads back every value that meets `P`, and leaves what follows. -/
def Lawful (c : Codec α) (P : α → Prop) : Prop := ∀ a, P a → ∀ rest, c.read (c.write a ++ rest) = .ok (a, rest)

theorem lawful_byte : Lawful cByte fun _ => True := fun _ _ _ => rfl

theorem lawful_unit : Lawful cUnit fun _ => True := fun _ _ _ => rfl

theorem readNat_write (fuel n : Nat) (h : n < 2 ^ (7 * (fuel + 1))) (rest : Octets) :
    readNat (writeNatFuel fuel n ++ rest) = .ok (n, rest) := by
  induction fuel generalizing n with
  | zero =>
    have : n < 128 := by simpa using h
    simp [writeNatFuel, readNat, Nat.mod_eq_of_lt (show n < 256 by omega), Nat.mod_eq_of_lt this, this]
  | succ fuel ih =>
    by_cases hn : n < 128
    · simp [writeNatFuel, hn, readNat, Nat.mod_eq_of_lt (show n < 256 by omega)]
    · have hd : n / 128 < 2 ^ (7 * (fuel + 1)) := by
        rw [Nat.div_lt_iff_lt_mul (by decide)]
        calc n < 2 ^ (7 * (fuel + 1 + 1)) := h
          _ = 2 ^ (7 * (fuel + 1)) * 128 := by rw [show 7 * (fuel + 1 + 1) = 7 * (fuel + 1) + 7 by ring, pow_add]; rfl
      have hb : (128 + n % 128) % 256 = 128 + n % 128 := by omega
      simp only [writeNatFuel, hn, if_false, List.cons_append, readNat, BitVec.toNat_ofNat, ih _ hd]
      rw [show (2 : Nat) ^ 8 = 256 from rfl, hb, if_neg (by omega)]
      simp only [Except.ok.injEq, Prod.mk.injEq, and_true]
      omega

theorem lawful_nat : Lawful cNat fun _ => True := fun n _ rest => by
  refine readNat_write n n ?_ rest
  calc n < 2 ^ n := Nat.lt_two_pow_self
    _ ≤ 2 ^ (7 * (n + 1)) := Nat.pow_le_pow_right (by decide) (by omega)

theorem lawful_via {c : Codec α} {P : α → Prop} (h : Lawful c P) (f : α → Option β) (g : β → α) (Q : β → Prop)
    (hp : ∀ b, Q b → P (g b)) (hf : ∀ b, Q b → f (g b) = some b) : Lawful (cVia c f g) Q := by
  intro b hb rest
  simp only [cVia, Reader.mapCheck, Reader.bind, h _ (hp b hb) rest, hf b hb]

theorem lawful_pair {c : Codec α} {d : Codec β} {P : α → Prop} {Q : β → Prop} (hc : Lawful c P) (hd : Lawful d Q) :
    Lawful (cPair c d) fun x => P x.1 ∧ Q x.2 := by
  intro x hx rest
  simp only [cPair, Reader.bind, List.append_assoc, hc _ hx.1, hd _ hx.2, Reader.pure]

theorem readMany_write {c : Codec α} {P : α → Prop} (h : Lawful c P) (l : List α) (hl : ∀ a ∈ l, P a) (rest : Octets) :
    readMany c.read l.length (l.flatMap c.write ++ rest) = .ok (l, rest) := by
  induction l with
  | nil => rfl
  | cons a l ih =>
    simp only [List.length_cons, readMany, List.flatMap_cons, List.append_assoc, Reader.bind, Reader.map,
      h a (hl a (by simp)), ih fun b hb => hl b (by simp [hb]), Reader.pure]

theorem lawful_list {c : Codec α} {P : α → Prop} (h : Lawful c P) : Lawful (cList c) fun l => ∀ a ∈ l, P a := by
  intro l hl rest
  simp only [cList, Reader.bind, List.append_assoc, lawful_nat _ trivial, readMany_write h l hl]

theorem lawful_mono {c : Codec α} {P Q : α → Prop} (h : Lawful c P) (hq : ∀ a, Q a → P a) : Lawful c Q :=
  fun a ha => h a (hq a ha)

theorem lawful_bool : Lawful cBool fun _ => True :=
  lawful_via lawful_byte _ _ _ (fun _ _ => trivial) (by decide)

theorem lawful_sum {c : Codec α} {d : Codec β} {P : α → Prop} {Q : β → Prop} (hc : Lawful c P) (hd : Lawful d Q) :
    Lawful (cSum c d) fun x => x.elim P Q := by
  rintro (a | b) h rest
  · simp only [cSum, Reader.bind, Reader.map, List.append_assoc, lawful_bool _ trivial, Bool.false_eq_true, if_false]
    simp only [hc a h, Reader.pure]
  · simp only [cSum, Reader.bind, Reader.map, List.append_assoc, lawful_bool _ trivial, if_true]
    simp only [hd b h, Reader.pure]

theorem lawful_option {c : Codec α} {P : α → Prop} (hc : Lawful c P) : Lawful (cOption c) fun x => ∀ a ∈ x, P a := by
  refine lawful_via (lawful_sum lawful_unit hc) _ _ _ ?_ ?_
  · rintro (_ | a) h
    · trivial
    · exact h a rfl
  · rintro (_ | a) _ <;> rfl

theorem lawful_bits (n : Nat) (hn : n ≤ 8) : Lawful (cBits n) fun _ => True := by
  refine lawful_via lawful_byte _ _ _ (fun _ _ => trivial) fun b _ => ?_
  have h8 : b.toNat < 2 ^ 8 := lt_of_lt_of_le b.isLt (Nat.pow_le_pow_right (by decide) hn)
  have hb : (BitVec.ofNat 8 b.toNat).toNat = b.toNat := by rw [BitVec.toNat_ofNat, Nat.mod_eq_of_lt h8]
  rw [hb, if_pos b.isLt, BitVec.ofNat_toNat, BitVec.setWidth_eq]

theorem lawful_fill : Lawful cFill fun _ => True :=
  lawful_via lawful_byte _ _ _ (fun _ _ => trivial) (by decide)

theorem lawful_char : Lawful cChar fun _ => True := by
  refine lawful_via lawful_nat _ _ _ (fun _ _ => trivial) fun c _ => ?_
  have h : c.toNat.isValidChar := c.valid
  simp only [h, if_true, Char.ofNat_toNat]

theorem lawful_octets : Lawful cOctets fun _ => True := lawful_mono (lawful_list lawful_byte) fun _ _ _ _ => trivial

theorem lawful_septets : Lawful cSeptets fun _ => True :=
  lawful_mono (lawful_list (lawful_bits 7 (by decide))) fun _ _ _ _ => trivial

theorem lawful_text : Lawful cText fun _ => True := lawful_mono (lawful_list lawful_char) fun _ _ _ _ => trivial

theorem lawful_line : Lawful cLine fun l => l ≠ [] := by
  refine lawful_via (lawful_pair lawful_byte lawful_octets) _ _ _ (fun _ _ => ⟨trivial, trivial⟩) ?_
  rintro (_ | ⟨b, l⟩) h
  · exact absurd rfl h
  · rfl

theorem lawful_alphabet : Lawful cAlphabet fun _ => True :=
  lawful_via lawful_byte _ _ _ (fun _ _ => trivial) (by rintro (_ | _ | _) _ <;> rfl)

theorem lawful_address : Lawful cAddress fun _ => True :=
  lawful_via (lawful_pair lawful_byte (lawful_pair lawful_byte lawful_octets)) _ _ _
    (fun _ _ => ⟨trivial, trivial, trivial⟩) fun _ _ => rfl

theorem lawful_header : Lawful cHeader fun _ => True :=
  lawful_mono (lawful_list (lawful_via (lawful_pair lawful_byte lawful_octets) _ _ (fun _ => True)
    (fun _ _ => ⟨trivial, trivial⟩) fun _ _ => rfl)) fun _ _ _ _ => trivial

theorem lawful_octets7 : Lawful cOctets7 fun _ => True :=
  lawful_via (lawful_pair lawful_byte (lawful_pair lawful_byte (lawful_pair lawful_byte (lawful_pair lawful_byte
    (lawful_pair lawful_byte (lawful_pair lawful_byte lawful_byte)))))) _ _ _
    (fun _ _ => ⟨trivial, trivial, trivial, trivial, trivial, trivial, trivial⟩) fun _ _ => rfl

theorem lawful_timestamp : Lawful cTimestamp fun ts => ts.wf = true := by
  refine lawful_via (lawful_pair lawful_nat (lawful_pair lawful_nat (lawful_pair lawful_nat (lawful_pair lawful_nat
    (lawful_pair lawful_nat (lawful_pair lawful_nat (lawful_pair lawful_bool lawful_nat))))))) _ _ _
    (fun _ _ => ⟨trivial, trivial, trivial, trivial, trivial, trivial, trivial, trivial⟩) fun ts h => ?_
  simp only [Timestamp.wf, Bool.and_eq_true, decide_eq_true_eq, beq_iff_eq] at h
  obtain ⟨year, month, day, hour, minute, second, tz⟩ := ts
  simp only [Option.some.injEq, Timestamp.mk.injEq, decide_eq_true_eq, true_and] at h ⊢
  refine ⟨by omega, ?_⟩
  split <;> omega

theorem lawful_body : Lawful cBody fun _ => True := by
  refine lawful_via (lawful_sum lawful_septets lawful_octets) _ _ _ ?_ ?_ <;> rintro (_ | _) _
  all_goals trivial

theorem lawful_vp : Lawful cVp fun _ => True := by
  refine lawful_via (lawful_sum (lawful_sum lawful_unit lawful_byte) (lawful_sum lawful_octets7 lawful_octets7)) _ _ _
    ?_ ?_ <;> rintro (_ | _ | _ | _) _
  all_goals trivial

theorem lawful_tail : Lawful cTail fun _ => True :=
  lawful_mono (lawful_pair lawful_byte (lawful_pair lawful_byte (lawful_pair (lawful_option lawful_header) lawful_body)))
    fun _ _ => ⟨trivial, trivial, fun _ _ => trivial, trivial⟩

theorem lawful_submit : Lawful cSubmit fun _ => True :=
  lawful_via (lawful_pair (lawful_pair lawful_bool (lawful_pair lawful_bool lawful_bool))
    (lawful_pair (lawful_pair lawful_byte (lawful_pair lawful_address lawful_vp)) lawful_tail)) _ _ _
    (fun _ _ => ⟨⟨trivial, trivial, trivial⟩, ⟨trivial, trivial, trivial⟩, trivial⟩) fun _ _ => rfl

theorem lawful_deliver : Lawful cDeliver fun _ => True :=
  lawful_via (lawful_pair (lawful_pair lawful_bool (lawful_pair lawful_bool (lawful_pair lawful_bool lawful_bool)))
    (lawful_pair (lawful_pair lawful_address lawful_octets7) lawful_tail)) _ _ _
    (fun _ _ => ⟨⟨trivial, trivial, trivial, trivial⟩, ⟨trivial, trivial⟩, trivial⟩) fun _ _ => rfl

theorem lawful_smsc : Lawful cSmsc fun _ => True :=
  lawful_via (lawful_pair lawful_byte lawful_octets) _ _ _ (fun _ _ => ⟨trivial, trivial⟩) fun _ _ => rfl

theorem lawful_payload : Lawful cPayload fun _ => True := by
  refine lawful_via (lawful_sum (lawful_sum lawful_text lawful_text) lawful_octets) _ _ _ ?_ ?_ <;>
    rintro (_ | _ | _) _
  all_goals trivial

theorem lawful_lineConfig : Lawful cLineConfig fun _ => True := by
  refine lawful_via (lawful_sum (lawful_sum (lawful_list lawful_octets) (lawful_list lawful_octets))
    (lawful_sum (lawful_list (lawful_pair lawful_octets lawful_octets)) lawful_nat)) _ _ _ ?_ ?_ <;>
    rintro (_ | _ | _ | _) _
  all_goals first | trivial | exact fun _ _ => trivial | exact fun _ _ => ⟨trivial, trivial⟩

theorem lawful_flagged : Lawful cFlagged fun _ => True :=
  lawful_mono (lawful_pair lawful_bool lawful_octets) fun _ _ => ⟨trivial, trivial⟩

theorem lawful_field : Lawful cField fun _ => True :=
  lawful_mono (lawful_pair lawful_byte lawful_octets) fun _ _ => ⟨trivial, trivial⟩

end Sys2Proof.Laws
end

