-- ==== Sys2Proof/Laws/Headers.lean ====
section
/-! SUPPORT. Spec lemmas of the user-data-header codec (spec/42_udh.md): what the encoder writes, and that the decoder
inverts it both ways. -/

namespace Sys2Proof.Laws

open Sys2Proof Sys2Proof.Machine

theorem udhBody_cons (e : IE) (h : List IE) :
    udhBody (e :: h) = e.iei :: BitVec.ofNat 8 e.ied.length :: (e.ied ++ udhBody h) := by
  simp [udhBody]

theorem udhBody_length (h : List IE) : (udhBody h).length = udhl h := by
  induction h with
  | nil => rfl
  | cons e h ih => simp only [udhBody_cons, List.length_cons, List.length_append, ih, udhl, List.map_cons, List.sum_cons]; omega

/-- No element of a header that fits its length octet is too long for its own. -/
theorem ied_length_le {h : List IE} (hn : udhl h ≤ 255) : ∀ e ∈ h, e.ied.length ≤ 253 := by
  induction h with
  | nil => simp
  | cons a h ih =>
    simp only [udhl, List.map_cons, List.sum_cons] at hn ih
    intro e he
    rcases List.mem_cons.1 he with rfl | he
    · omega
    · exact ih (by omega) e he

/-- When `UDH_ENC` answers, and what (R152). -/
theorem udhEnc_eq_ok (h : List IE) (hn : udhl h ≤ 255) : udhEnc h = .ok (BitVec.ofNat 8 (udhl h) :: udhBody h) := by
  rw [udhEnc, if_neg, if_neg (by rw [udhBody_length]; omega), udhBody_length]
  simp only [List.any_eq_true, decide_eq_true_eq, not_exists, not_and, not_lt]
  exact fun e he => Nat.le_trans (ied_length_le hn e he) (by decide)

theorem udhEnc_eq_error (h : List IE) (hn : 255 < udhl h) : udhEnc h = .error .badUdh := by
  rw [udhEnc]
  split
  · rfl
  · rw [if_pos (by rw [udhBody_length]; exact hn)]

theorem udhEnc_ok_iff (h : List IE) (e : Octets) :
    udhEnc h = .ok e ↔ udhl h ≤ 255 ∧ e = BitVec.ofNat 8 (udhl h) :: udhBody h := by
  by_cases hn : udhl h ≤ 255
  · rw [udhEnc_eq_ok h hn]
    constructor
    · intro e; injection e with e; exact ⟨hn, e.symm⟩
    · rintro ⟨-, rfl⟩; rfl
  · rw [udhEnc_eq_error h (by omega)]
    constructor
    · intro e; cases e
    · intro e; exact absurd e.1 hn

/-- The element loop reads back what the encoder writes. -/
theorem udhElements_udhBody (h : List IE) (fuel : Nat) (hf : (udhBody h).length ≤ fuel) (hl : ∀ e ∈ h, e.ied.length ≤ 255) :
    udhElements fuel (udhBody h) = .ok h := by
  induction h generalizing fuel with
  | nil => cases fuel <;> rfl
  | cons e h ih =>
    have he : e.ied.length ≤ 255 := hl e (by simp)
    have hn : (BitVec.ofNat 8 e.ied.length).toNat = e.ied.length := by simp; omega
    rw [udhBody_cons] at hf ⊢
    cases fuel with
    | zero => simp at hf
    | succ fuel =>
      simp only [List.length_cons, List.length_append] at hf
      rw [udhElements, if_neg (by rw [hn]; simp)]
      simp only [hn, List.drop_left, List.take_left]
      rw [ih fuel (by omega) fun x hx => hl x (by simp [hx])]
      rfl

/-- What the element loop accepts is what the encoder writes (R154). -/
theorem udhBody_udhElements {fuel : Nat} {o : Octets} {h : List IE} (e : udhElements fuel o = .ok h) :
    udhBody h = o ∧ ∀ x ∈ h, x.ied.length ≤ 255 := by
  induction fuel generalizing o h with
  | zero =>
    cases o with
    | nil => rw [udhElements] at e; injection e with e; subst e; simp [udhBody]
    | cons => cases e
  | succ fuel ih =>
    match o with
    | [] => rw [udhElements] at e; injection e with e; subst e; simp [udhBody]
    | [_] => cases e
    | iei :: l :: r =>
      rw [udhElements] at e
      split at e
      · cases e
      next hr =>
        obtain ⟨h', h1, h2⟩ := bind_eq_ok.1 e
        injection h2 with h2
        subst h2
        obtain ⟨hb, hl⟩ := ih h1
        have hlen : (r.take l.toNat).length = l.toNat := by simp only [List.length_take]; omega
        refine ⟨?_, ?_⟩
        · rw [udhBody_cons]
          simp only [hlen, hb, List.take_append_drop, BitVec.ofNat_toNat, BitVec.setWidth_eq]
        · intro x hx
          rcases List.mem_cons.1 hx with rfl | hx
          · show (r.take l.toNat).length ≤ 255
            rw [hlen]; have := l.isLt; omega
          · exact hl x hx

theorem udhElements_error {fuel : Nat} {o : Octets} {k : ErrorKind} (e : udhElements fuel o = .error k) : k = .badUdh := by
  induction fuel generalizing o with
  | zero =>
    cases o with
    | nil => cases e
    | cons => injection e with e; exact e.symm
  | succ fuel ih =>
    match o with
    | [] => cases e
    | [_] => injection e with e; exact e.symm
    | iei :: l :: r =>
      rw [udhElements] at e
      split at e
      · injection e with e; exact e.symm
      · rcases bind_eq_error e with e | ⟨_, _, e⟩
        · exact ih e
        · cases e

/-- `UDH_DEC` reads back what `UDH_ENC` writes, at any offset and whatever follows (R154). -/
theorem udhDec_udhEnc (h : List IE) (pre rest : Octets) (limit : Nat) (hn : udhl h ≤ 255)
    (hl : pre.length + 1 + udhl h ≤ limit) :
    udhDec (pre ++ (BitVec.ofNat 8 (udhl h) :: udhBody h) ++ rest) pre.length limit =
      .ok (h, pre.length + 1 + udhl h) := by
  have e : pre ++ (BitVec.ofNat 8 (udhl h) :: udhBody h) ++ rest = pre ++ (BitVec.ofNat 8 (udhl h) :: (udhBody h ++ rest)) := by
    simp
  have h0 : octetAt (pre ++ (BitVec.ofNat 8 (udhl h) :: udhBody h) ++ rest) pre.length = BitVec.ofNat 8 (udhl h) := by
    rw [e, octetAt, List.getD_append_right _ _ _ _ (le_refl _)]; simp
  have hv : (BitVec.ofNat 8 (udhl h)).toNat = udhl h := by simp; omega
  have h1 : memRead (pre ++ (BitVec.ofNat 8 (udhl h) :: udhBody h) ++ rest) (pre.length + 1) (udhl h) = udhBody h := by
    rw [e, memRead, List.drop_append, List.drop_eq_nil_of_le (by omega)]
    simp [← udhBody_length h]
  simp only [udhDec, h0, hv, h1]
  rw [if_neg (by omega), if_neg (by omega),
    udhElements_udhBody h _ (by rw [udhBody_length]) fun x hx => Nat.le_trans (ied_length_le hn x hx) (by decide)]
  rfl

/-- What `UDH_DEC` accepts: a header that fits its length octet and is the slice it was read from (R153, R154). -/
theorem udhDec_eq_ok {o : Octets} {pos limit : Nat} {h : List IE} {pos' : Nat} (hlim : limit ≤ o.length)
    (e : udhDec o pos limit = .ok (h, pos')) :
    udhl h = (octetAt o pos).toNat ∧ pos' = pos + 1 + udhl h ∧ pos' ≤ limit ∧
      memRead o pos (1 + udhl h) = BitVec.ofNat 8 (udhl h) :: udhBody h := by
  rw [udhDec] at e
  split at e
  · cases e
  simp only at e
  split at e
  · cases e
  next h1 h2 =>
    obtain ⟨h', h3, h4⟩ := bind_eq_ok.1 e
    injection h4 with h4
    injection h4 with h4 h5
    subst h4 h5
    obtain ⟨hb, -⟩ := udhBody_udhElements h3
    have hu : udhl h' = (octetAt o pos).toNat := by
      rw [← udhBody_length, hb, memRead_length _ _ _ (by omega)]
    refine ⟨hu, by rw [hu], by omega, ?_⟩
    rw [Nat.add_comm 1, memRead_succ _ _ _ (by omega), hb, hu]
    simp

theorem udhDec_error {o : Octets} {pos limit : Nat} {k : ErrorKind} (e : udhDec o pos limit = .error k) : k = .badUdh := by
  rw [udhDec] at e
  split at e
  · injection e with e; exact e.symm
  simp only at e
  split at e
  · injection e with e; exact e.symm
  · rcases bind_eq_error e with e | ⟨_, _, e⟩
    · exact udhElements_error e
    · cases e

/-- The identifiers that `UDH_GETCONCAT` looks at (R157). -/
def isConcat (e : IE) : Bool := e.iei == 0x00 || e.iei == 0x08

theorem getConcatFrom_none (e : IE) (h : List IE) (he : isConcat e = true) :
    getConcatFrom none (e :: h) = concatOf e >>= fun c => getConcatFrom (some c) h := by
  have he : e.iei = 0x00 ∨ e.iei = 0x08 := by simpa [isConcat] using he
  rw [getConcatFrom, if_pos he]

theorem getConcatFrom_some (c : Concat) (e : IE) (h : List IE) (he : isConcat e = true) :
    getConcatFrom (some c) (e :: h) = .error .badUdh := by
  have he : e.iei = 0x00 ∨ e.iei = 0x08 := by simpa [isConcat] using he
  rw [getConcatFrom, if_pos he]

theorem getConcatFrom_skip (found : Option Concat) (e : IE) (h : List IE) (he : isConcat e = false) :
    getConcatFrom found (e :: h) = getConcatFrom found h := by
  have he : ¬ (e.iei = 0x00 ∨ e.iei = 0x08) := by simpa [isConcat] using he
  rw [getConcatFrom.eq_def]
  exact if_neg he

/-- The loop of `UDH_GETCONCAT` looks at the concatenation elements only. -/
theorem getConcatFrom_eq (found : Option Concat) (h : List IE) :
    getConcatFrom found h = getConcatFrom found (h.filter isConcat) := by
  induction h generalizing found with
  | nil => rfl
  | cons e h ih =>
    cases he : isConcat e with
    | true =>
      rw [List.filter_cons_of_pos he]
      cases found with
      | some c => rw [getConcatFrom_some c e _ he, getConcatFrom_some c e _ he]
      | none =>
        rw [getConcatFrom_none e _ he, getConcatFrom_none e _ he]
        exact congrArg _ (funext fun c => ih (some c))
    | false =>
      rw [List.filter_cons_of_neg (by simp [he]), getConcatFrom_skip found e h he]
      exact ih found

theorem concatOf_error {e : IE} {k : ErrorKind} (hc : concatOf e = .error k) : k = .badUdh := by
  rw [concatOf] at hc
  rcases bind_eq_error hc with hc | ⟨c, -, hc⟩
  · rw [concatFields] at hc
    split at hc
    · cases hc
    · cases hc
    · injection hc with hc; exact hc.symm
  · split at hc
    · cases hc
    · injection hc with hc; exact hc.symm

/-- `UDH_GETCONCAT` by the concatenation elements of the header (R157). -/
theorem udhGetconcat_none {h : List IE} (hf : h.filter isConcat = []) : udhGetconcat h = .ok none := by
  rw [udhGetconcat, getConcatFrom_eq, hf]; rfl

theorem udhGetconcat_one {h : List IE} {e : IE} (hf : h.filter isConcat = [e]) :
    udhGetconcat h = (concatOf e).map some := by
  have he : isConcat e = true := (List.mem_filter.1 (hf ▸ List.mem_singleton.2 rfl)).2
  rw [udhGetconcat, getConcatFrom_eq, hf, getConcatFrom_none e _ he]
  cases concatOf e <;> rfl

theorem udhGetconcat_more {h : List IE} {e e' : IE} {r : List IE} (hf : h.filter isConcat = e :: e' :: r) :
    udhGetconcat h = .error .badUdh := by
  have he : isConcat e = true := (List.mem_filter.1 (hf ▸ List.mem_cons_self)).2
  have he' : isConcat e' = true := (List.mem_filter.1 (hf ▸ List.mem_cons_of_mem _ List.mem_cons_self)).2
  rw [udhGetconcat, getConcatFrom_eq, hf, getConcatFrom_none e _ he]
  cases hc : concatOf e with
  | error k => rw [concatOf_error hc]; rfl
  | ok c =>
    show getConcatFrom (some c) (e' :: r) = _
    exact getConcatFrom_some c e' r he'

theorem map_error {r : Answer α} {f : α → β} {k : ErrorKind} (h : r.map f = .error k) : r = .error k := by
  cases r with
  | error => injection h with h; rw [h]
  | ok => cases h

theorem udhGetconcat_error {h : List IE} {k : ErrorKind} (e : udhGetconcat h = .error k) : k = .badUdh := by
  match hf : h.filter isConcat with
  | [] => rw [udhGetconcat_none hf] at e; cases e
  | [x] => rw [udhGetconcat_one hf] at e; exact concatOf_error (map_error e)
  | _ :: _ :: _ => rw [udhGetconcat_more hf] at e; injection e with e; exact e.symm

/-- What a concatenation element that is accepted says (R157). -/
theorem concatOf_eq_ok {e : IE} {c : Concat} (h : concatOf e = .ok c) :
    2 ≤ c.total.toNat ∧ 1 ≤ c.seq.toNat ∧ c.seq.toNat ≤ c.total.toNat := by
  rw [concatOf] at h
  obtain ⟨c', -, h⟩ := bind_eq_ok.1 h
  split at h
  · injection h with h; subst h; assumption
  · cases h

theorem udhGetconcat_eq_ok {h : List IE} {c : Concat} (e : udhGetconcat h = .ok (some c)) :
    2 ≤ c.total.toNat ∧ 1 ≤ c.seq.toNat ∧ c.seq.toNat ≤ c.total.toNat := by
  match hf : h.filter isConcat with
  | [] => rw [udhGetconcat_none hf] at e; cases e
  | [x] =>
    rw [udhGetconcat_one hf] at e
    cases hx : concatOf x with
    | error => rw [hx] at e; cases e
    | ok c' => rw [hx] at e; injection e with e; injection e with e; subst e; exact concatOf_eq_ok hx
  | _ :: _ :: _ => rw [udhGetconcat_more hf] at e; cases e

end Sys2Proof.Laws
end

