-- ==== Sys2Proof/Laws/Maps.lean ====
section
/-! SUPPORT. Finite maps in canonical form: reading after a write and after a removal, that both keep the keys rising, and that the number of a key tells keys apart.
Everything is stated for any code of keys that is injective, and used with `keyCode` (the reassembly table) and `id` (a group). -/

namespace Sys2Proof.Laws

open Sys2Proof Sys2Proof.Machine

theorem octetsCode_injective : Function.Injective octetsCode := by
  intro a
  induction a with
  | nil => intro b h; cases b with
    | nil => rfl
    | cons x y => simp only [octetsCode] at h; omega
  | cons x r ih =>
    intro b h
    cases b with
    | nil => simp only [octetsCode] at h; omega
    | cons y q =>
      simp only [octetsCode] at h
      have hx := x.isLt
      have hy := y.isLt
      have h1 : x.toNat = y.toNat := by omega
      have h2 : octetsCode r = octetsCode q := by omega
      rw [BitVec.eq_of_toNat_eq h1, ih h2]

theorem widthCode_lt (w : RefWidth) : widthCode w < 2 := by cases w <;> decide

theorem widthCode_injective : Function.Injective widthCode := by
  intro a b h
  cases a <;> cases b <;> first | rfl | simp [widthCode] at h

/-- Different keys have different numbers. -/
theorem keyCode_injective : Function.Injective keyCode := by
  rintro ⟨⟨l, t, v⟩, w, r, n⟩ ⟨⟨l', t', v'⟩, w', r', n'⟩ h
  simp only [keyCode] at h
  have := widthCode_lt w
  have := widthCode_lt w'
  have := l.isLt; have := l'.isLt; have := t.isLt; have := t'.isLt
  have := r.isLt; have := r'.isLt; have := n.isLt; have := n'.isLt
  have h1 : n.toNat = n'.toNat := by omega
  have h2 : r.toNat = r'.toNat := by omega
  have h3 : widthCode w = widthCode w' := by omega
  have h4 : t.toNat = t'.toNat := by omega
  have h5 : l.toNat = l'.toNat := by omega
  have h6 : octetsCode v = octetsCode v' := by omega
  rw [BitVec.eq_of_toNat_eq h1, BitVec.eq_of_toNat_eq h2, widthCode_injective h3, BitVec.eq_of_toNat_eq h4,
    BitVec.eq_of_toNat_eq h5, octetsCode_injective h6]

variable {κ α : Type} {code : κ → Nat}

theorem mem_of_get {k : κ} {a : α} {m : List (κ × α)} (hc : Function.Injective code) (h : FMap.get code k m = some a) :
    (k, a) ∈ m := by
  induction m with
  | nil => simp [FMap.get] at h
  | cons e r ih =>
    simp only [FMap.get] at h
    split at h
    · rename_i hk
      rw [← hc hk, ← Option.some.inj h]
      exact List.mem_cons_self
    · exact List.mem_cons_of_mem _ (ih h)

theorem get_of_mem {k : κ} {a : α} {m : List (κ × α)} (hm : FMap.Rising code m) (h : (k, a) ∈ m) :
    FMap.get code k m = some a := by
  induction m with
  | nil => simp at h
  | cons e r ih =>
    rw [FMap.Rising, List.pairwise_cons] at hm
    simp only [FMap.get]
    rcases List.mem_cons.mp h with rfl | h
    · simp
    · have := hm.1 _ h
      rw [if_neg (by simpa using this.ne), ih hm.2 h]

theorem get_put_self (k : κ) (a : α) (m : List (κ × α)) : FMap.get code k (FMap.put code k a m) = some a := by
  induction m with
  | nil => simp [FMap.put, FMap.get]
  | cons e r ih =>
    simp only [FMap.put]
    split
    · simp [FMap.get]
    · split
      · simp [FMap.get]
      · rename_i h
        simp only [FMap.get]
        rw [if_neg (fun e => h e.symm), ih]

theorem get_put_other {k k' : κ} (hk : code k' ≠ code k) (a : α) (m : List (κ × α)) :
    FMap.get code k' (FMap.put code k a m) = FMap.get code k' m := by
  induction m with
  | nil => simp [FMap.put, FMap.get, hk.symm]
  | cons e r ih =>
    simp only [FMap.put]
    split
    · simp [FMap.get, hk.symm]
    · split
      · rename_i h
        simp [FMap.get, hk.symm, ← h]
      · simp only [FMap.get, ih]

/-- Every key of the map after a write was there or is the one written. -/
theorem mem_put {k : κ} {a : α} {m : List (κ × α)} {e : κ × α} (h : e ∈ FMap.put code k a m) : e = (k, a) ∨ e ∈ m := by
  induction m with
  | nil => simpa [FMap.put] using h
  | cons x r ih =>
    simp only [FMap.put] at h
    split at h
    · simpa using h
    · split at h
      · rcases List.mem_cons.mp h with h | h
        · exact .inl h
        · exact .inr (List.mem_cons_of_mem _ h)
      · rcases List.mem_cons.mp h with h | h
        · exact .inr (h ▸ List.mem_cons_self)
        · exact (ih h).imp id (List.mem_cons_of_mem _)

/-- A write keeps the canonical form. -/
theorem rising_put (k : κ) (a : α) {m : List (κ × α)} (hm : FMap.Rising code m) :
    FMap.Rising code (FMap.put code k a m) := by
  induction m with
  | nil => simp [FMap.put, FMap.Rising]
  | cons x r ih =>
    have hm' := hm
    rw [FMap.Rising, List.pairwise_cons] at hm'
    simp only [FMap.put]
    split
    · rename_i h
      rw [FMap.Rising, List.pairwise_cons]
      refine ⟨fun e he => ?_, hm⟩
      rcases List.mem_cons.mp he with rfl | he
      · exact h
      · exact h.trans (hm'.1 e he)
    · split
      · rename_i h
        rw [FMap.Rising, List.pairwise_cons]
        exact ⟨fun e he => by rw [h]; exact hm'.1 e he, hm'.2⟩
      · rw [FMap.Rising, List.pairwise_cons]
        refine ⟨fun e he => ?_, ih hm'.2⟩
        rcases mem_put he with rfl | he
        · simp only at *; omega
        · exact hm'.1 e he

/-- A write at a key that the map has not makes it longer by one. -/
theorem length_put {k : κ} (a : α) {m : List (κ × α)} (h : FMap.get code k m = none) :
    (FMap.put code k a m).length = m.length + 1 := by
  induction m with
  | nil => rfl
  | cons x r ih =>
    simp only [FMap.get] at h
    split at h
    · cases h
    · rename_i hx
      simp only [FMap.put]
      split
      · rfl
      · rw [if_neg (fun e => hx e.symm), List.length_cons, ih h, List.length_cons]

/-- A write never makes the map longer by more than one, and not at all at a key that it has. -/
theorem length_put_le (k : κ) (a : α) (m : List (κ × α)) : (FMap.put code k a m).length ≤ m.length + 1 := by
  induction m with
  | nil => simp [FMap.put]
  | cons x r ih =>
    simp only [FMap.put]
    split
    · simp
    · split <;> simp; omega

theorem length_put_some {k : κ} (a : α) {b : α} {m : List (κ × α)} (hm : FMap.Rising code m)
    (h : FMap.get code k m = some b) : (FMap.put code k a m).length = m.length := by
  induction m with
  | nil => simp [FMap.get] at h
  | cons x r ih =>
    rw [FMap.Rising, List.pairwise_cons] at hm
    simp only [FMap.get] at h
    simp only [FMap.put]
    split at h
    · rename_i hx
      rw [if_neg (by omega), if_pos hx.symm]; rfl
    · rename_i hx
      have hr : code x.1 < code k := by
        clear ih
        induction r with
        | nil => simp [FMap.get] at h
        | cons y t iht =>
          simp only [FMap.get] at h
          split at h
          · rename_i hy
            have := hm.1 y List.mem_cons_self
            omega
          · exact iht ⟨fun e he => hm.1 e (List.mem_cons_of_mem _ he), (List.pairwise_cons.mp hm.2).2⟩ h
      rw [if_neg (by omega), if_neg (by omega), List.length_cons, ih hm.2 h, List.length_cons]

theorem get_erase_self (k : κ) (m : List (κ × α)) : FMap.get code k (FMap.erase code k m) = none := by
  induction m with
  | nil => rfl
  | cons x r ih =>
    simp only [FMap.erase, List.filter_cons]
    split
    · rename_i h
      simp only [FMap.get]
      rw [if_neg (by simpa using h)]
      exact ih
    · exact ih

theorem get_erase_other {k k' : κ} (hk : code k' ≠ code k) (m : List (κ × α)) :
    FMap.get code k' (FMap.erase code k m) = FMap.get code k' m := by
  induction m with
  | nil => rfl
  | cons x r ih =>
    simp only [FMap.erase, List.filter_cons]
    split
    · simp only [FMap.get]
      split
      · rfl
      · exact ih
    · rename_i h
      have hx : code x.1 = code k := by simpa using h
      simp only [FMap.get]
      rw [if_neg (by omega)]
      exact ih

theorem mem_erase {k : κ} {m : List (κ × α)} {e : κ × α} (h : e ∈ FMap.erase code k m) : e ∈ m ∧ code e.1 ≠ code k := by
  simpa [FMap.erase] using h

/-- A removal keeps the canonical form. -/
theorem rising_erase (k : κ) {m : List (κ × α)} (hm : FMap.Rising code m) : FMap.Rising code (FMap.erase code k m) :=
  hm.filter _

theorem length_erase_le (k : κ) (m : List (κ × α)) : (FMap.erase code k m).length ≤ m.length := List.length_filter_le _ _

theorem erase_of_get_none {k : κ} {m : List (κ × α)} (h : FMap.get code k m = none) : FMap.erase code k m = m := by
  induction m with
  | nil => rfl
  | cons x r ih =>
    simp only [FMap.get] at h
    split at h
    · cases h
    · rename_i hx
      rw [FMap.erase, List.filter_cons, if_pos (by simpa using hx)]
      exact congrArg (x :: ·) (ih h)

/-- A removal undoes a write at a key that the map had not. -/
theorem erase_put {k : κ} (a : α) {m : List (κ × α)} (h : FMap.get code k m = none) :
    FMap.erase code k (FMap.put code k a m) = m := by
  induction m with
  | nil => simp [FMap.put, FMap.erase]
  | cons x r ih =>
    have h' := h
    simp only [FMap.get] at h
    split at h
    · cases h
    · rename_i hx
      simp only [FMap.put]
      split
      · rw [FMap.erase, List.filter_cons, if_neg (by simp)]
        exact erase_of_get_none h'
      · rw [if_neg (fun e => hx e.symm), FMap.erase, List.filter_cons, if_pos (by simpa using hx)]
        exact congrArg (x :: ·) (ih h)

/-- A second write at the same key replaces the first. -/
theorem put_put (k : κ) (a b : α) (m : List (κ × α)) :
    FMap.put code k b (FMap.put code k a m) = FMap.put code k b m := by
  induction m with
  | nil => simp [FMap.put]
  | cons x r ih =>
    simp only [FMap.put]
    split
    · simp [FMap.put]
    · split
      · simp [FMap.put]
      · rename_i h1 h2
        simp only [FMap.put]
        rw [if_neg h1, if_neg h2, ih]

/-- Two maps in canonical form with the same values are equal. -/
theorem ext_of_get {m m' : List (κ × α)} (hc : Function.Injective code) (hm : FMap.Rising code m)
    (hm' : FMap.Rising code m') (h : ∀ k, FMap.get code k m = FMap.get code k m') : m = m' := by
  have hp : m.Perm m' := (List.perm_ext_iff_of_nodup (hm.imp fun h e => by rw [e] at h; exact absurd h (lt_irrefl _))
    (hm'.imp fun h e => by rw [e] at h; exact absurd h (lt_irrefl _))).mpr fun e =>
      ⟨fun he => mem_of_get hc (by rw [← h]; exact get_of_mem hm he),
       fun he => mem_of_get hc (by rw [h]; exact get_of_mem hm' he)⟩
  exact hp.eq_of_pairwise (fun a b _ _ h1 h2 => absurd h1 (by omega)) hm hm'

end Sys2Proof.Laws
end

