-- ==== Sys2Proof/Laws/Collecting.lean ====
section
/-! SUPPORT. The reassembler: the one lemma that says what a `COLLECT` can do, what it does case by case, and that a group's segments in canonical form are its message. -/

namespace Sys2Proof.Laws

open Sys2Proof Sys2Proof.Machine

/-- The operations on the reassembly table keep its canonical form, and the table has it after reset. -/
theorem rising_putGroup {s : State} (h : FMap.Rising keyCode s.rsm) (k : Key) (g : Group) :
    FMap.Rising keyCode (s.putGroup k g).rsm := rising_put k g h

theorem rising_dropGroup {s : State} (h : FMap.Rising keyCode s.rsm) (k : Key) :
    FMap.Rising keyCode (s.dropGroup k).rsm := rising_erase k h

theorem rising_groupPut {g : Group} (h : FMap.Rising id g.segs) (q : Nat) (t : Deliver) :
    FMap.Rising id (g.put q t).segs := rising_put q t h

theorem rising_resetWith (p : Config.Params) : FMap.Rising keyCode (State.resetWith p).rsm := List.Pairwise.nil

/-- What the header of a segment says of its group and its place. -/
theorem segmentFits_iff (k : Key) (q : Nat) (t : Deliver) :
    SegmentFits k q t ↔ ∃ c : Concat, concatIn t = .ok (some c) ∧ keyOf t c = k ∧ c.seq.toNat = q := Iff.rfl

/-- A segment that is read has a total of at least 2 and a number from 1 to it. -/
theorem concatIn_range {t : Deliver} {c : Concat} (h : concatIn t = .ok (some c)) :
    2 ≤ c.total.toNat ∧ 1 ≤ c.seq.toNat ∧ c.seq.toNat ≤ c.total.toNat := by
  unfold concatIn at h
  split at h
  · cases h
  · exact udhGetconcat_eq_ok h

theorem concatIn_error {t : Deliver} {k : ErrorKind} (h : concatIn t = .error k) : k = .badUdh := by
  unfold concatIn at h
  split at h
  · cases h
  · exact udhGetconcat_error h

/-- The group that a segment joins: the one of its key, or a new one (R242). -/
def groupFor (s : State) (k : Key) : Group := (s.group k).getD { segs := [], created := s.now }

/-- What a `COLLECT` can do (R242): refuse for want of room, or answer and leave the table as it was, or store the
segment, or complete its group. -/
theorem collect_cases (t : Deliver) (s : State) :
    (∃ k, concatIn t = .error k ∧ execCollect t s = .next (s.raise 0x70 k)) ∨
    (concatIn t = .ok none ∧ execCollect t s = .next (s.answer 0x70 (.ok (.delivers [t])))) ∨
    ∃ c, concatIn t = .ok (some c) ∧
      ((s.group (keyOf t c) = none ∧ s.tableFull = true ∧ execCollect t s = .refused .reassemblyTableFull) ∨
       ((s.group (keyOf t c) = none → s.tableFull = false) ∧
        ((∃ d, (groupFor s (keyOf t c)).seg c.seq.toNat = some d ∧
            execCollect t s = .next (s.raise 0x70 .duplicateSegment)) ∨
         ((groupFor s (keyOf t c)).seg c.seq.toNat = none ∧
          (((groupFor s (keyOf t c)).segs.length + 1 = c.total.toNat ∧
              execCollect t s = .next ((s.dropGroup (keyOf t c)).answer 0x70
                (.ok (.delivers (((groupFor s (keyOf t c)).put c.seq.toNat t).segs.map Prod.snd))))) ∨
           ((groupFor s (keyOf t c)).segs.length + 1 ≠ c.total.toNat ∧
              execCollect t s = .next ((s.putGroup (keyOf t c) ((groupFor s (keyOf t c)).put c.seq.toNat t)).answer 0x70
                (.ok (.delivers []))))))))) := by
  have into : ∀ (c : Concat) (g : Group),
      (∃ d, g.seg c.seq.toNat = some d ∧ collectInto t c g s = .next (s.raise 0x70 .duplicateSegment)) ∨
      (g.seg c.seq.toNat = none ∧
        ((g.segs.length + 1 = c.total.toNat ∧
            collectInto t c g s = .next ((s.dropGroup (keyOf t c)).answer 0x70
              (.ok (.delivers ((g.put c.seq.toNat t).segs.map Prod.snd))))) ∨
         (g.segs.length + 1 ≠ c.total.toNat ∧
            collectInto t c g s = .next ((s.putGroup (keyOf t c) (g.put c.seq.toNat t)).answer 0x70
              (.ok (.delivers [])))))) := by
    intro c g
    unfold collectInto
    cases h : g.seg c.seq.toNat with
    | some d => exact .inl ⟨d, rfl, rfl⟩
    | none =>
      have hl : (g.put c.seq.toNat t).segs.length = g.segs.length + 1 := length_put t h
      refine .inr ⟨rfl, ?_⟩
      by_cases hn : g.segs.length + 1 = c.total.toNat
      · exact .inl ⟨hn, by simp only [hl, hn, if_true]⟩
      · exact .inr ⟨hn, by simp only [hl, hn, if_false]⟩
  unfold execCollect
  cases h : concatIn t with
  | error k => exact .inl ⟨k, rfl, rfl⟩
  | ok o =>
    cases o with
    | none => exact .inr (.inl ⟨rfl, rfl⟩)
    | some c =>
      refine .inr (.inr ⟨c, rfl, ?_⟩)
      cases hg : s.group (keyOf t c) with
      | some g =>
        refine .inr ⟨fun e => by simp at e, ?_⟩
        simp only [groupFor, hg, Option.getD_some]
        exact into c g
      | none =>
        by_cases hf : s.tableFull = true
        · exact .inl ⟨rfl, hf, by simp only [hg, hf, if_true]⟩
        · refine .inr ⟨fun _ => by simpa using hf, ?_⟩
          simp only [groupFor, hg, Option.getD_none, hf, if_false, Bool.false_eq_true]
          exact into c _

/-- A rising list of `n` numbers from 1 to `n` lists them all, in order. -/
theorem rising_eq_range {l : List Nat} {a n : Nat} (hl : l.Pairwise (· < ·)) (hn : l.length = n)
    (hr : ∀ x ∈ l, a ≤ x ∧ x < a + n) : l = List.range' a n := by
  induction l generalizing a n with
  | nil => subst hn; rfl
  | cons x r ih =>
    rw [List.pairwise_cons] at hl
    obtain ⟨m, rfl⟩ : ∃ m, n = m + 1 := ⟨r.length, hn.symm⟩
    have hx := hr x List.mem_cons_self
    have hlen : r.length = m := by simpa using hn
    have hrest : r = List.range' (x + 1) m := by
      refine ih hl.2 hlen fun y hy => ?_
      have h1 := hl.1 y hy
      have h2 := hr y (List.mem_cons_of_mem _ hy)
      omega
    have : x = a := by
      cases m with
      | zero => omega
      | succ k =>
        have : x + 1 + k ∈ r := by rw [hrest]; simp
        have := hr _ (List.mem_cons_of_mem _ this)
        omega
    subst this
    rw [hrest, List.range'_succ]

/-- A full group lists its segments in ascending order, with none missing (R242, R244): the `i`-th has number `i + 1`. -/
theorem full_group_numbers {k : Key} {m : List (Nat × Deliver)} (hm : FMap.Rising id m)
    (hf : ∀ e ∈ m, SegmentFits k e.1 e.2) (hn : m.length = k.total.toNat) :
    m.map Prod.fst = List.range' 1 k.total.toNat := by
  refine rising_eq_range (List.pairwise_map.mpr hm) (by simpa using hn) fun x hx => ?_
  obtain ⟨e, he, rfl⟩ := List.mem_map.mp hx
  obtain ⟨c, hc, hk, hq⟩ := hf e he
  have := concatIn_range hc
  rw [← hk, ← hq]
  simp only [keyOf]
  omega

/-- The group a segment joins, with the segment in it, is in canonical form and holds only segments that belong where
they stand. -/
theorem groupFor_put {s : State} (hs : TableOk s) {t : Deliver} {c : Concat} (hc : concatIn t = .ok (some c)) :
    FMap.Rising id ((groupFor s (keyOf t c)).put c.seq.toNat t).segs ∧
    (∀ e ∈ ((groupFor s (keyOf t c)).put c.seq.toNat t).segs, SegmentFits (keyOf t c) e.1 e.2) ∧
    (groupFor s (keyOf t c)).created ≤ s.now := by
  have base : FMap.Rising id (groupFor s (keyOf t c)).segs ∧
      (∀ e ∈ (groupFor s (keyOf t c)).segs, SegmentFits (keyOf t c) e.1 e.2) ∧
      (groupFor s (keyOf t c)).created ≤ s.now := by
    unfold groupFor
    cases hg : s.group (keyOf t c) with
    | none => exact ⟨List.Pairwise.nil, by simp, le_refl _⟩
    | some g =>
      have ok := hs.groups _ (mem_of_get keyCode_injective hg)
      exact ⟨ok.rising, ok.fits, ok.created⟩
  refine ⟨rising_put _ _ base.1, fun e he => ?_, base.2.2⟩
  rcases mem_put he with rfl | he
  · exact ⟨c, hc, rfl, rfl⟩
  · exact base.2.1 e he

end Sys2Proof.Laws
end

