-- ==== Sys2Proof/Laws/Frames.lean ====
section
/-! SUPPORT. PDU-mode frames: hex text and octets invert each other, the SMSC prefix is split off as it was put on, and every error is `BadPdu`. -/

namespace Sys2Proof.Laws

open Sys2Proof Sys2Proof.Machine

/-- A hex digit of a nibble is read back as the nibble (R212, R213). -/
theorem hexValue_hexDigit : ∀ v : Nat, v < 16 → hexValue (hexDigit v) = some v := by decide

theorem nibbles_eq : ∀ b : Byte, nibbles (highNibble b) (lowNibble b) = b := by decide

theorem highNibble_lt (b : Byte) : highNibble b < 16 := by
  have := b.isLt
  simp only [highNibble]; omega

theorem lowNibble_lt (b : Byte) : lowNibble b < 16 := Nat.mod_lt _ (by decide)

theorem hexText_cons (b : Byte) (o : Octets) :
    hexText (b :: o) = hexDigit (highNibble b) :: hexDigit (lowNibble b) :: hexText o := rfl

theorem hexText_length (o : Octets) : (hexText o).length = 2 * o.length := by
  induction o with
  | nil => rfl
  | cons b r ih => rw [hexText_cons, List.length_cons, List.length_cons, ih, List.length_cons]; omega

/-- Hex text is read back as the octets it was made of (R216). -/
theorem hexOctets_hexText (o : Octets) : hexOctets (hexText o) = .ok o := by
  induction o with
  | nil => rfl
  | cons b r ih =>
    rw [hexText_cons, hexOctets, hexValue_hexDigit _ (highNibble_lt b), hexValue_hexDigit _ (lowNibble_lt b)]
    simp only [ih, bind, Except.bind, nibbles_eq]

/-- What a hex text must be to be read, and what it is read as (R213). -/
theorem hexOctets_cons {c d : Byte} {a b : Nat} (hc : hexValue c = some a) (hd : hexValue d = some b) (r : Ascii) :
    hexOctets (c :: d :: r) = (hexOctets r).map (nibbles a b :: ·) := by
  rw [hexOctets, hc, hd]
  cases hexOctets r <;> rfl

theorem hexOctets_error {h : Ascii} {k : ErrorKind} (e : hexOctets h = .error k) : k = .badPdu := by
  induction h using hexOctets.induct with
  | case1 => cases e
  | case2 => injection e with e; exact e.symm
  | case3 c d r a b hb ha ih =>
    rw [hexOctets_cons ha hb] at e
    cases hr : hexOctets r with
    | error k' => rw [hr] at e; injection e with e; subst e; exact ih hr
    | ok => rw [hr] at e; cases e
  | case4 c d r hn =>
    rw [hexOctets] at e
    cases hc : hexValue c with
    | none => rw [hc] at e; injection e with e; exact e.symm
    | some a =>
      cases hd : hexValue d with
      | none => rw [hc, hd] at e; injection e with e; exact e.symm
      | some b => exact (hn a b hc hd).elim

/-- A hex text that is read has two digits an octet, each the hex value of its half. -/
theorem hexOctets_eq_ok {h : Ascii} {o : Octets} (e : hexOctets h = .ok o) :
    h.length = 2 * o.length ∧ (∀ c ∈ h, (hexValue c).isSome = true) := by
  induction h using hexOctets.induct generalizing o with
  | case1 => injection e with e; subst e; exact ⟨rfl, by simp⟩
  | case2 => cases e
  | case3 c d r a b hb ha ih =>
    rw [hexOctets_cons ha hb] at e
    cases hr : hexOctets r with
    | error => rw [hr] at e; cases e
    | ok x =>
      rw [hr] at e
      injection e with e
      obtain ⟨h1, h2⟩ := ih hr
      subst e
      refine ⟨by simp only [List.length_cons, h1]; omega, fun y hy => ?_⟩
      rcases List.mem_cons.1 hy with rfl | hy
      · rw [ha]; rfl
      rcases List.mem_cons.1 hy with rfl | hy
      · rw [hb]; rfl
      · exact h2 y hy
  | case4 c d r hn =>
    rw [hexOctets] at e
    cases hc : hexValue c with
    | none => rw [hc] at e; cases e
    | some a =>
      cases hd : hexValue d with
      | none => rw [hc, hd] at e; cases e
      | some b => exact (hn a b hc hd).elim

/-- The SMSC prefix is split off as it was put on (R211, R216). -/
theorem splitPrefix_smscPrefix (smsc : Option Smsc) (tpdu : Octets) (h : ∀ m, smsc = some m → 1 + m.val.length ≤ 255) :
    splitPrefix (smscPrefix smsc ++ tpdu) = .ok (smsc, tpdu) := by
  cases smsc with
  | none => rfl
  | some m =>
    have hm := h m rfl
    have hl : (BitVec.ofNat 8 (1 + m.val.length)).toNat = 1 + m.val.length := by simp; omega
    show splitPrefix (BitVec.ofNat 8 (1 + m.val.length) :: (m.toa :: (m.val ++ tpdu))) = _
    rw [splitPrefix, if_neg (fun e => by rw [e] at hl; simp at hl; omega), hl,
      if_neg (by simp only [List.length_cons, List.length_append]; omega)]
    have h1 : memRead (m.toa :: (m.val ++ tpdu)) 1 (1 + m.val.length - 1) = m.val := by
      simp [memRead]
    have h2 : (m.toa :: (m.val ++ tpdu)).drop (1 + m.val.length) = tpdu := by
      rw [Nat.add_comm, List.drop_succ_cons, List.drop_left]
    rw [h1, h2]; rfl

theorem splitPrefix_error {o : Octets} {k : ErrorKind} (e : splitPrefix o = .error k) : k = .badPdu := by
  cases o with
  | nil => injection e with e; exact e.symm
  | cons l r =>
    rw [splitPrefix] at e
    split at e
    · cases e
    · split at e
      · injection e with e; exact e.symm
      · cases e

/-- A frame is read back as what it was made of (R216). -/
theorem frameDec_frameEnc (smsc : Option Smsc) (tpdu : Octets) (h : ∀ m, smsc = some m → 1 + m.val.length ≤ 255) :
    frameDec (frameEnc smsc tpdu).2 = .ok (smsc, tpdu) := by
  rw [frameDec, frameEnc, hexOctets_hexText]
  exact splitPrefix_smscPrefix smsc tpdu h

end Sys2Proof.Laws
end

