-- ==== Sys2Proof/Laws/Lines.lean ====
section
/-! SUPPORT. Lines and texts of the line unit: the spec lemmas of trimming, splitting, quoting, prefix and substring tests, the classifier, the terminator and a transaction's result.
Each turns a test the machine computes into the words of the rule. -/

namespace Sys2Proof.Laws

open Sys2Proof Sys2Proof.Machine

theorem starts_iff (s p : Ascii) : starts s p = true ↔ p <+: s := List.isPrefixOf_iff_prefix

theorem contains_iff (sub l : Ascii) : contains sub l = true ↔ sub <:+: l := by
  induction l with
  | nil => rw [contains, starts_iff, List.prefix_nil, List.infix_nil]
  | cons c r ih => rw [contains, Bool.or_eq_true, starts_iff, ih, List.infix_cons_iff]

theorem isFinal_iff (finals : List Ascii) (l : Line) : isFinal finals l = true ↔ FinalLine finals l := by
  simp [isFinal, FinalLine, starts_iff]

theorem isUrc_iff (urcs : List Ascii) (l : Line) (c : Ascii) : isUrc urcs l c = true ↔ UrcLine urcs c l := by
  have h : ∀ p : Ascii, starts c (ascii "AT" ++ p) = false ↔ ¬ ascii "AT" ++ p <+: c := fun p => by
    rw [← starts_iff, Bool.not_eq_true]
  simp only [isUrc, UrcLine, List.any_eq_true, Bool.and_eq_true, Bool.not_eq_true', starts_iff, bne_iff_ne, h,
    List.isEmpty_eq_false_iff, and_assoc]

/-- The classifier, test by test (R267). -/
theorem classify_final {finals urcs : List Ascii} {l : Line} (c : Ascii) (h : FinalLine finals l) :
    classify finals urcs l c = .final := by
  rw [classify, if_pos ((isFinal_iff _ _).2 h)]

theorem classify_urc {finals urcs : List Ascii} {l : Line} {c : Ascii} (h : ¬ FinalLine finals l)
    (hu : UrcLine urcs c l) : classify finals urcs l c = .urc := by
  rw [classify, if_neg (fun e => h ((isFinal_iff _ _).1 e)), if_pos ((isUrc_iff _ _ _).2 hu)]

theorem classify_intermediate {finals urcs : List Ascii} {l : Line} {c : Ascii} (h : ¬ FinalLine finals l)
    (hu : ¬ UrcLine urcs c l) : classify finals urcs l c = .intermediate := by
  rw [classify, if_neg (fun e => h ((isFinal_iff _ _).1 e)), if_neg (fun e => hu ((isUrc_iff _ _ _).1 e))]

theorem classify_eq_urc_iff (finals urcs : List Ascii) (l : Line) (c : Ascii) :
    classify finals urcs l c = .urc ↔ ¬ FinalLine finals l ∧ UrcLine urcs c l := by
  by_cases h : FinalLine finals l
  · simp [classify_final c h, h]
  · by_cases hu : UrcLine urcs c l
    · simp [classify_urc h hu, h, hu]
    · simp [classify_intermediate h hu, hu]

/-- `TRIM` removes only white space, from the two ends (R261). -/
theorem trim_split (a : Ascii) : ∃ pre post, a = pre ++ trim a ++ post ∧ (∀ b ∈ pre, isSpace b = true) ∧
    ∀ b ∈ post, isSpace b = true := by
  refine ⟨a.takeWhile isSpace, ((a.dropWhile isSpace).reverse.takeWhile isSpace).reverse, ?_, fun b hb => ?_, fun b hb => ?_⟩
  · rw [trim, List.append_assoc, ← List.reverse_append, List.takeWhile_append_dropWhile, List.reverse_reverse,
      List.takeWhile_append_dropWhile]
  · exact List.mem_takeWhile_imp hb
  · exact List.mem_takeWhile_imp (List.mem_reverse.1 hb)

theorem head_dropWhile (p : Byte → Bool) (l : Ascii) {b : Byte} (h : (l.dropWhile p).head? = some b) : p b = false := by
  induction l with
  | nil => simp at h
  | cons x r ih =>
    rw [List.dropWhile_cons] at h
    split at h
    · exact ih h
    · rename_i hx
      simp only [List.head?_cons, Option.some.injEq] at h
      rw [← h]; simpa using hx

theorem trim_last (a : Ascii) {b : Byte} (h : (trim a).getLast? = some b) : isSpace b = false := by
  rw [trim, List.getLast?_reverse] at h
  exact head_dropWhile isSpace _ h

theorem trim_head (a : Ascii) {b : Byte} (h : (trim a).head? = some b) : isSpace b = false := by
  obtain ⟨t, ht⟩ : trim a <+: a.dropWhile isSpace := by
    rw [trim, ← List.reverse_suffix, List.reverse_reverse]
    exact List.dropWhile_suffix _
  refine head_dropWhile isSpace a ?_
  rw [← ht]
  cases hx : trim a with
  | nil => rw [hx] at h; cases h
  | cons x r => rw [hx] at h; exact h

/-- A text with no white space at its ends is its own trim. -/
theorem trim_eq_self {a : Ascii} (hh : ∀ b, a.head? = some b → isSpace b = false)
    (hl : ∀ b, a.getLast? = some b → isSpace b = false) : trim a = a := by
  have drop : ∀ l : Ascii, (∀ b, l.head? = some b → isSpace b = false) → l.dropWhile isSpace = l := by
    intro l h
    cases l with
    | nil => rfl
    | cons x r => rw [List.dropWhile_cons_of_neg]; simp [h x rfl]
  rw [trim, drop a hh, drop a.reverse (fun b hb => hl b (by rwa [List.head?_reverse] at hb)), List.reverse_reverse]

theorem trim_trim (a : Ascii) : trim (trim a) = trim a := trim_eq_self (fun _ h => trim_head a h) fun _ h => trim_last a h

/-- A received line, trimmed and not empty, is a line (R261). -/
theorem lineWf_trim {a : Ascii} (hn : trim a ≠ []) : lineWf (trim a) = true := by
  simp [lineWf, trim_trim, hn]

/-- The parts of a split, joined again, are the text; no part holds the separator (R264). -/
theorem splitAt_spec (sep : Byte) (a : Ascii) :
    splitAt sep a ≠ [] ∧ (∀ p ∈ splitAt sep a, sep ∉ p) ∧ [sep].intercalate (splitAt sep a) = a := by
  induction a with
  | nil => simp [splitAt]
  | cons c r ih =>
    rw [splitAt]
    split
    · rename_i h
      subst h
      obtain ⟨hn, hp, hj⟩ := ih
      obtain ⟨x, t, hx⟩ := List.exists_cons_of_ne_nil hn
      refine ⟨by simp, ?_, ?_⟩
      · intro p hp'
        rcases List.mem_cons.1 hp' with rfl | hp'
        · simp
        · exact hp p hp'
      · rw [hx] at hj ⊢
        simp only [List.intercalate, List.intersperse_cons_cons, List.flatten_cons, List.nil_append, List.singleton_append]
          at hj ⊢
        rw [hj]
    · rename_i h
      obtain ⟨hn, hp, hj⟩ := ih
      obtain ⟨x, t, hx⟩ := List.exists_cons_of_ne_nil hn
      rw [hx] at hp hj ⊢
      refine ⟨by simp, ?_, ?_⟩
      · intro p hp'
        rcases List.mem_cons.1 hp' with rfl | hp'
        · have := hp x List.mem_cons_self
          simp only [List.mem_cons, not_or]
          exact ⟨fun e => h e.symm, this⟩
        · exact hp p (List.mem_cons_of_mem _ hp')
      · cases t with
        | nil => simp only [List.intercalate, List.intersperse_singleton, List.flatten_cons, List.flatten_nil,
            List.append_nil] at hj ⊢; rw [hj]
        | cons y t' =>
          simp only [List.intercalate, List.intersperse_cons_cons, List.flatten_cons, List.cons_append] at hj ⊢
          rw [hj]

/-- `UNQUOTE` removes one matched pair of quotes and leaves everything else (R264). -/
theorem unquote_quoted {q : Byte} (hq : q = 0x22 ∨ q = 0x27) (mid : Ascii) : unquote (q :: mid ++ [q]) = mid := by
  have h : (q :: mid ++ [q]).getLast? = some q := List.getLast?_append_of_ne_nil _ (by simp)
  rw [unquote, if_pos ⟨by simp, by rw [h]; rfl, by rcases hq with rfl | rfl <;> simp⟩]
  simp

theorem unquote_plain {v : Ascii} (h : ∀ (q : Byte) mid, (q = 0x22 ∨ q = 0x27) → v ≠ q :: mid ++ [q]) : unquote v = v := by
  rw [unquote, if_neg]
  rintro ⟨h2, he, hq⟩
  cases v with
  | nil => simp at h2
  | cons x r =>
    have hr : r ≠ [] := by rintro rfl; simp at h2
    have hx : x = r.getLast hr := by
      rw [List.getLast?_cons_of_ne_nil hr, List.getLast?_eq_getLast_of_ne_nil hr] at he
      exact Option.some.inj he
    refine h x r.dropLast (by simpa using hq) ?_
    conv_lhs => rw [← List.dropLast_append_getLast hr, ← hx]
    rfl

/-- Some octet other than these four may end a text that is then written with CR LF after it (R271). -/
theorem terminate_spec (text : Ascii) : Terminated text (terminate text) := by
  rw [terminate]
  cases h : text.getLast? with
  | none =>
    have : text = [] := List.getLast?_eq_none_iff.1 h
    subst this
    refine .inr ⟨?_, rfl⟩
    rintro ⟨i, b, hb, -⟩
    simp at hb
  | some b =>
    obtain ⟨i, rfl⟩ := List.getLast?_eq_some_iff.1 h
    simp only
    by_cases hb : b = 0x0D ∨ b = 0x0A ∨ b = 0x1A ∨ b = 0x1B
    · rw [if_pos (by simpa [or_assoc] using hb)]
      exact .inl ⟨⟨i, b, rfl, hb⟩, rfl⟩
    · rw [if_neg (by simpa [or_assoc] using hb)]
      refine .inr ⟨?_, rfl⟩
      rintro ⟨i', b', h', hb'⟩
      have := List.append_inj' h' rfl
      simp only [List.cons.injEq, and_true] at this
      exact hb (this.2 ▸ hb')

theorem terminated_unique {text w w' : Ascii} (h : Terminated text w) (h' : Terminated text w') : w = w' := by
  rcases h with ⟨h, rfl⟩ | ⟨h, rfl⟩ <;> rcases h' with ⟨h', rfl⟩ | ⟨h', rfl⟩
  · rfl
  · exact absurd h h'
  · exact absurd h' h
  · rfl

theorem terminated_iff (text w : Ascii) : Terminated text w ↔ w = terminate text :=
  ⟨fun h => terminated_unique h (terminate_spec text), fun h => h ▸ terminate_spec text⟩

/-- What a transaction answers at its final line (R272, R276, R277). -/
theorem finalResult_result (k : SendKind) (r : List Line) : FinalResult k r (k.result r) := by
  cases k with
  | send => rfl
  | expect sub =>
    simp only [FinalResult, SendKind.result]
    by_cases h : r.any (contains sub) = true
    · rw [if_pos h]
      simp only [List.any_eq_true, contains_iff] at h
      exact .inl ⟨h, rfl⟩
    · rw [if_neg h]
      simp only [List.any_eq_true, contains_iff, not_exists, not_and] at h
      exact .inr ⟨h, rfl⟩
  | query =>
    simp only [FinalResult, SendKind.result]
    cases h : r.find? fun l => !starts l (ascii "AT") with
    | none =>
      simp only [List.find?_eq_none, Bool.not_eq_true', Bool.not_eq_false, starts_iff] at h
      exact .inr ⟨h, rfl⟩
    | some l =>
      rw [List.find?_eq_some_iff_append] at h
      obtain ⟨hl, pre, post, rfl, hp⟩ := h
      refine .inl ⟨pre, l, post, rfl, fun y hy => ?_, ?_, rfl⟩
      · rw [← starts_iff]; simpa using hp y hy
      · rw [← starts_iff]; simpa using hl

end Sys2Proof.Laws
end

