-- ==== Sys2Proof/Laws/UserData.lean ====
section
/-! SUPPORT. Spec lemmas of the user-data field (spec/43_tpdu.md R180 to R184): what `UD_BUILD` answers, that `UD_SPLIT`
inverts it, and what `UD_SPLIT` accepts. -/

namespace Sys2Proof.Laws

open Sys2Proof Sys2Proof.Machine

/-- The alphabet of a data coding octet, by its bits [3:2] (R172). -/
theorem alphaOf_iff : ∀ d : Byte,
    (d &&& 0x0C = 0x00 ↔ alphaOf d = some .gsm7) ∧ (d &&& 0x0C = 0x04 ↔ alphaOf d = some .bit8) ∧
    (d &&& 0x0C = 0x08 ↔ alphaOf d = some .ucs2) ∧ (d &&& 0x0C = 0x0C ↔ alphaOf d = none) := by
  decide +kernel

/-- The header octets of TP-UD are the wire form of the header. -/
theorem headerWire_eq (h : List IE) : headerWire h = BitVec.ofNat 8 (udhl h) :: udhBody h := by
  simp [headerWire, udhBody]

theorem headerWire_length (h : List IE) : (headerWire h).length = 1 + udhl h := by
  rw [headerWire_eq, List.length_cons, udhBody_length]; omega

/-- The octets of an optional header. -/
def headerPart (udh : Option (List IE)) : Octets := (udh.map headerWire).getD []

theorem headerPart_length (udh : Option (List IE)) : (headerPart udh).length = headerSize udh := by
  cases udh with
  | none => rfl
  | some h => exact headerWire_length h

theorem headerOctets_eq_ok {udh : Option (List IE)} (hf : ∀ h, udh = some h → udhl h ≤ 255) :
    headerOctets udh = .ok (headerPart udh) := by
  cases udh with
  | none => rfl
  | some h =>
    show udhEnc h = .ok (headerWire h)
    rw [udhEnc_eq_ok h (hf h rfl), headerWire_eq]

theorem headerOctets_eq_error {udh : Option (List IE)} (hf : ¬ ∀ h, udh = some h → udhl h ≤ 255) :
    headerOctets udh = .error .badUdh := by
  cases udh with
  | none => exact absurd (fun h e => by cases e) hf
  | some h =>
    refine udhEnc_eq_error h ?_
    by_contra hc
    exact hf fun h' e => by injection e with e; subst e; omega

/-- The fill bits of a body: after a header, those up to the next septet boundary; else none (R180). -/
def fillOf : Option (List IE) → Nat
  | none => 0
  | some h => fillBits (udhl h)

/-- The payload octets of a body (R181). -/
def payloadPart (udh : Option (List IE)) : Body → Octets
  | .septets q => pack7 q (fillOf udh)
  | .octets o => o

/-- TP-UDL and TP-UD of a header that fits (R181, R44). -/
theorem udFields_eq {udh : Option (List IE)} (hf : ∀ h, udh = some h → udhl h ≤ 255) (body : Body) :
    udFields (headerPart udh) udh body = (udlOf udh body, headerPart udh ++ payloadPart udh body) := by
  cases body with
  | octets o =>
    show ((headerPart udh ++ o).length, _) = (headerSize udh + o.length, _)
    rw [List.length_append, headerPart_length]; rfl
  | septets q =>
    cases udh with
    | none => simp [udFields, udlOf, headerSize, payloadPart, fillOf, headerPart, ceilDiv]
    | some h =>
      have hu : (octetAt (headerPart (some h)) 0).toNat = udhl h := by
        show (octetAt (headerWire h) 0).toNat = _
        rw [headerWire_eq]
        show (BitVec.ofNat 8 (udhl h)).toNat = _
        have := hf h rfl
        simp; omega
      simp only [udFields, hu]
      show (headerSeptets (udhl h) + q.length, _) = (ceilDiv ((1 + udhl h) * 8) 7 + q.length, _)
      rw [headerSeptets, Nat.add_comm 1]; rfl

/-- How many octets TP-UD takes (R81). -/
theorem ud_length (udh : Option (List IE)) (body : Body) :
    (headerPart udh ++ payloadPart udh body).length = udSize udh body := by
  rw [List.length_append, headerPart_length]
  cases body with
  | octets o => rfl
  | septets q =>
    show headerSize udh + (pack7 q (fillOf udh)).length = ceilDiv ((ceilDiv (headerSize udh * 8) 7 + q.length) * 7) 8
    rw [pack7_length]
    cases udh with
    | none => simp only [headerSize, fillOf, ceilDiv]; omega
    | some h => simp only [headerSize, fillOf, fillBits, ceilDiv]; omega

/-- A body of the kind the alphabet asks for (R43). -/
theorem bodyFits_iff (a : Alphabet) (body : Body) : bodyFits a body = true ↔ (a = .gsm7 ↔ ∃ q, body = .septets q) := by
  cases body <;> cases a <;> simp [bodyFits]

/-- `UD_BUILD` where it answers (R181). -/
theorem udBuild_eq_ok {dcs : Byte} {udh : Option (List IE)} {body : Body} (h : UserDataOk dcs udh body) :
    udBuild dcs udh body = .ok (udlOf udh body, headerPart udh ++ payloadPart udh body) := by
  obtain ⟨a, ha, hb⟩ := h.alphabet
  have hb := (bodyFits_iff a body).2 hb
  rw [udBuild, ha]
  simp only [hb, Bool.true_eq_false, if_false, headerOctets_eq_ok h.header]
  show (if _ then _ else _) = _
  rw [udFields_eq h.header, if_neg]
  show ¬ 140 < (headerPart udh ++ payloadPart udh body).length
  rw [ud_length]; exact Nat.not_lt.2 h.size

/-- The errors of `UD_BUILD`, in their order (R181, R309). -/
theorem udBuild_reserved {dcs : Byte} (h : alphaOf dcs = none) (udh : Option (List IE)) (body : Body) :
    udBuild dcs udh body = .error .unsupportedAlphabet := by
  rw [udBuild, h]

theorem udBuild_kind {dcs : Byte} {a : Alphabet} (h : alphaOf dcs = some a) (udh : Option (List IE)) {body : Body}
    (hb : ¬ (a = .gsm7 ↔ ∃ q, body = .septets q)) : udBuild dcs udh body = .error .badPdu := by
  rw [udBuild, h]
  exact if_pos (by rw [← bodyFits_iff] at hb; simpa using hb)

theorem udBuild_header {dcs : Byte} {a : Alphabet} (h : alphaOf dcs = some a) {udh : Option (List IE)} {body : Body}
    (hb : a = .gsm7 ↔ ∃ q, body = .septets q) (hf : ¬ ∀ h, udh = some h → udhl h ≤ 255) :
    udBuild dcs udh body = .error .badUdh := by
  have hb := (bodyFits_iff a body).2 hb
  rw [udBuild, h]
  simp only [hb, Bool.true_eq_false, if_false, headerOctets_eq_error hf]
  rfl

theorem udBuild_size {dcs : Byte} {a : Alphabet} (h : alphaOf dcs = some a) {udh : Option (List IE)} {body : Body}
    (hb : a = .gsm7 ↔ ∃ q, body = .septets q) (hf : ∀ h, udh = some h → udhl h ≤ 255)
    (hs : 140 < udSize udh body) : udBuild dcs udh body = .error .badPdu := by
  have hb := (bodyFits_iff a body).2 hb
  rw [udBuild, h]
  simp only [hb, Bool.true_eq_false, if_false, headerOctets_eq_ok hf]
  show (if _ then _ else _) = _
  rw [udFields_eq hf, if_pos]
  show 140 < (headerPart udh ++ payloadPart udh body).length
  rw [ud_length]; exact hs

/-- `UD_BUILD` answers exactly on good user data. -/
theorem udBuild_ok_iff {dcs : Byte} {udh : Option (List IE)} {body : Body} {r : Nat × Octets} :
    udBuild dcs udh body = .ok r ↔
      UserDataOk dcs udh body ∧ r = (udlOf udh body, headerPart udh ++ payloadPart udh body) := by
  constructor
  · intro h
    cases ha : alphaOf dcs with
    | none => rw [udBuild_reserved ha] at h; cases h
    | some a =>
      by_cases hb : a = .gsm7 ↔ ∃ q, body = .septets q
      · by_cases hf : ∀ h, udh = some h → udhl h ≤ 255
        · by_cases hs : 140 < udSize udh body
          · rw [udBuild_size ha hb hf hs] at h; cases h
          · have ok : UserDataOk dcs udh body := ⟨⟨a, ha, hb⟩, hf, Nat.not_lt.1 hs⟩
            rw [udBuild_eq_ok ok] at h
            injection h with h
            exact ⟨ok, h.symm⟩
        · rw [udBuild_header ha hb hf] at h; cases h
      · rw [udBuild_kind ha udh hb] at h; cases h
  · rintro ⟨ok, rfl⟩
    exact udBuild_eq_ok ok

/-- TP-UDL fits its octet (R44). -/
theorem udlOf_le {udh : Option (List IE)} {body : Body} (h : udSize udh body ≤ 140) : udlOf udh body ≤ 160 := by
  cases body with
  | octets o => exact Nat.le_trans h (by decide)
  | septets q =>
    have h : ceilDiv (udlOf udh (.septets q) * 7) 8 ≤ 140 := h
    simp only [ceilDiv] at h
    omega

/-- How many octets TP-UD takes, by the alphabet and TP-UDL (R81). -/
theorem udOctets_udlOf {dcs : Byte} {a : Alphabet} {udh : Option (List IE)} {body : Body} (ha : alphaOf dcs = some a)
    (h : UserDataOk dcs udh body) : udOctets a (udlOf udh body) = udSize udh body := by
  obtain ⟨a', ha', hb⟩ := h.alphabet
  rw [ha] at ha'
  injection ha' with ha'
  subst ha'
  cases body with
  | septets q => rw [udOctets, if_pos (hb.2 ⟨q, rfl⟩)]; rfl
  | octets o =>
    rw [udOctets, if_neg]
    · rfl
    · intro h; obtain ⟨q, hq⟩ := hb.1 h; cases hq

/-- `UD_SPLIT` of octets that end where TP-UDL says (R182). -/
theorem udSplit_eq {dcs : Byte} {a : Alphabet} (ha : alphaOf dcs = some a) (udhi : Bool) {o : Octets} {pos : Nat}
    (hn : udOctets a (octetAt o pos).toNat ≤ 140) (hl : o.length = pos + 1 + udOctets a (octetAt o pos).toNat) :
    udSplit dcs udhi o pos =
      (splitHeader a udhi (octetAt o pos).toNat o (pos + 1) o.length).bind fun r =>
        (splitBody a (memRead o r.2.1 (o.length - r.2.1)) ((octetAt o pos).toNat - r.2.2.1) r.2.2.2).bind fun body =>
          .ok (r.1, body, o.length) := by
  rw [udSplit, ha]
  simp only
  rw [if_neg (by omega), if_neg (show ¬ Config.udMax < _ from Nat.not_lt.2 hn), if_neg (by omega), if_neg (by omega), ← hl]
  rfl

/-- The errors of `UD_SPLIT` before it reads TP-UD (R182, R309). -/
theorem udSplit_reserved {dcs : Byte} (ha : alphaOf dcs = none) (udhi : Bool) (o : Octets) (pos : Nat) :
    udSplit dcs udhi o pos = .error .unsupportedAlphabet := by
  rw [udSplit, ha]

theorem udSplit_bad {dcs : Byte} {a : Alphabet} (ha : alphaOf dcs = some a) (udhi : Bool) {o : Octets} {pos : Nat}
    (h : o.length ≤ pos ∨ 140 < udOctets a (octetAt o pos).toNat ∨
      o.length ≠ pos + 1 + udOctets a (octetAt o pos).toNat) : udSplit dcs udhi o pos = .error .badPdu := by
  rw [udSplit, ha]
  simp only
  split
  · rfl
  split
  · rfl
  next h1 h2 =>
    have h2 : ¬ 140 < udOctets a (octetAt o pos).toNat := h2
    have h3 := h.resolve_left h1 |>.resolve_left h2
    split
    · rfl
    split
    · rfl
    · omega

theorem octetAt_append (pre o : Octets) (i : Nat) : octetAt (pre ++ o) (pre.length + i) = octetAt o i := by
  rw [octetAt, List.getD_append_right _ _ _ _ (by omega), Nat.add_sub_cancel_left]; rfl

theorem memRead_append (pre o : Octets) (i n : Nat) : memRead (pre ++ o) (pre.length + i) n = memRead o i n := by
  rw [memRead, ← List.drop_drop, List.drop_left]; rfl

/-- The octets of TP-UDL and TP-UD that `UD_BUILD` answers. -/
def udWire (udh : Option (List IE)) (body : Body) : Octets :=
  BitVec.ofNat 8 (udlOf udh body) :: (headerPart udh ++ payloadPart udh body)

/-- The payload part of `UD_SPLIT` reads the body back (R184). -/
theorem splitBody_payload {a : Alphabet} {udh : Option (List IE)} {body : Body} (hb : a = .gsm7 ↔ ∃ q, body = .septets q) :
    splitBody a (payloadPart udh body) (match body with | .septets q => q.length | .octets _ => 0) (fillOf udh) = .ok body ∧
    ∀ n k, (∃ o, body = .octets o) → splitBody a (payloadPart udh body) n k = .ok body := by
  cases body with
  | septets q =>
    refine ⟨?_, fun n k h => by obtain ⟨o, h⟩ := h; cases h⟩
    have hu := unpack7_pack7 q (fillOf udh) []
    rw [List.append_nil] at hu
    rw [splitBody, if_pos (hb.2 ⟨q, rfl⟩)]
    show (unpack7 (pack7 q (fillOf udh)) q.length (fillOf udh)).bind _ = _
    rw [hu]; rfl
  | octets o =>
    have hne : ¬ a = .gsm7 := fun h => by obtain ⟨q, hq⟩ := hb.1 h; cases hq
    exact ⟨by rw [splitBody, if_neg hne]; rfl, fun n k _ => by rw [splitBody, if_neg hne]; rfl⟩

/-- `UD_SPLIT` reads back what `UD_BUILD` writes, at any offset (R184). -/
theorem udSplit_udWire {dcs : Byte} {udh : Option (List IE)} {body : Body} (h : UserDataOk dcs udh body) (pre : Octets) :
    udSplit dcs udh.isSome (pre ++ udWire udh body) pre.length =
      .ok (udh, body, (pre ++ udWire udh body).length) := by
  obtain ⟨a, ha, hb⟩ := h.alphabet
  have hudl := udlOf_le h.size
  have h0 : (octetAt (pre ++ udWire udh body) pre.length).toNat = udlOf udh body := by
    have := octetAt_append pre (udWire udh body) 0
    rw [Nat.add_zero] at this
    rw [this]
    show (BitVec.ofNat 8 (udlOf udh body)).toNat = _
    simp; omega
  have hlen : (pre ++ udWire udh body).length = pre.length + 1 + udSize udh body := by
    rw [List.length_append, udWire, List.length_cons, ud_length]; omega
  have hn : udOctets a (octetAt (pre ++ udWire udh body) pre.length).toNat = udSize udh body := by
    rw [h0, udOctets_udlOf ha h]
  rw [udSplit_eq ha _ (by rw [hn]; exact h.size) (by rw [hn, hlen]), h0]
  have hpay : ∀ p, p = pre.length + 1 + headerSize udh →
      memRead (pre ++ udWire udh body) p ((pre ++ udWire udh body).length - p) = payloadPart udh body := by
    rintro p rfl
    have e : pre ++ udWire udh body =
        (pre ++ [BitVec.ofNat 8 (udlOf udh body)] ++ headerPart udh) ++ payloadPart udh body := by simp [udWire]
    have hp : (pre ++ [BitVec.ofNat 8 (udlOf udh body)] ++ headerPart udh).length = pre.length + 1 + headerSize udh := by
      simp only [List.length_append, List.length_singleton, headerPart_length]
    have hm := memRead_append (pre ++ [BitVec.ofNat 8 (udlOf udh body)] ++ headerPart udh) (payloadPart udh body) 0
      (payloadPart udh body).length
    rw [Nat.add_zero, hp, ← e] at hm
    rw [show (pre ++ udWire udh body).length - (pre.length + 1 + headerSize udh) = (payloadPart udh body).length by
      rw [e, List.length_append, hp]; omega, hm]
    simp [memRead]
  have hbody : ∀ hs, (a = .gsm7 → hs = ceilDiv (headerSize udh * 8) 7) → ∀ k, (a = .gsm7 → k = fillOf udh) →
      splitBody a (payloadPart udh body) (udlOf udh body - hs) k = .ok body := by
    intro hs hhs k hk
    cases hbd : body with
    | octets o =>
      rw [hbd] at hb
      exact (splitBody_payload hb).2 _ _ ⟨o, rfl⟩
    | septets q =>
      rw [hbd] at hb
      have hg := hb.2 ⟨q, rfl⟩
      rw [hhs hg, hk hg, show udlOf udh (.septets q) - ceilDiv (headerSize udh * 8) 7 = q.length from Nat.add_sub_cancel_left ..]
      exact (splitBody_payload hb).1
  cases udh with
  | none =>
    show (splitBody a (memRead (pre ++ udWire none body) (pre.length + 1) _) _ _).bind _ = _
    rw [hpay _ (by simp [headerSize]), hbody 0 (fun _ => by decide) 0 (fun _ => rfl)]
    rfl
  | some hd =>
    have hfit := h.header hd rfl
    have e : pre ++ udWire (some hd) body = (pre ++ [BitVec.ofNat 8 (udlOf (some hd) body)]) ++
        (BitVec.ofNat 8 (udhl hd) :: udhBody hd) ++ payloadPart (some hd) body := by
      simp [udWire, headerPart, headerWire_eq]
    have hpre : (pre ++ [BitVec.ofNat 8 (udlOf (some hd) body)]).length = pre.length + 1 := by simp
    have hsz : headerSize (some hd) ≤ udSize (some hd) body := by
      rw [← ud_length, List.length_append, headerPart_length]; omega
    have hdec : udhDec (pre ++ udWire (some hd) body) (pre.length + 1) (pre ++ udWire (some hd) body).length =
        .ok (hd, pre.length + 1 + 1 + udhl hd) := by
      have hh : headerSize (some hd) = 1 + udhl hd := rfl
      have := udhDec_udhEnc hd (pre ++ [BitVec.ofNat 8 (udlOf (some hd) body)]) (payloadPart (some hd) body)
        (pre ++ udWire (some hd) body).length hfit (by rw [hpre, hlen]; omega)
      rwa [← e, hpre] at this
    have hu : (octetAt (pre ++ udWire (some hd) body) (pre.length + 1)).toNat = udhl hd := by
      rw [octetAt_append, udWire]
      show (octetAt (headerWire hd ++ payloadPart (some hd) body) 0).toNat = _
      rw [headerWire_eq]
      show (BitVec.ofNat 8 (udhl hd)).toNat = _
      simp; omega
    have hhs : headerSeptets (udhl hd) = ceilDiv (headerSize (some hd) * 8) 7 := by
      rw [headerSeptets, headerSize, Nat.add_comm 1]
    have hp2 : pre.length + 1 + 1 + udhl hd = pre.length + 1 + headerSize (some hd) := by
      simp only [headerSize]; omega
    rw [Option.isSome_some, splitHeader, if_pos rfl]
    simp only [hdec, bind, Except.bind, hu]
    by_cases hg : a = .gsm7
    · have hge : ¬ udlOf (some hd) body < headerSeptets (udhl hd) := by
        obtain ⟨q, hq⟩ := hb.1 hg
        rw [hq, hhs]
        simp only [udlOf]; omega
      rw [if_pos hg, if_neg hge]
      simp only
      rw [hpay _ hp2, hbody _ (fun _ => hhs) (fillBits (udhl hd)) (fun _ => rfl)]
    · rw [if_neg hg]
      simp only
      rw [hpay _ hp2, hbody _ (fun h => absurd h hg) _ (fun h => absurd h hg)]

/-- The fill bits complete the header's octets to whole septets (R180). -/
theorem headerSeptets_fill (u : Nat) : 7 * ceilDiv ((1 + u) * 8) 7 = 8 * (1 + u) + fillBits u := by
  simp only [ceilDiv, fillBits]; omega

/-- What the header part of `UD_SPLIT` answers (R182). -/
theorem splitHeader_eq_ok {a : Alphabet} {udhi : Bool} {udl : Nat} {o : Octets} {pos : Nat} {udh : Option (List IE)}
    {p hs k : Nat} (h : splitHeader a udhi udl o pos o.length = .ok (udh, p, hs, k)) :
    udh.isSome = udhi ∧ (∀ h, udh = some h → udhl h ≤ 255) ∧ p = pos + headerSize udh ∧ (udh = none ∨ p ≤ o.length) ∧
      (udh = none ∨ memRead o pos (headerSize udh) = headerPart udh) ∧
      (a = .gsm7 → hs = ceilDiv (headerSize udh * 8) 7 ∧ hs ≤ udl ∧ k = fillOf udh) := by
  rw [splitHeader] at h
  split at h
  · next hu =>
    obtain ⟨⟨l, p'⟩, hd, h⟩ := bind_eq_ok.1 h
    obtain ⟨h1, h2, h3, h4⟩ := udhDec_eq_ok (Nat.le_refl _) hd
    have hle : udhl l ≤ 255 := by have := (octetAt o pos).isLt; omega
    have hfit : ∀ h, some l = some h → udhl h ≤ 255 := fun h e => by injection e with e; subst e; exact hle
    have hrd : memRead o pos (headerSize (some l)) = headerPart (some l) := by
      show memRead o pos (1 + udhl l) = headerWire l
      rw [h4, headerWire_eq]
    simp only at h
    split at h
    · split at h
      · cases h
      next hge =>
        injection h with h
        simp only [Prod.mk.injEq] at h
        obtain ⟨rfl, rfl, rfl, rfl⟩ := h
        refine ⟨hu.symm, hfit, by simp only [headerSize]; omega, .inr h3, .inr hrd, fun _ => ⟨?_, Nat.not_lt.1 hge, ?_⟩⟩
        · rw [headerSeptets, headerSize, ← h1, Nat.add_comm 1]
        · rw [← h1]; rfl
    · next hg =>
      injection h with h
      simp only [Prod.mk.injEq] at h
      obtain ⟨rfl, rfl, rfl, rfl⟩ := h
      exact ⟨hu.symm, hfit, by simp only [headerSize]; omega, .inr h3, .inr hrd, fun hg' => absurd hg' hg⟩
  · next hu =>
    injection h with h
    simp only [Prod.mk.injEq] at h
    obtain ⟨rfl, rfl, rfl, rfl⟩ := h
    exact ⟨by simpa using hu, (fun h e => by cases e), rfl, .inl rfl, .inl rfl, fun _ => ⟨by simp [headerSize, ceilDiv], Nat.zero_le _, rfl⟩⟩

/-- The header part of `UD_SPLIT` raises `BadUdh` only, and only under TP-UDHI (R182). -/
theorem splitHeader_error {a : Alphabet} {udhi : Bool} {udl : Nat} {o : Octets} {pos limit : Nat} {k : ErrorKind}
    (h : splitHeader a udhi udl o pos limit = .error k) : k = .badUdh ∧ udhi = true := by
  rw [splitHeader] at h
  split at h
  · next hu =>
    refine ⟨?_, hu⟩
    rcases bind_eq_error h with h | ⟨_, _, h⟩
    · exact udhDec_error h
    · simp only at h
      split at h
      · split at h
        · injection h with h; exact h.symm
        · cases h
      · cases h
  · cases h

/-- What is accepted as the payload: octets as they stand, or as many septets as are left (R182). -/
def PayloadRead (o : Octets) (p : Nat) (udh : Option (List IE)) : Body → Prop
  | .septets q => unpack7 (o.drop p) q.length (fillOf udh) = .ok q
  | .octets b => o.drop p = b

theorem memRead_rest (o : Octets) (p : Nat) : memRead o p (o.length - p) = o.drop p := by
  rw [memRead, List.take_of_length_le (by simp)]

/-- `UD_SPLIT` of octets that end where TP-UDL says answers, or raises `BadUdh` under TP-UDHI (R182); and what an answer
is. -/
theorem udSplit_cases {dcs : Byte} {a : Alphabet} (ha : alphaOf dcs = some a) (udhi : Bool) {o : Octets} {pos : Nat}
    (hn : udOctets a (octetAt o pos).toNat ≤ 140) (hl : o.length = pos + 1 + udOctets a (octetAt o pos).toNat) :
    (udhi = true ∧ udSplit dcs udhi o pos = .error .badUdh) ∨
    ∃ udh body, udSplit dcs udhi o pos = .ok (udh, body, o.length) ∧ udh.isSome = udhi ∧ UserDataOk dcs udh body ∧
      udlOf udh body = (octetAt o pos).toNat ∧ o.length = pos + 1 + udSize udh body ∧
      memRead o (pos + 1) (headerSize udh) = headerPart udh ∧ PayloadRead o (pos + 1 + headerSize udh) udh body := by
  rw [udSplit_eq ha udhi hn hl]
  cases hsp : splitHeader a udhi (octetAt o pos).toNat o (pos + 1) o.length with
  | error k =>
    obtain ⟨rfl, hu⟩ := splitHeader_error hsp
    exact .inl ⟨hu, rfl⟩
  | ok r =>
    obtain ⟨udh, p, hs, k⟩ := r
    obtain ⟨h1, h2, h3, h4, h5, h6⟩ := splitHeader_eq_ok hsp
    have h4 : p ≤ o.length := by
      rcases h4 with rfl | h4
      · rw [h3, hl]; simp only [headerSize]; omega
      · exact h4
    have h5 : memRead o (pos + 1) (headerSize udh) = headerPart udh := by
      rcases h5 with rfl | h5
      · simp [memRead, headerSize, headerPart]
      · exact h5
    right
    show ∃ udh' body, (splitBody a (memRead o p (o.length - p)) ((octetAt o pos).toNat - hs) k).bind _ = _ ∧ _
    rw [memRead_rest, splitBody]
    by_cases hg : a = .gsm7
    · obtain ⟨e1, e2, rfl⟩ := h6 hg
      have hsz : (fillOf udh + 7 * ((octetAt o pos).toNat - hs)) ≤ (o.drop p).length * 8 := by
        rw [List.length_drop]
        rw [hl, udOctets, if_pos hg] at *
        cases udh with
        | none => simp only [headerSize, fillOf, ceilDiv] at *; omega
        | some l =>
          have hf := headerSeptets_fill (udhl l)
          simp only [headerSize, fillOf] at *
          generalize fillBits (udhl l) = k at *
          generalize ceilDiv ((1 + udhl l) * 8) 7 = m at *
          simp only [ceilDiv] at *
          omega
      rw [if_pos hg]
      have hq := septetsOfStream_length ((octetAt o pos).toNat - hs) (streamOfOctets (o.drop p) / 2 ^ fillOf udh)
      have hu : unpack7 (o.drop p) ((octetAt o pos).toNat - hs) (fillOf udh) =
          .ok (septetsOfStream ((octetAt o pos).toNat - hs) (streamOfOctets (o.drop p) / 2 ^ fillOf udh)) := by
        rw [unpack7, if_neg (by omega)]
      have hudl : udlOf udh (.septets (septetsOfStream ((octetAt o pos).toNat - hs)
          (streamOfOctets (o.drop p) / 2 ^ fillOf udh))) = (octetAt o pos).toNat := by
        simp only [udlOf, hq, ← e1]; omega
      have hok : UserDataOk dcs udh (.septets (septetsOfStream ((octetAt o pos).toNat - hs)
          (streamOfOctets (o.drop p) / 2 ^ fillOf udh))) :=
        ⟨⟨a, ha, ⟨fun _ => ⟨_, rfl⟩, fun _ => hg⟩⟩, h2, by
          rw [udOctets, if_pos hg, ← hudl] at hn; exact hn⟩
      refine ⟨udh, .septets _, ?_, h1, hok, hudl, ?_, h5, ?_⟩
      · show ((unpack7 _ _ _).bind _).bind _ = _
        rw [hu]; rfl
      · have := udOctets_udlOf ha hok
        rw [hudl] at this
        omega
      · rw [← h3]
        show unpack7 _ (List.length _) _ = _
        rw [hq]; exact hu
    · rw [if_neg hg]
      have hlen : (o.drop p).length = o.length - p := List.length_drop
      have hn' : udOctets a (octetAt o pos).toNat = (octetAt o pos).toNat := by rw [udOctets, if_neg hg]
      have hudl : udlOf udh (.octets (o.drop p)) = (octetAt o pos).toNat := by
        simp only [udlOf, hlen]; omega
      have hok : UserDataOk dcs udh (.octets (o.drop p)) :=
        ⟨⟨a, ha, ⟨fun h => absurd h hg, fun ⟨q, h⟩ => by cases h⟩⟩, h2, by
          show udlOf udh (.octets (o.drop p)) ≤ 140
          rw [hudl, ← hn']; exact hn⟩
      refine ⟨udh, .octets (o.drop p), rfl, h1, hok, hudl, ?_, h5, ?_⟩
      · have := udOctets_udlOf ha hok
        rw [hudl] at this
        omega
      · rw [← h3]; rfl

/-- What `UD_SPLIT` accepts (R182). -/
theorem udSplit_eq_ok {dcs : Byte} {udhi : Bool} {o : Octets} {pos : Nat} {udh : Option (List IE)} {body : Body}
    {pos' : Nat} (h : udSplit dcs udhi o pos = .ok (udh, body, pos')) :
    pos' = o.length ∧ udh.isSome = udhi ∧ UserDataOk dcs udh body ∧ udlOf udh body = (octetAt o pos).toNat ∧
      o.length = pos + 1 + udSize udh body ∧ memRead o (pos + 1) (headerSize udh) = headerPart udh ∧
      PayloadRead o (pos + 1 + headerSize udh) udh body := by
  cases ha : alphaOf dcs with
  | none => rw [udSplit_reserved ha] at h; cases h
  | some a =>
    by_cases hb : o.length ≤ pos ∨ 140 < udOctets a (octetAt o pos).toNat ∨
      o.length ≠ pos + 1 + udOctets a (octetAt o pos).toNat
    · rw [udSplit_bad ha udhi hb] at h; cases h
    · push Not at hb
      rcases udSplit_cases ha udhi hb.2.1 hb.2.2 with ⟨-, e⟩ | ⟨udh', body', e, hr⟩
      · rw [e] at h; cases h
      · rw [e] at h
        injection h with h
        simp only [Prod.mk.injEq] at h
        obtain ⟨rfl, rfl, rfl⟩ := h
        exact ⟨rfl, hr⟩

/-- User data that is accepted and canonical is what `UD_BUILD` writes (R199). -/
theorem udWire_of_canonical {dcs : Byte} {udhi : Bool} {o : Octets} {pos : Nat} {udh : Option (List IE)} {body : Body}
    {pos' : Nat} (h : udSplit dcs udhi o pos = .ok (udh, body, pos')) (hc : udCanonical dcs udhi o pos) :
    o.drop pos = udWire udh body := by
  obtain ⟨-, h1, h2, h3, h4, h5, h6⟩ := udSplit_eq_ok h
  have hpos : pos < o.length := by omega
  rw [List.drop_eq_getElem_cons hpos, udWire]
  have h0 : o[pos] = BitVec.ofNat 8 (udlOf udh body) := by
    rw [h3, octetAt, List.getD_eq_getElem?_getD, List.getElem?_eq_getElem hpos]
    simp
  have hsplit : o.drop (pos + 1) = headerPart udh ++ o.drop (pos + 1 + headerSize udh) := by
    have := List.take_append_drop (headerSize udh) (o.drop (pos + 1))
    rw [List.drop_drop] at this
    rw [← h5]; exact this.symm
  rw [h0, hsplit]
  congr 2
  cases body with
  | octets b => exact h6
  | septets q =>
    have hg : alphaOf dcs = some .gsm7 := by
      obtain ⟨a, ha, hb⟩ := h2.alphabet
      rw [ha, hb.2 ⟨q, rfl⟩]
    have hc := hc hg
    have h6 : unpack7 (o.drop (pos + 1 + headerSize udh)) q.length (fillOf udh) = .ok q := h6
    have hlen : (o.drop (pos + 1 + headerSize udh)).length = ceilDiv (fillOf udh + 7 * q.length) 8 := by
      have := ud_length udh (.septets q)
      rw [List.length_append, headerPart_length] at this
      rw [List.length_drop, ← pack7_length]
      show _ = (payloadPart udh (.septets q)).length
      omega
    have hcan : packedCanonical (o.drop (pos + 1 + headerSize udh)) q.length (fillOf udh) := by
      cases udh with
      | none =>
        subst h1
        have hc : packedCanonical (o.drop (pos + 1)) (octetAt o pos).toNat 0 := hc
        have hq : q.length = (octetAt o pos).toNat := by rw [← h3]; simp [udlOf, headerSize, ceilDiv]
        rw [hq]; exact hc
      | some l =>
        subst h1
        have hu : (octetAt o (pos + 1)).toNat = udhl l := by
          have h5 : memRead o (pos + 1) (1 + udhl l) = headerWire l := h5
          have : pos + 1 < o.length := by
            by_contra hcc
            rw [memRead, List.drop_eq_nil_of_le (by omega)] at h5
            simp [headerWire] at h5
          rw [Nat.add_comm 1, memRead_succ _ _ _ this, headerWire_eq] at h5
          injection h5 with h5
          rw [h5]
          have := h2.header l rfl
          simp; omega
        have hc : packedCanonical (o.drop (pos + 2 + (octetAt o (pos + 1)).toNat))
            ((octetAt o pos).toNat - headerSeptets (octetAt o (pos + 1)).toNat)
            (fillBits (octetAt o (pos + 1)).toNat) := hc
        rw [hu, ← h3] at hc
        have hq : udlOf (some l) (.septets q) - headerSeptets (udhl l) = q.length := by
          simp only [udlOf, headerSize, headerSeptets, Nat.add_comm 1]; omega
        rw [hq] at hc
        have : pos + 1 + headerSize (some l) = pos + 2 + udhl l := by simp only [headerSize]; omega
        rw [this]; exact hc
    exact (pack7_unpack7 _ _ _ q h6 hlen hcan.1 hcan.2).symm

/-- Packed septets are canonical (R199). -/
theorem packedCanonical_pack7 (q : Septets) (k : Nat) : packedCanonical (pack7 q k) q.length k := by
  constructor
  · rw [streamOfOctets_pack7, Nat.mul_mod_right]
  · rw [streamOfOctets_pack7, pow_add]
    exact Nat.mul_lt_mul_of_pos_left (streamOfSeptets_lt q) (by positivity)

/-- What `UD_BUILD` writes is canonical (R199). -/
theorem udCanonical_udWire {dcs : Byte} {udh : Option (List IE)} {body : Body} (h : UserDataOk dcs udh body)
    (pre : Octets) : udCanonical dcs udh.isSome (pre ++ udWire udh body) pre.length := by
  intro hg
  obtain ⟨a, ha, hb⟩ := h.alphabet
  rw [hg] at ha
  injection ha with ha
  obtain ⟨q, rfl⟩ := hb.1 ha.symm
  have hudl := udlOf_le h.size
  have h0 : (octetAt (pre ++ udWire udh (.septets q)) pre.length).toNat = udlOf udh (.septets q) := by
    have := octetAt_append pre (udWire udh (.septets q)) 0
    rw [Nat.add_zero] at this
    rw [this]
    show (BitVec.ofNat 8 (udlOf udh (.septets q))).toNat = _
    simp; omega
  cases udh with
  | none =>
    show packedCanonical ((pre ++ udWire none (.septets q)).drop (pre.length + 1)) (octetAt _ _).toNat 0
    rw [h0, ← List.drop_drop, List.drop_left]
    have hq : udlOf none (.septets q) = q.length := by simp [udlOf, headerSize, ceilDiv]
    rw [hq]
    exact packedCanonical_pack7 q 0
  | some l =>
    have hfit := h.header l rfl
    have hu : (octetAt (pre ++ udWire (some l) (.septets q)) (pre.length + 1)).toNat = udhl l := by
      rw [octetAt_append, udWire]
      show (octetAt (headerWire l ++ payloadPart (some l) (.septets q)) 0).toNat = _
      rw [headerWire_eq]
      show (BitVec.ofNat 8 (udhl l)).toNat = _
      simp; omega
    show packedCanonical ((pre ++ udWire (some l) (.septets q)).drop (pre.length + 2 + (octetAt _ _).toNat))
      ((octetAt _ _).toNat - headerSeptets (octetAt _ _).toNat) (fillBits (octetAt _ _).toNat)
    rw [h0, hu]
    have hq : udlOf (some l) (.septets q) - headerSeptets (udhl l) = q.length := by
      simp only [udlOf, headerSize, headerSeptets, Nat.add_comm 1]; omega
    have hd : (pre ++ udWire (some l) (.septets q)).drop (pre.length + 2 + udhl l) = pack7 q (fillBits (udhl l)) := by
      rw [Nat.add_assoc, ← List.drop_drop, List.drop_left, udWire, show 2 + udhl l = (1 + udhl l) + 1 by omega,
        List.drop_succ_cons, ← headerWire_length]
      exact List.drop_left
    rw [hq, hd]
    exact packedCanonical_pack7 q _

end Sys2Proof.Laws
end

