-- ==== Sys2Proof/Laws/Messages.lean ====
section
/-! SUPPORT. SUBMIT and DELIVER octet strings: what the serialisers write, that the parser reads it back, and what the parser accepts.
The first octet's fields are read here once, for both kinds. -/

namespace Sys2Proof.Laws

open Sys2Proof Sys2Proof.Machine

/-! ### The first octet -/

/-- The fields of a SUBMIT first octet (R71). -/
theorem foSubmit_fields (rd srr udhi rp : Bool) (vpf : Nat) (hv : vpf < 4) :
    mtiOf (foSubmit rd vpf srr udhi rp) = 1 ∧ bitOf (foSubmit rd vpf srr udhi rp) 2 = rd ∧
    vpfBits (foSubmit rd vpf srr udhi rp) = vpf ∧ bitOf (foSubmit rd vpf srr udhi rp) 5 = srr ∧
    bitOf (foSubmit rd vpf srr udhi rp) 6 = udhi ∧ bitOf (foSubmit rd vpf srr udhi rp) 7 = rp := by
  revert rd srr udhi rp
  interval_cases vpf <;> decide

/-- The fields of a DELIVER first octet (R72). -/
theorem foDeliver_fields : ∀ mms lp x sri udhi rp : Bool,
    mtiOf (foDeliver mms lp x sri udhi rp) = 0 ∧ bitOf (foDeliver mms lp x sri udhi rp) 2 = mms ∧
    bitOf (foDeliver mms lp x sri udhi rp) 3 = lp ∧ bitOf (foDeliver mms lp x sri udhi rp) 4 = x ∧
    bitOf (foDeliver mms lp x sri udhi rp) 5 = sri ∧ bitOf (foDeliver mms lp x sri udhi rp) 6 = udhi ∧
    bitOf (foDeliver mms lp x sri udhi rp) 7 = rp := by
  decide

/-- A first octet with TP-MTI 01 is the one of its fields. -/
theorem foSubmit_of_fields : ∀ fo : Byte, mtiOf fo = 1 →
    foSubmit (bitOf fo 2) (vpfBits fo) (bitOf fo 5) (bitOf fo 6) (bitOf fo 7) = fo := by
  decide

/-- A first octet with TP-MTI 00 is the one of its fields. -/
theorem foDeliver_of_fields : ∀ fo : Byte, mtiOf fo = 0 →
    foDeliver (bitOf fo 2) (bitOf fo 3) (bitOf fo 4) (bitOf fo 5) (bitOf fo 6) (bitOf fo 7) = fo := by
  decide

theorem vpfOf_lt (v : VP) : vpfOf v < 4 := by cases v <;> simp [vpfOf]

theorem vpfBits_lt (fo : Byte) : vpfBits fo < 4 := Nat.mod_lt _ (by decide)

/-! ### The validity period -/

theorem octets7_length (e : Octets7) : (octets7 e).length = 7 := rfl

theorem vpOctets_length (v : VP) : (vpOctets v).length = vpLength (vpfOf v) := by cases v <;> rfl

theorem octets7At_append (pre rest : Octets) (e : Octets7) :
    octets7At (pre ++ (octets7 e ++ rest)) pre.length = e := by
  have h := fun i => octetAt_append pre (octets7 e ++ rest) i
  have h0 := h 0
  rw [Nat.add_zero] at h0
  simp only [octets7At, h0, h]
  rfl

theorem vpAt_append (pre rest : Octets) (v : VP) : vpAt (vpfOf v) (pre ++ (vpOctets v ++ rest)) pre.length = v := by
  cases v with
  | absent => rfl
  | relative b =>
    have := octetAt_append pre ([b] ++ rest) 0
    rw [Nat.add_zero] at this
    exact congrArg VP.relative this
  | enhanced e => exact congrArg VP.enhanced (octets7At_append pre rest e)
  | absolute e => exact congrArg VP.absolute (octets7At_append pre rest e)

theorem vpfOf_vpAt (vpf : Nat) (hv : vpf < 4) (o : Octets) (pos : Nat) : vpfOf (vpAt vpf o pos) = vpf := by
  interval_cases vpf <;> rfl

theorem octets7_octets7At (o : Octets) (pos : Nat) (h : pos + 7 ≤ o.length) : octets7 (octets7At o pos) = memRead o pos 7 := by
  rw [memRead_succ o pos 6 (by omega), memRead_succ o _ 5 (by omega), memRead_succ o _ 4 (by omega),
    memRead_succ o _ 3 (by omega), memRead_succ o _ 2 (by omega), memRead_succ o _ 1 (by omega),
    memRead_succ o _ 0 (by omega)]
  rfl

theorem vpOctets_vpAt (vpf : Nat) (hv : vpf < 4) (o : Octets) (pos : Nat) (h : pos + vpLength vpf ≤ o.length) :
    vpOctets (vpAt vpf o pos) = memRead o pos (vpLength vpf) := by
  interval_cases vpf
  · rfl
  · exact octets7_octets7At o pos h
  · have : pos + 1 ≤ o.length := h
    exact (memRead_succ o pos 0 (by omega)).symm
  · exact octets7_octets7At o pos h

/-- Where `ADDR_PARSE` ends (R139). -/
theorem addrParse_pos {o : Octets} {pos : Nat} {a : Address} {pos' : Nat} (h : addrParse o pos = .ok (a, pos')) :
    pos' = afterAddress o pos := by
  simp only [addrParse] at h
  split at h
  · cases h
  split at h
  · cases h
  split at h
  · cases h
  injection h with h
  simp only [Prod.mk.injEq] at h
  exact h.2.symm

/-! ### SUBMIT -/

/-- What `TPDU_SER_SUBMIT` writes before the user data (R74). -/
def submitHead (t : Submit) : Octets :=
  [foSubmit t.rd (vpfOf t.vp) t.srr t.udh.isSome t.rp, t.mr] ++ addrSer t.da ++ [t.pid, t.dcs] ++ vpOctets t.vp

theorem submitHead_length (t : Submit) : (submitHead t).length = 6 + t.da.val.length + vpLength (vpfOf t.vp) := by
  simp [submitHead, addrSer, vpOctets_length]; omega

theorem tpduSerSubmit_eq_ok {t : Submit} (h : UserDataOk t.dcs t.udh t.body) :
    tpduSerSubmit t = .ok (submitHead t ++ udWire t.udh t.body) := by
  rw [tpduSerSubmit, udBuild_eq_ok h]
  simp [bind, Except.bind, submitHead, udWire]

theorem tpduSerSubmit_ok_iff {t : Submit} {o : Octets} :
    tpduSerSubmit t = .ok o ↔ UserDataOk t.dcs t.udh t.body ∧ o = submitHead t ++ udWire t.udh t.body := by
  constructor
  · intro e
    cases hb : udBuild t.dcs t.udh t.body with
    | error k => rw [tpduSerSubmit, hb] at e; cases e
    | ok r =>
      have := (udBuild_ok_iff.1 hb).1
      rw [tpduSerSubmit_eq_ok this] at e
      injection e with e
      exact ⟨this, e.symm⟩
  · rintro ⟨h, rfl⟩
    exact tpduSerSubmit_eq_ok h

theorem tpduSerSubmit_error {t : Submit} {k : ErrorKind} (h : udBuild t.dcs t.udh t.body = .error k) :
    tpduSerSubmit t = .error k := by
  rw [tpduSerSubmit, h]; rfl

/-- `TPDU_PARSE` reads a serialised SUBMIT back (R198). -/
theorem parseSubmit_ser {t : Submit} (h : SubmitOk t) (h7 : bitOf t.da.toa 7 = true) :
    parseSubmit (submitHead t ++ udWire t.udh t.body) = .ok t := by
  obtain ⟨f1, f2, f3, f4, f5, f6⟩ := foSubmit_fields t.rd t.srr t.udh.isSome t.rp (vpfOf t.vp) (vpfOf_lt _)
  have h0 : octetAt (submitHead t ++ udWire t.udh t.body) 0 = foSubmit t.rd (vpfOf t.vp) t.srr t.udh.isSome t.rp := rfl
  have h1 : octetAt (submitHead t ++ udWire t.udh t.body) 1 = t.mr := rfl
  have ea : submitHead t ++ udWire t.udh t.body =
      [foSubmit t.rd (vpfOf t.vp) t.srr t.udh.isSome t.rp, t.mr] ++ addrSer t.da ++
        ([t.pid, t.dcs] ++ vpOctets t.vp ++ udWire t.udh t.body) := by simp [submitHead]
  have hp := addrParse_addrSer t.da [foSubmit t.rd (vpfOf t.vp) t.srr t.udh.isSome t.rp, t.mr]
    ([t.pid, t.dcs] ++ vpOctets t.vp ++ udWire t.udh t.body) h.address h7
  rw [← ea] at hp
  have hlen := submitHead_length t
  have hw : 1 ≤ (udWire t.udh t.body).length := by simp [udWire]
  have hl : (submitHead t ++ udWire t.udh t.body).length =
      6 + t.da.val.length + vpLength (vpfOf t.vp) + (udWire t.udh t.body).length := by
    rw [List.length_append, hlen]
  have epre : submitHead t ++ udWire t.udh t.body =
      ([foSubmit t.rd (vpfOf t.vp) t.srr t.udh.isSome t.rp, t.mr] ++ addrSer t.da) ++
        ([t.pid, t.dcs] ++ (vpOctets t.vp ++ udWire t.udh t.body)) := by simp [submitHead]
  have hpre : ([foSubmit t.rd (vpfOf t.vp) t.srr t.udh.isSome t.rp, t.mr] ++ addrSer t.da).length =
      2 + (2 + t.da.val.length) := by simp [addrSer]; omega
  have hpid : octetAt (submitHead t ++ udWire t.udh t.body) (2 + (2 + t.da.val.length)) = t.pid := by
    rw [epre, ← hpre]
    exact octetAt_append _ _ 0
  have hdcs : octetAt (submitHead t ++ udWire t.udh t.body) (2 + (2 + t.da.val.length) + 1) = t.dcs := by
    rw [epre, ← hpre]
    exact octetAt_append _ _ 1
  have evp : submitHead t ++ udWire t.udh t.body =
      ([foSubmit t.rd (vpfOf t.vp) t.srr t.udh.isSome t.rp, t.mr] ++ addrSer t.da ++ [t.pid, t.dcs]) ++
        (vpOctets t.vp ++ udWire t.udh t.body) := by simp [submitHead]
  have hvp : vpAt (vpfOf t.vp) (submitHead t ++ udWire t.udh t.body) (2 + (2 + t.da.val.length) + 2) = t.vp := by
    have := vpAt_append ([foSubmit t.rd (vpfOf t.vp) t.srr t.udh.isSome t.rp, t.mr] ++ addrSer t.da ++ [t.pid, t.dcs])
      (udWire t.udh t.body) t.vp
    rw [← evp, List.length_append, hpre] at this
    exact this
  have hud := udSplit_udWire h.userData (submitHead t)
  rw [hlen] at hud
  rw [parseSubmit]
  simp only [h0, h1, f2, f3, f4, f5, f6]
  rw [if_neg (by omega)]
  simp only [List.length_cons, List.length_nil, Nat.zero_add, Nat.reduceAdd] at hp
  simp only [hp, bind, Except.bind]
  rw [if_neg (by omega), if_neg (by omega), hdcs, hpid, hvp,
    show 2 + (2 + t.da.val.length) + 2 + vpLength (vpfOf t.vp) = 6 + t.da.val.length + vpLength (vpfOf t.vp) by omega, hud]

/-- What the SUBMIT branch of `TPDU_PARSE` accepts (R193, R199). -/
theorem parseSubmit_eq_ok {o : Octets} {t : Submit} (h : parseSubmit o = .ok t) (hm : mtiOf (octetAt o 0) = 1) :
    SubmitOk t ∧ bitOf t.da.toa 7 = true ∧ o.take (submitHead t).length = submitHead t ∧
    (submitHead t).length = afterAddress o 2 + 2 + vpLength (vpfBits (octetAt o 0)) ∧
    octetAt o (afterAddress o 2 + 1) = t.dcs ∧ bitOf (octetAt o 0) 6 = t.udh.isSome ∧
    udSplit t.dcs t.udh.isSome o (submitHead t).length = .ok (t.udh, t.body, o.length) := by
  rw [parseSubmit] at h
  simp only at h
  split at h
  · cases h
  next h2 =>
  simp only [bind, Except.bind] at h
  cases ha : addrParse o 2 with
  | error k => rw [ha] at h; cases h
  | ok r =>
    obtain ⟨da, pos⟩ := r
    rw [ha] at h
    simp only at h
    split at h
    · cases h
    next h3 =>
    split at h
    · cases h
    next h4 =>
    cases hu : udSplit (octetAt o (pos + 1)) (bitOf (octetAt o 0) 6) o (pos + 2 + vpLength (vpfBits (octetAt o 0))) with
    | error k => rw [hu] at h; cases h
    | ok x =>
      obtain ⟨udh, body, p⟩ := x
      rw [hu] at h
      injection h with h
      obtain ⟨u1, u2, u3, -, -, -, -⟩ := udSplit_eq_ok hu
      subst u1
      obtain ⟨a1, a2, a3, a4, a5⟩ := addrParse_eq_ok ha
      have hv := vpfBits_lt (octetAt o 0)
      have hlen : (submitHead t).length = pos + 2 + vpLength (vpfBits (octetAt o 0)) := by
        rw [submitHead_length, ← h]
        simp only [vpfOf_vpAt _ hv]
        omega
      have hda : t.da = da := by rw [← h]
      have hdcs : t.dcs = octetAt o (pos + 1) := by rw [← h]
      have hudh : t.udh = udh := by rw [← h]
      have hbody : t.body = body := by rw [← h]
      have hpos : afterAddress o 2 = pos := by
        exact (addrParse_pos ha).symm
      have hhead : submitHead t = o.take (pos + 2 + vpLength (vpfBits (octetAt o 0))) := by
        have hfo := foSubmit_of_fields _ hm
        rw [submitHead, ← h]
        simp only [vpfOf_vpAt _ hv, u2, hfo]
        rw [vpOctets_vpAt _ hv _ _ (by omega), ← a5]
        have e2 : [octetAt o 0, octetAt o 1] = memRead o 0 2 := by
          rw [memRead_succ o 0 1 (by omega), memRead_succ o _ 0 (by omega)]; rfl
        have e3 : [octetAt o pos, octetAt o (pos + 1)] = memRead o pos 2 := by
          rw [memRead_succ o pos 1 (by omega), memRead_succ o _ 0 (by omega)]; rfl
        rw [e2, e3]
        have join : ∀ i n m, memRead o i n ++ memRead o (i + n) m = memRead o i (n + m) := by
          intro i n m
          simp only [memRead, ← List.drop_drop]
          exact (List.take_add ..).symm
        have j1 := join 0 2 (2 + da.val.length)
        rw [Nat.zero_add] at j1
        rw [j1]
        have j2 := join 0 (2 + (2 + da.val.length)) 2
        rw [Nat.zero_add, show 2 + (2 + da.val.length) = pos by omega] at j2
        rw [show 2 + (2 + da.val.length) = pos by omega, j2]
        have j3 := join 0 (pos + 2) (vpLength (vpfBits (octetAt o 0)))
        rw [Nat.zero_add] at j3
        rw [j3]; rfl
      refine ⟨⟨hda ▸ a2, ?_⟩, hda ▸ a3, ?_, ?_, ?_, ?_, ?_⟩
      · rw [hdcs, hudh, hbody]; exact u3
      · rw [hlen]; exact hhead.symm
      · rw [hlen, hpos]
      · rw [hpos, hdcs]
      · rw [hudh, u2]
      · rw [hlen, hdcs, hudh, hbody, u2]; exact hu

/-! ### DELIVER -/

/-- What `TPDU_SER_DELIVER` writes before the user data (R76). -/
def deliverHead (t : Deliver) : Octets :=
  [foDeliver t.mms t.lp false t.sri t.udh.isSome t.rp] ++ addrSer t.oa ++ [t.pid, t.dcs] ++ octets7 t.scts

theorem deliverHead_length (t : Deliver) : (deliverHead t).length = 12 + t.oa.val.length := by
  simp [deliverHead, addrSer, octets7_length]; omega

theorem tpduSerDeliver_eq_ok {t : Deliver} (h : UserDataOk t.dcs t.udh t.body) :
    tpduSerDeliver t = .ok (deliverHead t ++ udWire t.udh t.body) := by
  rw [tpduSerDeliver, udBuild_eq_ok h]
  simp [bind, Except.bind, deliverHead, udWire]

theorem tpduSerDeliver_ok_iff {t : Deliver} {o : Octets} :
    tpduSerDeliver t = .ok o ↔ UserDataOk t.dcs t.udh t.body ∧ o = deliverHead t ++ udWire t.udh t.body := by
  constructor
  · intro e
    cases hb : udBuild t.dcs t.udh t.body with
    | error k => rw [tpduSerDeliver, hb] at e; cases e
    | ok r =>
      have := (udBuild_ok_iff.1 hb).1
      rw [tpduSerDeliver_eq_ok this] at e
      injection e with e
      exact ⟨this, e.symm⟩
  · rintro ⟨h, rfl⟩
    exact tpduSerDeliver_eq_ok h

theorem tpduSerDeliver_error {t : Deliver} {k : ErrorKind} (h : udBuild t.dcs t.udh t.body = .error k) :
    tpduSerDeliver t = .error k := by
  rw [tpduSerDeliver, h]; rfl

/-- The octets of a DELIVER after its first octet. -/
def deliverTail (t : Deliver) : Octets := addrSer t.oa ++ [t.pid, t.dcs] ++ octets7 t.scts ++ udWire t.udh t.body

/-- `TPDU_PARSE` reads a serialised DELIVER back, whatever bit 4 of its first octet is (R198, R72). -/
theorem parseDeliver_ser {t : Deliver} (h : DeliverOk t) (h7 : bitOf t.oa.toa 7 = true) (x : Bool) :
    parseDeliver (foDeliver t.mms t.lp x t.sri t.udh.isSome t.rp :: deliverTail t) = .ok t := by
  obtain ⟨f1, f2, f3, f4, f5, f6, f7⟩ := foDeliver_fields t.mms t.lp x t.sri t.udh.isSome t.rp
  generalize hfo : foDeliver t.mms t.lp x t.sri t.udh.isSome t.rp = fo at *
  have h0 : octetAt (fo :: deliverTail t) 0 = fo := rfl
  have ea : fo :: deliverTail t =
      [fo] ++ addrSer t.oa ++ ([t.pid, t.dcs] ++ octets7 t.scts ++ udWire t.udh t.body) := by simp [deliverTail]
  have hp := addrParse_addrSer t.oa [fo] ([t.pid, t.dcs] ++ octets7 t.scts ++ udWire t.udh t.body) h.address h7
  rw [← ea] at hp
  have hw : 1 ≤ (udWire t.udh t.body).length := by simp [udWire]
  have epre : fo :: deliverTail t = ([fo] ++ addrSer t.oa) ++
      ([t.pid, t.dcs] ++ (octets7 t.scts ++ udWire t.udh t.body)) := by simp [deliverTail]
  have hpre : ([fo] ++ addrSer t.oa).length = 1 + (2 + t.oa.val.length) := by simp [addrSer]; omega
  have hl : (fo :: deliverTail t).length = 1 + (2 + t.oa.val.length) + 2 + 7 + (udWire t.udh t.body).length := by
    rw [epre, List.length_append, hpre]
    simp [octets7_length]; omega
  have hpid : octetAt (fo :: deliverTail t) (1 + (2 + t.oa.val.length)) = t.pid := by
    rw [epre, ← hpre]
    exact octetAt_append _ _ 0
  have hdcs : octetAt (fo :: deliverTail t) (1 + (2 + t.oa.val.length) + 1) = t.dcs := by
    rw [epre, ← hpre]
    exact octetAt_append _ _ 1
  have esc : fo :: deliverTail t = ([fo] ++ addrSer t.oa ++ [t.pid, t.dcs]) ++
      (octets7 t.scts ++ udWire t.udh t.body) := by simp [deliverTail]
  have hsc : octets7At (fo :: deliverTail t) (1 + (2 + t.oa.val.length) + 2) = t.scts := by
    have := octets7At_append ([fo] ++ addrSer t.oa ++ [t.pid, t.dcs]) (udWire t.udh t.body) t.scts
    rw [← esc, List.length_append, hpre] at this
    exact this
  have eud : fo :: deliverTail t = ([fo] ++ addrSer t.oa ++ [t.pid, t.dcs] ++ octets7 t.scts) ++
      udWire t.udh t.body := by simp [deliverTail]
  have hud := udSplit_udWire h.userData ([fo] ++ addrSer t.oa ++ [t.pid, t.dcs] ++ octets7 t.scts)
  rw [← eud, show ([fo] ++ addrSer t.oa ++ [t.pid, t.dcs] ++ octets7 t.scts).length =
    1 + (2 + t.oa.val.length) + 2 + 7 by rw [List.length_append, List.length_append, hpre]; rfl] at hud
  rw [parseDeliver]
  simp only [h0, f2, f3, f5, f6, f7]
  simp only [List.length_cons, List.length_nil, Nat.zero_add] at hp
  simp only [hp, bind, Except.bind]
  rw [if_neg (by omega), if_neg (by omega), hdcs, hpid, hsc, hud]

theorem deliverHead_eq (t : Deliver) : deliverHead t ++ udWire t.udh t.body =
    foDeliver t.mms t.lp false t.sri t.udh.isSome t.rp :: deliverTail t := by simp [deliverHead, deliverTail]

/-- What the DELIVER branch of `TPDU_PARSE` accepts (R193, R199). -/
theorem parseDeliver_eq_ok {o : Octets} {t : Deliver} (h : parseDeliver o = .ok t) (hm : mtiOf (octetAt o 0) = 0) :
    DeliverOk t ∧ bitOf t.oa.toa 7 = true ∧ (deliverHead t).length = afterAddress o 1 + 9 ∧
    o.take (deliverHead t).length =
      foDeliver t.mms t.lp (bitOf (octetAt o 0) 4) t.sri t.udh.isSome t.rp :: (deliverHead t).tail ∧
    octetAt o (afterAddress o 1 + 1) = t.dcs ∧ bitOf (octetAt o 0) 6 = t.udh.isSome ∧
    udSplit t.dcs t.udh.isSome o (deliverHead t).length = .ok (t.udh, t.body, o.length) := by
  rw [parseDeliver] at h
  simp only [bind, Except.bind] at h
  cases ha : addrParse o 1 with
  | error k => rw [ha] at h; cases h
  | ok r =>
    obtain ⟨oa, pos⟩ := r
    rw [ha] at h
    simp only at h
    split at h
    · cases h
    next h3 =>
    split at h
    · cases h
    next h4 =>
    cases hu : udSplit (octetAt o (pos + 1)) (bitOf (octetAt o 0) 6) o (pos + 2 + 7) with
    | error k => rw [hu] at h; cases h
    | ok x =>
      obtain ⟨udh, body, p⟩ := x
      rw [hu] at h
      injection h with h
      obtain ⟨u1, u2, u3, -, -, -, -⟩ := udSplit_eq_ok hu
      subst u1
      obtain ⟨a1, a2, a3, a4, a5⟩ := addrParse_eq_ok ha
      have hoa : t.oa = oa := by rw [← h]
      have hdcs : t.dcs = octetAt o (pos + 1) := by rw [← h]
      have hudh : t.udh = udh := by rw [← h]
      have hbody : t.body = body := by rw [← h]
      have hlen : (deliverHead t).length = pos + 2 + 7 := by rw [deliverHead_length, hoa]; omega
      have hpos : afterAddress o 1 = pos := by
        exact (addrParse_pos ha).symm
      have hhead : foDeliver t.mms t.lp (bitOf (octetAt o 0) 4) t.sri t.udh.isSome t.rp :: (deliverHead t).tail =
          o.take (pos + 2 + 7) := by
        have hfo := foDeliver_of_fields _ hm
        have htail : (deliverHead t).tail = addrSer t.oa ++ [t.pid, t.dcs] ++ octets7 t.scts := by simp [deliverHead]
        rw [htail, ← h]
        simp only [u2, hfo]
        rw [octets7_octets7At _ _ (by omega), ← a5]
        have e1 : octetAt o 0 :: (memRead o 1 (2 + oa.val.length) ++ [octetAt o pos, octetAt o (pos + 1)] ++
            memRead o (pos + 2) 7) = memRead o 0 1 ++ memRead o 1 (2 + oa.val.length) ++
              memRead o pos 2 ++ memRead o (pos + 2) 7 := by
          rw [memRead_succ o 0 0 (by omega), memRead_succ o pos 1 (by omega), memRead_succ o (pos + 1) 0 (by omega)]
          simp [memRead]
        rw [e1]
        have join : ∀ i n m, memRead o i n ++ memRead o (i + n) m = memRead o i (n + m) := by
          intro i n m
          simp only [memRead, ← List.drop_drop]
          exact (List.take_add ..).symm
        have j1 := join 0 1 (2 + oa.val.length)
        rw [Nat.zero_add] at j1
        rw [j1]
        have j2 := join 0 (1 + (2 + oa.val.length)) 2
        rw [Nat.zero_add, show 1 + (2 + oa.val.length) = pos by omega] at j2
        rw [show 1 + (2 + oa.val.length) = pos by omega, j2]
        have j3 := join 0 (pos + 2) 7
        rw [Nat.zero_add] at j3
        rw [j3]; rfl
      refine ⟨⟨hoa ▸ a2, ?_⟩, hoa ▸ a3, ?_, ?_, ?_, ?_, ?_⟩
      · rw [hdcs, hudh, hbody]; exact u3
      · rw [hlen, hpos]
      · rw [hlen]; exact hhead.symm
      · rw [hpos, hdcs]
      · rw [hudh, u2]
      · rw [hlen, hdcs, hudh, hbody, u2]; exact hu

/-! ### Both -/

/-- `TPDU_PARSE` by TP-MTI (R193). -/
theorem tpduRead_cons (fo : Byte) (rest : Octets) : tpduRead (fo :: rest) =
    if mtiOf fo = 0 then (parseDeliver (fo :: rest)).map .deliver
    else if mtiOf fo = 1 then (parseSubmit (fo :: rest)).map .submit else .error .badPdu := by
  rw [tpduRead, if_neg (by simp)]
  show (match mtiOf fo with | 0 => _ | 1 => _ | _ => _) = _
  rcases h : mtiOf fo with _ | _ | n
  · rfl
  · rfl
  · rw [if_neg (by omega), if_neg (by omega)]; rfl

theorem parseStep_reply {fo : Byte} (h : mtiOf fo ≠ 2) (rest : Octets) (s : State) :
    parseStep (fo :: rest) s = reply 0x49 ((tpduRead (fo :: rest)).map .tpdu) s := by
  have : isStatusReport (fo :: rest) = false := by
    show (true && mtiOf fo == 2) = false
    simpa using h
  rw [parseStep, this]; rfl

end Sys2Proof.Laws
end

