-- ==== Sys2Proof/Laws/PerInstr.lean ====
section
/-! SUPPORT. Statements for all instructions, made one constructor at a time. -/

namespace Sys2Proof.Laws

open Sys2Proof Sys2Proof.Machine

/-- Every instruction's octets open with a code octet and a format octet for which the decoder has a reader of its own
format: no constructor of the table is without an encoding that the decoder knows. -/
def Opening.Statement (i : Instr) : Prop :=
  ∃ code fmt operands, encode i = code :: fmt :: operands ∧ (operandReader code fmt).isSome = true

/-- Every septet, as an octet, has a reader. -/
theorem septetReader_isSome (s : Septet) : (septetReader (BitVec.ofNat 8 s.toNat)).isSome = true := by
  have h : bitOf (BitVec.ofNat 8 s.toNat) 7 = false := by
    simp only [bitOf, BitVec.getLsbD_ofNat]
    rw [Nat.testBit_lt_two_pow (show s.toNat < 2 ^ 7 from s.isLt)]
    rfl
  simp only [septetReader, h, Bool.false_eq_true, if_false, Option.isSome_some]

theorem Opening.gsm7Enc (t : Text) : Opening.Statement (.gsm7Enc t) :=
  ⟨_, _, _, rfl, rfl⟩

theorem Opening.gsm7Dec (q : Septets) : Opening.Statement (.gsm7Dec q) :=
  ⟨_, _, _, rfl, rfl⟩

theorem Opening.pack7 (q : Septets) (k : Fin 7) : Opening.Statement (.pack7 q k) :=
  ⟨_, _, _, rfl, rfl⟩

theorem Opening.unpack7 (o : Octets) (l : Nat) (k : Fin 7) : Opening.Statement (.unpack7 o l k) :=
  ⟨_, _, _, rfl, rfl⟩

theorem Opening.ucs2Enc (t : Text) : Opening.Statement (.ucs2Enc t) :=
  ⟨_, _, _, rfl, rfl⟩

theorem Opening.ucs2Dec (o : Octets) : Opening.Statement (.ucs2Dec o) :=
  ⟨_, _, _, rfl, rfl⟩

theorem Opening.oct8 (o : Octets) : Opening.Statement (.oct8 o) :=
  ⟨_, _, _, rfl, rfl⟩

theorem Opening.addrEnc (a : Ascii) : Opening.Statement (.addrEnc a) :=
  ⟨_, _, _, rfl, rfl⟩

theorem Opening.addrEncAlnum (t : Text) : Opening.Statement (.addrEncAlnum t) :=
  ⟨_, _, _, rfl, rfl⟩

theorem Opening.addrDec (a : Address) : Opening.Statement (.addrDec a) :=
  ⟨_, _, _, rfl, rfl⟩

theorem Opening.addrSer (a : Address) : Opening.Statement (.addrSer a) :=
  ⟨_, _, _, rfl, rfl⟩

theorem Opening.addrParse (o : Octets) (pos : Nat) : Opening.Statement (.addrParse o pos) :=
  ⟨_, _, _, rfl, rfl⟩

theorem Opening.udhEnc (h : List IE) : Opening.Statement (.udhEnc h) :=
  ⟨_, _, _, rfl, rfl⟩

theorem Opening.udhDec (o : Octets) (pos limit : Nat) : Opening.Statement (.udhDec o pos limit) :=
  ⟨_, _, _, rfl, rfl⟩

theorem Opening.udhConcat8 (ref total seq : Nat) : Opening.Statement (.udhConcat8 ref total seq) :=
  ⟨_, _, _, rfl, rfl⟩

theorem Opening.udhConcat16 (ref total seq : Nat) : Opening.Statement (.udhConcat16 ref total seq) :=
  ⟨_, _, _, rfl, rfl⟩

theorem Opening.udhGetconcat (h : List IE) : Opening.Statement (.udhGetconcat h) :=
  ⟨_, _, _, rfl, rfl⟩

theorem Opening.dcsMk (a : Alphabet) (flash : Bool) : Opening.Statement (.dcsMk a flash) :=
  ⟨_, _, _, rfl, rfl⟩

theorem Opening.dcsAlpha (d : Byte) : Opening.Statement (.dcsAlpha d) :=
  ⟨_, _, _, rfl, rfl⟩

theorem Opening.dcsFlash (d : Byte) : Opening.Statement (.dcsFlash d) :=
  ⟨_, _, _, rfl, rfl⟩

theorem Opening.sctsDec (o : Octets7) : Opening.Statement (.sctsDec o) :=
  ⟨_, _, _, rfl, rfl⟩

theorem Opening.sctsEnc (ts : Timestamp) : Opening.Statement (.sctsEnc ts) :=
  ⟨_, _, _, rfl, rfl⟩

theorem Opening.udBuild (dcs : Byte) (udh : Option (List IE)) (body : Body) : Opening.Statement (.udBuild dcs udh body) :=
  ⟨_, _, _, rfl, rfl⟩

theorem Opening.udSplit (dcs : Byte) (udhi : Bool) (o : Octets) (pos : Nat) : Opening.Statement (.udSplit dcs udhi o pos) :=
  ⟨_, _, _, rfl, rfl⟩

theorem Opening.tpduSerSubmit (t : Submit) : Opening.Statement (.tpduSerSubmit t) :=
  ⟨_, _, _, rfl, rfl⟩

theorem Opening.tpduSerDeliver (t : Deliver) : Opening.Statement (.tpduSerDeliver t) :=
  ⟨_, _, _, rfl, rfl⟩

theorem Opening.tpduParse (o : Octets) : Opening.Statement (.tpduParse o) :=
  ⟨_, _, _, rfl, rfl⟩

theorem Opening.frameEnc (smsc : Option Smsc) (tpdu : Octets) : Opening.Statement (.frameEnc smsc tpdu) :=
  ⟨_, _, _, rfl, rfl⟩

theorem Opening.frameDec (hex : Ascii) : Opening.Statement (.frameDec hex) :=
  ⟨_, _, _, rfl, rfl⟩

theorem Opening.segment (p : Payload) (dest : Ascii) : Opening.Statement (.segment p dest) :=
  ⟨_, _, _, rfl, rfl⟩

theorem Opening.collect (t : Deliver) : Opening.Statement (.collect t) :=
  ⟨_, _, _, rfl, rfl⟩

theorem Opening.rsmCfg (d : Option Nat) : Opening.Statement (.rsmCfg d) :=
  ⟨_, _, _, rfl, rfl⟩

theorem Opening.lnParse (l : Line) : Opening.Statement (.lnParse l) :=
  ⟨_, _, _, rfl, rfl⟩

theorem Opening.lnClassify (l : Line) (c : Ascii) : Opening.Statement (.lnClassify l c) :=
  ⟨_, _, _, rfl, rfl⟩

theorem Opening.send (text : Ascii) : Opening.Statement (.send text) :=
  ⟨_, _, _, rfl, rfl⟩

theorem Opening.sendExpect (text sub : Ascii) : Opening.Statement (.sendExpect text sub) :=
  ⟨_, _, _, rfl, rfl⟩

theorem Opening.simpleQuery (text : Ascii) : Opening.Statement (.simpleQuery text) :=
  ⟨_, _, _, rfl, rfl⟩

theorem Opening.close : Opening.Statement .close :=
  ⟨_, _, _, rfl, rfl⟩

theorem Opening.isOpen : Opening.Statement .isOpen :=
  ⟨_, _, _, rfl, rfl⟩

theorem Opening.lnCfg (v : LineConfig) : Opening.Statement (.lnCfg v) :=
  ⟨_, _, _, rfl, rfl⟩

theorem Opening.expire : Opening.Statement .expire :=
  ⟨_, _, _, rfl, rfl⟩

theorem Opening.lnRx (b : Byte) : Opening.Statement (.lnRx b) :=
  ⟨_, _, _, rfl, rfl⟩

theorem Opening.lnTimeout : Opening.Statement .lnTimeout :=
  ⟨_, _, _, rfl, rfl⟩

theorem Opening.lnEos : Opening.Statement .lnEos :=
  ⟨_, _, _, rfl, rfl⟩

theorem Opening.foSubmitVpAbsent (rp udhi srr rd : Bool) (rest : Octets) : Opening.Statement (.foSubmitVpAbsent rp udhi srr rd rest) :=
  ⟨_, _, _, rfl, rfl⟩

theorem Opening.foSubmitVpRelative (rp udhi srr rd : Bool) (rest : Octets) : Opening.Statement (.foSubmitVpRelative rp udhi srr rd rest) :=
  ⟨_, _, _, rfl, rfl⟩

theorem Opening.foSubmitVpEnhanced (rp udhi srr rd : Bool) (rest : Octets) : Opening.Statement (.foSubmitVpEnhanced rp udhi srr rd rest) :=
  ⟨_, _, _, rfl, rfl⟩

theorem Opening.foSubmitVpAbsolute (rp udhi srr rd : Bool) (rest : Octets) : Opening.Statement (.foSubmitVpAbsolute rp udhi srr rd rest) :=
  ⟨_, _, _, rfl, rfl⟩

theorem Opening.foDeliver (rp udhi sri x lp mms : Bool) (rest : Octets) : Opening.Statement (.foDeliver rp udhi sri x lp mms rest) :=
  ⟨_, _, _, rfl, rfl⟩

theorem Opening.foStatusReport (x : BitVec 6) (rest : Octets) : Opening.Statement (.foStatusReport x rest) :=
  ⟨_, _, _, rfl, rfl⟩

theorem Opening.foReservedMti (x : BitVec 6) (rest : Octets) : Opening.Statement (.foReservedMti x rest) :=
  ⟨_, _, _, rfl, rfl⟩

theorem Opening.dcsGsm7 (hi : BitVec 3) (flash : Bool) (lo : BitVec 2) (udhi : Bool) (ud : Octets) : Opening.Statement (.dcsGsm7 hi flash lo udhi ud) :=
  ⟨_, _, _, rfl, rfl⟩

theorem Opening.dcs8bit (hi : BitVec 3) (flash : Bool) (lo : BitVec 2) (udhi : Bool) (ud : Octets) : Opening.Statement (.dcs8bit hi flash lo udhi ud) :=
  ⟨_, _, _, rfl, rfl⟩

theorem Opening.dcsUcs2 (hi : BitVec 3) (flash : Bool) (lo : BitVec 2) (udhi : Bool) (ud : Octets) : Opening.Statement (.dcsUcs2 hi flash lo udhi ud) :=
  ⟨_, _, _, rfl, rfl⟩

theorem Opening.dcsReserved (hi : BitVec 3) (flash : Bool) (lo : BitVec 2) (udhi : Bool) (ud : Octets) : Opening.Statement (.dcsReserved hi flash lo udhi ud) :=
  ⟨_, _, _, rfl, rfl⟩

theorem Opening.toa (ton : BitVec 3) (npi : BitVec 4) (len : Byte) (val : Octets) : Opening.Statement (.toa ton npi len val) :=
  ⟨_, _, _, rfl, rfl⟩

theorem Opening.toaInternational (len : Byte) (val : Octets) : Opening.Statement (.toaInternational len val) :=
  ⟨_, _, _, rfl, rfl⟩

theorem Opening.toaUnknown (len : Byte) (val : Octets) : Opening.Statement (.toaUnknown len val) :=
  ⟨_, _, _, rfl, rfl⟩

theorem Opening.toaAlphanumeric (len : Byte) (val : Octets) : Opening.Statement (.toaAlphanumeric len val) :=
  ⟨_, _, _, rfl, rfl⟩

theorem Opening.toaBit7Clear (x : BitVec 7) (len : Byte) (val : Octets) : Opening.Statement (.toaBit7Clear x len val) :=
  ⟨_, _, _, rfl, rfl⟩

theorem Opening.ieiConcat8 (ied : Octets) : Opening.Statement (.ieiConcat8 ied) :=
  ⟨_, _, _, rfl, rfl⟩

theorem Opening.ieiConcat16 (ied : Octets) : Opening.Statement (.ieiConcat16 ied) :=
  ⟨_, _, _, rfl, rfl⟩

theorem Opening.ieiOther (iei : Byte) (ied : Octets) : Opening.Statement (.ieiOther iei ied) :=
  ⟨_, _, _, rfl, rfl⟩

theorem Opening.smscNone (rest : Octets) : Opening.Statement (.smscNone rest) :=
  ⟨_, _, _, rfl, rfl⟩

theorem Opening.smscPresent (l : Byte) (rest : Octets) : Opening.Statement (.smscPresent l rest) :=
  ⟨_, _, _, rfl, rfl⟩

theorem Opening.gsm7Escape (rest : Septets) : Opening.Statement (.gsm7Escape rest) :=
  ⟨_, _, _, rfl, rfl⟩

theorem Opening.gsm7Default (s : Septet) (rest : Septets) : Opening.Statement (.gsm7Default s rest) :=
  ⟨_, 6, _, rfl, septetReader_isSome s⟩

theorem Opening.frameCommit (hex : Ascii) : Opening.Statement (.frameCommit hex) :=
  ⟨_, _, _, rfl, rfl⟩

theorem Opening.frameAbort (hex : Ascii) : Opening.Statement (.frameAbort hex) :=
  ⟨_, _, _, rfl, rfl⟩

theorem Opening.lineCr : Opening.Statement .lineCr :=
  ⟨_, _, _, rfl, rfl⟩

theorem Opening.lineLf : Opening.Statement .lineLf :=
  ⟨_, _, _, rfl, rfl⟩

end Sys2Proof.Laws
end

