-- ==== Sys2Proof/Laws/Ports.lean ====
section
/-! SUPPORT. What the shared operations over the ports can do: the answer of a pure operation, and what two answers of one
instruction have to do with each other. -/

namespace Sys2Proof.Laws

open Sys2Proof Sys2Proof.Machine

/-- A pure operation answers its value or its error and changes nothing else. -/
theorem reply_eq (op : Byte) (r : Answer Value) (s : State) :
    reply op r s = .next { s with out := s.out ++ [.result op (match r with | .ok v => .ok v | .error k => .err k)] } := by
  cases r <;> rfl

/-- An operation that answers through `reply` answers `.ok v` exactly where its function does. -/
theorem replies_ok_iff {i : Instr} {s : State} {op : Byte} {r : Answer Value} (h : exec i s = reply op r s) (v : Value) :
    Replies i s op (.ok v) ↔ r = .ok v := by
  rw [Replies, h]
  cases r <;> simp [reply, State.answer, State.raise, State.emit]

/-- An operation that answers through `reply` answers `.err k` exactly where its function does. -/
theorem replies_err_iff {i : Instr} {s : State} {op : Byte} {r : Answer Value} (h : exec i s = reply op r s)
    (k : ErrorKind) : Replies i s op (.err k) ↔ r = .error k := by
  rw [Replies, h]
  cases r <;> simp [reply, State.answer, State.raise, State.emit]

/-- A value passed through an injective constructor of `Value`. -/
theorem map_eq_ok_iff {r : Answer α} {f : α → Value} (hf : Function.Injective f) (a : α) :
    r.map f = .ok (f a) ↔ r = .ok a := by
  cases r with
  | error e => simp [Except.map]
  | ok b => simp [Except.map, hf.eq_iff]

theorem map_eq_error_iff {r : Answer α} {f : α → β} (k : ErrorKind) : r.map f = .error k ↔ r = .error k := by
  cases r <;> simp [Except.map]

/-- Where an operation's function answers `a`, the operation answers the value made of it. -/
theorem replies_of_ok {i : Instr} {s : State} {op : Byte} {r : Answer α} {f : α → Value}
    (h : exec i s = reply op (r.map f) s) (a : α) (hr : r = .ok a) : Replies i s op (.ok (f a)) := by
  rw [Replies, h, hr]; rfl

/-- Where an operation's function raises, the operation raises. -/
theorem replies_of_error {i : Instr} {s : State} {op : Byte} {r : Answer α} {f : α → Value}
    (h : exec i s = reply op (r.map f) s) (k : ErrorKind) (hr : r = .error k) : Replies i s op (.err k) := by
  rw [Replies, h, hr]; rfl

/-- An operation that answers a value has a function that answers what the value is made of. -/
theorem ok_of_replies {i : Instr} {s : State} {op : Byte} {r : Answer α} {f : α → Value}
    (h : exec i s = reply op (r.map f) s) (v : Value) (hr : Replies i s op (.ok v)) : ∃ a, r = .ok a ∧ v = f a := by
  rw [replies_ok_iff h] at hr
  cases r with
  | error => cases hr
  | ok a => exact ⟨a, rfl, by injection hr with hr; exact hr.symm⟩

/-- An operation that raises has a function that raises. -/
theorem error_of_replies {i : Instr} {s : State} {op : Byte} {r : Answer α} {f : α → Value}
    (h : exec i s = reply op (r.map f) s) (k : ErrorKind) (hr : Replies i s op (.err k)) : r = .error k := by
  rw [replies_err_iff h] at hr
  exact (map_eq_error_iff k).1 hr

end Sys2Proof.Laws
end

