-- ==== Sys2Proof/Laws/Segments.lean ====
section
/-! SUPPORT. The segmenter: the chunks of a payload join to the payload, each within the capacity and none empty, and the records made of them are well-formed. -/

namespace Sys2Proof.Laws

open Sys2Proof Sys2Proof.Machine

section
variable {α : Type} {cap : Nat} {cut : List α → Nat}

/-- Greedy chunks join to the whole (R225). -/
theorem chunks_flatten (hcut : ∀ l, 1 ≤ cut l) (fuel : Nat) (l : List α) (h : l.length ≤ fuel) :
    (chunks cap cut fuel l).flatten = l := by
  induction fuel generalizing l with
  | zero => cases l with
    | nil => rfl
    | cons => simp at h
  | succ n ih =>
    cases l with
    | nil => rfl
    | cons u r =>
      rw [chunks]
      split
      · simp
      · rw [List.flatten_cons, ih _ (by
          have := hcut (u :: r)
          rw [List.length_drop]
          simp only [List.length_cons] at h ⊢
          omega), List.take_append_drop]

/-- Every chunk is not empty and within the capacity; every chunk but the last is as long as the cut says, of a rest
longer than the capacity (R225). -/
theorem chunks_size (hcut : ∀ l, 1 ≤ cut l ∧ cut l ≤ cap) (fuel : Nat) (l : List α) :
    (∀ c ∈ chunks cap cut fuel l, 1 ≤ c.length ∧ c.length ≤ cap) ∧
    (∀ c ∈ (chunks cap cut fuel l).dropLast, ∃ pre rest, l = pre ++ rest ∧ cap < rest.length ∧ c = rest.take (cut rest)) := by
  induction fuel generalizing l with
  | zero => cases l <;> simp [chunks]
  | succ n ih =>
    cases l with
    | nil => simp [chunks]
    | cons u r =>
      rw [chunks]
      split
      · rename_i hl
        constructor
        · intro c hc
          rw [List.mem_singleton.1 hc]
          exact ⟨by simp, hl⟩
        · intro c hc; simp at hc
      · rename_i hl
        have hc1 := hcut (u :: r)
        obtain ⟨i1, i2⟩ := ih ((u :: r).drop (cut (u :: r)))
        constructor
        · intro c hc
          rcases List.mem_cons.1 hc with rfl | hc
          · rw [List.length_take]
            omega
          · exact i1 c hc
        · intro c hc
          cases hcs : chunks cap cut n ((u :: r).drop (cut (u :: r))) with
          | nil => rw [hcs] at hc; simp at hc
          | cons d ds =>
            rw [hcs, List.dropLast_cons_cons] at hc
            rcases List.mem_cons.1 hc with rfl | hc
            · exact ⟨[], u :: r, rfl, by omega, rfl⟩
            · rw [hcs] at i2
              obtain ⟨pre, rest, he, hr⟩ := i2 c hc
              exact ⟨(u :: r).take (cut (u :: r)) ++ pre, rest, by rw [List.append_assoc, ← he, List.take_append_drop], hr⟩

/-- Where every cut of an encoding of a text falls between two characters, every chunk encodes a text, and the texts join
to the whole (R228). -/
theorem chunks_texts (E : Text → List α → Prop)
    (hsplit : ∀ t l, E t l → cap < l.length →
      ∃ t₁ t₂, t = t₁ ++ t₂ ∧ E t₁ (l.take (cut l)) ∧ E t₂ (l.drop (cut l)))
    (hempty : ∀ t, E t [] → t = []) (hcut : ∀ l, 1 ≤ cut l) (fuel : Nat) (t : Text) (l : List α) (h : l.length ≤ fuel)
    (he : E t l) : ∃ texts : List Text, texts.flatten = t ∧
      List.Forall₂ (fun c x => E x c) (chunks cap cut fuel l) texts := by
  induction fuel generalizing t l with
  | zero =>
    have : l = [] := List.length_eq_zero_iff.1 (by omega)
    subst this
    exact ⟨[], by rw [hempty t he]; rfl, .nil⟩
  | succ n ih =>
    cases l with
    | nil => exact ⟨[], by rw [hempty t he]; rfl, .nil⟩
    | cons u r =>
      rw [chunks]
      split
      · exact ⟨[t], by simp, .cons he .nil⟩
      · rename_i hl
        obtain ⟨t₁, t₂, rfl, h1, h2⟩ := hsplit t _ he (by omega)
        obtain ⟨texts, hj, hf⟩ := ih t₂ _ (by
          have := hcut (u :: r)
          rw [List.length_drop]
          simp only [List.length_cons] at h ⊢
          omega) h2
        exact ⟨t₁ :: texts, by rw [List.flatten_cons, hj], .cons h1 hf⟩

/-- A payload above the capacity has at least two chunks. -/
theorem two_le_chunks (hcut : ∀ l, 1 ≤ cut l ∧ cut l ≤ cap) (l : List α) (h : cap < l.length) :
    2 ≤ (chunks cap cut l.length l).length := by
  have hj := chunks_flatten (cap := cap) (fun l => (hcut l).1) l.length l le_rfl
  obtain ⟨hs, -⟩ := chunks_size hcut l.length l
  rcases hc : chunks cap cut l.length l with _ | ⟨c, _ | ⟨d, ds⟩⟩
  · rw [hc] at hj; simp only [List.flatten_nil] at hj; rw [← hj] at h; simp at h
  · rw [hc] at hj hs
    simp only [List.flatten_cons, List.flatten_nil, List.append_nil] at hj
    have := (hs c List.mem_cons_self).2
    rw [hj] at this; omega
  · simp

/-- The whole of a payload within the capacity is one chunk; an empty payload has none. -/
theorem chunks_one (l : List α) (hn : l ≠ []) (h : l.length ≤ cap) : chunks cap cut l.length l = [l] := by
  cases l with
  | nil => exact absurd rfl hn
  | cons u r => rw [List.length_cons, chunks, if_pos h]

end

theorem cutSeptets_range (q : Septets) : 1 ≤ cutSeptets q ∧ cutSeptets q ≤ Config.cap7Seg := by
  unfold cutSeptets; split <;> decide

theorem cutUcs2_range (o : Octets) : 1 ≤ cutUcs2 o ∧ cutUcs2 o ≤ Config.cap8Seg := by
  unfold cutUcs2
  simp only
  split <;> decide

theorem cutOctets_range (a : Alphabet) (o : Octets) :
    1 ≤ (if a = .ucs2 then cutUcs2 else fun _ => Config.cap8Seg) o ∧
    (if a = .ucs2 then cutUcs2 else fun _ => Config.cap8Seg) o ≤ Config.cap8Seg := by
  split
  · exact cutUcs2_range o
  · exact ⟨show 1 ≤ Config.cap8Seg by decide, le_rfl⟩

/-- A GSM-7 encoding may be cut after any septet but the escape (R225). -/
theorem gsm7Enc_cut (t : Text) (q : Septets) (h : gsm7Enc t = .ok q) (n : Nat) (hn : n ≤ q.length)
    (he : ∀ m, n = m + 1 → q[m]? ≠ some esc) :
    ∃ t₁ t₂, t = t₁ ++ t₂ ∧ gsm7Enc t₁ = .ok (q.take n) ∧ gsm7Enc t₂ = .ok (q.drop n) := by
  induction t generalizing q n with
  | nil =>
    injection h with h
    subst h
    exact ⟨[], [], rfl, by simp [gsm7Enc], by simp [gsm7Enc]⟩
  | cons c r ih =>
    cases n with
    | zero => exact ⟨[], c :: r, rfl, rfl, h⟩
    | succ n =>
      obtain ⟨a, b, ha, hb, rfl⟩ := (gsm7Enc_cons_eq_ok_iff c r q).1 h
      rcases (gsm7EncChar_eq_ok_iff c a).1 ha with ⟨x, rfl, hx, -⟩ | ⟨x, rfl, hx⟩
      · obtain ⟨t₁, t₂, rfl, h1, h2⟩ := ih b hb n (by simpa using hn) (fun m hm => by
          subst hm; simpa using he (m + 1) rfl)
        exact ⟨c :: t₁, t₂, rfl, (gsm7Enc_cons_eq_ok_iff _ _ _).2 ⟨_, _, ha, h1, rfl⟩, h2⟩
      · cases n with
        | zero => exact absurd rfl (he 0 rfl)
        | succ n =>
          obtain ⟨t₁, t₂, rfl, h1, h2⟩ := ih b hb n (by simpa using hn) (fun m hm => by
            subst hm; simpa using he (m + 2) rfl)
          exact ⟨c :: t₁, t₂, rfl, (gsm7Enc_cons_eq_ok_iff _ _ _).2 ⟨_, _, ha, h1, rfl⟩, h2⟩

theorem charAt_extTable_esc : charAt extTable esc = none := by decide

/-- No escape follows an escape in a GSM-7 encoding. -/
theorem gsm7Enc_no_double (t : Text) (q : Septets) (h : gsm7Enc t = .ok q) (m : Nat) :
    ¬ (q[m]? = some esc ∧ q[m + 1]? = some esc) := by
  induction t generalizing q m with
  | nil => injection h with h; subst h; simp
  | cons c r ih =>
    obtain ⟨a, b, ha, hb, rfl⟩ := (gsm7Enc_cons_eq_ok_iff c r q).1 h
    rcases (gsm7EncChar_eq_ok_iff c a).1 ha with ⟨x, rfl, hx, -⟩ | ⟨x, rfl, hx⟩
    · cases m with
      | zero => rintro ⟨h0, -⟩; exact hx (by simpa using h0)
      | succ m => simpa using ih b hb m
    · have hx' : x ≠ esc := by rintro rfl; rw [charAt_extTable_esc] at hx; cases hx
      cases m with
      | zero => rintro ⟨-, h1⟩; exact hx' (by simpa using h1)
      | succ m =>
        cases m with
        | zero => rintro ⟨h1, -⟩; exact hx' (by simpa using h1)
        | succ m => simpa using ih b hb m

/-- A GSM-7 chunk ends between two characters (R225). -/
theorem gsm7Enc_cutSeptets (t : Text) (q : Septets) (h : gsm7Enc t = .ok q) (hl : Config.cap7Seg < q.length) :
    ∃ t₁ t₂, t = t₁ ++ t₂ ∧ gsm7Enc t₁ = .ok (q.take (cutSeptets q)) ∧ gsm7Enc t₂ = .ok (q.drop (cutSeptets q)) := by
  refine gsm7Enc_cut t q h _ ((cutSeptets_range q).2.trans hl.le) fun m hm he => ?_
  unfold cutSeptets at hm
  split at hm
  · rename_i hc
    have hm : m = 151 := by simp only [Config.cap7Seg] at hm; omega
    subst hm
    exact gsm7Enc_no_double t q h 151 ⟨he, hc⟩
  · rename_i hc
    have hm : m = 152 := by simp only [Config.cap7Seg] at hm; omega
    subst hm
    exact hc he

/-- The octets of a character, and which of its code units has a high octet of a high surrogate (R112). -/
theorem ucs2_char (c : Char) :
    (∃ a b, (unitsOf c).flatMap unitOctets = [a, b] ∧ ¬ (0xD8 ≤ a.toNat ∧ a.toNat ≤ 0xDB)) ∨
    ∃ a b d e, (unitsOf c).flatMap unitOctets = [a, b, d, e] ∧ (0xD8 ≤ a.toNat ∧ a.toNat ≤ 0xDB) ∧
      ¬ (0xD8 ≤ d.toNat ∧ d.toNat ≤ 0xDB) := by
  have hr := char_range c
  by_cases h : c.toNat < 0x10000
  · rw [(unitsOf_small h).1]
    refine .inl ⟨_, _, rfl, ?_⟩
    rw [BitVec.toNat_ofNat]
    omega
  · obtain ⟨u, v, hu, h1, h2, -⟩ := unitsOf_large h
    simp only [isHigh, isLow, Bool.and_eq_true, decide_eq_true_eq] at h1 h2
    rw [hu]
    refine .inr ⟨_, _, _, _, rfl, ?_, ?_⟩ <;> rw [BitVec.toNat_ofNat] <;> omega

theorem ucs2Enc_cons (c : Char) (t : Text) : ucs2Enc (c :: t) = (unitsOf c).flatMap unitOctets ++ ucs2Enc t := by
  simp [ucs2Enc]

/-- A UCS-2 encoding may be cut after any code unit but a high surrogate (R225). -/
theorem ucs2Enc_cut (t : Text) (n : Nat) (hn : 2 * n ≤ (ucs2Enc t).length)
    (he : ∀ m, n = m + 1 → ¬ (0xD8 ≤ (octetAt (ucs2Enc t) (2 * m)).toNat ∧ (octetAt (ucs2Enc t) (2 * m)).toNat ≤ 0xDB)) :
    ∃ t₁ t₂, t = t₁ ++ t₂ ∧ ucs2Enc t₁ = (ucs2Enc t).take (2 * n) ∧ ucs2Enc t₂ = (ucs2Enc t).drop (2 * n) := by
  induction t generalizing n with
  | nil => exact ⟨[], [], rfl, by simp [ucs2Enc], by simp [ucs2Enc]⟩
  | cons c r ih =>
    cases n with
    | zero => exact ⟨[], c :: r, rfl, rfl, rfl⟩
    | succ n =>
      rw [ucs2Enc_cons] at hn he ⊢
      rcases ucs2_char c with ⟨a, b, hc, ha⟩ | ⟨a, b, d, e, hc, ha, hd⟩
      · rw [hc] at hn he ⊢
        obtain ⟨t₁, t₂, rfl, h1, h2⟩ := ih n (by simp at hn; omega) (fun m hm => by
          subst hm; exact he (m + 1) rfl)
        refine ⟨c :: t₁, t₂, rfl, ?_, h2⟩
        rw [ucs2Enc_cons, hc, h1]; rfl
      · rw [hc] at hn he ⊢
        cases n with
        | zero => exact absurd ha (he 0 rfl)
        | succ n =>
          obtain ⟨t₁, t₂, rfl, h1, h2⟩ := ih n (by simp at hn; omega) (fun m hm => by
            subst hm; exact he (m + 2) rfl)
          refine ⟨c :: t₁, t₂, rfl, ?_, h2⟩
          rw [ucs2Enc_cons, hc, h1]; rfl

/-- No high surrogate follows a high surrogate in a UCS-2 encoding, and the number of octets is even. -/
theorem ucs2Enc_no_double (t : Text) : (ucs2Enc t).length % 2 = 0 ∧ ∀ m,
    ¬ ((0xD8 ≤ (octetAt (ucs2Enc t) (2 * m)).toNat ∧ (octetAt (ucs2Enc t) (2 * m)).toNat ≤ 0xDB) ∧
      0xD8 ≤ (octetAt (ucs2Enc t) (2 * (m + 1))).toNat ∧ (octetAt (ucs2Enc t) (2 * (m + 1))).toNat ≤ 0xDB) := by
  induction t with
  | nil => exact ⟨rfl, fun m => by simp [ucs2Enc, octetAt]⟩
  | cons c r ih =>
    rw [ucs2Enc_cons]
    rcases ucs2_char c with ⟨a, b, hc, ha⟩ | ⟨a, b, d, e, hc, ha, hd⟩
    · rw [hc]
      refine ⟨by simp; omega, fun m => ?_⟩
      cases m with
      | zero => exact fun h => ha h.1
      | succ m => exact ih.2 m
    · rw [hc]
      refine ⟨by simp; omega, fun m => ?_⟩
      cases m with
      | zero => exact fun h => hd h.2
      | succ m =>
        cases m with
        | zero => exact fun h => hd h.1
        | succ m => exact ih.2 m

/-- A UCS-2 chunk ends between two characters (R225). -/
theorem ucs2Enc_cutUcs2 (t : Text) (hl : Config.cap8Seg < (ucs2Enc t).length) :
    ∃ t₁ t₂, t = t₁ ++ t₂ ∧ ucs2Enc t₁ = (ucs2Enc t).take (cutUcs2 (ucs2Enc t)) ∧
      ucs2Enc t₂ = (ucs2Enc t).drop (cutUcs2 (ucs2Enc t)) := by
  have hl : 134 < (ucs2Enc t).length := hl
  unfold cutUcs2
  simp only
  split
  · rename_i hc
    refine ucs2Enc_cut t 66 (by omega) fun m hm he => ?_
    have hm : m = 65 := by omega
    subst hm
    exact (ucs2Enc_no_double t).2 65 ⟨he, hc⟩
  · rename_i hc
    refine ucs2Enc_cut t 67 (by omega) fun m hm he => ?_
    have hm : m = 66 := by omega
    subst hm
    exact hc he

theorem joinBodies_septets (l : List Septets) (h : l ≠ []) : joinBodies (l.map .septets) = .septets l.flatten := by
  induction l with
  | nil => exact absurd rfl h
  | cons q r ih =>
    cases r with
    | nil => simp [joinBodies]
    | cons x y =>
      rw [List.map_cons, List.map_cons, joinBodies, ← List.map_cons, ih (by simp)]
      · rfl
      · simp

theorem joinBodies_octets (l : List Octets) : joinBodies (l.map .octets) = .octets l.flatten := by
  induction l with
  | nil => rfl
  | cons q r ih =>
    cases r with
    | nil => simp [joinBodies]
    | cons x y =>
      rw [List.map_cons, List.map_cons, joinBodies, ← List.map_cons, ih]
      · rfl
      · simp

/-- The records of a concatenated message, by their number (R224, R226). -/
theorem segmentRecords_eq (a : Alphabet) (da : Address) (ref : Byte) (n i : Nat) (cs : List Body) :
    segmentRecords a da ref n i cs =
      cs.mapIdx fun j b => { segmentBase a da b with udh := some [concat8IE ref.toNat n (i + j)] } := by
  induction cs generalizing i with
  | nil => rfl
  | cons b r ih =>
    rw [segmentRecords, ih, List.mapIdx_cons]
    congr 1
    congr 1
    funext j c
    rw [Nat.add_assoc, Nat.add_comm 1 j]

/-- The encoded payload is of the kind its alphabet asks for (R222). -/
theorem segmentUnits_kind (p : Payload) : (segmentUnits p).1 = .gsm7 ↔ ∃ q, (segmentUnits p).2 = .septets q := by
  cases p with
  | auto t =>
    simp only [segmentUnits]
    cases gsm7Enc t <;> simp
  | forceUcs2 t => simp [segmentUnits]
  | force8bit o => simp [segmentUnits]

/-- What `SEGMENT` answers (R226): it raises, or one record without a header, or the records of the chunks. -/
theorem segment_cases (ref : Byte) (p : Payload) (dest : Ascii) :
    (∃ k, addrEnc dest = .error k ∧ Machine.segment ref p dest = .error k) ∨
    ∃ da, addrEnc dest = .ok da ∧
      ((bodyLength (segmentUnits p).2 ≤ singleCap (segmentUnits p).1 ∧
          Machine.segment ref p dest = .ok ([segmentBase (segmentUnits p).1 da (segmentUnits p).2], ref)) ∨
       (singleCap (segmentUnits p).1 < bodyLength (segmentUnits p).2 ∧
        ((Config.segMax < (segmentChunks (segmentUnits p).1 (segmentUnits p).2).length ∧
            Machine.segment ref p dest = .error .badUdh) ∨
         ((segmentChunks (segmentUnits p).1 (segmentUnits p).2).length ≤ Config.segMax ∧
            Machine.segment ref p dest = .ok (segmentRecords (segmentUnits p).1 da ref
              (segmentChunks (segmentUnits p).1 (segmentUnits p).2).length 1
              (segmentChunks (segmentUnits p).1 (segmentUnits p).2), ref + 1))))) := by
  unfold Machine.segment
  cases h : addrEnc dest with
  | error k => exact .inl ⟨k, rfl, rfl⟩
  | ok da =>
    refine .inr ⟨da, rfl, ?_⟩
    simp only [bind, Except.bind]
    by_cases h1 : bodyLength (segmentUnits p).2 ≤ singleCap (segmentUnits p).1
    · exact .inl ⟨h1, if_pos h1⟩
    · refine .inr ⟨by omega, ?_⟩
      rw [if_neg h1]
      by_cases h2 : Config.segMax < (segmentChunks (segmentUnits p).1 (segmentUnits p).2).length
      · exact .inl ⟨h2, if_pos h2⟩
      · exact .inr ⟨by omega, if_neg h2⟩

/-- The chunks of an encoded payload: they join to it, none is empty, none above the capacity (R225). -/
theorem segmentChunks_spec (a : Alphabet) (units : Body) (hk : a = .gsm7 ↔ ∃ q, units = .septets q)
    (h : singleCap a < bodyLength units) :
    2 ≤ (segmentChunks a units).length ∧ joinBodies (segmentChunks a units) = units ∧
    (∀ b ∈ segmentChunks a units, 1 ≤ bodyLength b ∧ bodyLength b ≤ segCap a) ∧
    ∀ b ∈ segmentChunks a units, (a = .gsm7 ↔ ∃ q, b = .septets q) := by
  cases units with
  | septets q =>
    have ha := hk.2 ⟨q, rfl⟩
    subst ha
    have hlen : Config.cap7Seg < q.length := lt_trans (show 153 < 160 by decide) h
    have h2 := two_le_chunks (α := Septet) (cut := cutSeptets) cutSeptets_range q hlen
    refine ⟨?_, ?_, ?_, ?_⟩
    · simpa [segmentChunks] using h2
    · rw [segmentChunks, joinBodies_septets _ (by rintro e; rw [e] at h2; simp at h2),
        chunks_flatten (fun l => (cutSeptets_range l).1) _ _ le_rfl]
    · intro b hb
      obtain ⟨c, hc, rfl⟩ := List.mem_map.1 hb
      exact (chunks_size cutSeptets_range _ _).1 c hc
    · intro b hb
      obtain ⟨c, hc, rfl⟩ := List.mem_map.1 hb
      exact ⟨fun _ => ⟨c, rfl⟩, fun _ => rfl⟩
  | octets o =>
    have ha : a ≠ .gsm7 := fun e => by obtain ⟨q, hq⟩ := hk.1 e; cases hq
    have hlen : Config.cap8Seg < o.length := by
      rw [singleCap, if_neg ha] at h
      exact lt_trans (show 134 < 140 by decide) h
    have h2 := two_le_chunks (α := Byte) (cutOctets_range a) o hlen
    refine ⟨?_, ?_, ?_, ?_⟩
    · simpa [segmentChunks] using h2
    · rw [segmentChunks, joinBodies_octets, chunks_flatten (fun l => (cutOctets_range a l).1) _ _ le_rfl]
    · intro b hb
      obtain ⟨c, hc, rfl⟩ := List.mem_map.1 hb
      rw [segCap, if_neg ha]
      exact (chunks_size (cutOctets_range a) _ _).1 c hc
    · intro b hb
      obtain ⟨c, hc, rfl⟩ := List.mem_map.1 hb
      exact ⟨fun e => absurd e ha, fun ⟨q, hq⟩ => by cases hq⟩

theorem alphaOf_dcsMk : ∀ (a : Alphabet) (f : Bool), alphaOf (dcsMk a f) = some a := by
  intro a f; cases a <;> cases f <;> decide

/-- A body within the single capacity fits without a header (R221, R43). -/
theorem userDataOk_single {a : Alphabet} {body : Body} (hk : a = .gsm7 ↔ ∃ q, body = .septets q)
    (h : bodyLength body ≤ singleCap a) : UserDataOk (dcsMk a false) none body := by
  refine ⟨⟨a, alphaOf_dcsMk a false, hk⟩, by simp, ?_⟩
  cases body with
  | septets q =>
    have ha := hk.2 ⟨q, rfl⟩
    subst ha
    have h : q.length ≤ 160 := h
    simp only [udSize, udlOf, headerSize, ceilDiv]; omega
  | octets o =>
    have ha : a ≠ .gsm7 := fun e => by obtain ⟨q, hq⟩ := hk.1 e; cases hq
    rw [singleCap, if_neg ha] at h
    have h : o.length ≤ 140 := h
    simp only [udSize, udlOf, headerSize]; omega

/-- A body within the segment capacity fits with an 8-bit concatenation element (R221, R43). -/
theorem userDataOk_segment {a : Alphabet} {body : Body} (hk : a = .gsm7 ↔ ∃ q, body = .septets q)
    (h : bodyLength body ≤ segCap a) (ref n i : Nat) :
    UserDataOk (dcsMk a false) (some [concat8IE ref n i]) body := by
  have hu : udhl [concat8IE ref n i] = 5 := rfl
  refine ⟨⟨a, alphaOf_dcsMk a false, hk⟩, fun x hx => by injection hx with hx; subst hx; rw [hu]; decide, ?_⟩
  cases body with
  | septets q =>
    have ha := hk.2 ⟨q, rfl⟩
    subst ha
    have h : q.length ≤ 153 := h
    simp only [udSize, udlOf, headerSize, hu, ceilDiv]; omega
  | octets o =>
    have ha : a ≠ .gsm7 := fun e => by obtain ⟨q, hq⟩ := hk.1 e; cases hq
    rw [segCap, if_neg ha] at h
    have h : o.length ≤ 134 := h
    simp only [udSize, udlOf, headerSize, hu]; omega

end Sys2Proof.Laws
end

