-- ==== Sys2Proof/Laws/State.lean ====
section
/-! SUPPORT. What each named update of the state does to each field: one lemma per field per update, true by `rfl`, so that
no proof unfolds a record update. -/

namespace Sys2Proof.Laws

open Sys2Proof Sys2Proof.Machine

/-- The three ways to answer on a port are `emit`. -/
@[simp] theorem answer_eq_emit (s : State) (op : Byte) (r : Result) : s.answer op r = s.emit (.result op r) := rfl
@[simp] theorem raise_eq_emit (s : State) (op : Byte) (k : ErrorKind) : s.raise op k = s.emit (.result op (.err k)) := rfl
@[simp] theorem raiseEvent_eq_emit (s : State) (e : Event) : s.raiseEvent e = s.emit (.event e) := rfl

/-! `State.emit` -/

@[simp] theorem emit_refcnt (s : State) (o : Output) : (s.emit o).refcnt = s.refcnt := rfl
@[simp] theorem emit_rsm (s : State) (o : Output) : (s.emit o).rsm = s.rsm := rfl
@[simp] theorem emit_rsmDeadline (s : State) (o : Output) : (s.emit o).rsmDeadline = s.rsmDeadline := rfl
@[simp] theorem emit_closed (s : State) (o : Output) : (s.emit o).closed = s.closed := rfl
@[simp] theorem emit_cur (s : State) (o : Output) : (s.emit o).cur = s.cur := rfl
@[simp] theorem emit_rq (s : State) (o : Output) : (s.emit o).rq = s.rq := rfl
@[simp] theorem emit_lock (s : State) (o : Output) : (s.emit o).lock = s.lock := rfl
@[simp] theorem emit_dstate (s : State) (o : Output) : (s.emit o).dstate = s.dstate := rfl
@[simp] theorem emit_lbuf (s : State) (o : Output) : (s.emit o).lbuf = s.lbuf := rfl
@[simp] theorem emit_finals (s : State) (o : Output) : (s.emit o).finals = s.finals := rfl
@[simp] theorem emit_urcs (s : State) (o : Output) : (s.emit o).urcs = s.urcs := rfl
@[simp] theorem emit_cmdset (s : State) (o : Output) : (s.emit o).cmdset = s.cmdset := rfl
@[simp] theorem emit_cmdTimeout (s : State) (o : Output) : (s.emit o).cmdTimeout = s.cmdTimeout := rfl
@[simp] theorem emit_txn (s : State) (o : Output) : (s.emit o).txn = s.txn := rfl
@[simp] theorem emit_waiters (s : State) (o : Output) : (s.emit o).waiters = s.waiters := rfl
@[simp] theorem emit_params (s : State) (o : Output) : (s.emit o).params = s.params := rfl
@[simp] theorem emit_now (s : State) (o : Output) : (s.emit o).now = s.now := rfl
@[simp] theorem emit_port (s : State) (o : Output) : (s.emit o).port = s.port := rfl
@[simp] theorem emit_turns (s : State) (o : Output) : (s.emit o).turns = s.turns := rfl
@[simp] theorem emit_nowIn (s : State) (o : Output) : (s.emit o).nowIn = s.nowIn := rfl
@[simp] theorem emit_txIn (s : State) (o : Output) : (s.emit o).txIn = s.txIn := rfl
@[simp] theorem emit_picks (s : State) (o : Output) : (s.emit o).picks = s.picks := rfl
@[simp] theorem emit_rxEnded (s : State) (o : Output) : (s.emit o).rxEnded = s.rxEnded := rfl
@[simp] theorem emit_out (s : State) (o : Output) : (s.emit o).out = s.out ++ [o] := rfl

/-! `State.tick` -/

@[simp] theorem tick_refcnt (s : State) : s.tick.refcnt = s.refcnt := rfl
@[simp] theorem tick_rsm (s : State) : s.tick.rsm = s.rsm := rfl
@[simp] theorem tick_rsmDeadline (s : State) : s.tick.rsmDeadline = s.rsmDeadline := rfl
@[simp] theorem tick_closed (s : State) : s.tick.closed = s.closed := rfl
@[simp] theorem tick_cur (s : State) : s.tick.cur = s.cur := rfl
@[simp] theorem tick_rq (s : State) : s.tick.rq = s.rq := rfl
@[simp] theorem tick_lock (s : State) : s.tick.lock = s.lock := rfl
@[simp] theorem tick_dstate (s : State) : s.tick.dstate = s.dstate := rfl
@[simp] theorem tick_lbuf (s : State) : s.tick.lbuf = s.lbuf := rfl
@[simp] theorem tick_finals (s : State) : s.tick.finals = s.finals := rfl
@[simp] theorem tick_urcs (s : State) : s.tick.urcs = s.urcs := rfl
@[simp] theorem tick_cmdset (s : State) : s.tick.cmdset = s.cmdset := rfl
@[simp] theorem tick_cmdTimeout (s : State) : s.tick.cmdTimeout = s.cmdTimeout := rfl
@[simp] theorem tick_txn (s : State) : s.tick.txn = s.txn := rfl
@[simp] theorem tick_waiters (s : State) : s.tick.waiters = s.waiters := rfl
@[simp] theorem tick_params (s : State) : s.tick.params = s.params := rfl
@[simp] theorem tick_now (s : State) : s.tick.now = s.now + s.nowIn.headD 0 := rfl
@[simp] theorem tick_port (s : State) : s.tick.port = s.port := rfl
@[simp] theorem tick_turns (s : State) : s.tick.turns = s.turns := rfl
@[simp] theorem tick_nowIn (s : State) : s.tick.nowIn = s.nowIn.tail := rfl
@[simp] theorem tick_txIn (s : State) : s.tick.txIn = s.txIn := rfl
@[simp] theorem tick_picks (s : State) : s.tick.picks = s.picks := rfl
@[simp] theorem tick_rxEnded (s : State) : s.tick.rxEnded = s.rxEnded := rfl
@[simp] theorem tick_out (s : State) : s.tick.out = s.out := rfl

/-! `State.turned` -/

@[simp] theorem turned_refcnt (s : State) : s.turned.refcnt = s.refcnt := rfl
@[simp] theorem turned_rsm (s : State) : s.turned.rsm = s.rsm := rfl
@[simp] theorem turned_rsmDeadline (s : State) : s.turned.rsmDeadline = s.rsmDeadline := rfl
@[simp] theorem turned_closed (s : State) : s.turned.closed = s.closed := rfl
@[simp] theorem turned_cur (s : State) : s.turned.cur = s.cur := rfl
@[simp] theorem turned_rq (s : State) : s.turned.rq = s.rq := rfl
@[simp] theorem turned_lock (s : State) : s.turned.lock = s.lock := rfl
@[simp] theorem turned_dstate (s : State) : s.turned.dstate = s.dstate := rfl
@[simp] theorem turned_lbuf (s : State) : s.turned.lbuf = s.lbuf := rfl
@[simp] theorem turned_finals (s : State) : s.turned.finals = s.finals := rfl
@[simp] theorem turned_urcs (s : State) : s.turned.urcs = s.urcs := rfl
@[simp] theorem turned_cmdset (s : State) : s.turned.cmdset = s.cmdset := rfl
@[simp] theorem turned_cmdTimeout (s : State) : s.turned.cmdTimeout = s.cmdTimeout := rfl
@[simp] theorem turned_txn (s : State) : s.turned.txn = s.txn := rfl
@[simp] theorem turned_waiters (s : State) : s.turned.waiters = s.waiters := rfl
@[simp] theorem turned_params (s : State) : s.turned.params = s.params := rfl
@[simp] theorem turned_now (s : State) : s.turned.now = s.now + s.nowIn.headD 0 := rfl
@[simp] theorem turned_port (s : State) : s.turned.port = s.port := rfl
@[simp] theorem turned_turns (s : State) : s.turned.turns = s.turns.tail := rfl
@[simp] theorem turned_nowIn (s : State) : s.turned.nowIn = s.nowIn.tail := rfl
@[simp] theorem turned_txIn (s : State) : s.turned.txIn = s.txIn := rfl
@[simp] theorem turned_picks (s : State) : s.turned.picks = s.picks := rfl
@[simp] theorem turned_rxEnded (s : State) : s.turned.rxEnded = s.rxEnded := rfl
@[simp] theorem turned_out (s : State) : s.turned.out = s.out := rfl

/-! `State.putGroup` -/

@[simp] theorem putGroup_refcnt (s : State) (k : Key) (g : Group) : (s.putGroup k g).refcnt = s.refcnt := rfl
@[simp] theorem putGroup_rsm (s : State) (k : Key) (g : Group) :
    (s.putGroup k g).rsm = FMap.put keyCode k g s.rsm := rfl
@[simp] theorem putGroup_rsmDeadline (s : State) (k : Key) (g : Group) :
    (s.putGroup k g).rsmDeadline = s.rsmDeadline := rfl
@[simp] theorem putGroup_closed (s : State) (k : Key) (g : Group) : (s.putGroup k g).closed = s.closed := rfl
@[simp] theorem putGroup_cur (s : State) (k : Key) (g : Group) : (s.putGroup k g).cur = s.cur := rfl
@[simp] theorem putGroup_rq (s : State) (k : Key) (g : Group) : (s.putGroup k g).rq = s.rq := rfl
@[simp] theorem putGroup_lock (s : State) (k : Key) (g : Group) : (s.putGroup k g).lock = s.lock := rfl
@[simp] theorem putGroup_dstate (s : State) (k : Key) (g : Group) : (s.putGroup k g).dstate = s.dstate := rfl
@[simp] theorem putGroup_lbuf (s : State) (k : Key) (g : Group) : (s.putGroup k g).lbuf = s.lbuf := rfl
@[simp] theorem putGroup_finals (s : State) (k : Key) (g : Group) : (s.putGroup k g).finals = s.finals := rfl
@[simp] theorem putGroup_urcs (s : State) (k : Key) (g : Group) : (s.putGroup k g).urcs = s.urcs := rfl
@[simp] theorem putGroup_cmdset (s : State) (k : Key) (g : Group) : (s.putGroup k g).cmdset = s.cmdset := rfl
@[simp] theorem putGroup_cmdTimeout (s : State) (k : Key) (g : Group) :
    (s.putGroup k g).cmdTimeout = s.cmdTimeout := rfl
@[simp] theorem putGroup_txn (s : State) (k : Key) (g : Group) : (s.putGroup k g).txn = s.txn := rfl
@[simp] theorem putGroup_waiters (s : State) (k : Key) (g : Group) : (s.putGroup k g).waiters = s.waiters := rfl
@[simp] theorem putGroup_params (s : State) (k : Key) (g : Group) : (s.putGroup k g).params = s.params := rfl
@[simp] theorem putGroup_now (s : State) (k : Key) (g : Group) : (s.putGroup k g).now = s.now := rfl
@[simp] theorem putGroup_port (s : State) (k : Key) (g : Group) : (s.putGroup k g).port = s.port := rfl
@[simp] theorem putGroup_turns (s : State) (k : Key) (g : Group) : (s.putGroup k g).turns = s.turns := rfl
@[simp] theorem putGroup_nowIn (s : State) (k : Key) (g : Group) : (s.putGroup k g).nowIn = s.nowIn := rfl
@[simp] theorem putGroup_txIn (s : State) (k : Key) (g : Group) : (s.putGroup k g).txIn = s.txIn := rfl
@[simp] theorem putGroup_picks (s : State) (k : Key) (g : Group) : (s.putGroup k g).picks = s.picks := rfl
@[simp] theorem putGroup_rxEnded (s : State) (k : Key) (g : Group) : (s.putGroup k g).rxEnded = s.rxEnded := rfl
@[simp] theorem putGroup_out (s : State) (k : Key) (g : Group) : (s.putGroup k g).out = s.out := rfl

/-! `State.dropGroup` -/

@[simp] theorem dropGroup_refcnt (s : State) (k : Key) : (s.dropGroup k).refcnt = s.refcnt := rfl
@[simp] theorem dropGroup_rsm (s : State) (k : Key) : (s.dropGroup k).rsm = FMap.erase keyCode k s.rsm := rfl
@[simp] theorem dropGroup_rsmDeadline (s : State) (k : Key) : (s.dropGroup k).rsmDeadline = s.rsmDeadline := rfl
@[simp] theorem dropGroup_closed (s : State) (k : Key) : (s.dropGroup k).closed = s.closed := rfl
@[simp] theorem dropGroup_cur (s : State) (k : Key) : (s.dropGroup k).cur = s.cur := rfl
@[simp] theorem dropGroup_rq (s : State) (k : Key) : (s.dropGroup k).rq = s.rq := rfl
@[simp] theorem dropGroup_lock (s : State) (k : Key) : (s.dropGroup k).lock = s.lock := rfl
@[simp] theorem dropGroup_dstate (s : State) (k : Key) : (s.dropGroup k).dstate = s.dstate := rfl
@[simp] theorem dropGroup_lbuf (s : State) (k : Key) : (s.dropGroup k).lbuf = s.lbuf := rfl
@[simp] theorem dropGroup_finals (s : State) (k : Key) : (s.dropGroup k).finals = s.finals := rfl
@[simp] theorem dropGroup_urcs (s : State) (k : Key) : (s.dropGroup k).urcs = s.urcs := rfl
@[simp] theorem dropGroup_cmdset (s : State) (k : Key) : (s.dropGroup k).cmdset = s.cmdset := rfl
@[simp] theorem dropGroup_cmdTimeout (s : State) (k : Key) : (s.dropGroup k).cmdTimeout = s.cmdTimeout := rfl
@[simp] theorem dropGroup_txn (s : State) (k : Key) : (s.dropGroup k).txn = s.txn := rfl
@[simp] theorem dropGroup_waiters (s : State) (k : Key) : (s.dropGroup k).waiters = s.waiters := rfl
@[simp] theorem dropGroup_params (s : State) (k : Key) : (s.dropGroup k).params = s.params := rfl
@[simp] theorem dropGroup_now (s : State) (k : Key) : (s.dropGroup k).now = s.now := rfl
@[simp] theorem dropGroup_port (s : State) (k : Key) : (s.dropGroup k).port = s.port := rfl
@[simp] theorem dropGroup_turns (s : State) (k : Key) : (s.dropGroup k).turns = s.turns := rfl
@[simp] theorem dropGroup_nowIn (s : State) (k : Key) : (s.dropGroup k).nowIn = s.nowIn := rfl
@[simp] theorem dropGroup_txIn (s : State) (k : Key) : (s.dropGroup k).txIn = s.txIn := rfl
@[simp] theorem dropGroup_picks (s : State) (k : Key) : (s.dropGroup k).picks = s.picks := rfl
@[simp] theorem dropGroup_rxEnded (s : State) (k : Key) : (s.dropGroup k).rxEnded = s.rxEnded := rfl
@[simp] theorem dropGroup_out (s : State) (k : Key) : (s.dropGroup k).out = s.out := rfl

/-! `State.beginSend` -/

@[simp] theorem beginSend_refcnt (s : State) (text : Ascii) : (s.beginSend text).refcnt = s.refcnt := rfl
@[simp] theorem beginSend_rsm (s : State) (text : Ascii) : (s.beginSend text).rsm = s.rsm := rfl
@[simp] theorem beginSend_rsmDeadline (s : State) (text : Ascii) : (s.beginSend text).rsmDeadline = s.rsmDeadline := rfl
@[simp] theorem beginSend_closed (s : State) (text : Ascii) : (s.beginSend text).closed = s.closed := rfl
@[simp] theorem beginSend_cur (s : State) (text : Ascii) : (s.beginSend text).cur = text := rfl
@[simp] theorem beginSend_rq (s : State) (text : Ascii) : (s.beginSend text).rq = [] := rfl
@[simp] theorem beginSend_lock (s : State) (text : Ascii) : (s.beginSend text).lock = .held := rfl
@[simp] theorem beginSend_dstate (s : State) (text : Ascii) : (s.beginSend text).dstate = .sending := rfl
@[simp] theorem beginSend_lbuf (s : State) (text : Ascii) : (s.beginSend text).lbuf = s.lbuf := rfl
@[simp] theorem beginSend_finals (s : State) (text : Ascii) : (s.beginSend text).finals = s.finals := rfl
@[simp] theorem beginSend_urcs (s : State) (text : Ascii) : (s.beginSend text).urcs = s.urcs := rfl
@[simp] theorem beginSend_cmdset (s : State) (text : Ascii) : (s.beginSend text).cmdset = s.cmdset := rfl
@[simp] theorem beginSend_cmdTimeout (s : State) (text : Ascii) : (s.beginSend text).cmdTimeout = s.cmdTimeout := rfl
@[simp] theorem beginSend_txn (s : State) (text : Ascii) : (s.beginSend text).txn = s.txn := rfl
@[simp] theorem beginSend_waiters (s : State) (text : Ascii) : (s.beginSend text).waiters = s.waiters := rfl
@[simp] theorem beginSend_params (s : State) (text : Ascii) : (s.beginSend text).params = s.params := rfl
@[simp] theorem beginSend_now (s : State) (text : Ascii) : (s.beginSend text).now = s.now := rfl
@[simp] theorem beginSend_port (s : State) (text : Ascii) : (s.beginSend text).port = s.port := rfl
@[simp] theorem beginSend_turns (s : State) (text : Ascii) : (s.beginSend text).turns = s.turns := rfl
@[simp] theorem beginSend_nowIn (s : State) (text : Ascii) : (s.beginSend text).nowIn = s.nowIn := rfl
@[simp] theorem beginSend_txIn (s : State) (text : Ascii) : (s.beginSend text).txIn = s.txIn := rfl
@[simp] theorem beginSend_picks (s : State) (text : Ascii) : (s.beginSend text).picks = s.picks := rfl
@[simp] theorem beginSend_rxEnded (s : State) (text : Ascii) : (s.beginSend text).rxEnded = s.rxEnded := rfl
@[simp] theorem beginSend_out (s : State) (text : Ascii) : (s.beginSend text).out = s.out := rfl

/-! `State.write` -/

@[simp] theorem write_refcnt (s : State) (w : Octets) : (s.write w).refcnt = s.refcnt := rfl
@[simp] theorem write_rsm (s : State) (w : Octets) : (s.write w).rsm = s.rsm := rfl
@[simp] theorem write_rsmDeadline (s : State) (w : Octets) : (s.write w).rsmDeadline = s.rsmDeadline := rfl
@[simp] theorem write_closed (s : State) (w : Octets) : (s.write w).closed = s.closed := rfl
@[simp] theorem write_cur (s : State) (w : Octets) : (s.write w).cur = s.cur := rfl
@[simp] theorem write_rq (s : State) (w : Octets) : (s.write w).rq = s.rq := rfl
@[simp] theorem write_lock (s : State) (w : Octets) : (s.write w).lock = s.lock := rfl
@[simp] theorem write_dstate (s : State) (w : Octets) : (s.write w).dstate = s.dstate := rfl
@[simp] theorem write_lbuf (s : State) (w : Octets) : (s.write w).lbuf = s.lbuf := rfl
@[simp] theorem write_finals (s : State) (w : Octets) : (s.write w).finals = s.finals := rfl
@[simp] theorem write_urcs (s : State) (w : Octets) : (s.write w).urcs = s.urcs := rfl
@[simp] theorem write_cmdset (s : State) (w : Octets) : (s.write w).cmdset = s.cmdset := rfl
@[simp] theorem write_cmdTimeout (s : State) (w : Octets) : (s.write w).cmdTimeout = s.cmdTimeout := rfl
@[simp] theorem write_txn (s : State) (w : Octets) : (s.write w).txn = s.txn := rfl
@[simp] theorem write_waiters (s : State) (w : Octets) : (s.write w).waiters = s.waiters := rfl
@[simp] theorem write_params (s : State) (w : Octets) : (s.write w).params = s.params := rfl
@[simp] theorem write_now (s : State) (w : Octets) : (s.write w).now = s.now := rfl
@[simp] theorem write_port (s : State) (w : Octets) : (s.write w).port = s.port := rfl
@[simp] theorem write_turns (s : State) (w : Octets) : (s.write w).turns = s.turns := rfl
@[simp] theorem write_nowIn (s : State) (w : Octets) : (s.write w).nowIn = s.nowIn := rfl
@[simp] theorem write_txIn (s : State) (w : Octets) : (s.write w).txIn = s.txIn.tail := rfl
@[simp] theorem write_picks (s : State) (w : Octets) : (s.write w).picks = s.picks := rfl
@[simp] theorem write_rxEnded (s : State) (w : Octets) : (s.write w).rxEnded = s.rxEnded := rfl
@[simp] theorem write_out (s : State) (w : Octets) : (s.write w).out = s.out ++ [.tx w (s.txAnswer w)] := rfl

/-! `State.await` -/

@[simp] theorem await_refcnt (s : State) (k : SendKind) : (s.await k).refcnt = s.refcnt := rfl
@[simp] theorem await_rsm (s : State) (k : SendKind) : (s.await k).rsm = s.rsm := rfl
@[simp] theorem await_rsmDeadline (s : State) (k : SendKind) : (s.await k).rsmDeadline = s.rsmDeadline := rfl
@[simp] theorem await_closed (s : State) (k : SendKind) : (s.await k).closed = s.closed := rfl
@[simp] theorem await_cur (s : State) (k : SendKind) : (s.await k).cur = s.cur := rfl
@[simp] theorem await_rq (s : State) (k : SendKind) : (s.await k).rq = s.rq := rfl
@[simp] theorem await_lock (s : State) (k : SendKind) : (s.await k).lock = s.lock := rfl
@[simp] theorem await_dstate (s : State) (k : SendKind) : (s.await k).dstate = .awaiting := rfl
@[simp] theorem await_lbuf (s : State) (k : SendKind) : (s.await k).lbuf = s.lbuf := rfl
@[simp] theorem await_finals (s : State) (k : SendKind) : (s.await k).finals = s.finals := rfl
@[simp] theorem await_urcs (s : State) (k : SendKind) : (s.await k).urcs = s.urcs := rfl
@[simp] theorem await_cmdset (s : State) (k : SendKind) : (s.await k).cmdset = s.cmdset := rfl
@[simp] theorem await_cmdTimeout (s : State) (k : SendKind) : (s.await k).cmdTimeout = s.cmdTimeout := rfl
@[simp] theorem await_txn (s : State) (k : SendKind) :
    (s.await k).txn = some { kind := k, acc := [], dl := s.now + s.cmdTimeout } := rfl
@[simp] theorem await_waiters (s : State) (k : SendKind) : (s.await k).waiters = s.waiters := rfl
@[simp] theorem await_params (s : State) (k : SendKind) : (s.await k).params = s.params := rfl
@[simp] theorem await_now (s : State) (k : SendKind) : (s.await k).now = s.now := rfl
@[simp] theorem await_port (s : State) (k : SendKind) : (s.await k).port = s.port := rfl
@[simp] theorem await_turns (s : State) (k : SendKind) : (s.await k).turns = s.turns := rfl
@[simp] theorem await_nowIn (s : State) (k : SendKind) : (s.await k).nowIn = s.nowIn := rfl
@[simp] theorem await_txIn (s : State) (k : SendKind) : (s.await k).txIn = s.txIn := rfl
@[simp] theorem await_picks (s : State) (k : SendKind) : (s.await k).picks = s.picks := rfl
@[simp] theorem await_rxEnded (s : State) (k : SendKind) : (s.await k).rxEnded = s.rxEnded := rfl
@[simp] theorem await_out (s : State) (k : SendKind) : (s.await k).out = s.out := rfl

/-! `State.endSend` -/

@[simp] theorem endSend_refcnt (s : State) (k : SendKind) (r : Result) : (s.endSend k r).refcnt = s.refcnt := rfl
@[simp] theorem endSend_rsm (s : State) (k : SendKind) (r : Result) : (s.endSend k r).rsm = s.rsm := rfl
@[simp] theorem endSend_rsmDeadline (s : State) (k : SendKind) (r : Result) :
    (s.endSend k r).rsmDeadline = s.rsmDeadline := rfl
@[simp] theorem endSend_closed (s : State) (k : SendKind) (r : Result) : (s.endSend k r).closed = s.closed := rfl
@[simp] theorem endSend_cur (s : State) (k : SendKind) (r : Result) : (s.endSend k r).cur = [] := rfl
@[simp] theorem endSend_rq (s : State) (k : SendKind) (r : Result) : (s.endSend k r).rq = s.rq := rfl
@[simp] theorem endSend_lock (s : State) (k : SendKind) (r : Result) : (s.endSend k r).lock = .free := rfl
@[simp] theorem endSend_dstate (s : State) (k : SendKind) (r : Result) :
    (s.endSend k r).dstate = if s.closed then .closed else .idle := rfl
@[simp] theorem endSend_lbuf (s : State) (k : SendKind) (r : Result) : (s.endSend k r).lbuf = s.lbuf := rfl
@[simp] theorem endSend_finals (s : State) (k : SendKind) (r : Result) : (s.endSend k r).finals = s.finals := rfl
@[simp] theorem endSend_urcs (s : State) (k : SendKind) (r : Result) : (s.endSend k r).urcs = s.urcs := rfl
@[simp] theorem endSend_cmdset (s : State) (k : SendKind) (r : Result) : (s.endSend k r).cmdset = s.cmdset := rfl
@[simp] theorem endSend_cmdTimeout (s : State) (k : SendKind) (r : Result) :
    (s.endSend k r).cmdTimeout = s.cmdTimeout := rfl
@[simp] theorem endSend_txn (s : State) (k : SendKind) (r : Result) : (s.endSend k r).txn = none := rfl
@[simp] theorem endSend_waiters (s : State) (k : SendKind) (r : Result) : (s.endSend k r).waiters = s.waiters := rfl
@[simp] theorem endSend_params (s : State) (k : SendKind) (r : Result) : (s.endSend k r).params = s.params := rfl
@[simp] theorem endSend_now (s : State) (k : SendKind) (r : Result) : (s.endSend k r).now = s.now := rfl
@[simp] theorem endSend_port (s : State) (k : SendKind) (r : Result) : (s.endSend k r).port = s.port := rfl
@[simp] theorem endSend_turns (s : State) (k : SendKind) (r : Result) : (s.endSend k r).turns = s.turns := rfl
@[simp] theorem endSend_nowIn (s : State) (k : SendKind) (r : Result) : (s.endSend k r).nowIn = s.nowIn := rfl
@[simp] theorem endSend_txIn (s : State) (k : SendKind) (r : Result) : (s.endSend k r).txIn = s.txIn := rfl
@[simp] theorem endSend_picks (s : State) (k : SendKind) (r : Result) : (s.endSend k r).picks = s.picks := rfl
@[simp] theorem endSend_rxEnded (s : State) (k : SendKind) (r : Result) : (s.endSend k r).rxEnded = s.rxEnded := rfl
@[simp] theorem endSend_out (s : State) (k : SendKind) (r : Result) :
    (s.endSend k r).out = s.out ++ [.result k.op r] := rfl

/-! `State.cancelWaiters` -/

@[simp] theorem cancelWaiters_refcnt (s : State) : s.cancelWaiters.refcnt = s.refcnt := rfl
@[simp] theorem cancelWaiters_rsm (s : State) : s.cancelWaiters.rsm = s.rsm := rfl
@[simp] theorem cancelWaiters_rsmDeadline (s : State) : s.cancelWaiters.rsmDeadline = s.rsmDeadline := rfl
@[simp] theorem cancelWaiters_closed (s : State) : s.cancelWaiters.closed = s.closed := rfl
@[simp] theorem cancelWaiters_cur (s : State) : s.cancelWaiters.cur = s.cur := rfl
@[simp] theorem cancelWaiters_rq (s : State) : s.cancelWaiters.rq = s.rq := rfl
@[simp] theorem cancelWaiters_lock (s : State) : s.cancelWaiters.lock = s.lock := rfl
@[simp] theorem cancelWaiters_dstate (s : State) : s.cancelWaiters.dstate = s.dstate := rfl
@[simp] theorem cancelWaiters_lbuf (s : State) : s.cancelWaiters.lbuf = s.lbuf := rfl
@[simp] theorem cancelWaiters_finals (s : State) : s.cancelWaiters.finals = s.finals := rfl
@[simp] theorem cancelWaiters_urcs (s : State) : s.cancelWaiters.urcs = s.urcs := rfl
@[simp] theorem cancelWaiters_cmdset (s : State) : s.cancelWaiters.cmdset = s.cmdset := rfl
@[simp] theorem cancelWaiters_cmdTimeout (s : State) : s.cancelWaiters.cmdTimeout = s.cmdTimeout := rfl
@[simp] theorem cancelWaiters_txn (s : State) : s.cancelWaiters.txn = s.txn := rfl
@[simp] theorem cancelWaiters_waiters (s : State) : s.cancelWaiters.waiters = [] := rfl
@[simp] theorem cancelWaiters_params (s : State) : s.cancelWaiters.params = s.params := rfl
@[simp] theorem cancelWaiters_now (s : State) : s.cancelWaiters.now = s.now := rfl
@[simp] theorem cancelWaiters_port (s : State) : s.cancelWaiters.port = s.port := rfl
@[simp] theorem cancelWaiters_turns (s : State) : s.cancelWaiters.turns = s.turns := rfl
@[simp] theorem cancelWaiters_nowIn (s : State) : s.cancelWaiters.nowIn = s.nowIn := rfl
@[simp] theorem cancelWaiters_txIn (s : State) : s.cancelWaiters.txIn = s.txIn := rfl
@[simp] theorem cancelWaiters_picks (s : State) : s.cancelWaiters.picks = s.picks := rfl
@[simp] theorem cancelWaiters_rxEnded (s : State) : s.cancelWaiters.rxEnded = s.rxEnded := rfl
@[simp] theorem cancelWaiters_out (s : State) :
    s.cancelWaiters.out = s.out ++ s.waiters.map fun r => .result r.kind.op (.err .closed) := rfl

end Sys2Proof.Laws
end

