-- ==== Sys2Proof/Laws/Steps.lean ====
section
/-! SUPPORT. What a step can do, once for every kind of step: the turns, the pure commands, the writes to the port, the reader, the take step, the time-out and `CLOSE`.
Later proofs cite these and unfold no meaning. -/

namespace Sys2Proof.Laws

open Sys2Proof Sys2Proof.Machine

/-! ### The turn -/

theorem step_eq (s : State) : step s = runTurn s.nextTurn s.turned := rfl

/-- What a step that answers a next state did, turn by turn. -/
theorem step_cases {s t : State} (h : step s = .next t) :
    (s.nextTurn = .instr ∧ s.port = [] ∧ t = s.turned) ∨
    (s.nextTurn = .instr ∧ ∃ i rest, decode s.port = .ok (i, rest) ∧ exec i { s.turned with port := rest } = .next t) ∨
    (s.nextTurn = .take ∧ t = s.turned.takeLine) ∨
    (s.nextTurn = .resume ∧ t = s.turned.resumeSend) ∨
    (s.nextTurn = .readError ∧ t = s.turned.readError) := by
  rw [step_eq] at h
  cases hn : s.nextTurn with
  | instr =>
    rw [hn] at h
    change runPort s.turned = _ at h
    unfold runPort fetch at h
    by_cases hp : s.port = []
    · rw [if_pos (show s.turned.port = [] from hp)] at h
      injection h with h
      exact .inl ⟨rfl, hp, h.symm⟩
    · rw [if_neg (show ¬ s.turned.port = [] from hp)] at h
      change (match (match decode s.port with
        | .ok (i, rest) => (Except.ok (some (i, { s.turned with port := rest })) : Except Refusal (Option (Instr × State)))
        | .error e => .error (portRefusal e)) with
        | .ok (some (i, s')) => exec i s'
        | .ok none => .next s.turned
        | .error r => .refused r) = _ at h
      cases hd : decode s.port with
      | error e => rw [hd] at h; cases h
      | ok x => rw [hd] at h; exact .inr (.inl ⟨rfl, x.1, x.2, rfl, h⟩)
  | take => rw [hn] at h; injection h with h; exact .inr (.inr (.inl ⟨rfl, h.symm⟩))
  | resume => rw [hn] at h; injection h with h; exact .inr (.inr (.inr (.inl ⟨rfl, h.symm⟩)))
  | readError => rw [hn] at h; injection h with h; exact .inr (.inr (.inr (.inr ⟨rfl, h.symm⟩)))

/-! ### The commands that only answer -/

theorem parseStep_cases (o : Octets) (s : State) :
    (∃ r, parseStep o s = reply 0x49 r s) ∨
    (parseStep o s = .refused .statusReport ∧ s.params.statusReport = .refuse ∧ isStatusReport o = true) := by
  unfold parseStep
  split
  · rename_i h
    rw [Bool.and_eq_true, beq_iff_eq] at h
    exact .inr ⟨rfl, h.2, h.1⟩
  · exact .inl ⟨_, rfl⟩

/-- A command that writes no state answers once, or is given no meaning (R196). -/
theorem exec_pure {i : Instr} {op : Byte} (h : pureCode i = some op) (s : State) :
    (∃ r, exec i s = reply op r s) ∨ (exec i s = .refused .statusReport ∧ s.params.statusReport = .refuse) := by
  have parse : ∀ o, (∃ r, parseStep o s = reply 0x49 r s) ∨
      (parseStep o s = .refused .statusReport ∧ s.params.statusReport = .refuse) :=
    fun o => (parseStep_cases o s).imp id fun h => ⟨h.1, h.2.1⟩
  cases i <;> first | (cases h; done) | (cases h; exact parse _) | (cases h; exact .inl ⟨_, rfl⟩) |
    (cases h; simp only [exec, execPack7, execUcs2Enc, execOct8, execAddrSer, execDcsMk, execDcsAlpha, execDcsFlash,
      execSctsEnc, execFrameEnc, execLnParse, execLnClassify, execIsOpen]; exact .inl ⟨_, rfl⟩) |
    (cases h; simp only [exec, execSmscNone, readPrefix]; exact .inl ⟨_, rfl⟩)

theorem exec_pure_next {i : Instr} {op : Byte} (h : pureCode i = some op) {s t : State} (e : exec i s = .next t) :
    ∃ r, t = { s with out := s.out ++ [.result op r] } := by
  rcases exec_pure h s with ⟨r, hr⟩ | ⟨hr, -⟩
  · rw [hr, reply_eq] at e
    injection e with e
    exact ⟨_, e.symm⟩
  · rw [hr] at e; cases e

/-- Every instruction is of one of these kinds. -/
theorem instr_cases (i : Instr) :
    (∃ op, pureCode i = some op) ∨ (∃ k text, sendForm i = some (k, text)) ∨ isReceive i = true ∨
    (∃ p dest, i = .segment p dest) ∨ (∃ d, i = .collect d) ∨ (∃ d, i = .rsmCfg d) ∨ i = .close ∨ (∃ v, i = .lnCfg v) ∨
    i = .expire ∨ i = .lnTimeout ∨ i = .lnEos := by
  cases i <;> simp [pureCode, sendForm, isReceive]

/-! ### The writes to the port -/

theorem exec_sendForm {i : Instr} {k : SendKind} {text : Ascii} (h : sendForm i = some (k, text)) (s : State) :
    exec i s = issueSend k text s := by
  cases i <;> simp only [sendForm, Option.some.injEq, Prod.mk.injEq, reduceCtorEq] at h <;> obtain ⟨rfl, rfl⟩ := h <;> rfl

/-- The start step of a `SEND`: it waits for lines, or it is over with an error (R272, R273). -/
theorem startSend_cases (k : SendKind) (text : Ascii) (s : State) :
    (∃ n, s.txAnswer (terminate text) = .took n ∧ (terminate text).length ≤ n ∧
      s.startSend k text = { s with
        rq := [], cur := text, dstate := .awaiting, lock := .held,
        txn := some { kind := k, acc := [], dl := s.now + s.cmdTimeout }, txIn := s.txIn.tail,
        out := s.out ++ [.tx (terminate text) (s.txAnswer (terminate text))] }) ∨
    (∃ e, ((s.txAnswer (terminate text) = .failed ∧ e = .ioError) ∨
        (∃ n, s.txAnswer (terminate text) = .took n ∧ n < (terminate text).length ∧ e = .incompleteWrite)) ∧
      s.startSend k text = { s with
        rq := [], cur := [], dstate := if s.closed then .closed else .idle, lock := .free, txn := none,
        txIn := s.txIn.tail,
        out := s.out ++ [.tx (terminate text) (s.txAnswer (terminate text)), .result k.op (.err e)] }) := by
  have ended : ∀ e, (((s.beginSend text).write (terminate text)).endSend k (.err e)) = { s with
        rq := [], cur := [], dstate := if s.closed then .closed else .idle, lock := .free, txn := none,
        txIn := s.txIn.tail,
        out := s.out ++ [.tx (terminate text) (s.txAnswer (terminate text)), .result k.op (.err e)] } := by
    intro e
    simp only [State.endSend, State.answer, State.emit, State.write, State.beginSend, List.append_assoc,
      List.singleton_append]
    rfl
  unfold State.startSend
  simp only []
  cases ha : s.txAnswer (terminate text) with
  | failed => exact .inr ⟨.ioError, .inl ⟨rfl, rfl⟩, by simpa only [ha] using ended .ioError⟩
  | took n =>
    by_cases hn : n < (terminate text).length
    · refine .inr ⟨.incompleteWrite, .inr ⟨n, rfl, hn, rfl⟩, ?_⟩
      simp only [hn, if_true]
      simpa only [ha] using ended .incompleteWrite
    · refine .inl ⟨n, rfl, by omega, ?_⟩
      simp only [hn, if_false]
      rw [← ha]
      rfl

theorem issueSend_cases (k : SendKind) (text : Ascii) (s : State) :
    (s.closed = true ∧ issueSend k text s = .next { s with out := s.out ++ [.result k.op (.err .closed)] }) ∨
    (s.closed = false ∧ s.lock = .free ∧ s.waiters = [] ∧ issueSend k text s = .next (s.startSend k text)) ∨
    (s.closed = false ∧ (s.lock = .held ∨ s.waiters ≠ []) ∧
      issueSend k text s = .next { s with waiters := s.waiters ++ [{ kind := k, text := text }] }) := by
  unfold issueSend
  by_cases hc : s.closed = true
  · exact .inl ⟨hc, by rw [if_pos hc]; rfl⟩
  · have hc' : s.closed = false := by simpa using hc
    rw [if_neg hc]
    by_cases h : s.lock = .free ∧ s.waiters = []
    · exact .inr (.inl ⟨hc', h.1, h.2, if_pos h⟩)
    · refine .inr (.inr ⟨hc', ?_, if_neg h⟩)
      cases hl : s.lock with
      | held => exact .inl rfl
      | free => exact .inr fun hw => h ⟨hl, hw⟩

theorem resumeSend_cases (s : State) :
    ((s.waiters = [] ∨ s.lock = .held) ∧ s.resumeSend = s) ∨
    ∃ r ws, s.waiters = r :: ws ∧ s.lock = .free ∧
      ((s.closed = true ∧
          s.resumeSend = { s with waiters := ws, out := s.out ++ [.result r.kind.op (.err .closed)] }) ∨
       (s.closed = false ∧ s.resumeSend = ({ s with waiters := ws }).startSend r.kind r.text)) := by
  unfold State.resumeSend
  cases hw : s.waiters with
  | nil => exact .inl ⟨.inl rfl, rfl⟩
  | cons r ws =>
    cases hl : s.lock with
    | held => exact .inl ⟨.inr rfl, by simp⟩
    | free =>
      refine .inr ⟨r, ws, rfl, rfl, ?_⟩
      cases hc : s.closed with
      | true => refine .inl ⟨rfl, ?_⟩; simp [State.raise, State.answer, State.emit]
      | false => refine .inr ⟨rfl, ?_⟩; simp

/-! ### The reader -/

/-- What becomes of a received line (R263, R275). -/
theorem route_cases (l : Line) (s : State) :
    ((¬ FinalLine s.finals l ∧ UrcLine s.urcs s.cur l) ∧
      s.route l = { s with out := s.out ++ [.event (.urc (lnParse l).1 (lnParse l).2)] }) ∨
    ((FinalLine s.finals l ∨ ¬ UrcLine s.urcs s.cur l) ∧ s.rq.length < s.params.rqCap ∧
      s.route l = { s with rq := s.rq ++ [l] }) ∨
    ((FinalLine s.finals l ∨ ¬ UrcLine s.urcs s.cur l) ∧ s.params.rqCap ≤ s.rq.length ∧
      s.route l = { s with out := s.out ++ [.event .log] }) := by
  have h := classify_eq_urc_iff s.finals s.urcs l s.cur
  by_cases hu : classify s.finals s.urcs l s.cur = .urc
  · refine .inl ⟨h.1 hu, ?_⟩
    unfold State.route
    rw [hu]; rfl
  · have hc : FinalLine s.finals l ∨ ¬ UrcLine s.urcs s.cur l := by
      by_contra hn
      rw [not_or, not_not] at hn
      exact hu (h.2 hn)
    have e : s.route l =
        if s.rq.length < s.params.rqCap then { s with rq := s.rq ++ [l] } else s.raiseEvent .log := by
      unfold State.route
      cases hx : classify s.finals s.urcs l s.cur with
      | urc => exact absurd hx hu
      | final => rfl
      | intermediate => rfl
    rw [e]
    by_cases hn : s.rq.length < s.params.rqCap
    · exact .inr (.inl ⟨hc, hn, if_pos hn⟩)
    · exact .inr (.inr ⟨hc, by omega, if_neg hn⟩)

theorem reading_iff (s : State) : s.reading = true ↔ s.closed = false ∧ s.rxEnded = false := by
  simp [State.reading]

theorem isTerminator_iff (b : Byte) : isTerminator b = true ↔ b = 0x0D ∨ b = 0x0A := by
  simp [isTerminator]

theorem endLine_cases (s : State) :
    (trim s.lbuf = [] ∧ s.endLine = { s with lbuf := [] }) ∨
    (trim s.lbuf ≠ [] ∧ s.endLine = ({ s with lbuf := [] }).route (trim s.lbuf)) := by
  unfold State.endLine
  by_cases h : trim s.lbuf = []
  · exact .inl ⟨h, by simp [h]⟩
  · exact .inr ⟨h, by simp [h]⟩

/-- What one received octet does (R262). -/
theorem receive_cases (b : Byte) (s : State) :
    ((s.closed = true ∨ s.rxEnded = true) ∧ receive b s = .next s) ∨
    (s.closed = false ∧ s.rxEnded = false ∧
      (((b = 0x0D ∨ b = 0x0A) ∧ receive b s = .next s.endLine) ∨
       (¬ (b = 0x0D ∨ b = 0x0A) ∧
        (((∃ n, s.params.lbufCap = some n ∧ n ≤ s.lbuf.length) ∧ receive b s = .refused .lineBufferFull) ∨
         ((∀ n, s.params.lbufCap = some n → s.lbuf.length < n) ∧
           receive b s = .next { s with lbuf := s.lbuf ++ [b] }))))) := by
  unfold receive
  by_cases hr : s.reading = true
  · obtain ⟨hc, he⟩ := (reading_iff s).1 hr
    refine .inr ⟨hc, he, ?_⟩
    rw [if_pos hr]
    by_cases hb : isTerminator b = true
    · exact .inl ⟨(isTerminator_iff b).1 hb, if_pos hb⟩
    · refine .inr ⟨fun h => hb ((isTerminator_iff b).2 h), ?_⟩
      rw [if_neg hb]
      by_cases hf : s.params.lbufCap.any (· ≤ s.lbuf.length) = true
      · exact .inl ⟨by simpa [Option.any_eq_true] using hf, if_pos hf⟩
      · refine .inr ⟨fun n hn => ?_, if_neg hf⟩
        rw [hn] at hf
        simpa using hf
  · refine .inl ⟨?_, if_neg hr⟩
    rw [reading_iff] at hr
    cases hc : s.closed <;> cases he : s.rxEnded <;> simp_all

/-- The rows by which the reader takes an octet. -/
theorem exec_isReceive {i : Instr} (h : isReceive i = true) : ∃ b, ∀ s, exec i s = receive b s := by
  cases i <;> first | (cases h; done) | exact ⟨_, fun _ => rfl⟩

theorem readError_cases (s : State) :
    ((s.closed = true ∨ s.rxEnded = true) ∧ s.readError = s) ∨
    (s.closed = false ∧ s.rxEnded = false ∧ s.readError = { s with out := s.out ++ [.event .log] }) := by
  unfold State.readError
  by_cases h : s.reading = true
  · exact .inr ⟨((reading_iff s).1 h).1, ((reading_iff s).1 h).2, by rw [if_pos h]; rfl⟩
  · refine .inl ⟨?_, if_neg h⟩
    rw [reading_iff] at h
    cases hc : s.closed <;> cases he : s.rxEnded <;> simp_all

/-! ### The take step, the time-out, the close -/

/-- What the end of a transaction leaves (R272). -/
theorem endSend_eq (k : SendKind) (r : Result) (s : State) :
    s.endSend k r = { s with
      cur := [], dstate := if s.closed then .closed else .idle, lock := .free, txn := none,
      out := s.out ++ [.result k.op r] } := rfl

theorem takeLine_cases (s : State) :
    ((s.dstate ≠ .awaiting ∨ s.txn = none ∨ s.rq = []) ∧ s.takeLine = s) ∨
    ∃ x l rest, s.dstate = .awaiting ∧ s.txn = some x ∧ s.rq = l :: rest ∧
      ((¬ FinalLine s.finals l ∧
          s.takeLine = { s with rq := rest, txn := some { x with acc := x.acc ++ [l] } }) ∨
       (FinalLine s.finals l ∧
          s.takeLine = { s with
            rq := rest, cur := [], dstate := if s.closed then .closed else .idle, lock := .free, txn := none,
            out := s.out ++ [.result x.kind.op (x.kind.result (x.acc ++ [l]))] })) := by
  unfold State.takeLine
  cases hd : s.dstate with
  | awaiting =>
    cases hx : s.txn with
    | none => exact .inl ⟨.inr (.inl rfl), rfl⟩
    | some x =>
      cases hq : s.rq with
      | nil => exact .inl ⟨.inr (.inr rfl), rfl⟩
      | cons l rest =>
        refine .inr ⟨x, l, rest, rfl, rfl, rfl, ?_⟩
        by_cases hf : isFinal s.finals l = true
        · refine .inr ⟨(isFinal_iff _ _).1 hf, ?_⟩
          simp only [hf, if_true]
          rw [endSend_eq]
        · refine .inl ⟨fun h => hf ((isFinal_iff _ _).2 h), ?_⟩
          simp only [hf, if_false, Bool.false_eq_true]
  | idle => exact .inl ⟨.inl (by simp), rfl⟩
  | sending => exact .inl ⟨.inl (by simp), rfl⟩
  | closed => exact .inl ⟨.inl (by simp), rfl⟩

theorem timeout_cases (s : State) :
    ((s.dstate ≠ .awaiting ∨ s.txn = none ∨ ∃ x, s.txn = some x ∧ s.now < x.dl) ∧ execLnTimeout s = .next s) ∨
    ∃ x, s.dstate = .awaiting ∧ s.txn = some x ∧ x.dl ≤ s.now ∧
      execLnTimeout s = .next { s with
        cur := [], dstate := if s.closed then .closed else .idle, lock := .free, txn := none,
        out := s.out ++ [.result x.kind.op (x.kind.timeout s.params.timeoutLines x.acc)] } := by
  unfold execLnTimeout
  cases hd : s.dstate with
  | awaiting =>
    cases hx : s.txn with
    | none => exact .inl ⟨.inr (.inl rfl), rfl⟩
    | some x =>
      by_cases hl : x.dl ≤ s.now
      · refine .inr ⟨x, rfl, rfl, hl, ?_⟩
        simp only [hl, if_true]
        rw [endSend_eq]
      · refine .inl ⟨.inr (.inr ⟨x, rfl, by omega⟩), ?_⟩
        simp only [hl, if_false]
  | idle => exact .inl ⟨.inl (by simp), rfl⟩
  | sending => exact .inl ⟨.inl (by simp), rfl⟩
  | closed => exact .inl ⟨.inl (by simp), rfl⟩

theorem close_cases (s : State) :
    (s.closed = true ∧ execClose s = .next { s with out := s.out ++ [.result 0x85 (.ok .none)] }) ∨
    (s.closed = false ∧ s.txn = none ∧ execClose s = .next { s with
      closed := true, dstate := .closed, waiters := [],
      out := s.out ++ [.portClose] ++ (s.waiters.map fun r => .result r.kind.op (.err .closed)) ++
        [.result 0x85 (.ok .none)] }) ∨
    ∃ x, s.closed = false ∧ s.txn = some x ∧ execClose s = .next { s with
      closed := true, dstate := .closed, waiters := [], cur := [], lock := .free, txn := none,
      out := s.out ++ [.portClose, .result x.kind.op (.err .closed)] ++
        (s.waiters.map fun r => .result r.kind.op (.err .closed)) ++ [.result 0x85 (.ok .none)] } := by
  unfold execClose
  cases hc : s.closed with
  | true => exact .inl ⟨rfl, by simp [State.answer, State.emit, hc]⟩
  | false =>
    cases hx : s.txn with
    | none =>
      refine .inr (.inl ⟨rfl, rfl, ?_⟩)
      simp [State.answer, State.emit, State.cancelOpen, State.cancelWaiters]
    | some x =>
      refine .inr (.inr ⟨x, rfl, rfl, ?_⟩)
      simp [State.answer, State.emit, State.cancelOpen, State.cancelWaiters, State.endSend]

end Sys2Proof.Laws
end

