-- ==== Sys2Proof/Tests/Slice0.lean ====
section
/-! SUPPORT. The model's own tests: the checks of WellFormed, a written-out word for every constructor, one or two vectors
for each instruction (from spec/95_test_vectors.md, or worked by hand from the rules named there), and a concrete witness
for the hypotheses of every obligation. -/

namespace Sys2Proof.Tests

open Sys2Proof Sys2Proof.Machine

/-! ### Small values -/

/-- The block after reset. -/
def s0 : State := State.reset

/-- What an instruction puts out, run on `s`. -/
def said (s : State) (i : Instr) : List Output :=
  match exec i s with
  | .next t => t.out.drop s.out.length
  | _ => []

/-- The state an instruction leaves, run on `s`. -/
def after (s : State) (i : Instr) : State :=
  match exec i s with
  | .next t => t
  | _ => s

/-- The septets of "hello" (95_test_vectors 1.5). -/
def hello : Septets := [0x68, 0x65, 0x6C, 0x6C, 0x6F]

/-- `PACK7` of them. -/
def helloPacked : Octets := [0xE8, 0x32, 0x9B, 0xFD, 0x06]

/-- `ADDR_ENC("+8613800138000")` (95_test_vectors 1.5). -/
def phone : Address := { len := 13, toa := 0x91, val := [0x68, 0x31, 0x08, 0x10, 0x83, 0x00, 0xF0] }

/-- The concatenation element 42 02 `n`. -/
def element (n : Byte) : IE := { iei := 0x00, ied := [0x42, 0x02, n] }

/-- The time stamp of 95_test_vectors 1.6. -/
def stamp : Octets7 := { o0 := 0x42, o1 := 0x50, o2 := 0x71, o3 := 0x90, o4 := 0x03, o5 := 0x54, o6 := 0x23 }

/-- That time stamp decoded (95_test_vectors 2.4). -/
def stampFields : Timestamp :=
  { year := 2024, month := 5, day := 17, hour := 9, minute := 30, second := 45, tzMin := 480 }

/-- The default SUBMIT record of 95_test_vectors 1.5. -/
def helloSubmit : Submit :=
  { rd := false, srr := false, rp := false, mr := 0, da := phone, pid := 0, dcs := 0x00, vp := .absent, udh := none,
    body := .septets hello }

/-- Its 19 octets. -/
def helloOctets : Octets :=
  [0x01, 0x00, 0x0D, 0x91, 0x68, 0x31, 0x08, 0x10, 0x83, 0x00, 0xF0, 0x00, 0x00, 0x05, 0xE8, 0x32, 0x9B, 0xFD, 0x06]

/-- The two segments of 95_test_vectors 1.6. -/
def segment1 : Deliver :=
  { mms := true, lp := false, sri := false, rp := false, oa := phone, pid := 0, dcs := 0x08, scts := stamp,
    udh := some [element 1], body := .octets [0x4F, 0x60] }

/-- The second. -/
def segment2 : Deliver :=
  { segment1 with mms := false, udh := some [element 2], body := .octets [0x59, 0x7D] }

/-- The 28 octets of the first. -/
def segment1Octets : Octets :=
  [0x44, 0x0D, 0x91, 0x68, 0x31, 0x08, 0x10, 0x83, 0x00, 0xF0, 0x00, 0x08, 0x42, 0x50, 0x71, 0x90, 0x03, 0x54, 0x23,
    0x08, 0x05, 0x00, 0x03, 0x42, 0x02, 0x01, 0x4F, 0x60]

/-- The key of their group. -/
def groupKey : Key := { oa := phone, w := .w8, ref := 0x42, total := 2 }

/-- The group that holds the first segment, created at 100. -/
def group1 : Group := { segs := [(1, segment1)], created := 100 }

/-- The block with that group, `NOW` = 130 and a deadline of 30 (95_test_vectors 2.7). -/
def collected : State := { s0 with rsm := [(groupKey, group1)], rsmDeadline := some 30, now := 130 }

/-- The block with an open transaction of a kind: `AT` was sent, one echo line is queued. -/
def sending (k : SendKind) : State :=
  { s0 with cur := ascii "AT", dstate := .awaiting, lock := .held, rq := [ascii "AT"],
            txn := some { kind := k, acc := [], dl := 1 } }

/-- The block closed. -/
def closedState : State := { s0 with closed := true, dstate := .closed }

/-! ### WellFormed: an ill-formed term for each check, which the check refuses -/

theorem test_wf_address : Instr.wf (.addrDec { len := 3, toa := 0x81, val := [0x21] }) = false := by decide
theorem test_wf_address_ser : Instr.wf (.addrSer { len := 0, toa := 0x81, val := [0x21] }) = false := by decide
theorem test_wf_limit : Instr.wf (.udhDec [0x00] 0 2) = false := by decide
theorem test_wf_element : Instr.wf (.udhGetconcat [{ iei := 0x24, ied := List.replicate 256 0 }]) = false := by
  decide +kernel
theorem test_wf_year_low : Instr.wf (.sctsEnc { stampFields with year := 1969 }) = false := by decide
theorem test_wf_year_high : Instr.wf (.sctsEnc { stampFields with year := 2070 }) = false := by decide
theorem test_wf_month : Instr.wf (.sctsEnc { stampFields with month := 100 }) = false := by decide
theorem test_wf_day : Instr.wf (.sctsEnc { stampFields with day := 100 }) = false := by decide
theorem test_wf_hour : Instr.wf (.sctsEnc { stampFields with hour := 100 }) = false := by decide
theorem test_wf_minute : Instr.wf (.sctsEnc { stampFields with minute := 100 }) = false := by decide
theorem test_wf_second : Instr.wf (.sctsEnc { stampFields with second := 100 }) = false := by decide
theorem test_wf_zone_step : Instr.wf (.sctsEnc { stampFields with tzMin := 7 }) = false := by decide
theorem test_wf_zone_range : Instr.wf (.sctsEnc { stampFields with tzMin := -1200 }) = false := by decide
theorem test_wf_submit_address :
    Instr.wf (.tpduSerSubmit { helloSubmit with da := { phone with len := 2 } }) = false := by decide
theorem test_wf_submit_header :
    Instr.wf (.tpduSerSubmit { helloSubmit with udh := some [{ iei := 0, ied := List.replicate 256 0 }] }) = false := by
  decide +kernel
theorem test_wf_deliver_address :
    Instr.wf (.tpduSerDeliver { segment1 with oa := { phone with len := 2 } }) = false := by decide
theorem test_wf_collect :
    Instr.wf (.collect { segment1 with udh := some [{ iei := 0, ied := List.replicate 256 0 }] }) = false := by
  decide +kernel
theorem test_wf_smsc : Instr.wf (.frameEnc (some { toa := 0x91, val := List.replicate 255 0 }) []) = false := by
  decide +kernel
theorem test_wf_deadline : Instr.wf (.rsmCfg (some 0)) = false := by decide
theorem test_wf_line_empty : Instr.wf (.lnParse []) = false := by decide
theorem test_wf_line_trimmed : Instr.wf (.lnClassify [0x20, 0x41] []) = false := by decide
theorem test_wf_timeout : Instr.wf (.lnCfg (.cmdTimeout 0)) = false := by decide
theorem test_wf_cmdset : Instr.wf (.lnCfg (.cmdset [([0x41], []), ([0x41], [0x42])])) = false := by decide
theorem test_wf_toa_named : Instr.wf (.toa 1 1 0 []) = false ∧ Instr.wf (.toa 0 1 0 []) = false ∧
    Instr.wf (.toa 5 0 0 []) = false := by decide
theorem test_wf_iei : Instr.wf (.ieiOther 0x00 []) = false ∧ Instr.wf (.ieiOther 0x08 []) = false := by decide
theorem test_wf_iei_length : Instr.wf (.ieiConcat8 (List.replicate 256 0)) = false ∧
    Instr.wf (.ieiConcat16 (List.replicate 256 0)) = false ∧
    Instr.wf (.ieiOther 1 (List.replicate 256 0)) = false := by decide +kernel
theorem test_wf_smsc_length : Instr.wf (.smscPresent 0 []) = false := by decide
theorem test_wf_septet : Instr.wf (.gsm7Default 0x1B []) = false := by decide

/-- The decoder refuses an ill-typed operand by name (R43). -/
theorem test_decode_ill_typed : decode [0x22, 0x00, 0x03, 0x81, 0x01, 0x21] = .error .illTyped := by decide
theorem test_decode_truncated : decode [0x16, 0x00, 0x02, 0xDE] = .error .truncated := by decide
theorem test_decode_no_such : decode [0x99, 0x08] = .error .noSuchOperation := by decide

/-! ### Decode: a word written out for every constructor (codes of R90, wire octets of R91) -/

theorem test_decode_gsm7Enc :
    decode [0x10, 0x00, 0x02, 0x41, 0xAC, 0x41] =
      .ok (.gsm7Enc ['A', Char.ofNat 0x20AC], []) := by decide
theorem test_decode_gsm7Dec : decode [0x11, 0x00, 0x02, 0x1B, 0x65] = .ok (.gsm7Dec [0x1B, 0x65], []) := by decide
theorem test_decode_pack7 : decode [0x12, 0x00, 0x02, 0x68, 0x65, 0x06] = .ok (.pack7 [0x68, 0x65] 6, []) := by decide
theorem test_decode_unpack7 :
    decode [0x13, 0x00, 0x02, 0xE8, 0x32, 0x02, 0x01] =
      .ok (.unpack7 [0xE8, 0x32] 2 1, []) := by decide
theorem test_decode_ucs2Enc :
    decode [0x14, 0x00, 0x01, 0x80, 0xEC, 0x07] =
      .ok (.ucs2Enc [Char.ofNat 0x1F600], []) := by decide
theorem test_decode_ucs2Dec : decode [0x15, 0x00, 0x02, 0x4F, 0x60] = .ok (.ucs2Dec [0x4F, 0x60], []) := by decide
theorem test_decode_oct8 : decode [0x16, 0x00, 0x02, 0xDE, 0xAD] = .ok (.oct8 [0xDE, 0xAD], []) := by decide
theorem test_decode_addrEnc : decode [0x20, 0x00, 0x02, 0x2B, 0x31] = .ok (.addrEnc [0x2B, 0x31], []) := by decide
theorem test_decode_addrEncAlnum : decode [0x21, 0x00, 0x01, 0x49] = .ok (.addrEncAlnum ['I'], []) := by decide
theorem test_decode_addrDec :
    decode [0x22, 0x00, 0x05, 0x81, 0x03, 0x21, 0x43, 0xF5] =
      .ok (.addrDec { len := 5, toa := 0x81, val := [0x21, 0x43, 0xF5] }, []) := by decide
theorem test_decode_addrSer :
    decode [0x23, 0x00, 0x05, 0x81, 0x03, 0x21, 0x43, 0xF5] =
      .ok (.addrSer { len := 5, toa := 0x81, val := [0x21, 0x43, 0xF5] }, []) := by decide
theorem test_decode_addrParse :
    decode [0x24, 0x00, 0x02, 0x00, 0x81, 0x07] =
      .ok (.addrParse [0x00, 0x81] 7, []) := by decide
theorem test_decode_udhEnc :
    decode [0x30, 0x00, 0x01, 0x24, 0x01, 0x09] =
      .ok (.udhEnc [{ iei := 0x24, ied := [0x09] }], []) := by decide
theorem test_decode_udhDec :
    decode [0x31, 0x00, 0x02, 0x01, 0x00, 0x01, 0x02] =
      .ok (.udhDec [0x01, 0x00] 1 2, []) := by decide
theorem test_decode_udhConcat8 : decode [0x32, 0x00, 0x42, 0x02, 0x01] = .ok (.udhConcat8 0x42 2 1, []) := by decide
theorem test_decode_udhConcat16 :
    decode [0x33, 0x00, 0xB4, 0x24, 0x03, 0x02] =
      .ok (.udhConcat16 0x1234 3 2, []) := by decide
theorem test_decode_udhGetconcat :
    decode [0x34, 0x00, 0x01, 0x00, 0x03, 0x42, 0x02, 0x01] =
      .ok (.udhGetconcat [element 1], []) := by decide
theorem test_decode_dcsMk : decode [0x40, 0x00, 0x02, 0x01] = .ok (.dcsMk .ucs2 true, []) := by decide
theorem test_decode_dcsAlpha : decode [0x41, 0x00, 0xF4] = .ok (.dcsAlpha 0xF4, []) := by decide
theorem test_decode_dcsFlash : decode [0x42, 0x00, 0x10] = .ok (.dcsFlash 0x10, []) := by decide
theorem test_decode_sctsDec :
    decode [0x43, 0x00, 0x42, 0x50, 0x71, 0x90, 0x03, 0x54, 0x23] =
      .ok (.sctsDec stamp, []) := by decide
theorem test_decode_sctsEnc :
    decode [0x44, 0x00, 0x36, 0x05, 0x11, 0x09, 0x1E, 0x2D, 0x00, 0x20] =
      .ok (.sctsEnc stampFields, []) := by decide
theorem test_decode_udBuild :
    decode [0x45, 0x00, 0x00, 0x00, 0x00, 0x01, 0x41] =
      .ok (.udBuild 0x00 none (.septets [0x41]), []) := by decide
theorem test_decode_udSplit :
    decode [0x46, 0x00, 0x04, 0x01, 0x02, 0x01, 0x41, 0x03] =
      .ok (.udSplit 0x04 true [0x01, 0x41] 3, []) := by decide
theorem test_decode_tpduSerSubmit :
    decode [0x47, 0x00, 0x00, 0x01, 0x00, 0x2A, 0x05, 0x81, 0x03, 0x21, 0x43, 0xF5, 0x00, 0x01, 0xA7, 0x07,
      0x04, 0x00, 0x01, 0x01, 0x41] =
      .ok (.tpduSerSubmit
      { rd := false, srr := true, rp := false, mr := 0x2A, da := { len := 5, toa := 0x81, val := [0x21, 0x43, 0xF5] }, pid := 7, dcs := 4,
        vp := .relative 0xA7, udh := none, body := .octets [0x41] }, []) := by decide
theorem test_decode_tpduSerDeliver :
    decode [0x48, 0x00, 0x01, 0x00, 0x01, 0x00, 0x05, 0x81, 0x03, 0x21, 0x43, 0xF5, 0x42, 0x50, 0x71, 0x90,
      0x03, 0x54, 0x23, 0x00, 0x04, 0x01, 0x01, 0x00, 0x03, 0x42, 0x02, 0x01, 0x01, 0x00] =
      .ok (.tpduSerDeliver
      { mms := true, lp := false, sri := true, rp := false, oa := { len := 5, toa := 0x81, val := [0x21, 0x43, 0xF5] }, pid := 0, dcs := 4,
        scts := stamp, udh := some [element 1], body := .octets [] }, []) := by decide
theorem test_decode_tpduParse : decode [0x49, 0x00, 0x02, 0x03, 0x00] = .ok (.tpduParse [0x03, 0x00], []) := by decide
theorem test_decode_frameEnc :
    decode [0x50, 0x00, 0x01, 0x91, 0x01, 0x21, 0x02, 0x01, 0x00] =
      .ok (.frameEnc (some { toa := 0x91, val := [0x21] }) [0x01, 0x00], []) := by decide
theorem test_decode_frameDec : decode [0x51, 0x00, 0x02, 0x30, 0x30] = .ok (.frameDec [0x30, 0x30], []) := by decide
theorem test_decode_segment :
    decode [0x60, 0x00, 0x00, 0x01, 0x01, 0x41, 0x01, 0x31] =
      .ok (.segment (.forceUcs2 ['A']) [0x31], []) := by decide
theorem test_decode_collect :
    decode [0x70, 0x00, 0x00, 0x01, 0x00, 0x01, 0x05, 0x81, 0x03, 0x21, 0x43, 0xF5, 0x42, 0x50, 0x71, 0x90,
      0x03, 0x54, 0x23, 0x00, 0x04, 0x00, 0x01, 0x01, 0x41] =
      .ok (.collect
      { mms := false, lp := true, sri := false, rp := true, oa := { len := 5, toa := 0x81, val := [0x21, 0x43, 0xF5] }, pid := 0, dcs := 4,
        scts := stamp, udh := none, body := .octets [0x41] }, []) := by decide
theorem test_decode_rsmCfg : decode [0x71, 0x00, 0x01, 0x1E] = .ok (.rsmCfg (some 30), []) := by decide
theorem test_decode_lnParse : decode [0x80, 0x00, 0x4F, 0x01, 0x4B] = .ok (.lnParse [0x4F, 0x4B], []) := by decide
theorem test_decode_lnClassify :
    decode [0x81, 0x00, 0x4F, 0x01, 0x4B, 0x01, 0x41] =
      .ok (.lnClassify [0x4F, 0x4B] [0x41], []) := by decide
theorem test_decode_send : decode [0x82, 0x00, 0x02, 0x41, 0x54] = .ok (.send [0x41, 0x54], []) := by decide
theorem test_decode_sendExpect :
    decode [0x83, 0x00, 0x02, 0x41, 0x54, 0x01, 0x4F] =
      .ok (.sendExpect [0x41, 0x54] [0x4F], []) := by decide
theorem test_decode_simpleQuery :
    decode [0x84, 0x00, 0x02, 0x41, 0x54] =
      .ok (.simpleQuery [0x41, 0x54], []) := by decide
theorem test_decode_close : decode [0x85, 0x00] = .ok (.close, []) := by decide
theorem test_decode_isOpen : decode [0x86, 0x00] = .ok (.isOpen, []) := by decide
theorem test_decode_lnCfg : decode [0x87, 0x00, 0x01, 0x01, 0x05] = .ok (.lnCfg (.cmdTimeout 5), []) := by decide
theorem test_decode_expire : decode [0xE0, 0x00] = .ok (.expire, []) := by decide
theorem test_decode_lnRx : decode [0xE1, 0x00, 0x0D] = .ok (.lnRx 0x0D, []) := by decide
theorem test_decode_lnTimeout : decode [0xE2, 0x00] = .ok (.lnTimeout, []) := by decide
theorem test_decode_lnEos : decode [0xE3, 0x00] = .ok (.lnEos, []) := by decide
theorem test_decode_foSubmitVpAbsent :
    decode [0x65, 0x01, 0x01, 0x2A] =
      .ok (.foSubmitVpAbsent false true true true [0x2A], []) := by decide
theorem test_decode_foSubmitVpRelative :
    decode [0x11, 0x01, 0x01, 0x2A] =
      .ok (.foSubmitVpRelative false false false false [0x2A], []) := by decide
theorem test_decode_foSubmitVpEnhanced :
    decode [0x89, 0x01, 0x01, 0x2A] =
      .ok (.foSubmitVpEnhanced true false false false [0x2A], []) := by decide
theorem test_decode_foSubmitVpAbsolute :
    decode [0x1D, 0x01, 0x01, 0x2A] =
      .ok (.foSubmitVpAbsolute false false false true [0x2A], []) := by decide
theorem test_decode_foDeliver :
    decode [0x54, 0x01, 0x01, 0x0D] =
      .ok (.foDeliver false true false true false true [0x0D], []) := by decide
theorem test_decode_foStatusReport : decode [0xAA, 0x01, 0x00] = .ok (.foStatusReport 0b101010 [], []) := by decide
theorem test_decode_foReservedMti : decode [0x03, 0x01, 0x00] = .ok (.foReservedMti 0 [], []) := by decide
theorem test_decode_dcsGsm7 :
    decode [0x11, 0x02, 0x00, 0x01, 0x00] =
      .ok (.dcsGsm7 0 true 1 false [0x00], []) := by decide
theorem test_decode_dcs8bit :
    decode [0xF4, 0x02, 0x01, 0x01, 0x00] =
      .ok (.dcs8bit 7 true 0 true [0x00], []) := by decide
theorem test_decode_dcsUcs2 : decode [0x18, 0x02, 0x00, 0x00] = .ok (.dcsUcs2 0 true 0 false [], []) := by decide
theorem test_decode_dcsReserved :
    decode [0x0C, 0x02, 0x00, 0x00] =
      .ok (.dcsReserved 0 false 0 false [], []) := by decide
theorem test_decode_toa : decode [0xA1, 0x03, 0x01, 0x01, 0xF1] = .ok (.toa 2 1 1 [0xF1], []) := by decide
theorem test_decode_toaInternational :
    decode [0x91, 0x03, 0x01, 0x01, 0xF1] =
      .ok (.toaInternational 1 [0xF1], []) := by decide
theorem test_decode_toaUnknown : decode [0x81, 0x03, 0x01, 0x01, 0xF1] = .ok (.toaUnknown 1 [0xF1], []) := by decide
theorem test_decode_toaAlphanumeric :
    decode [0xD0, 0x03, 0x02, 0x01, 0x41] =
      .ok (.toaAlphanumeric 2 [0x41], []) := by decide
theorem test_decode_toaBit7Clear :
    decode [0x51, 0x03, 0x01, 0x01, 0xF1] =
      .ok (.toaBit7Clear 0x51 1 [0xF1], []) := by decide
theorem test_decode_ieiConcat8 :
    decode [0x00, 0x04, 0x03, 0x42, 0x02, 0x01] =
      .ok (.ieiConcat8 [0x42, 0x02, 0x01], []) := by decide
theorem test_decode_ieiConcat16 :
    decode [0x08, 0x04, 0x04, 0x12, 0x34, 0x03, 0x02] =
      .ok (.ieiConcat16 [0x12, 0x34, 0x03, 0x02], []) := by decide
theorem test_decode_ieiOther : decode [0x24, 0x04, 0x01, 0x01] = .ok (.ieiOther 0x24 [0x01], []) := by decide
theorem test_decode_smscNone : decode [0x00, 0x05, 0x01, 0xAA] = .ok (.smscNone [0xAA], []) := by decide
theorem test_decode_smscPresent : decode [0x07, 0x05, 0x00] = .ok (.smscPresent 7 [], []) := by decide
theorem test_decode_gsm7Escape : decode [0x1B, 0x06, 0x01, 0x65] = .ok (.gsm7Escape [0x65], []) := by decide
theorem test_decode_gsm7Default : decode [0x41, 0x06, 0x01, 0x00] = .ok (.gsm7Default 0x41 [0x00], []) := by decide
theorem test_decode_frameCommit :
    decode [0x1A, 0x07, 0x02, 0x30, 0x30] =
      .ok (.frameCommit [0x30, 0x30], []) := by decide
theorem test_decode_frameAbort : decode [0x1B, 0x07, 0x00] = .ok (.frameAbort [], []) := by decide
theorem test_decode_lineCr : decode [0x0D, 0x07] = .ok (.lineCr, []) := by decide
theorem test_decode_lineLf : decode [0x0A, 0x07] = .ok (.lineLf, []) := by decide

/-- A bare octet that is no code of R90 is read by its most specific row (notes/assumptions/7.md). -/
theorem test_decode_bare : decode [0x91, 0x00, 0x01, 0x01, 0xF1] = .ok (.toaInternational 1 [0xF1], []) ∧
    decode [0x08, 0x00, 0x00] = .ok (.ieiConcat16 [], []) ∧ decode [0x0D, 0x00] = .ok (.lineCr, []) ∧
    decode [0x01, 0x00, 0x00] = .ok (.foSubmitVpAbsent false false false false [], []) := by decide

/-! ### Alphabet (95_test_vectors 2.1) -/

theorem test_gsm7Enc : said s0 (.gsm7Enc [Char.ofNat 0x20AC, 'u', 'r', 'o', '@']) =
    [.result 0x10 (.ok (.septets [0x1B, 0x65, 0x75, 0x72, 0x6F, 0x00]))] := by decide
theorem test_gsm7Enc_error : said s0 (.gsm7Enc ['a', Char.ofNat 0x00E7]) =
    [.result 0x10 (.err .unsupportedAlphabet)] := by decide
theorem test_gsm7Dec : said s0 (.gsm7Dec [0x1B, 0x65, 0x75, 0x72, 0x6F]) =
    [.result 0x11 (.ok (.text [Char.ofNat 0x20AC, 'u', 'r', 'o']))] := by decide
theorem test_gsm7Dec_error : said s0 (.gsm7Dec [0x41, 0x1B]) = [.result 0x11 (.err .unsupportedAlphabet)] ∧
    said s0 (.gsm7Dec [0x1B, 0x41]) = [.result 0x11 (.err .unsupportedAlphabet)] := by decide
theorem test_pack7 : said s0 (.pack7 [0x48, 0x65, 0x6C, 0x6C, 0x6F] 0) =
    [.result 0x12 (.ok (.octets [0xC8, 0x32, 0x9B, 0xFD, 0x06]))] := by decide
theorem test_pack7_fill : said s0 (.pack7 hello 1) =
    [.result 0x12 (.ok (.octets [0xD0, 0x65, 0x36, 0xFB, 0x0D]))] := by decide
theorem test_unpack7 : said s0 (.unpack7 [0xD0, 0x65, 0x36, 0xFB, 0x0D] 5 1) =
    [.result 0x13 (.ok (.septets hello))] := by decide
theorem test_unpack7_short : said s0 (.unpack7 [0xE8, 0x32, 0x9B, 0xFD] 5 0) = [.result 0x13 (.err .badPdu)] := by
  decide
theorem test_ucs2Enc : said s0 (.ucs2Enc ['A', Char.ofNat 0x20AC, Char.ofNat 0x1F600]) =
    [.result 0x14 (.ok (.octets [0x00, 0x41, 0x20, 0xAC, 0xD8, 0x3D, 0xDE, 0x00]))] := by decide
theorem test_ucs2Dec : said s0 (.ucs2Dec [0x00, 0x41, 0x20, 0xAC, 0xD8, 0x3D, 0xDE, 0x00]) =
    [.result 0x15 (.ok (.text ['A', Char.ofNat 0x20AC, Char.ofNat 0x1F600]))] := by decide
theorem test_ucs2Dec_error : said s0 (.ucs2Dec [0xD8, 0x3D, 0x00, 0x41]) = [.result 0x15 (.err .badPdu)] := by decide
theorem test_oct8 : said s0 (.oct8 [0xDE, 0xAD]) = [.result 0x16 (.ok (.octets [0xDE, 0xAD]))] := by decide

/-! ### Addresses (95_test_vectors 2.2) -/

theorem test_addrEnc : said s0 (.addrEnc (ascii "+1 (555) 010-9999")) = [.result 0x20 (.ok (.address
    { len := 11, toa := 0x91, val := [0x51, 0x55, 0x10, 0x90, 0x99, 0xF9] }))] := by decide
theorem test_addrEnc_error : said s0 (.addrEnc (List.replicate 21 0x31)) = [.result 0x20 (.err .badAddress)] := by
  decide
theorem test_addrEncAlnum : said s0 (.addrEncAlnum "ABCDEFG".toList) = [.result 0x21 (.ok (.address
    { len := 13, toa := 0xD0, val := [0x41, 0xE1, 0x90, 0x58, 0x34, 0x1E, 0x01] }))] := by decide
theorem test_addrEncAlnum_error : said s0 (.addrEncAlnum "ABCDEFGHIJKL".toList) =
    [.result 0x21 (.err .badAddress)] := by decide
theorem test_addrDec : said s0 (.addrDec phone) = [.result 0x22 (.ok (.ascii (ascii "+8613800138000")))] := by decide
theorem test_addrDec_error : said s0 (.addrDec { len := 5, toa := 0x81, val := [0x21, 0x43, 0x05] }) =
    [.result 0x22 (.err .badAddress)] := by decide
theorem test_addrSer : said s0 (.addrSer { len := 7, toa := 0xD0, val := [0x49, 0xB7, 0xF9, 0x0D] }) =
    [.result 0x23 (.ok (.octets [0x07, 0xD0, 0x49, 0xB7, 0xF9, 0x0D]))] := by decide
theorem test_addrParse : said s0 (.addrParse [0x0B, 0x91, 0x68, 0x31, 0x80, 0x10, 0x83, 0xF0, 0x00] 0) =
    [.result 0x24 (.ok (.addressAt { len := 11, toa := 0x91, val := [0x68, 0x31, 0x80, 0x10, 0x83, 0xF0] } 8))] := by
  decide
theorem test_addrParse_error : said s0 (.addrParse [0x01, 0x01, 0xF1] 0) = [.result 0x24 (.err .badAddress)] := by
  decide

/-! ### User-data headers (95_test_vectors 2.3) -/

theorem test_udhEnc : said s0 (.udhEnc [{ iei := 0x24, ied := [0x01] }, { iei := 0x00, ied := [0x07, 0x03, 0x03] }]) =
    [.result 0x30 (.ok (.octets [0x08, 0x24, 0x01, 0x01, 0x00, 0x03, 0x07, 0x03, 0x03]))] := by decide
theorem test_udhEnc_error : said s0 (.udhEnc (List.replicate 2 { iei := 0, ied := List.replicate 127 0 })) =
    [.result 0x30 (.err .badUdh)] := by decide +kernel
theorem test_udhDec : said s0 (.udhDec [0x05, 0x00, 0x03, 0x42, 0x02, 0x01, 0x4F, 0x60] 0 8) =
    [.result 0x31 (.ok (.elementsAt [element 1] 6))] := by decide
theorem test_udhDec_error : said s0 (.udhDec [0x01, 0x00] 0 2) = [.result 0x31 (.err .badUdh)] := by decide
theorem test_udhConcat8 : said s0 (.udhConcat8 0x42 2 1) = [.result 0x32 (.ok (.element (element 1)))] := by decide
theorem test_udhConcat8_error : said s0 (.udhConcat8 1 2 3) = [.result 0x32 (.err .badUdh)] := by decide
theorem test_udhConcat16 : said s0 (.udhConcat16 0x1234 3 2) =
    [.result 0x33 (.ok (.element { iei := 0x08, ied := [0x12, 0x34, 0x03, 0x02] }))] := by decide
theorem test_udhGetconcat : said s0 (.udhGetconcat [{ iei := 0x08, ied := [0x12, 0x34, 0x03, 0x02] }]) =
    [.result 0x34 (.ok (.concat (some { w := .w16, ref := 0x1234, total := 3, seq := 2 })))] := by decide
theorem test_udhGetconcat_error :
    said s0 (.udhGetconcat [element 1, { iei := 0x08, ied := [0x00, 0x42, 0x02, 0x01] }]) =
      [.result 0x34 (.err .badUdh)] := by decide

/-! ### TPDUs (95_test_vectors 1.5, 1.6, 2.4) -/

theorem test_dcsMk : said s0 (.dcsMk .ucs2 true) = [.result 0x40 (.ok (.octet 0x18))] := by decide
theorem test_dcsAlpha : said s0 (.dcsAlpha 0xF4) = [.result 0x41 (.ok (.alphabet (some .bit8)))] ∧
    said s0 (.dcsAlpha 0x0C) = [.result 0x41 (.ok (.alphabet none))] := by decide
theorem test_dcsFlash : said s0 (.dcsFlash 0xF4) = [.result 0x42 (.ok (.bit true))] := by decide
theorem test_sctsDec : said s0 (.sctsDec
    { o0 := 0x99, o1 := 0x21, o2 := 0x13, o3 := 0x32, o4 := 0x95, o5 := 0x95, o6 := 0x0A }) =
    [.result 0x43 (.ok (.timestamp
      { year := 1999, month := 12, day := 31, hour := 23, minute := 59, second := 59, tzMin := -300 }))] := by decide
theorem test_sctsDec_error : said s0 (.sctsDec { stamp with o0 := 0x4A }) = [.result 0x43 (.err .badPdu)] := by decide
theorem test_sctsEnc : said s0 (.sctsEnc
    { year := 1999, month := 12, day := 31, hour := 23, minute := 59, second := 59, tzMin := -300 }) =
    [.result 0x44 (.ok (.octets [0x99, 0x21, 0x13, 0x32, 0x95, 0x95, 0x0A]))] := by decide
theorem test_udBuild : said s0 (.udBuild 0x00 (some [element 1]) (.septets hello)) =
    [.result 0x45 (.ok (.userData 12
      [0x05, 0x00, 0x03, 0x42, 0x02, 0x01, 0xD0, 0x65, 0x36, 0xFB, 0x0D]))] := by decide
theorem test_udBuild_error : said s0 (.udBuild 0x00 none (.septets (List.replicate 161 0x61))) =
    [.result 0x45 (.err .badPdu)] := by decide +kernel
theorem test_udSplit :
    said s0 (.udSplit 0x00 true [0x0C, 0x05, 0x00, 0x03, 0x42, 0x02, 0x01, 0xD0, 0x65, 0x36, 0xFB, 0x0D] 0) =
      [.result 0x46 (.ok (.split (some [element 1]) (.septets hello) 12))] := by decide
theorem test_tpduSerSubmit :
    said s0 (.tpduSerSubmit { helloSubmit with srr := true, mr := 0x2A, vp := .relative 0xA7 }) =
      [.result 0x47 (.ok (.octets [0x31, 0x2A, 0x0D, 0x91, 0x68, 0x31, 0x08, 0x10, 0x83, 0x00, 0xF0, 0x00, 0x00, 0xA7,
        0x05, 0xE8, 0x32, 0x9B, 0xFD, 0x06]))] := by decide
theorem test_tpduSerSubmit_default : said s0 (.tpduSerSubmit helloSubmit) =
    [.result 0x47 (.ok (.octets helloOctets))] := by decide
theorem test_tpduSerDeliver : said s0 (.tpduSerDeliver segment1) = [.result 0x48 (.ok (.octets segment1Octets))] := by
  decide
theorem test_tpduParse : said s0 (.tpduParse (0x54 :: segment1Octets.tail)) =
    [.result 0x49 (.ok (.tpdu (.deliver segment1)))] := by decide
theorem test_tpduParse_error : said s0 (.tpduParse [0x41, 0x00, 0x01, 0x81, 0xF1, 0x00, 0x00, 0x01, 0x00]) =
    [.result 0x49 (.err .badUdh)] := by decide

/-! ### Frames (95_test_vectors 2.5) -/

theorem test_frameEnc : said s0 (.frameEnc (some { toa := 0x91, val := phone.val }) helloOctets) =
    [.result 0x50 (.ok (.frame 19 (ascii "0891683108108300F001000D91683108108300F0000005E8329BFD06")))] := by
  decide +kernel
theorem test_frameDec : said s0 (.frameDec (ascii "0891683108108300f00100")) =
    [.result 0x51 (.ok (.unframed (some { toa := 0x91, val := phone.val }) [0x01, 0x00]))] := by decide
theorem test_frameDec_error : said s0 (.frameDec (ascii "0791")) = [.result 0x51 (.err .badPdu)] ∧
    said s0 (.frameDec (ascii "0G")) = [.result 0x51 (.err .badPdu)] := by decide

/-! ### Segmenter (95_test_vectors 2.6) -/

/-- 141 octets is the least 8-bit payload that is cut (R221). -/
theorem test_segment : said { s0 with refcnt := 0xFF } (.segment (.force8bit (List.replicate 141 0x07)) (ascii "1")) =
    [.result 0x60 (.ok (.submits
      [{ helloSubmit with da := { len := 1, toa := 0x81, val := [0xF1] }, dcs := 0x04,
                          udh := some [{ iei := 0x00, ied := [0xFF, 0x02, 0x01] }],
                          body := .octets (List.replicate 134 0x07) },
        { helloSubmit with da := { len := 1, toa := 0x81, val := [0xF1] }, dcs := 0x04,
                           udh := some [{ iei := 0x00, ied := [0xFF, 0x02, 0x02] }],
                           body := .octets (List.replicate 7 0x07) }]))] := by decide +kernel
theorem test_segment_escape :
    segmentChunks .gsm7 (.septets (List.replicate 152 0x61 ++ [0x1B, 0x65] ++ List.replicate 10 0x62)) =
      [.septets (List.replicate 152 0x61), .septets (0x1B :: 0x65 :: List.replicate 10 0x62)] := by decide +kernel

/-! ### Reassembler (95_test_vectors 2.7) -/

theorem test_collect : said collected (.collect segment2) =
    [.result 0x70 (.ok (.delivers [segment1, segment2]))] ∧ (after collected (.collect segment2)).rsm = [] := by decide
theorem test_collect_first : (after { s0 with now := 100 } (.collect segment1)).rsm = [(groupKey, group1)] ∧
    said collected (.collect segment1) = [.result 0x70 (.err .duplicateSegment)] := by decide
theorem test_rsmCfg : (after s0 (.rsmCfg (some 30))).rsmDeadline = some 30 := by decide
theorem test_expire : said collected .expire = [.event (.expired .reassemblyTimeout .w8 0x42 2 1)] ∧ (after collected .expire).rsm = [] := by
  decide
theorem test_expire_early : after { collected with now := 129 } .expire = { collected with now := 129 } := by decide

/-! ### Line unit (95_test_vectors 2.8) -/

theorem test_lnParse : said s0 (.lnParse (ascii "+CMTI: \"SM\",3")) =
    [.result 0x80 (.ok (.parsed (ascii "+CMTI") [ascii "SM", ascii "3"]))] := by decide
theorem test_lnParse_quotes : said s0 (.lnParse (ascii "+X: \"a,b\"")) =
    [.result 0x80 (.ok (.parsed (ascii "+X") [ascii "\"a", ascii "b\""]))] := by decide
theorem test_lnClassify : said s0 (.lnClassify (ascii "+CREG: 0,1") (ascii "AT+CREG?")) =
    [.result 0x81 (.ok (.lineClass .intermediate))] := by decide
theorem test_lnClassify_urc : said s0 (.lnClassify (ascii "+CREG: 1") (ascii "AT+CSQ")) =
    [.result 0x81 (.ok (.lineClass .urc))] := by decide
theorem test_send : said s0 (.send (ascii "AT")) = [.tx [0x41, 0x54, 0x0D, 0x0A] (.took 4)] ∧
    (after s0 (.send (ascii "AT"))).dstate = .awaiting := by decide
theorem test_send_short : said { s0 with txIn := [.took 2] } (.send (ascii "AT")) =
    [.tx [0x41, 0x54, 0x0D, 0x0A] (.took 2), .result 0x82 (.err .incompleteWrite)] := by decide
theorem test_sendExpect : (after s0 (.sendExpect (ascii "AT") (ascii "OK"))).txn =
    some { kind := .expect (ascii "OK"), acc := [], dl := 1 } := by decide
theorem test_sendExpect_closed : said closedState (.sendExpect (ascii "AT") (ascii "OK")) =
    [.result 0x83 (.err .closed)] := by decide
theorem test_simpleQuery : (after (sending .send) (.simpleQuery (ascii "AT+CSQ"))).waiters =
    [{ kind := .query, text := ascii "AT+CSQ" }] := by decide
theorem test_close : said (sending .query) .close =
    [.portClose, .result 0x84 (.err .closed), .result 0x85 (.ok .none)] := by decide
theorem test_isOpen : said s0 .isOpen = [.result 0x86 (.ok (.bit true))] ∧
    said closedState .isOpen = [.result 0x86 (.ok (.bit false))] := by decide
theorem test_lnCfg : (after s0 (.lnCfg (.finals [ascii "OK"]))).finals = [ascii "OK"] := by decide
theorem test_lnRx : after { s0 with lbuf := ascii "+CMTI: \"SM\",3" } (.lnRx 0x0D) =
    { s0 with out := [.event (.urc (ascii "+CMTI") [ascii "SM", ascii "3"])] } := by decide
theorem test_lnRx_octet : (after s0 (.lnRx 0x4F)).lbuf = [0x4F] := by decide
/-- R279; the query's result carries the lines or not, as the open parameter says. -/
theorem test_lnTimeout : said { sending .send with now := 1 } .lnTimeout = [.result 0x82 (.errWith .timeout [])] ∧
    said { sending .query with now := 1 } .lnTimeout = [.result 0x84 (.errWith .timeout [])] ∧
    said { sending .query with now := 1, params := { Config.defaults with timeoutLines := { expect := true, query := false } } }
      .lnTimeout = [.result 0x84 (.err .timeout)] := by decide
theorem test_lnTimeout_early : after (sending .send) .lnTimeout = sending .send := by decide
theorem test_lnEos : (after s0 .lnEos).rxEnded = true ∧ (after s0 .lnEos).closed = false := by decide

/-- The take step (R274): the echo is taken, the transaction stays open; a final line ends it. -/
theorem test_take : (sending .send).takeLine.rq = [] ∧
    ({ sending .send with rq := [ascii "OK"] } : State).takeLine.out = [.result 0x82 (.ok (.lines [ascii "OK"]))] := by
  decide
theorem test_take_query : ({ sending .query with rq := [ascii "OK"] } : State).takeLine.out =
    [.result 0x84 (.ok (.line (ascii "OK")))] := by decide

/-! ### Wire values (R91; the octets of 95_test_vectors 2.4 behind their first octet) -/

theorem test_foSubmitVpAbsent : said s0 (.foSubmitVpAbsent false false false false helloOctets.tail) =
    [.result 0x49 (.ok (.tpdu (.submit helloSubmit)))] := by decide
theorem test_foSubmitVpRelative : said s0 (.foSubmitVpRelative false false true false
    [0x2A, 0x01, 0x81, 0xF1, 0x00, 0x04, 0xA7, 0x01, 0x41]) =
    [.result 0x49 (.ok (.tpdu (.submit
      { helloSubmit with srr := true, mr := 0x2A, da := { len := 1, toa := 0x81, val := [0xF1] }, dcs := 0x04,
                         vp := .relative 0xA7, body := .octets [0x41] })))] := by decide
theorem test_foSubmitVpEnhanced : said s0 (.foSubmitVpEnhanced true false false false
    [0x00, 0x00, 0x81, 0x00, 0x04, 0x42, 0x50, 0x71, 0x90, 0x03, 0x54, 0x23, 0x00]) =
    [.result 0x49 (.ok (.tpdu (.submit
      { helloSubmit with rp := true, da := { len := 0, toa := 0x81, val := [] }, dcs := 0x04, vp := .enhanced stamp,
                         body := .octets [] })))] := by decide
theorem test_foSubmitVpAbsolute : said s0 (.foSubmitVpAbsolute false false false true
    [0x00, 0x00, 0x81, 0x00, 0x04, 0x42, 0x50, 0x71, 0x90, 0x03, 0x54, 0x23, 0x00]) =
    [.result 0x49 (.ok (.tpdu (.submit
      { helloSubmit with rd := true, da := { len := 0, toa := 0x81, val := [] }, dcs := 0x04, vp := .absolute stamp,
                         body := .octets [] })))] := by decide
theorem test_foDeliver : said s0 (.foDeliver false true false true false true segment1Octets.tail) =
    [.result 0x49 (.ok (.tpdu (.deliver segment1)))] := by decide
theorem test_foStatusReport : said s0 (.foStatusReport 0 [0x00]) = [.result 0x49 (.err .badPdu)] := by decide
theorem test_foReservedMti : said s0 (.foReservedMti 0 []) = [.result 0x49 (.err .badPdu)] := by decide
theorem test_dcsGsm7 : said s0 (.dcsGsm7 0 true 1 false (5 :: helloPacked)) =
    [.result 0x46 (.ok (.dcsRead (some .gsm7) true none (.septets hello) 6))] := by decide
theorem test_dcs8bit : said s0 (.dcs8bit 7 true 0 false [0x01, 0x41]) =
    [.result 0x46 (.ok (.dcsRead (some .bit8) true none (.octets [0x41]) 2))] := by decide
theorem test_dcsUcs2 : said s0 (.dcsUcs2 0 false 0 true [0x08, 0x05, 0x00, 0x03, 0x42, 0x02, 0x01, 0x4F, 0x60]) =
    [.result 0x46 (.ok (.dcsRead (some .ucs2) false (some [element 1]) (.octets [0x4F, 0x60]) 9))] := by decide
theorem test_dcsReserved : said s0 (.dcsReserved 0 false 0 false [0x00]) =
    [.result 0x46 (.err .unsupportedAlphabet)] := by decide
theorem test_toa : said s0 (.toa 2 1 5 [0x21, 0x43, 0xF5]) = [.result 0x22 (.ok (.ascii (ascii "12345")))] := by decide
theorem test_toaInternational : said s0 (.toaInternational 13 phone.val) =
    [.result 0x22 (.ok (.ascii (ascii "+8613800138000")))] := by decide
theorem test_toaUnknown : said s0 (.toaUnknown 4 [0x21, 0xA3]) = [.result 0x22 (.err .badAddress)] := by decide
theorem test_toaAlphanumeric : said s0 (.toaAlphanumeric 7 [0x49, 0xB7, 0xF9, 0x0D]) =
    [.result 0x22 (.ok (.text "Info".toList))] := by decide
theorem test_toaBit7Clear : said s0 (.toaBit7Clear 0x01 1 [0xF1]) = [.result 0x22 (.err .badAddress)] := by decide
theorem test_ieiConcat8 : said s0 (.ieiConcat8 [0x42, 0x02, 0x01]) = [.result 0x34 (.ok (.elementRead (element 1)
    (some { w := .w8, ref := 0x42, total := 2, seq := 1 })))] := by decide
theorem test_ieiConcat16 : said s0 (.ieiConcat16 [0x12, 0x34, 0x03, 0x02]) =
    [.result 0x34 (.ok (.elementRead { iei := 0x08, ied := [0x12, 0x34, 0x03, 0x02] }
      (some { w := .w16, ref := 0x1234, total := 3, seq := 2 })))] := by decide
theorem test_ieiOther : said s0 (.ieiOther 0x24 [0x01]) =
    [.result 0x34 (.ok (.elementRead { iei := 0x24, ied := [0x01] } none))] := by decide
theorem test_smscNone : said s0 (.smscNone [0x01]) = [.result 0x51 (.ok (.unframed none [0x01]))] := by decide
theorem test_smscPresent : said s0 (.smscPresent 7 [0x91, 0x21]) = [.result 0x51 (.err .badPdu)] ∧
    said s0 (.smscPresent 2 [0x91, 0x21, 0x01]) =
      [.result 0x51 (.ok (.unframed (some { toa := 0x91, val := [0x21] }) [0x01]))] := by decide
theorem test_gsm7Escape : said s0 (.gsm7Escape [0x65, 0x75]) =
    [.result 0x11 (.ok (.text [Char.ofNat 0x20AC, 'u']))] := by decide
theorem test_gsm7Default : said s0 (.gsm7Default 0x00 [0x41]) = [.result 0x11 (.ok (.text ['@', 'A']))] := by decide
theorem test_frameCommit : said s0 (.frameCommit (ascii "00")) = [.tx [0x30, 0x30, 0x1A] (.took 3)] := by decide
theorem test_frameAbort : said s0 (.frameAbort []) = [.tx [0x1B] (.took 1)] := by decide
theorem test_lineCr : after { s0 with lbuf := ascii " OK" } .lineCr = { s0 with rq := [ascii "OK"] } := by decide
theorem test_lineLf : after { s0 with lbuf := [0x20] } .lineLf = s0 := by decide

/-- `withFetchWord` places an instruction where the next step takes it (`OCT8` with a count of zero). -/
theorem test_withFetchWord : decodeTableWord 8 0x16 = some (.oct8 []) ∧
    (match step (s0.withFetchWord 8 0x16) with
      | .next t => t.out
      | _ => []) = [.result 0x16 (.ok (.octets []))] := by decide

/-- The command text of a frame of 19 octets (R214). -/
theorem test_frameCommand : frameCommand s0 19 = some (ascii "AT+CMGS=19") := by decide

/-! ### Witnesses: a concrete state and operands that meet the hypotheses of each obligation, clause by clause -/

theorem witness_StepRunsPresented : (s0.withFetchWord 8 0x16).nextTurn = .instr ∧
    (∃ rest, decode (s0.withFetchWord 8 0x16).port = .ok (.oct8 [], rest)) ∧ s0.nextTurn = .instr ∧ s0.port = [] :=
  ⟨by decide, ⟨_, rfl⟩, by decide, by decide⟩

theorem witness_StepRunsPresented_errors :
    (let s := { s0 with port := [0x99, 0x08] }; s.nextTurn = .instr ∧ decode s.port = .error .noSuchOperation) ∧
    (let s := { s0 with port := [0x16, 0x00, 0x01] }; s.nextTurn = .instr ∧ decode s.port = .error .truncated) ∧
    (let s := { s0 with port := [0x71, 0x00, 0x01, 0x00] }; s.nextTurn = .instr ∧ decode s.port = .error .illTyped) := by
  decide

theorem witness_DecodeEncodeAgree : Instr.wf (.udhDec [0x00] 0 1) = true ∧ Instr.wf (.toa 7 15 255 []) = true ∧
    Instr.wf (.sctsEnc { stampFields with year := 2069, tzMin := -1185 }) = true := by decide

theorem witness_ResetState : Config.defaults.rqCap = 100 := rfl

/-- The table that holds the first segment is as the invariant says. -/
theorem witness_table : TableOk collected where
  rising := by decide
  groups := by
    intro e he
    obtain rfl : e = (groupKey, group1) := by simpa [collected] using he
    exact ⟨by decide, by decide, by decide, fun e he => by
      obtain rfl : e = (1, segment1) := by simpa [group1] using he
      exact ⟨_, rfl, by decide, by decide⟩, by decide⟩
  capacity := by intro n h; cases h

theorem witness_line : LineUnitOk collected where
  rqBound := by decide
  rqLines := by decide
  lbufOpen := by decide
  lbufBound := by intro n h; cases h
  closed := by decide
  awaiting := by decide
  held := by decide
  notSending := by decide
  quiet := fun _ => rfl
  accLines := by intro x h; cases h
  noWaiters := by decide

theorem witness_StepKeepsInvariant : Inv collected ∧ ∃ t, step collected = .next t :=
  ⟨⟨witness_table, witness_line⟩, _, rfl⟩

/-- The three stops do occur. -/
theorem witness_EveryInstructionCompletes :
    (let s := { s0 with params := { Config.defaults with statusReport := .refuse } };
      exec (.tpduParse [0x02, 0x00]) s = .refused .statusReport ∧
      exec (.foStatusReport 0 []) s = .refused .statusReport) ∧
    exec (.collect segment1) { s0 with params := { Config.defaults with rsmCap := some 0 } } =
      .refused .reassemblyTableFull ∧
    exec (.lnRx 0x41) { s0 with params := { Config.defaults with lbufCap := some 0 } } = .refused .lineBufferFull :=
  ⟨⟨rfl, rfl⟩, rfl, rfl⟩

theorem witness_StateWriters_codec :
    (after s0 (.segment (.force8bit (List.replicate 141 0)) [])).refcnt ≠ s0.refcnt ∧
    (after collected (.collect segment2)).rsm ≠ collected.rsm ∧ (after collected .expire).rsm ≠ collected.rsm ∧
    (after { collected with picks := [1] } .expire).picks ≠ [1] ∧
    (after s0 (.rsmCfg (some 1))).rsmDeadline ≠ s0.rsmDeadline := by decide +kernel

theorem witness_StateWriters_line :
    (after s0 (.lnCfg (.finals []))).finals ≠ s0.finals ∧ (after s0 (.lnCfg (.urcs []))).urcs ≠ s0.urcs ∧
    (after s0 (.lnCfg (.cmdset []))).cmdset ≠ s0.cmdset ∧
    (after s0 (.lnCfg (.cmdTimeout 9))).cmdTimeout ≠ s0.cmdTimeout ∧ (after s0 .close).closed ≠ s0.closed ∧
    (after s0 (.send [0x41])).cur ≠ s0.cur ∧ (after s0 (.send [0x41])).lock ≠ s0.lock ∧
    (after s0 (.send [0x41])).dstate ≠ s0.dstate ∧ (after s0 (.send [0x41])).txn ≠ s0.txn ∧
    (after { s0 with rq := [[0x41]] } (.send [0x41])).rq ≠ [[0x41]] ∧
    (after { s0 with lbuf := [0x41] } .lineCr).rq ≠ s0.rq ∧ (after s0 (.lnRx 0x41)).lbuf ≠ s0.lbuf ∧
    (after (sending .send) (.send [0x41])).waiters ≠ (sending .send).waiters ∧
    (after s0 .lnEos).rxEnded ≠ s0.rxEnded ∧
    (after { s0 with txIn := [.failed] } (.send [0x41])).txIn ≠ [.failed] := by decide

theorem witness_ErrorsArePrecise :
    (pureCode (.dcsAlpha 0) = some 0x41 ∧ ∃ t, exec (.dcsAlpha 0) s0 = .next t) ∧
    (∃ t, exec (.segment (.auto []) []) s0 = .next t) ∧
    (said s0 (.segment (.auto []) (List.replicate 21 0x31)) = [.result 0x60 (.err .badAddress)]) ∧
    (∃ t, exec (.collect segment1) s0 = .next t) ∧
    said collected (.collect segment1) = [.result 0x70 (.err .duplicateSegment)] :=
  ⟨⟨rfl, _, rfl⟩, ⟨_, rfl⟩, by decide, ⟨_, rfl⟩, by decide⟩

theorem witness_HistoryOnlyGrows :
    ∃ t, step { closedState with rxEnded := true, nowIn := [3] } = .next t ∧ t.now = 3 ∧ t.closed = true := ⟨_, rfl, rfl, rfl⟩

theorem witness_Gsm7EncodesByTables :
    (∀ c ∈ ['a'], ¬ (septetOf defaultTable c = none ∧ septetOf extTable c = none)) ∧
    (∃ c ∈ ['a', Char.ofNat 0x00E7], septetOf defaultTable c = none ∧ septetOf extTable c = none) :=
  ⟨fun c hc => by obtain rfl := List.mem_singleton.1 hc; decide, Char.ofNat 0x00E7, by simp, by decide, by decide⟩

theorem witness_Gsm7RoundTrip :
    Replies (.gsm7Enc [Char.ofNat 0x20AC]) s0 0x10 (.ok (.septets [0x1B, 0x65])) ∧
    ∀ t, ¬ Replies (.gsm7Enc t) s0 0x10 (.ok (.septets [0x1B])) := by
  refine ⟨rfl, fun t h => ?_⟩
  obtain ⟨q, h, e⟩ := Laws.ok_of_replies (r := gsm7Enc t) rfl _ h
  injection e with e
  rw [← e, ← Laws.gsm7Dec_eq_ok_iff] at h
  cases h

theorem witness_Pack7BitStream : (0 : Nat) < (pack7 hello 6).length ∧ (0 : Fin 7) = 0 := by decide

theorem witness_Unpack7BitStream : 0 + 7 * 8 ≤ (List.replicate 7 (0xFF : Byte)).length * 8 ∧
    ([0xE8, 0x32, 0x9B, 0xFD] : Octets).length * 8 < 0 + 7 * 5 := by decide

theorem witness_Ucs2RoundTrip : Replies (.ucs2Enc ['A']) s0 0x14 (.ok (.octets [0x00, 0x41])) ∧
    ∀ t, ¬ Replies (.ucs2Enc t) s0 0x14 (.ok (.octets [0x00])) := by
  refine ⟨rfl, fun t h => ?_⟩
  have h := (Laws.replies_ok_iff (i := .ucs2Enc t) (r := .ok (.octets (ucs2Enc t))) rfl _).1 h
  injection h with h
  injection h with h
  rw [← Laws.ucs2Dec_eq_ok_iff] at h
  cases h

theorem witness_AddressEncodes :
    (digitsOf (List.replicate 21 0x31)).length = 21 ∧ (digitsOf (List.replicate 20 0x31)).length = 20 ∧
    Replies (.gsm7Enc [Char.ofNat 0x4F60]) s0 0x10 (.err .unsupportedAlphabet) ∧
    (∃ q, Replies (.gsm7Enc (List.replicate 12 'A')) s0 0x10 (.ok (.septets q)) ∧ 11 < q.length) ∧
    (∃ q, Replies (.gsm7Enc (List.replicate 11 'A')) s0 0x10 (.ok (.septets q)) ∧ q.length ≤ 11) :=
  ⟨by decide, by decide, rfl, ⟨_, rfl, by decide⟩, ⟨_, rfl, by decide⟩⟩

/-- Numeric addresses with and without a fault, an alphanumeric one that decodes and one that does not. -/
theorem witness_AddressDecodes :
    (phone.wf = true ∧ phone.toa.toNat / 16 % 8 ≠ 5 ∧ phone.val.getD 6 0 = 0xF0) ∧
    (({ len := 1, toa := 0x81, val := [0xFA] } : Address).wf = true ∧
      said s0 (.addrDec { len := 1, toa := 0x81, val := [0xFA] }) = [.result 0x22 (.err .badAddress)]) ∧
    (({ len := 2, toa := 0xD0, val := [0x41] } : Address).wf = true ∧
      Replies (.gsm7Dec [0x41]) s0 0x11 (.ok (.text ['A']))) ∧
    (({ len := 2, toa := 0xD0, val := [0x1B] } : Address).wf = true ∧
      Replies (.gsm7Dec [0x1B]) s0 0x11 (.err .unsupportedAlphabet)) :=
  ⟨by decide, by decide, ⟨by decide, rfl⟩, by decide, rfl⟩

theorem witness_AddressRoundTrip : (List.replicate 20 (0x31 : Byte)).length ≤ 20 ∧
    ∃ q, Replies (.gsm7Enc "ABCDEFGHIJK".toList) s0 0x10 (.ok (.septets q)) ∧ q.length ≤ 11 :=
  ⟨by decide, _, rfl, by decide⟩

theorem witness_AddressOctetsRoundTrip : (phone.wf = true ∧ phone.toa.getLsbD 7 = true) ∧
    Replies (.addrParse [0x00, 0x81] 0) s0 0x24 (.ok (.addressAt { len := 0, toa := 0x81, val := [] } 2)) ∧
    ([0x05] : Octets).length < 0 + 2 ∧ (0x01 : Byte).getLsbD 7 = false ∧
    ([0x05, 0x81, 0x21, 0x43] : Octets).length < 0 + 2 + (5 + 1) / 2 :=
  ⟨by decide, rfl, by decide, by decide, by decide⟩

theorem witness_HeaderEncodes : (([{ iei := 0, ied := List.replicate 253 0 }] : List IE).map fun e =>
      2 + e.ied.length).sum ≤ 255 ∧
    255 < (([{ iei := 0, ied := List.replicate 254 0 }] : List IE).map fun e => 2 + e.ied.length).sum := by decide +kernel

theorem witness_HeaderRoundTrip : (udhl [element 1] ≤ 255 ∧ 1 + udhl [element 1] ≤ 6) ∧
    1 ≤ ([0x00] : Octets).length := by decide

theorem witness_ConcatElements :
    (255 ≤ 255 ∧ 2 ≤ 255 ∧ 255 ≤ 255 ∧ 1 ≤ 255 ∧ 255 ≤ 255) ∧ ¬ (2 ≤ 1) ∧ 65535 ≤ 65535 ∧
    (([{ iei := 0x24, ied := [] }] : List IE).filter fun e => e.iei == 0x00 || e.iei == 0x08) = [] ∧
    (([{ iei := 0x24, ied := [] }, element 2] : List IE).filter fun e => e.iei == 0x00 || e.iei == 0x08) =
      [{ iei := 0x00, ied := [0x42, 0x02, 0x02] }] ∧
    (2 ≤ (2 : Byte).toNat ∧ 1 ≤ (2 : Byte).toNat ∧ (2 : Byte).toNat ≤ (2 : Byte).toNat) ∧
    (([{ iei := 0x08, ied := [0x00, 0x42, 0x02, 0x01] }] : List IE).filter fun e => e.iei == 0x00 || e.iei == 0x08) =
      [{ iei := 0x08, ied := [0x00, 0x42, 0x02, 0x01] }] ∧
    (([element 1, element 1] : List IE).filter fun e => e.iei == 0x00 || e.iei == 0x08) ≠ [] := by decide

theorem witness_DataCodingOctets : (0xF3 : Byte) &&& 0x0C = 0x00 ∧ (0xF4 : Byte) &&& 0x0C = 0x04 ∧
    (0x18 : Byte) &&& 0x0C = 0x08 ∧ (0xFF : Byte) &&& 0x0C = 0x0C := by decide

theorem witness_TimestampRoundTrip : stampFields.wf = true ∧
    Replies (.sctsDec stamp) s0 0x43 (.ok (.timestamp stampFields)) ∧ stamp.o6 ≠ 0x08 ∧
    Replies (.sctsDec { stamp with o6 := 0x08 }) s0 0x43 (.ok (.timestamp { stampFields with tzMin := 0 })) ∧
    (∀ b ∈ [stamp.o0, stamp.o1, stamp.o2, stamp.o3, stamp.o4, stamp.o5], b.toNat % 16 ≤ 9 ∧ b.toNat / 16 ≤ 9) ∧
    ¬ (0x4A : Byte).toNat % 16 ≤ 9 :=
  ⟨by decide, rfl, by decide, rfl, by decide, by decide⟩

/-- The four errors of `UD_BUILD` and a header with text that fits exactly: 7 + 153 septets are 140 octets. -/
theorem witness_UserDataBuilds :
    (0x0C : Byte) &&& 0x0C = 0x0C ∧ ((0x04 : Byte) &&& 0x0C ≠ 0x0C ∧ (0x04 : Byte) &&& 0x0C ≠ 0x00) ∧
    255 < udhl [{ iei := 0, ied := List.replicate 254 0 }] ∧
    udSize (some [element 1]) (.septets (List.replicate 154 0)) = 141 ∧
    udSize (some [element 1]) (.septets (List.replicate 153 0)) = 140 ∧
    udSize none (.octets (List.replicate 140 0)) = 140 := by decide +kernel

theorem witness_UserDataRoundTrip :
    Replies (.udBuild 0x00 (some []) (.septets [0x68, 0x69])) s0 0x45 (.ok (.userData 4 [0x00, 0x00, 0x3A, 0x0D])) := rfl

theorem witness_UserDataSplits :
    ([] : Octets).length ≤ 0 ∧ 140 < (7 * 161 + 7) / 8 ∧ ([0x01, 0x41, 0x00] : Octets).length ≠ 0 + 1 + 1 ∧
    (7 * 160 + 7) / 8 ≤ 140 ∧ ([0x01, 0x41] : Octets).length = 0 + 1 + 1 ∧ (0x04 : Byte) &&& 0x0C ≠ 0x0C := by decide

/-- Under TP-UDHI: a header `UDH_DEC` rejects, one longer than TP-UDL, one that leaves no septet, and fill bits that are
not zero, under both kinds of alphabet. -/
theorem witness_UserDataSplits_header :
    Replies (.udhDec [0x01, 0x05] 1 2) s0 0x31 (.err .badUdh) ∧ Replies (.udhDec [0x01, 0x00] 1 2) s0 0x31 (.ok (.elementsAt [] 2)) ∧
    Replies (.udSplit 0x00 true [0x01, 0x00] 0) s0 0x46 (.err .badUdh) ∧
    Replies (.udSplit 0x00 true [0x02, 0x00, 0x00] 0) s0 0x46 (.ok (.split (some []) (.septets []) 3)) ∧
    Replies (.udSplit 0x00 true [0x03, 0x00, 0xFF, 0x01] 0) s0 0x46 (.ok (.split (some []) (.septets [0x07]) 4)) ∧
    Replies (.udSplit 0x00 true [0x03, 0x00, 0xFF] 0) s0 0x46 (.err .badPdu) ∧
    Replies (.udSplit 0x04 true [0x01, 0x00] 0) s0 0x46 (.ok (.split (some []) (.octets []) 2)) :=
  ⟨rfl, rfl, rfl, rfl, rfl, rfl, rfl⟩

theorem witness_TpduLayout :
    Replies (.udBuild 0x00 none (.septets hello)) s0 0x45 (.ok (.userData 5 helloPacked)) ∧
    Replies (.udBuild 0x0C none (.octets [])) s0 0x45 (.err .unsupportedAlphabet) := ⟨rfl, rfl⟩

theorem witness_submit : SubmitOk helloSubmit ∧ helloSubmit.da.toa.getLsbD 7 = true :=
  ⟨⟨by decide, ⟨.gsm7, by decide, by simp [helloSubmit]⟩, by simp [helloSubmit], by decide⟩, by decide⟩

theorem witness_deliver : DeliverOk segment1 ∧ segment1.oa.toa.getLsbD 7 = true :=
  ⟨⟨by decide, ⟨.ucs2, by decide, by simp [segment1]⟩, fun h e => by
    injection e with e; subst e; decide, by decide⟩, by decide⟩

theorem witness_TpduRoundTrip : (TpduOk (.submit helloSubmit) ∧ addressTyped (.submit helloSubmit)) ∧
    TpduOk (.deliver segment1) ∧ addressTyped (.deliver segment1) := ⟨witness_submit, witness_deliver⟩

/-- A string that is canonical and one that is not (bit 4 of the first octet set). -/
theorem witness_CanonicalForm :
    (Replies (.tpduParse segment1Octets) s0 0x49 (.ok (.tpdu (.deliver segment1))) ∧ tpduCanonical segment1Octets) ∧
    Replies (.tpduParse (0x54 :: segment1Octets.tail)) s0 0x49 (.ok (.tpdu (.deliver segment1))) := by
  refine ⟨⟨rfl, ?_⟩, rfl⟩
  simp only [tpduCanonical]
  rw [if_pos (by decide)]
  exact ⟨by decide, fun h => absurd h (by decide)⟩

theorem witness_MessageTypes : (0x03 : Byte).toNat % 4 = 3 ∧ (0x02 : Byte).toNat % 4 = 2 ∧ (0x00 : Byte).toNat % 4 = 0 ∧
    (0x01 : Byte).toNat % 4 = 1 ∧ s0.params.statusReport = .badPdu ∧
    ({ s0 with params := { Config.defaults with statusReport := .refuse } } : State).params.statusReport = .refuse := by
  decide

/-- Each end of `TPDU_PARSE`, SUBMIT then DELIVER: TP-MR missing, a bad address, TP-PID missing, user data that does not
split, and the records of the vectors. -/
theorem witness_TpduParses :
    Replies (.tpduParse [0x01]) s0 0x49 (.err .badPdu) ∧
    Replies (.addrParse [0x01, 0x00, 0x00, 0x01] 2) s0 0x24 (.err .badAddress) ∧
    Replies (.tpduParse [0x11, 0x00, 0x00, 0x81, 0x00, 0x00]) s0 0x49 (.err .badPdu) ∧
    Replies (.udSplit 0x0C false [0x01, 0x00, 0x00, 0x81, 0x00, 0x0C, 0x00] 6) s0 0x46 (.err .unsupportedAlphabet) ∧
    Replies (.tpduParse helloOctets) s0 0x49 (.ok (.tpdu (.submit helloSubmit))) ∧
    Replies (.addrParse [0x00, 0x00] 1) s0 0x24 (.err .badPdu) ∧
    Replies (.tpduParse (segment1Octets.take 18)) s0 0x49 (.err .badPdu) ∧
    Replies (.udSplit 0x08 true segment1Octets 19) s0 0x46
      (.ok (.split (some [element 1]) (.octets [0x4F, 0x60]) 28)) := ⟨rfl, rfl, rfl, rfl, rfl, rfl, rfl, rfl⟩

theorem witness_FirstOctetRows : SubmitOk helloSubmit ∧ DeliverOk segment1 := ⟨witness_submit.1, witness_deliver.1⟩

theorem witness_DataCodingRows :
    Replies (.udBuild (dcsMk .gsm7 true) none (.septets hello)) s0 0x45 (.ok (.userData 5 helloPacked)) ∧
    Replies (.udBuild (dcsMk .bit8 false) none (.octets [0x41])) s0 0x45 (.ok (.userData 1 [0x41])) ∧
    Replies (.udBuild (dcsMk .ucs2 false) none (.octets [0x00, 0x41])) s0 0x45 (.ok (.userData 2 [0x00, 0x41])) :=
  ⟨rfl, rfl, rfl⟩

theorem witness_AddressTypeRows : ((0xFF : Byte).toNat + 1) / 2 ≤ (List.replicate 128 (0 : Byte)).length ∧
    (List.replicate 127 (0 : Byte)).length < ((0xFF : Byte).toNat + 1) / 2 := by decide +kernel

theorem witness_CarriedValueRows :
    (2 ≤ (0x02 : Byte).toNat ∧ 1 ≤ (0x02 : Byte).toNat ∧ (0x02 : Byte).toNat ≤ (0x02 : Byte).toNat) ∧
    ¬ (1 ≤ (0x00 : Byte).toNat) ∧ ((0x24 : Byte) ≠ 0x00 ∧ (0x24 : Byte) ≠ 0x08) ∧
    (0xFF : Byte).toNat = 1 + (List.replicate 254 (0 : Byte)).length ∧ ([] : Octets).length < (0x01 : Byte).toNat ∧
    Replies (.gsm7Dec [0x1B, 0x65]) s0 0x11 (.ok (.text [Char.ofNat 0x20AC])) ∧
    Replies (.gsm7Dec [0x1B]) s0 0x11 (.err .unsupportedAlphabet) ∧
    Replies (.gsm7Dec [0x41]) s0 0x11 (.ok (.text ['A'])) ∧
    Replies (.gsm7Dec [0x41, 0x1B]) s0 0x11 (.err .unsupportedAlphabet) :=
  ⟨by decide, by decide, by decide, by decide +kernel, by decide, rfl, rfl, rfl, rfl⟩

theorem smsc_bound (n : Nat) (hn : 1 + n ≤ 255) :
    ∀ m, some ({ toa := 0x91, val := List.replicate n 0 } : Smsc) = some m → 1 + m.val.length ≤ 255 := by
  intro m h
  injection h with h
  subst h
  simpa using hn

theorem witness_FrameRoundTrip :
    ∀ m, some ({ toa := 0x91, val := List.replicate 254 0 } : Smsc) = some m → 1 + m.val.length ≤ 255 :=
  smsc_bound 254 (by decide)

theorem witness_FrameDecodes : (ascii "0").length % 2 = 1 ∧ (∃ c ∈ ascii "0G", c ∉ ascii "0123456789ABCDEFabcdef") ∧
    ((ascii "0aFf").length = 2 * ([0x0A, 0xFF] : Octets).length ∧
      (∀ c ∈ ascii "0aFf", c ∈ ascii "0123456789ABCDEFabcdef") ∧ ([0xFF] : Octets).length < (0x0A : Byte).toNat) ∧
    ((0x01 : Byte) ≠ 0 ∧ (0x01 : Byte).toNat ≤ ([0x91] : Octets).length) := by decide

theorem gsm7Enc_replicate (n : Nat) : gsm7Enc (List.replicate n 'a') = .ok (List.replicate n 0x61) := by
  induction n with
  | zero => rfl
  | succ n ih => simp only [List.replicate_succ, gsm7Enc, ih]; rfl

theorem replies_replicate (n : Nat) : ∃ q, Replies (.gsm7Enc (List.replicate n 'a')) s0 0x10 (.ok (.septets q)) ∧
    q.length ≤ n :=
  ⟨_, Laws.replies_of_ok (r := gsm7Enc (List.replicate n 'a')) rfl _ (gsm7Enc_replicate n), by simp⟩

theorem length_replicate_le (n : Nat) : (List.replicate n (0 : Byte)).length ≤ n := by simp

theorem witness_SegmentSingle : Replies (.addrEnc (ascii "+8613800138000")) s0 0x20 (.ok (.address phone)) ∧
    (∃ q, Replies (.gsm7Enc (List.replicate 160 'a')) s0 0x10 (.ok (.septets q)) ∧ q.length ≤ 160) ∧
    (Replies (.gsm7Enc [Char.ofNat 0x4F60]) s0 0x10 (.err .unsupportedAlphabet) ∧
      Replies (.ucs2Enc [Char.ofNat 0x4F60]) s0 0x14 (.ok (.octets [0x4F, 0x60]))) ∧
    (List.replicate 140 (0 : Byte)).length ≤ 140 :=
  ⟨rfl, replies_replicate 160, ⟨rfl, rfl⟩, length_replicate_le 140⟩

theorem witness_SegmentConcatenated :
    Replies (.addrEnc (List.replicate 21 0x31)) s0 0x20 (.err .badAddress) ∧
    segmentUnits (.force8bit (List.replicate 141 0)) = (.bit8, .octets (List.replicate 141 0)) ∧
    140 < bodyLength (.octets (List.replicate 141 0)) ∧
    (segmentChunks .bit8 (.octets (List.replicate 141 0))).length ≤ 255 :=
  ⟨rfl, rfl, by decide +kernel, by decide +kernel⟩

theorem witness_SegmentsDecodeAlone :
    (∃ t, exec (.segment (.auto ['a']) []) s0 = .next t ∧ ∃ l, t.out = s0.out ++ [.result 0x60 (.ok (.submits l))]) ∧
    (∃ t, exec (.segment (.force8bit [0x41]) []) s0 = .next t ∧
      ∃ l, t.out = s0.out ++ [.result 0x60 (.ok (.submits l))]) := ⟨⟨_, rfl, _, rfl⟩, ⟨_, rfl, _, rfl⟩⟩

theorem witness_SegmentsTravel :
    (∃ t, exec (.segment (.forceUcs2 ['a']) []) s0 = .next t ∧
      ∃ l, t.out = s0.out ++ [.result 0x60 (.ok (.submits l))] ∧ l ≠ []) ∧
    ∀ m, (none : Option Smsc) = some m → 1 + m.val.length ≤ 255 :=
  ⟨⟨_, rfl, _, rfl, by decide⟩, fun m h => by cases h⟩

/-- A malformed element, no element, a segment held, a segment that leaves its group incomplete, a new group. -/
theorem witness_CollectStores :
    udhGetconcat [element 3] = .error .badUdh ∧ udhGetconcat [] = .ok none ∧
    udhGetconcat [element 1] = .ok (some { w := .w8, ref := 0x42, total := 2, seq := 1 }) ∧
    (collected.group groupKey = some group1 ∧ group1.seg 1 = some segment1) ∧
    (group1.seg 2 = none ∧ group1.segs.length + 1 ≠ (3 : Byte).toNat) ∧
    s0.group groupKey = none ∧ s0.params.rsmCap = none := by decide

theorem witness_CollectCompletes : TableOk collected ∧
    (∃ h, segment2.udh = some h ∧ udhGetconcat h = .ok (some { w := .w8, ref := 0x42, total := 2, seq := 2 })) ∧
    collected.group groupKey = some group1 ∧ group1.seg 2 = none ∧ group1.segs.length + 1 = (2 : Byte).toNat :=
  ⟨witness_table, ⟨_, rfl, by decide⟩, by decide, by decide, by decide⟩

theorem witness_CollectAnyOrder :
    TableOk { collected with rsm := [] } ∧ ({ collected with rsm := [] } : State).group groupKey = none ∧
    groupKey.total.toNat = [segment1, segment2].length ∧ SegmentFits groupKey 1 segment1 ∧
    SegmentFits groupKey 2 segment2 ∧ [segment2, segment1].Perm [segment1, segment2] :=
  ⟨⟨by decide, by simp, by intro n h; cases h⟩, rfl, by decide, ⟨_, rfl, by decide, by decide⟩,
    ⟨_, rfl, by decide, by decide⟩, List.Perm.swap ..⟩

theorem witness_ExpireOverdue :
    (collected.rsmDeadline = some 30 ∧ collected.group groupKey = some group1 ∧ group1.created + 30 ≤ collected.now ∧
      FMap.Rising keyCode collected.rsm) ∧
    (let s := { collected with now := 129 };
      s.rsmDeadline = some 30 ∧ ∀ e ∈ s.rsm, s.now < e.2.created + 30) := by decide

theorem witness_PlainCommands : s0.closed = false ∧ closedState.closed = true := by decide

theorem witness_LineParses : 0x3A ∉ ascii "OK" ∧
    (ascii "+CSQ: 15,0" = ascii "+CSQ" ++ 0x3A :: ascii " 15,0" ∧ 0x3A ∉ ascii "+CSQ") := by decide

theorem witness_LineClasses :
    FinalLine s0.finals (ascii "OKAY") ∧
    (¬ FinalLine s0.finals (ascii "+CREG: 1") ∧ UrcLine s0.urcs (ascii "AT+CSQ") (ascii "+CREG: 1")) ∧
    (¬ FinalLine s0.finals (ascii "ok") ∧ ¬ UrcLine s0.urcs [] (ascii "ok")) ∧
    (s0.finals = defaultFinals ∧ s0.urcs = defaultUrcs) ∧ ascii "+CMTI:" <+: ascii "+CMTI: 1" ∧
    (ascii "+CREG:" <+: ascii "+CREG: 0,1" ∧ ascii "AT+CREG" <+: ascii "AT+CREG?") ∧
    ascii "+CME ERROR" <+: ascii "+CME ERROR: 10" := by
  refine ⟨⟨ascii "OK", ?_⟩, ⟨?_, ⟨ascii "+CREG", ?_⟩⟩, ⟨?_, ?_⟩, ⟨rfl, rfl⟩, ?_, ?_, ?_⟩
  all_goals first | decide | (unfold FinalLine; decide) | (unfold UrcLine; decide)

theorem witness_ReaderTakesOctets_readError :
    (let s := { s0 with turns := [.readError] }; s.nextTurn = .readError ∧ s.closed = false ∧ s.rxEnded = false) ∧
    (let s := { s0 with turns := [.readError], rxEnded := true }; s.nextTurn = .readError ∧ s.rxEnded = true) ∧
    (let s := { closedState with turns := [.readError] }; s.nextTurn = .readError ∧ s.closed = true) := by decide

theorem witness_ReaderTakesOctets :
    closedState.closed = true ∧ (s0.closed = false ∧ s0.rxEnded = false) ∧ s0.params.lbufCap = none ∧
    ({ s0 with params := { Config.defaults with lbufCap := some 0 } } : State).params.lbufCap = some 0 ∧
    trim [0x20] = [] ∧ trim (ascii " OK") = ascii "OK" ∧
    (s0.rq.length < s0.params.rqCap) ∧
    (let s := { s0 with params := { Config.defaults with rqCap := 0 } }; s.params.rqCap ≤ s.rq.length) := by decide

theorem witness_UrcNeverQueued :
    ∃ t, step { s0 with lbuf := ascii "OK", port := [0xE1, 0x00, 0x0D] } = .next t ∧ t.rq = [ascii "OK"] :=
  ⟨_, rfl, by decide⟩

theorem witness_SendStarts :
    sendForm (.sendExpect (ascii "AT") (ascii "OK")) = some (.expect (ascii "OK"), ascii "AT") ∧
    Terminated (ascii "AT") [0x41, 0x54, 0x0D, 0x0A] ∧ Terminated [0x1A] [0x1A] ∧ closedState.closed = true ∧
    ((sending .send).closed = false ∧ (sending .send).lock = .held) ∧
    (s0.closed = false ∧ s0.lock = .free ∧ s0.waiters = [] ∧ s0.txIn.headD (.took 4) = .took 4) ∧
    ({ s0 with txIn := [.took 3] } : State).txIn.headD (.took 4) = .took 3 ∧
    ({ s0 with txIn := [.failed] } : State).txIn.headD (.took 4) = .failed := by
  refine ⟨rfl, .inr ⟨?_, by decide⟩, .inl ⟨⟨[], 0x1A, by decide⟩, rfl⟩, by decide, by decide, by decide, by decide,
    by decide⟩
  rintro ⟨init, b, h, hb⟩
  have : b = 0x54 := by simpa [ascii] using (congrArg List.getLast? h).symm
  subst this
  revert hb; decide

theorem witness_WaitingSendResumes :
    (let s := { s0 with turns := [.resume] }; s.nextTurn = .resume ∧ s.waiters = []) ∧
    (let s := { s0 with turns := [.resume], waiters := [{ kind := .query, text := [0x0D] }] };
      s.nextTurn = .resume ∧ s.lock = .free ∧ s.closed = false ∧ s.txIn.headD (.took 1) = .took 1) ∧
    Terminated [0x0D] [0x0D] ∧
    (let s := { s0 with turns := [.resume], waiters := [{ kind := .query, text := [0x0D] }], txIn := [.took 0, .failed] };
      s.lock = .free ∧ s.closed = false ∧ s.txIn.headD (.took 1) = .took 0 ∧ s.txIn.tail.headD (.took 1) = .failed) ∧
    (let s := { closedState with turns := [.resume], waiters := [{ kind := .send, text := [0x0D] }] };
      s.nextTurn = .resume ∧ s.lock = .free ∧ s.closed = true) ∧
    (let s := { sending .send with turns := [.resume] }; s.nextTurn = .resume ∧ s.lock = .held) :=
  ⟨by decide, by decide, .inl ⟨⟨[], 0x0D, by decide⟩, rfl⟩, by decide, by decide, by decide⟩

theorem witness_TakeStep :
    (let s := { s0 with turns := [.take] }; s.nextTurn = .take ∧ s.dstate ≠ .awaiting) ∧
    (let s := { sending .query with turns := [.take] };
      s.nextTurn = .take ∧ s.dstate = .awaiting ∧ s.rq = [ascii "AT"] ∧ ¬ FinalLine s.finals (ascii "AT")) ∧
    (let s := { sending .query with turns := [.take], rq := [ascii "OK"] };
      s.nextTurn = .take ∧ FinalLine s.finals (ascii "OK")) := by
  refine ⟨by decide, ⟨by decide, by decide, by decide, ?_⟩, by decide, ⟨ascii "OK", by decide⟩⟩
  unfold FinalLine; decide

theorem witness_TimeoutEndsSend :
    (let s := { sending .send with now := 1 };
      s.dstate = .awaiting ∧ s.txn = some { kind := .send, acc := [], dl := 1 } ∧ 1 ≤ s.now) ∧
    (let s := { sending .query with now := 1 };
      s.dstate = .awaiting ∧ s.txn = some { kind := .query, acc := [], dl := 1 } ∧ 1 ≤ s.now) ∧
    (let s := sending .send; s.txn = some { kind := .send, acc := [], dl := 1 } ∧ s.now < 1) ∧
    s0.dstate ≠ .awaiting := by decide

theorem witness_CloseEndsAll : closedState.closed = true ∧ (s0.closed = false ∧ s0.txn = none) ∧
    ((sending .send).closed = false ∧ (sending .send).txn = some { kind := .send, acc := [], dl := 1 }) := by decide

theorem witness_ClosedIsTerminal :
    (let s := { collected with closed := true, dstate := .closed, port := [0x82, 0x00, 0x01, 0x41] };
      Inv s ∧ s.closed = true ∧ ∃ t, Sys2Proof.core.run 1 s = .next t ∧ t.out = [.result 0x82 (.err .closed)]) := by
  refine ⟨⟨⟨witness_table.rising, witness_table.groups, witness_table.capacity⟩, ⟨by decide, by decide, by decide, ?_,
    by decide, by decide, by decide, by decide, fun _ => rfl, ?_, by decide⟩⟩, rfl, _, rfl, by decide⟩
  · intro n h; cases h
  · intro x h; cases h

theorem witness_ExclusiveWriter :
    ∃ t, step { s0 with port := [0x82, 0x00, 0x01, 0x0D] } = .next t ∧ t.out = s0.out ++ [.tx [0x0D] (.took 1)] :=
  ⟨_, rfl, by decide⟩

/-- The text clauses at their bounds: codes that all exist, 11 septets; a supplementary character is `test_ucs2Dec`. -/
theorem witness_CodecsComplete_text :
    (∀ c ∈ ['A', Char.ofNat 0x20AC], ¬ (septetOf defaultTable c = none ∧ septetOf extTable c = none)) ∧
    (∃ q, Replies (.gsm7Enc (List.replicate 9 'A' ++ [Char.ofNat 0x20AC])) s0 0x10 (.ok (.septets q)) ∧ q.length = 11) := by
  refine ⟨fun c hc => ?_, _, rfl, by decide⟩
  rcases List.mem_cons.1 hc with rfl | hc
  · decide
  · obtain rfl := List.mem_singleton.1 hc; decide

/-- The others: 20 digits and two chunks; user data of 140 octets with a header, of both kinds. -/
theorem witness_CodecsComplete_sizes :
    (digitsOf (List.replicate 20 0x31)).length ≤ 20 ∧
    (segmentChunks .bit8 (.octets (List.replicate 141 0))).length ≤ 255 ∧ udhl [element 1] ≤ 255 ∧
    udSize (some [element 1]) (.septets (List.replicate 153 0)) = 140 ∧
    udSize (some []) (.octets (List.replicate 139 0)) = 140 := by decide +kernel

/-! ### The pseudo-operations (R89) -/

/-- What a flow issues first, in `s`. -/
def issues (s : State) (f : Flow) : Option Instr := (f.command s).map Prod.fst

/-- What a flow issues next after the result `r`. -/
def issuesAfter (s : State) (f : Flow) (r : Result) : Option Instr := (f.command s).bind fun c => issues s (c.2 r)

/-- R89 (a), R214: the announcement, the frame with 0x1A behind a prompt, nothing more without one. -/
theorem test_sendFrame : issues s0 (sendFrame 19 (ascii "00") .done) = some (.send (ascii "AT+CMGS=19")) ∧
    issuesAfter s0 (sendFrame 19 (ascii "00") .done) (.ok (.lines [ascii "AT+CMGS=19", ascii ">"])) =
      some (.send (ascii "00" ++ [0x1A])) ∧
    issuesAfter s0 (sendFrame 19 (ascii "00") .done) (.ok (.lines [ascii "ERROR"])) = none := by decide

/-- The octets a received frame of 95_test_vectors 1.6 carries, as a run of the flow: nothing while the message is
incomplete. -/
def received (hex : Ascii) (s : State) : List Output :=
  match runFlow [true, true, true, true] (.ready (smsReceive hex)) s with
  | .next (_, t) => t.out
  | _ => []

/-- R89 (b): unwrap, parse, collect, decode by the first segment's alphabet. -/
theorem test_smsReceive : (received (frameEnc none ((0x44 : Byte) :: segment1Octets.tail)).2 s0).getLast? =
      some (.result 0x70 (.ok (.delivers []))) ∧
    issues s0 (readCollected [segment1, segment2]) = some (.ucs2Dec [0x4F, 0x60, 0x59, 0x7D]) := by
  decide +kernel

end Sys2Proof.Tests
end

/-! PROOFS. The statements about the step, the command port and reset, and about the whole machine: what each kind of
instruction may write (O7), what no step takes back (O9), which instructions are given no meaning (O6), that every step
keeps a good state good (O5), the command port (O1) and reset (O4). -/

namespace Sys2Proof.Proofs

open Sys2Proof Sys2Proof.Machine Sys2Proof.Laws

/-! ### What each kind of instruction may write -/

/-- The next state of an instruction, by its kind: the elements that the kind writes have some new value, every other
element has its old one, and nothing that crossed a port is taken back. -/
inductive Effect (s : State) : Instr → State → Prop
  /-- A codec command or a query of the line unit only answers (R306). -/
  | answers {i op out} (kind : pureCode i = some op) (grows : s.out <+: out) : Effect s i { s with out := out }
  /-- A `SEND` form starts a transaction, fails, or waits (R272). -/
  | sends {i out} (kind : (sendForm i).isSome = true) (grows : s.out <+: out)
      (cur rq lock dstate txn waiters txIn) :
      Effect s i { s with
        cur := cur, rq := rq, lock := lock, dstate := dstate, txn := txn, waiters := waiters, txIn := txIn, out := out }
  /-- The reader takes an octet (R262, R263). -/
  | receives {i out} (kind : isReceive i = true) (grows : s.out <+: out) (rq lbuf) :
      Effect s i { s with rq := rq, lbuf := lbuf, out := out }
  /-- `SEGMENT` counts references (R226). -/
  | segments {out} (grows : s.out <+: out) (p dest refcnt) :
      Effect s (.segment p dest) { s with refcnt := refcnt, out := out }
  /-- `COLLECT` writes the reassembly table (R242). -/
  | collects {out} (grows : s.out <+: out) (d rsm) : Effect s (.collect d) { s with rsm := rsm, out := out }
  /-- `EXPIRE` removes a group, by the environment's choice (R247). -/
  | expires {out} (grows : s.out <+: out) (rsm picks) :
      Effect s .expire { s with rsm := rsm, picks := picks, out := out }
  /-- `RSM_CFG` sets the deadline (R246). -/
  | setsDeadline {out} (grows : s.out <+: out) (d rsmDeadline) :
      Effect s (.rsmCfg d) { s with rsmDeadline := rsmDeadline, out := out }
  /-- `LN_CFG` replaces an element of the configuration (R283). -/
  | configures {out} (grows : s.out <+: out) (v finals urcs cmdset cmdTimeout) :
      Effect s (.lnCfg v) { s with
        finals := finals, urcs := urcs, cmdset := cmdset, cmdTimeout := cmdTimeout, out := out }
  /-- `CLOSE` ends the open transaction and every waiting one (R278). -/
  | closes {out} (grows : s.out <+: out) (cur lock dstate txn waiters) :
      Effect s .close { s with
        closed := true, cur := cur, lock := lock, dstate := dstate, txn := txn, waiters := waiters, out := out }
  /-- `LN_TIMEOUT` ends the open transaction (R281). -/
  | timesOut {out} (grows : s.out <+: out) (cur lock dstate txn) :
      Effect s .lnTimeout { s with cur := cur, lock := lock, dstate := dstate, txn := txn, out := out }
  /-- `LN_EOS` ends `RX` (R282). -/
  | endsRx : Effect s .lnEos { s with rxEnded := true }

/-- The start step of a `SEND` writes the transaction, the queue and the port's answers, and no more. -/
theorem startSend_frame (k : SendKind) (text : Ascii) (s : State) :
    ∃ out cur rq lock dstate txn txIn, s.out <+: out ∧ s.startSend k text =
      { s with cur := cur, rq := rq, lock := lock, dstate := dstate, txn := txn, txIn := txIn, out := out } := by
  rcases startSend_cases k text s with ⟨n, -, -, e⟩ | ⟨x, -, e⟩
  · exact ⟨_, _, _, _, _, _, _, List.prefix_append .., e⟩
  · exact ⟨_, _, _, _, _, _, _, List.prefix_append .., e⟩

theorem issueSend_effect {i : Instr} {k : SendKind} {text : Ascii} {s t : State} (kind : (sendForm i).isSome = true)
    (h : issueSend k text s = .next t) : Effect s i t := by
  rcases issueSend_cases k text s with ⟨-, e⟩ | ⟨-, -, -, e⟩ | ⟨-, -, e⟩
  · cases e.symm.trans h
    exact .sends kind (List.prefix_append ..) ..
  · cases e.symm.trans h
    obtain ⟨out, cur, rq, lock, dstate, txn, txIn, grows, e⟩ := startSend_frame k text s
    rw [e]
    exact .sends kind grows ..
  · cases e.symm.trans h
    exact .sends kind List.prefix_rfl ..

/-- A received line becomes an event, joins the queue, or is logged, and nothing else is written (R263, R275). -/
theorem route_frame (l : Line) (s : State) :
    ∃ out rq, s.out <+: out ∧ s.route l = { s with rq := rq, out := out } := by
  rcases route_cases l s with ⟨-, e⟩ | ⟨-, -, e⟩ | ⟨-, -, e⟩
  · exact ⟨_, _, List.prefix_append .., e⟩
  · exact ⟨_, _, List.prefix_rfl, e⟩
  · exact ⟨_, _, List.prefix_append .., e⟩

theorem endLine_frame (s : State) :
    ∃ out rq, s.out <+: out ∧ s.endLine = { s with rq := rq, lbuf := [], out := out } := by
  rcases endLine_cases s with ⟨-, e⟩ | ⟨-, e⟩
  · exact ⟨_, _, List.prefix_rfl, e⟩
  · obtain ⟨out, rq, grows, e'⟩ := route_frame (trim s.lbuf) { s with lbuf := [] }
    exact ⟨out, rq, grows, e.trans e'⟩

theorem receive_effect {i : Instr} {b : Byte} {s t : State} (kind : isReceive i = true) (h : receive b s = .next t) :
    Effect s i t := by
  rcases receive_cases b s with ⟨-, e⟩ | ⟨-, -, ⟨-, e⟩ | ⟨-, ⟨-, e⟩ | ⟨-, e⟩⟩⟩
  · cases e.symm.trans h
    exact .receives kind List.prefix_rfl ..
  · cases e.symm.trans h
    obtain ⟨out, rq, grows, e⟩ := endLine_frame s
    rw [e]
    exact .receives kind grows ..
  · cases e.symm.trans h
  · cases e.symm.trans h
    exact .receives kind List.prefix_rfl ..

/-- `SEGMENT` always answers: its records with the next `REFCNT`, or an error (R226). -/
theorem segment_cases (p : Payload) (dest : Ascii) (s : State) :
    (∃ l c, segment s.refcnt p dest = .ok (l, c) ∧
      execSegment p dest s = .next { s with refcnt := c, out := s.out ++ [.result 0x60 (.ok (.submits l))] }) ∨
    (∃ k, segment s.refcnt p dest = .error k ∧
      execSegment p dest s = .next { s with out := s.out ++ [.result 0x60 (.err k)] }) := by
  unfold execSegment
  cases segment s.refcnt p dest with
  | ok r => exact .inl ⟨r.1, r.2, rfl, rfl⟩
  | error k => exact .inr ⟨k, rfl, rfl⟩

/-- `EXPIRE` changes nothing where no group is overdue, else it removes the one picked (R247). -/
theorem expire_cases (s : State) :
    (s.pick = none ∧ execExpire s = .next s) ∨
    ∃ k g, s.pick = some (k, g) ∧ execExpire s = .next { s.dropGroup k with
      picks := s.picks.tail, out := s.out ++ [.event (expiredEvent k g)] } := by
  unfold execExpire
  cases s.pick with
  | none => exact .inl ⟨rfl, rfl⟩
  | some e => exact .inr ⟨e.1, e.2, rfl, rfl⟩

theorem collect_effect {d : Deliver} {s t : State} (h : execCollect d s = .next t) : Effect s (.collect d) t := by
  rcases collect_cases d s with ⟨k, -, e⟩ | ⟨-, e⟩ | ⟨c, -, ⟨-, -, e⟩ | ⟨-, ⟨d', -, e⟩ | ⟨-, ⟨-, e⟩ | ⟨-, e⟩⟩⟩⟩ <;>
    cases e.symm.trans h <;> exact .collects (List.prefix_append ..) ..

theorem lnCfg_effect (v : LineConfig) {s t : State} (h : execLnCfg v s = .next t) : Effect s (.lnCfg v) t := by
  cases v <;> cases h <;> exact .configures (List.prefix_append ..) ..

theorem close_effect {s t : State} (h : execClose s = .next t) : Effect s .close t := by
  rcases close_cases s with ⟨hc, e⟩ | ⟨-, -, e⟩ | ⟨x, -, -, e⟩
  · cases e.symm.trans h
    rw [hc]
    exact .closes (List.prefix_append ..) ..
  · cases e.symm.trans h
    exact .closes (by simp) ..
  · cases e.symm.trans h
    exact .closes (by simp) ..

/-- What an instruction that answers a next state did, by its kind. -/
theorem exec_effect {i : Instr} {s t : State} (h : exec i s = .next t) : Effect s i t := by
  rcases instr_cases i with ⟨op, hi⟩ | ⟨k, text, hi⟩ | hi | ⟨p, dest, rfl⟩ | ⟨d, rfl⟩ | ⟨d, rfl⟩ | rfl | ⟨v, rfl⟩ | rfl |
    rfl | rfl
  · obtain ⟨r, rfl⟩ := exec_pure_next hi h
    exact .answers hi (List.prefix_append ..)
  · rw [exec_sendForm hi] at h
    exact issueSend_effect (by rw [hi]; rfl) h
  · obtain ⟨b, hb⟩ := exec_isReceive hi
    rw [hb] at h
    exact receive_effect hi h
  · rcases segment_cases p dest s with ⟨l, c, -, e⟩ | ⟨k, -, e⟩ <;> cases e.symm.trans h <;>
      exact .segments (List.prefix_append ..) ..
  · exact collect_effect h
  · cases h
    exact .setsDeadline (List.prefix_append ..) ..
  · exact close_effect h
  · exact lnCfg_effect v h
  · rcases expire_cases s with ⟨-, e⟩ | ⟨k, g, -, e⟩ <;> cases e.symm.trans h
    · exact .expires List.prefix_rfl ..
    · exact .expires (List.prefix_append ..) ..
  · rcases timeout_cases s with ⟨-, e⟩ | ⟨x, -, -, -, e⟩ <;> cases e.symm.trans h
    · exact .timesOut List.prefix_rfl ..
    · exact .timesOut (List.prefix_append ..) ..
  · cases h
    exact .endsRx

/-- Settles O7: each kind of instruction writes only the elements that its effect names. -/
theorem stateWriters : Obligations.StateWriters := by
  unfold Obligations.StateWriters
  intro i s t h
  cases exec_effect h with
  | answers => simp
  | sends kind | receives kind => simp [kind]
  | segments | collects | expires | setsDeadline | configures => simp
  | closes | timesOut | endsRx => simp


/-! ### What a step never takes back -/

/-- What every step keeps of the past (R9, R24, R26, R39, R282). -/
structure KeepsHistory (s t : State) : Prop where
  /-- `NOW` does not decrease. -/
  now : s.now ≤ t.now
  /-- What crossed the ports stays. -/
  out : s.out <+: t.out
  /-- `CLOSED` stays. -/
  closed : s.closed = true → t.closed = true
  /-- The end of `RX` stays. -/
  rxEnded : s.rxEnded = true → t.rxEnded = true
  /-- The parameters stay. -/
  params : t.params = s.params

theorem KeepsHistory.refl (s : State) : KeepsHistory s s := ⟨le_refl _, List.prefix_rfl, id, id, rfl⟩

theorem KeepsHistory.trans {s t u : State} (h : KeepsHistory s t) (g : KeepsHistory t u) : KeepsHistory s u where
  now := h.now.trans g.now
  out := h.out.trans g.out
  closed := g.closed ∘ h.closed
  rxEnded := g.rxEnded ∘ h.rxEnded
  params := g.params.trans h.params

theorem turned_keepsHistory (s : State) : KeepsHistory s s.turned :=
  ⟨Nat.le_add_right .., List.prefix_rfl, id, id, rfl⟩

theorem effect_keepsHistory {i : Instr} {s t : State} (h : Effect s i t) : KeepsHistory s t := by
  cases h with
  | answers _ grows | sends _ grows | receives _ grows => exact ⟨le_refl _, grows, id, id, rfl⟩
  | segments grows | collects grows | expires grows | setsDeadline grows | configures grows | timesOut grows =>
    exact ⟨le_refl _, grows, id, id, rfl⟩
  | closes grows => exact ⟨le_refl _, grows, fun _ => rfl, id, rfl⟩
  | endsRx => exact ⟨le_refl _, List.prefix_rfl, id, fun _ => rfl, rfl⟩

theorem takeLine_keepsHistory (s : State) : KeepsHistory s s.takeLine := by
  rcases takeLine_cases s with ⟨-, e⟩ | ⟨x, l, rest, -, -, -, ⟨-, e⟩ | ⟨-, e⟩⟩ <;> rw [e]
  · exact .refl s
  · exact ⟨le_refl _, List.prefix_rfl, id, id, rfl⟩
  · exact ⟨le_refl _, List.prefix_append .., id, id, rfl⟩

theorem resumeSend_keepsHistory (s : State) : KeepsHistory s s.resumeSend := by
  rcases resumeSend_cases s with ⟨-, e⟩ | ⟨r, ws, -, -, ⟨-, e⟩ | ⟨-, e⟩⟩ <;> rw [e]
  · exact .refl s
  · exact ⟨le_refl _, List.prefix_append .., id, id, rfl⟩
  · obtain ⟨out, cur, rq, lock, dstate, txn, txIn, grows, e⟩ := startSend_frame r.kind r.text { s with waiters := ws }
    rw [e]
    exact ⟨le_refl _, grows, id, id, rfl⟩

theorem readError_keepsHistory (s : State) : KeepsHistory s s.readError := by
  rcases readError_cases s with ⟨-, e⟩ | ⟨-, -, e⟩ <;> rw [e]
  · exact .refl s
  · exact ⟨le_refl _, List.prefix_append .., id, id, rfl⟩

theorem step_keepsHistory {s t : State} (h : step s = .next t) : KeepsHistory s t := by
  refine (turned_keepsHistory s).trans ?_
  rcases step_cases h with ⟨-, -, rfl⟩ | ⟨-, i, rest, -, e⟩ | ⟨-, rfl⟩ | ⟨-, rfl⟩ | ⟨-, rfl⟩
  · exact .refl _
  · have off : KeepsHistory s.turned { s.turned with port := rest } := ⟨le_refl _, List.prefix_rfl, id, id, rfl⟩
    exact off.trans (effect_keepsHistory (exec_effect e))
  · exact takeLine_keepsHistory _
  · exact resumeSend_keepsHistory _
  · exact readError_keepsHistory _

/-- Settles O9: time passes before a turn, and every turn keeps the history. -/
theorem historyOnlyGrows : Obligations.HistoryOnlyGrows := by
  unfold Obligations.HistoryOnlyGrows
  intro s t h
  obtain ⟨now, ⟨new, out⟩, closed, rxEnded, params⟩ := step_keepsHistory h
  exact ⟨now, ⟨new, out.symm⟩, closed, rxEnded, params⟩

/-! ### Which instructions are given no meaning -/

/-- The octets that a row gives to `TPDU_PARSE` (R193, R91). -/
def parsedOctets : Instr → Option Octets
  | .tpduParse o => some o
  | .foSubmitVpAbsent rp udhi srr rd rest => some (foSubmit rd 0b00 srr udhi rp :: rest)
  | .foSubmitVpRelative rp udhi srr rd rest => some (foSubmit rd 0b10 srr udhi rp :: rest)
  | .foSubmitVpEnhanced rp udhi srr rd rest => some (foSubmit rd 0b01 srr udhi rp :: rest)
  | .foSubmitVpAbsolute rp udhi srr rd rest => some (foSubmit rd 0b11 srr udhi rp :: rest)
  | .foDeliver rp udhi sri x lp mms rest => some (foDeliver mms lp x sri udhi rp :: rest)
  | .foStatusReport x rest => some (foOther x 0b10 :: rest)
  | .foReservedMti x rest => some (foOther x 0b11 :: rest)
  | _ => none

theorem exec_parsedOctets {i : Instr} {o : Octets} (h : parsedOctets i = some o) (s : State) :
    exec i s = parseStep o s := by
  cases i <;> cases h <;> rfl

theorem reply_ne_refused {op : Byte} {r : Answer Value} {s : State} {x : Refusal} : reply op r s ≠ .refused x := by
  rw [reply_eq]
  exact nofun

/-- A command that writes no state and does not parse a TPDU answers in every state.  Where its answer is a value for
every operand, `exec` computes to a next state; else it is a `reply`, which never refuses. -/
theorem exec_pure_of_not_parsed {i : Instr} {op : Byte} (h : pureCode i = some op) (hp : parsedOctets i = none)
    (s : State) : ∃ r, exec i s = reply op r s := by
  rcases exec_pure h s with answered | ⟨refused, -⟩
  · exact answered
  · cases i <;> cases h <;> cases hp <;> first | cases refused | exact (reply_ne_refused refused).elim

theorem mtiOf_foOther_reserved (x : BitVec 6) : mtiOf (foOther x 0b11) = 3 := by
  simp only [mtiOf, foOther, BitVec.toNat_ofNat]
  omega

theorem isStatusReport_cons (fo : Byte) (rest : Octets) : isStatusReport (fo :: rest) = true ↔ mtiOf fo = 2 := by
  simp [isStatusReport, octetAt]

/-- Only `TPDU_PARSE` and the first-octet row of TP-MTI 10 can parse a status report (R73, R196). -/
theorem statusReport_rows {i : Instr} {o : Octets} (h : parsedOctets i = some o) (hr : isStatusReport o = true) :
    (∃ fo rest, i = .tpduParse (fo :: rest) ∧ fo.toNat % 4 = 2) ∨ ∃ x rest, i = .foStatusReport x rest := by
  have submit : ∀ rd srr udhi rp vpf rest, vpf < 4 → isStatusReport (foSubmit rd vpf srr udhi rp :: rest) ≠ true := by
    intro rd srr udhi rp vpf rest hv hr
    have := (foSubmit_fields rd srr udhi rp vpf hv).1
    have := (isStatusReport_cons _ _).1 hr
    omega
  cases i <;> cases h
  case tpduParse =>
    cases o with
    | nil => cases hr
    | cons fo rest => exact .inl ⟨fo, rest, rfl, (isStatusReport_cons fo rest).1 hr⟩
  case foStatusReport x rest => exact .inr ⟨x, rest, rfl⟩
  case foSubmitVpAbsent => exact absurd hr (submit _ _ _ _ _ _ (by decide))
  case foSubmitVpRelative => exact absurd hr (submit _ _ _ _ _ _ (by decide))
  case foSubmitVpEnhanced => exact absurd hr (submit _ _ _ _ _ _ (by decide))
  case foSubmitVpAbsolute => exact absurd hr (submit _ _ _ _ _ _ (by decide))
  case foDeliver rp udhi sri x lp mms rest =>
    have := (foDeliver_fields mms lp x sri udhi rp).1
    have := (isStatusReport_cons _ _).1 hr
    omega
  case foReservedMti x rest =>
    have := mtiOf_foOther_reserved x
    have := (isStatusReport_cons _ _).1 hr
    omega

theorem exec_pure_completes {i : Instr} {op : Byte} (h : pureCode i = some op) (s : State) :
    (∃ t, exec i s = .next t) ∨
    (exec i s = .refused .statusReport ∧ s.params.statusReport = .refuse ∧
      ((∃ fo rest, i = .tpduParse (fo :: rest) ∧ fo.toNat % 4 = 2) ∨ ∃ x rest, i = .foStatusReport x rest)) := by
  cases ho : parsedOctets i with
  | none =>
    obtain ⟨r, e⟩ := exec_pure_of_not_parsed h ho s
    exact .inl ⟨_, e.trans (reply_eq ..)⟩
  | some o =>
    rw [exec_parsedOctets ho]
    rcases parseStep_cases o s with ⟨r, e⟩ | ⟨e, policy, report⟩
    · exact .inl ⟨_, e.trans (reply_eq ..)⟩
    · exact .inr ⟨e, policy, statusReport_rows ho report⟩

theorem issueSend_completes (k : SendKind) (text : Ascii) (s : State) : ∃ t, issueSend k text s = .next t := by
  rcases issueSend_cases k text s with ⟨-, e⟩ | ⟨-, -, -, e⟩ | ⟨-, -, e⟩ <;> exact ⟨_, e⟩

/-- A terminator is taken whatever the line buffer holds (R262). -/
theorem receive_terminator_completes {b : Byte} (hb : b = 0x0D ∨ b = 0x0A) (s : State) : ∃ t, receive b s = .next t := by
  rcases receive_cases b s with ⟨-, e⟩ | ⟨-, -, ⟨-, e⟩ | ⟨other, -⟩⟩
  · exact ⟨_, e⟩
  · exact ⟨_, e⟩
  · exact absurd hb other

theorem receive_completes (b : Byte) (s : State) :
    (∃ t, receive b s = .next t) ∨
    (receive b s = .refused .lineBufferFull ∧ ∃ n, s.params.lbufCap = some n ∧ n ≤ s.lbuf.length) := by
  rcases receive_cases b s with ⟨-, e⟩ | ⟨-, -, ⟨-, e⟩ | ⟨-, ⟨full, e⟩ | ⟨-, e⟩⟩⟩
  · exact .inl ⟨_, e⟩
  · exact .inl ⟨_, e⟩
  · exact .inr ⟨e, full⟩
  · exact .inl ⟨_, e⟩

theorem exec_isReceive_completes {i : Instr} (h : isReceive i = true) (s : State) :
    (∃ t, exec i s = .next t) ∨
    (exec i s = .refused .lineBufferFull ∧ (∃ b, i = .lnRx b) ∧
      ∃ n, s.params.lbufCap = some n ∧ n ≤ s.lbuf.length) := by
  cases i <;> cases h
  case lnRx b => exact (receive_completes b s).imp id fun ⟨e, full⟩ => ⟨e, ⟨b, rfl⟩, full⟩
  case lineCr => exact .inl (receive_terminator_completes (.inl rfl) s)
  case lineLf => exact .inl (receive_terminator_completes (.inr rfl) s)

theorem tableFull_iff (s : State) : s.tableFull = true ↔ ∃ n, s.params.rsmCap = some n ∧ n ≤ s.rsm.length := by
  simp [State.tableFull, Option.any_eq_true]

theorem collect_completes (d : Deliver) (s : State) :
    (∃ t, execCollect d s = .next t) ∨
    (execCollect d s = .refused .reassemblyTableFull ∧ ∃ n, s.params.rsmCap = some n ∧ n ≤ s.rsm.length) := by
  rcases collect_cases d s with ⟨k, -, e⟩ | ⟨-, e⟩ | ⟨c, -, ⟨-, full, e⟩ | ⟨-, ⟨d', -, e⟩ | ⟨-, ⟨-, e⟩ | ⟨-, e⟩⟩⟩⟩
  case inr.inr.inl => exact .inr ⟨e, (tableFull_iff s).1 full⟩
  all_goals exact .inl ⟨_, e⟩

/-- Settles O6: kind by kind, an instruction answers, or it is one of the three inputs without a meaning. -/
theorem everyInstructionCompletes : Obligations.EveryInstructionCompletes := by
  unfold Obligations.EveryInstructionCompletes
  intro i s
  rcases instr_cases i with ⟨op, hi⟩ | ⟨k, text, hi⟩ | hi | ⟨p, dest, rfl⟩ | ⟨d, rfl⟩ | ⟨d, rfl⟩ | rfl | ⟨v, rfl⟩ | rfl |
    rfl | rfl
  · exact (exec_pure_completes hi s).imp id .inl
  · rw [exec_sendForm hi]
    exact .inl (issueSend_completes k text s)
  · exact (exec_isReceive_completes hi s).imp id fun refused => .inr (.inr refused)
  · rcases segment_cases p dest s with ⟨l, c, -, e⟩ | ⟨k, -, e⟩ <;> exact .inl ⟨_, e⟩
  · exact (collect_completes d s).imp id fun ⟨e, full⟩ => .inr (.inl ⟨e, ⟨d, rfl⟩, full⟩)
  · exact .inl ⟨_, rfl⟩
  · rcases close_cases s with ⟨-, e⟩ | ⟨-, -, e⟩ | ⟨x, -, -, e⟩ <;> exact .inl ⟨_, e⟩
  · exact .inl ⟨_, rfl⟩
  · rcases expire_cases s with ⟨-, e⟩ | ⟨k, g, -, e⟩ <;> exact .inl ⟨_, e⟩
  · rcases timeout_cases s with ⟨-, e⟩ | ⟨x, -, -, -, e⟩ <;> exact .inl ⟨_, e⟩
  · exact .inl ⟨_, rfl⟩

/-! ### The reassembly table between steps -/

/-- The table's invariant speaks of the table, the time and the capacity only. -/
theorem tableOk_congr {s t : State} (h : TableOk s) (hrsm : t.rsm = s.rsm) (hnow : s.now ≤ t.now)
    (hparams : t.params = s.params) : TableOk t where
  rising := by rw [hrsm]; exact h.rising
  groups e he := by
    have ok := h.groups e (hrsm ▸ he)
    exact { ok with created := ok.created.trans hnow }
  capacity := by rw [hrsm, hparams]; exact h.capacity

theorem tableOk_dropGroup {s : State} (h : TableOk s) (k : Key) : TableOk (s.dropGroup k) where
  rising := rising_dropGroup h.rising k
  groups e he := h.groups e (mem_erase he).1
  capacity n hn := (length_erase_le k s.rsm).trans (h.capacity n hn)

/-- A good group may be written where the table has its key or has room (R245). -/
theorem tableOk_putGroup {s : State} (h : TableOk s) {k : Key} {g : Group} (hg : GroupOk s.now k g)
    (room : s.group k = none → s.tableFull = false) : TableOk (s.putGroup k g) where
  rising := rising_putGroup h.rising k g
  groups e he := by
    rcases mem_put he with rfl | he
    · exact hg
    · exact h.groups e he
  capacity n hn := by
    rw [putGroup_rsm]
    cases hk : s.group k with
    | some g' => exact (length_put_some g h.rising hk).trans_le (h.capacity n hn)
    | none =>
      have full : ¬ ∃ n, s.params.rsmCap = some n ∧ n ≤ s.rsm.length := by
        rw [← tableFull_iff, room hk]; exact Bool.false_ne_true
      rw [length_put g hk]
      by_contra hlt
      exact full ⟨n, hn, by omega⟩

/-- The group that a segment joins has fewer segments than the segment's total. -/
theorem groupFor_incomplete {s : State} (h : TableOk s) {d : Deliver} {c : Concat} (hc : concatIn d = .ok (some c)) :
    (groupFor s (keyOf d c)).segs.length < c.total.toNat := by
  unfold groupFor
  cases hg : s.group (keyOf d c) with
  | some g => exact (h.groups _ (mem_of_get keyCode_injective hg)).incomplete
  | none => exact Nat.lt_of_lt_of_le Nat.zero_lt_two (concatIn_range hc).1

/-- A segment that does not complete its group leaves a good group. -/
theorem groupOk_put {s : State} (h : TableOk s) {d : Deliver} {c : Concat} (hc : concatIn d = .ok (some c))
    (hnew : (groupFor s (keyOf d c)).seg c.seq.toNat = none)
    (hnot : (groupFor s (keyOf d c)).segs.length + 1 ≠ c.total.toNat) :
    GroupOk s.now (keyOf d c) ((groupFor s (keyOf d c)).put c.seq.toNat d) := by
  obtain ⟨rising, fits, created⟩ := groupFor_put h hc
  have hlen : ((groupFor s (keyOf d c)).put c.seq.toNat d).segs.length = (groupFor s (keyOf d c)).segs.length + 1 :=
    length_put d hnew
  have hlt := groupFor_incomplete h hc
  refine ⟨rising, List.ne_nil_of_length_pos (by omega), ?_, fits, created⟩
  show _ < c.total.toNat
  omega

theorem collect_tableOk {d : Deliver} {s t : State} (h : TableOk s) (e : execCollect d s = .next t) : TableOk t := by
  rcases collect_cases d s with ⟨k, -, e'⟩ | ⟨-, e'⟩ |
    ⟨c, hc, ⟨-, -, e'⟩ | ⟨room, ⟨d', -, e'⟩ | ⟨hnew, ⟨-, e'⟩ | ⟨hnot, e'⟩⟩⟩⟩ <;> cases e'.symm.trans e
  · exact tableOk_congr h rfl (le_refl _) rfl
  · exact tableOk_congr h rfl (le_refl _) rfl
  · exact tableOk_congr h rfl (le_refl _) rfl
  · exact tableOk_congr (tableOk_dropGroup h _) rfl (le_refl _) rfl
  · exact tableOk_congr (tableOk_putGroup h (groupOk_put h hc hnew hnot) room) rfl (le_refl _) rfl

theorem expire_tableOk {s t : State} (h : TableOk s) (e : execExpire s = .next t) : TableOk t := by
  rcases expire_cases s with ⟨-, e'⟩ | ⟨k, g, -, e'⟩ <;> cases e'.symm.trans e
  · exact h
  · exact tableOk_congr (tableOk_dropGroup h k) rfl (le_refl _) rfl

/-- `COLLECT` and `EXPIRE` are the only writers of the table, and both keep it good. -/
theorem exec_tableOk {i : Instr} {s t : State} (h : TableOk s) (e : exec i s = .next t) : TableOk t := by
  obtain ⟨-, writer, -, -, -, -, -, -, -, -, -, -, hparams, hnow, -⟩ := stateWriters i s t e
  by_cases hrsm : t.rsm = s.rsm
  · exact tableOk_congr h hrsm hnow.ge hparams
  · rcases writer hrsm with ⟨d, rfl⟩ | rfl
    · exact collect_tableOk h e
    · exact expire_tableOk h e

/-! ### The line unit between steps -/

/-- The elements of the state that the line unit's invariant speaks of. -/
def lineElements (s : State) :=
  (s.params, s.closed, s.cur, s.rq, s.lock, s.dstate, s.lbuf, s.txn, s.waiters)

theorem lineUnitOk_congr {s t : State} (h : LineUnitOk s) (e : lineElements t = lineElements s) : LineUnitOk t := by
  cases s; cases t
  simp only [lineElements, Prod.mk.injEq] at e
  obtain ⟨rfl, rfl, rfl, rfl, rfl, rfl, rfl, rfl, rfl⟩ := e
  exact { h with }

/-- The block between transactions: nothing is in flight, whatever good lines are queued (R272, `END`). -/
theorem lineUnitOk_ended {s : State} (h : LineUnitOk s) {rq : List Line} (hlen : rq.length ≤ s.params.rqCap)
    (hlines : ∀ l ∈ rq, lineWf l = true) :
    LineUnitOk { s with
      rq := rq, cur := [], dstate := if s.closed then .closed else .idle, lock := .free, txn := none } where
  rqBound := hlen
  rqLines := hlines
  lbufOpen := h.lbufOpen
  lbufBound := h.lbufBound
  closed := by cases hc : s.closed <;> simp
  awaiting := by cases hc : s.closed <;> simp
  held := by simp
  notSending := by cases hc : s.closed <;> simp
  quiet _ := rfl
  accLines := by simp
  noWaiters := h.noWaiters

/-- The block with a transaction open that has taken good lines. -/
theorem lineUnitOk_open {s : State} (h : LineUnitOk s) (hopen : s.closed = false) (x : Txn) (cur : Ascii)
    {rq : List Line} (hlen : rq.length ≤ s.params.rqCap) (hlines : ∀ l ∈ rq, lineWf l = true)
    (hacc : ∀ l ∈ x.acc, lineWf l = true) :
    LineUnitOk { s with rq := rq, cur := cur, dstate := .awaiting, lock := .held, txn := some x } where
  rqBound := hlen
  rqLines := hlines
  lbufOpen := h.lbufOpen
  lbufBound := h.lbufBound
  closed := by simp [hopen]
  awaiting := by simp
  held := by simp
  notSending := by simp
  quiet := by simp
  accLines y hy := by cases hy; exact hacc
  noWaiters := h.noWaiters

/-- The block with other `SEND`s waiting, if it is not closed. -/
theorem lineUnitOk_waiters {s : State} (h : LineUnitOk s) (hopen : s.closed = false) (ws : List Request) :
    LineUnitOk { s with waiters := ws } :=
  { h with noWaiters := fun hc => absurd (hopen.symm.trans hc) Bool.false_ne_true }

theorem startSend_lineUnitOk {s : State} (h : LineUnitOk s) (hopen : s.closed = false) (k : SendKind) (text : Ascii) :
    LineUnitOk (s.startSend k text) := by
  rcases startSend_cases k text s with ⟨n, -, -, e⟩ | ⟨x, -, e⟩ <;> rw [e]
  · exact lineUnitOk_congr (lineUnitOk_open (rq := []) h hopen { kind := k, acc := [], dl := s.now + s.cmdTimeout } text
      (Nat.zero_le _) nofun nofun) rfl
  · exact lineUnitOk_congr (lineUnitOk_ended (rq := []) h (Nat.zero_le _) nofun) rfl

theorem issueSend_lineUnitOk {k : SendKind} {text : Ascii} {s t : State} (h : LineUnitOk s)
    (e : issueSend k text s = .next t) : LineUnitOk t := by
  rcases issueSend_cases k text s with ⟨-, e'⟩ | ⟨hopen, -, -, e'⟩ | ⟨hopen, -, e'⟩ <;> cases e'.symm.trans e
  · exact lineUnitOk_congr h rfl
  · exact startSend_lineUnitOk h hopen k text
  · exact lineUnitOk_waiters h hopen _

theorem resumeSend_lineUnitOk {s : State} (h : LineUnitOk s) : LineUnitOk s.resumeSend := by
  rcases resumeSend_cases s with ⟨-, e⟩ | ⟨r, ws, hw, -, ⟨hc, -⟩ | ⟨hopen, e⟩⟩
  · rwa [e]
  · exact absurd (hw.symm.trans (h.noWaiters hc)) (List.cons_ne_nil r ws)
  · rw [e]
    exact startSend_lineUnitOk (lineUnitOk_waiters h hopen ws) hopen r.kind r.text

/-- A line joins the queue only where there is room for it (R275). -/
theorem route_lineUnitOk {s : State} (h : LineUnitOk s) {l : Line} (hl : lineWf l = true) : LineUnitOk (s.route l) := by
  rcases route_cases l s with ⟨-, e⟩ | ⟨-, room, e⟩ | ⟨-, -, e⟩ <;> rw [e]
  · exact lineUnitOk_congr h rfl
  · refine { h with rqBound := ?_, rqLines := ?_ }
    · simpa using room
    · simpa [or_imp, forall_and, hl] using h.rqLines
  · exact lineUnitOk_congr h rfl

theorem endLine_lineUnitOk {s : State} (h : LineUnitOk s) : LineUnitOk s.endLine := by
  have empty : LineUnitOk { s with lbuf := [] } := { h with lbufOpen := nofun, lbufBound := fun _ _ => Nat.zero_le _ }
  rcases endLine_cases s with ⟨-, e⟩ | ⟨line, e⟩ <;> rw [e]
  · exact empty
  · exact route_lineUnitOk empty (lineWf_trim line)

theorem receive_lineUnitOk {b : Byte} {s t : State} (h : LineUnitOk s) (e : receive b s = .next t) : LineUnitOk t := by
  rcases receive_cases b s with ⟨-, e'⟩ | ⟨-, -, ⟨-, e'⟩ | ⟨other, ⟨-, e'⟩ | ⟨room, e'⟩⟩⟩ <;> cases e'.symm.trans e
  · exact h
  · exact endLine_lineUnitOk h
  · have hb : isTerminator b = false := by rwa [← Bool.not_eq_true, isTerminator_iff]
    refine { h with lbufOpen := ?_, lbufBound := ?_ }
    · simpa [or_imp, forall_and, hb] using h.lbufOpen
    · simpa using room

theorem readError_lineUnitOk {s : State} (h : LineUnitOk s) : LineUnitOk s.readError := by
  rcases readError_cases s with ⟨-, e⟩ | ⟨-, -, e⟩ <;> rw [e]
  · exact h
  · exact lineUnitOk_congr h rfl

theorem takeLine_lineUnitOk {s : State} (h : LineUnitOk s) : LineUnitOk s.takeLine := by
  rcases takeLine_cases s with ⟨-, e⟩ | ⟨x, l, rest, hd, hx, hq, taken⟩
  · rwa [e]
  have lines : ∀ y ∈ l :: rest, lineWf y = true := hq ▸ h.rqLines
  have hrest : ∀ y ∈ rest, lineWf y = true := fun y hy => lines y (List.mem_cons_of_mem _ hy)
  have hlen : rest.length ≤ s.params.rqCap := by
    have := h.rqBound
    rw [hq, List.length_cons] at this
    omega
  rcases taken with ⟨-, e⟩ | ⟨-, e⟩ <;> rw [e]
  · have hopen : s.closed = false := by
      rw [← Bool.not_eq_true, ← h.closed, hd]; exact nofun
    have hlock : s.lock = .held := h.held.2 (by rw [hx]; rfl)
    have hacc : ∀ y ∈ x.acc ++ [l], lineWf y = true := by
      simpa [or_imp, forall_and, lines l List.mem_cons_self] using h.accLines x hx
    refine lineUnitOk_congr (lineUnitOk_open h hopen { x with acc := x.acc ++ [l] } s.cur hlen hrest hacc) ?_
    simp only [lineElements, hd, hlock]
  · exact lineUnitOk_congr (lineUnitOk_ended h hlen hrest) rfl

theorem timeout_lineUnitOk {s t : State} (h : LineUnitOk s) (e : execLnTimeout s = .next t) : LineUnitOk t := by
  rcases timeout_cases s with ⟨-, e'⟩ | ⟨x, -, -, -, e'⟩ <;> cases e'.symm.trans e
  · exact h
  · exact lineUnitOk_congr (lineUnitOk_ended h h.rqBound h.rqLines) rfl

/-- The line unit closes: no transaction, nobody waiting (R278). -/
theorem lineUnitOk_closed {s : State} (h : LineUnitOk s) :
    LineUnitOk { s with
      closed := true, dstate := .closed, waiters := [], cur := [], lock := .free, txn := none } where
  rqBound := h.rqBound
  rqLines := h.rqLines
  lbufOpen := h.lbufOpen
  lbufBound := h.lbufBound
  closed := by simp
  awaiting := by simp
  held := by simp
  notSending := by simp
  quiet _ := rfl
  accLines := by simp
  noWaiters _ := rfl

theorem close_lineUnitOk {s t : State} (h : LineUnitOk s) (e : execClose s = .next t) : LineUnitOk t := by
  rcases close_cases s with ⟨-, e'⟩ | ⟨-, hx, e'⟩ | ⟨x, -, -, e'⟩ <;> cases e'.symm.trans e
  · exact lineUnitOk_congr h rfl
  · have hlock : s.lock = .free := by
      have hfree : s.lock ≠ .held := by rw [Ne, h.held, hx]; exact Bool.false_ne_true
      cases hl : s.lock with
      | free => rfl
      | held => exact absurd hl hfree
    refine lineUnitOk_congr (lineUnitOk_closed h) ?_
    simp only [lineElements, hlock, hx, h.quiet hx]
  · exact lineUnitOk_congr (lineUnitOk_closed h) rfl

theorem exec_lineUnitOk {i : Instr} {s t : State} (h : LineUnitOk s) (e : exec i s = .next t) : LineUnitOk t := by
  cases exec_effect e with
  | sends kind =>
    obtain ⟨⟨k, text⟩, hi⟩ := Option.isSome_iff_exists.1 kind
    rw [exec_sendForm hi] at e
    exact issueSend_lineUnitOk h e
  | receives kind =>
    obtain ⟨b, hb⟩ := exec_isReceive kind
    rw [hb] at e
    exact receive_lineUnitOk h e
  | closes => exact close_lineUnitOk h e
  | timesOut => exact timeout_lineUnitOk h e
  | answers | segments | collects | expires | setsDeadline | configures | endsRx => exact lineUnitOk_congr h rfl

/-! ### The block between steps -/

theorem exec_inv {i : Instr} {s t : State} (h : Inv s) (e : exec i s = .next t) : Inv t :=
  ⟨exec_tableOk h.table e, exec_lineUnitOk h.line e⟩

@[simp] theorem takeLine_rsm (s : State) : s.takeLine.rsm = s.rsm := by
  rcases takeLine_cases s with ⟨-, e⟩ | ⟨x, l, rest, -, -, -, ⟨-, e⟩ | ⟨-, e⟩⟩ <;> rw [e]

@[simp] theorem resumeSend_rsm (s : State) : s.resumeSend.rsm = s.rsm := by
  rcases resumeSend_cases s with ⟨-, e⟩ | ⟨r, ws, -, -, ⟨-, e⟩ | ⟨-, e⟩⟩ <;> rw [e]
  obtain ⟨out, cur, rq, lock, dstate, txn, txIn, -, e⟩ := startSend_frame r.kind r.text { s with waiters := ws }
  rw [e]

@[simp] theorem readError_rsm (s : State) : s.readError.rsm = s.rsm := by
  rcases readError_cases s with ⟨-, e⟩ | ⟨-, -, e⟩ <;> rw [e]

/-- The turns that no row of the table names leave the reassembly table alone. -/
theorem tableOk_of_keepsHistory {s t : State} (h : TableOk s) (hrsm : t.rsm = s.rsm) (k : KeepsHistory s t) : TableOk t :=
  tableOk_congr h hrsm k.now k.params

theorem turned_inv {s : State} (h : Inv s) : Inv s.turned :=
  ⟨tableOk_of_keepsHistory h.table rfl (turned_keepsHistory s), lineUnitOk_congr h.line rfl⟩

theorem takePort_inv {s : State} (h : Inv s) (rest : Octets) : Inv { s with port := rest } :=
  ⟨tableOk_congr h.table rfl (le_refl _) rfl, lineUnitOk_congr h.line rfl⟩

theorem takeLine_inv {s : State} (h : Inv s) : Inv s.takeLine :=
  ⟨tableOk_of_keepsHistory h.table (takeLine_rsm s) (takeLine_keepsHistory s), takeLine_lineUnitOk h.line⟩

theorem resumeSend_inv {s : State} (h : Inv s) : Inv s.resumeSend :=
  ⟨tableOk_of_keepsHistory h.table (resumeSend_rsm s) (resumeSend_keepsHistory s), resumeSend_lineUnitOk h.line⟩

theorem readError_inv {s : State} (h : Inv s) : Inv s.readError :=
  ⟨tableOk_of_keepsHistory h.table (readError_rsm s) (readError_keepsHistory s), readError_lineUnitOk h.line⟩

/-- Settles O5: time passing keeps the invariant, and every turn keeps it. -/
theorem stepKeepsInvariant : Obligations.StepKeepsInvariant := by
  unfold Obligations.StepKeepsInvariant
  intro s t h e
  rcases step_cases e with ⟨-, -, rfl⟩ | ⟨-, i, rest, -, e⟩ | ⟨-, rfl⟩ | ⟨-, rfl⟩ | ⟨-, rfl⟩
  · exact turned_inv h
  · exact exec_inv (takePort_inv (turned_inv h) rest) e
  · exact takeLine_inv (turned_inv h)
  · exact resumeSend_inv (turned_inv h)
  · exact readError_inv (turned_inv h)

/-! ### The command port -/

/-- The decoder checks every instruction it answers (R43). -/
theorem decode_wf {o rest : Octets} {i : Instr} (h : decode o = .ok (i, rest)) : i.wf = true := by
  unfold decode at h
  split at h
  · split at h
    · cases h
    · split at h
      · cases h
      · split at h
        · cases h; assumption
        · cases h
  · cases h

/-- Nothing decodes from nothing. -/
theorem ne_nil_of_decode_ok {o rest : Octets} {i : Instr} (h : decode o = .ok (i, rest)) : o ≠ [] := by
  rintro rfl
  cases h

theorem runPort_nil {s : State} (h : s.port = []) : runPort s = .next s := by
  simp only [runPort, fetch, h, if_true]

theorem runPort_of_decode_ok {s : State} {i : Instr} {rest : Octets} (h : decode s.port = .ok (i, rest)) :
    runPort s = exec i { s with port := rest } := by
  simp only [runPort, fetch, h, ne_nil_of_decode_ok h, if_false]

theorem runPort_of_decode_error {s : State} {e : DecodeError} (hp : s.port ≠ []) (h : decode s.port = .error e) :
    runPort s = .refused (portRefusal e) := by
  simp only [runPort, fetch, h, hp, if_false]

theorem step_instr {s : State} (h : s.nextTurn = .instr) : step s = runPort s.turned := by
  rw [step_eq, h]; rfl

/-- Settles O1: the port's turn runs the port, by what its octets decode to. -/
theorem stepRunsPresented : Obligations.StepRunsPresented := by
  unfold Obligations.StepRunsPresented
  intro s turn
  rw [step_instr turn]
  refine ⟨fun i rest hd => ⟨decode_wf hd, runPort_of_decode_ok hd⟩, fun hp => runPort_nil hp, fun e hp hd => ?_⟩
  rw [runPort_of_decode_error (s := s.turned) hp hd]
  exact ⟨fun he => he ▸ rfl, fun he => he ▸ rfl, fun he => he ▸ rfl⟩

/-! ### Reset -/

theorem resetWith_tableOk (p : Config.Params) : TableOk (State.resetWith p) where
  rising := rising_resetWith p
  groups := nofun
  capacity _ _ := Nat.zero_le _

theorem resetWith_lineUnitOk (p : Config.Params) : LineUnitOk (State.resetWith p) where
  rqBound := Nat.zero_le _
  rqLines := nofun
  lbufOpen := nofun
  lbufBound _ _ := Nat.zero_le _
  closed := by simp [State.resetWith]
  awaiting := by simp [State.resetWith]
  held := by simp [State.resetWith]
  notSending := nofun
  quiet _ := rfl
  accLines := nofun
  noWaiters := nofun

theorem resetWith_inv (p : Config.Params) : Inv (State.resetWith p) := ⟨resetWith_tableOk p, resetWith_lineUnitOk p⟩

/-- The three commands that the source names, by name (R36). -/
theorem defaultCmdset_lookup : defaultCmdset.lookup (ascii "Test") = some (ascii "AT") ∧
    defaultCmdset.lookup (ascii "SignalQuality") = some (ascii "AT+CSQ") ∧
    defaultCmdset.lookup (ascii "SendSms") = some (ascii "AT+CMGS") := by
  decide

/-- Settles O4: reset's elements are read off its definition, and the state is good. -/
theorem resetState : Obligations.ResetState := by
  unfold Obligations.ResetState
  refine ⟨rfl, resetWith_inv, fun p hcap => ?_⟩
  exact ⟨rfl, rfl, rfl, rfl, rfl, rfl, rfl, rfl, rfl, rfl, rfl, rfl, hcap, rfl, rfl, rfl, rfl, defaultCmdset_lookup⟩

end Sys2Proof.Proofs

/-! PROOFS. The presentation of instructions as octets, and the rows of the wire values: decode reads back what encode
writes (O2), the words written out (O3), the first-octet rows (O33), the data-coding rows (O34), the address-type rows
(O35), the element, SMSC and septet rows (O36). -/

namespace Sys2Proof.Proofs

open Sys2Proof Sys2Proof.Machine Sys2Proof.Laws

/-! ### The fields of the octets of R71 to R79, and the rows their readers choose -/

/-- The fields of a first octet with TP-MTI 10 or 11 (R73). -/
theorem foOther_fields : ∀ x : BitVec 6,
    (mtiOf (foOther x 2) = 2 ∧ (foOther x 2).extractLsb' 2 6 = x) ∧
    (mtiOf (foOther x 3) = 3 ∧ (foOther x 3).extractLsb' 2 6 = x) := by
  decide

/-- The fields of a TP-DCS octet (R79). -/
theorem dcsOctet_fields (hi : BitVec 3) (flash : Bool) (lo : BitVec 2) (n : Nat) (hn : n < 4) :
    (dcsOctet hi flash n lo).toNat / 4 % 4 = n ∧ (dcsOctet hi flash n lo).extractLsb' 5 3 = hi ∧
    bitOf (dcsOctet hi flash n lo) 4 = flash ∧ (dcsOctet hi flash n lo).extractLsb' 0 2 = lo := by
  revert hi flash lo
  interval_cases n <;> decide

/-- The fields of an address-type octet with bit 7 set, and which of them are the three named ones (R78). -/
theorem toaOctet_fields : ∀ (ton : BitVec 3) (npi : BitVec 4),
    bitOf (toaOctet ton npi) 7 = true ∧ (toaOctet ton npi).extractLsb' 4 3 = ton ∧
    (toaOctet ton npi).extractLsb' 0 4 = npi ∧ (toaOctet ton npi = 0x91 ↔ ton = 1 ∧ npi = 1) ∧
    (toaOctet ton npi = 0x81 ↔ ton = 0 ∧ npi = 1) ∧ (toaOctet ton npi = 0xD0 ↔ ton = 5 ∧ npi = 0) := by
  decide

/-- Seven bits as an octet: bit 7 is clear, and the seven bits are there. -/
theorem ofSevenBits_fields : ∀ x : BitVec 7,
    bitOf (BitVec.ofNat 8 x.toNat) 7 = false ∧ (BitVec.ofNat 8 x.toNat).extractLsb' 0 7 = x := by
  decide

/-- The row of a SUBMIT first octet, by its TP-VPF (R75). -/
def submitRow (vpf : Nat) (rp udhi srr rd : Bool) (rest : Octets) : Instr :=
  match vpf with
  | 0b00 => .foSubmitVpAbsent rp udhi srr rd rest
  | 0b10 => .foSubmitVpRelative rp udhi srr rd rest
  | 0b01 => .foSubmitVpEnhanced rp udhi srr rd rest
  | _ => .foSubmitVpAbsolute rp udhi srr rd rest

theorem firstOctetReader_submit (rp udhi srr rd : Bool) (vpf : Nat) (hv : vpf < 4) :
    firstOctetReader (foSubmit rd vpf srr udhi rp) = cOctets.read.map (submitRow vpf rp udhi srr rd) := by
  obtain ⟨hmti, hrd, hvpf, hsrr, hudhi, hrp⟩ := foSubmit_fields rd srr udhi rp vpf hv
  simp only [firstOctetReader, hmti, hvpf, hrd, hsrr, hudhi, hrp]
  interval_cases vpf <;> rfl

theorem firstOctetReader_deliver (rp udhi sri x lp mms : Bool) :
    firstOctetReader (foDeliver mms lp x sri udhi rp) = cOctets.read.map (.foDeliver rp udhi sri x lp mms) := by
  obtain ⟨hmti, hmms, hlp, hx, hsri, hudhi, hrp⟩ := foDeliver_fields mms lp x sri udhi rp
  simp only [firstOctetReader, hmti, hmms, hlp, hx, hsri, hudhi, hrp]

theorem firstOctetReader_statusReport (x : BitVec 6) :
    firstOctetReader (foOther x 0b10) = cOctets.read.map (.foStatusReport x) := by
  obtain ⟨⟨hmti, hx⟩, -⟩ := foOther_fields x
  simp only [firstOctetReader, hmti, hx]

theorem firstOctetReader_reservedMti (x : BitVec 6) :
    firstOctetReader (foOther x 0b11) = cOctets.read.map (.foReservedMti x) := by
  obtain ⟨-, hmti, hx⟩ := foOther_fields x
  simp only [firstOctetReader, hmti, hx]

/-- The row of a TP-DCS octet, by its bits [3:2] (R172). -/
def dcsRow (n : Nat) (hi : BitVec 3) (flash : Bool) (lo : BitVec 2) (p : Bool × Octets) : Instr :=
  match n with
  | 0b00 => .dcsGsm7 hi flash lo p.1 p.2
  | 0b01 => .dcs8bit hi flash lo p.1 p.2
  | 0b10 => .dcsUcs2 hi flash lo p.1 p.2
  | _ => .dcsReserved hi flash lo p.1 p.2

theorem dcsReader_eq (hi : BitVec 3) (flash : Bool) (lo : BitVec 2) (n : Nat) (hn : n < 4) :
    dcsReader (dcsOctet hi flash n lo) = cFlagged.read.map (dcsRow n hi flash lo) := by
  obtain ⟨ha, hhi, hflash, hlo⟩ := dcsOctet_fields hi flash lo n hn
  simp only [dcsReader, ha, hhi, hflash, hlo]
  interval_cases n <;> rfl

/-- Every type octet with bit 7 set but the three named ones is read by the general row (R78). -/
theorem toaReader_general {ton : BitVec 3} {npi : BitVec 4} (h91 : ¬ (ton = 1 ∧ npi = 1)) (h81 : ¬ (ton = 0 ∧ npi = 1))
    (hD0 : ¬ (ton = 5 ∧ npi = 0)) :
    toaReader (toaOctet ton npi) = cField.read.map fun p => .toa ton npi p.1 p.2 := by
  obtain ⟨h7, hton, hnpi, e91, e81, eD0⟩ := toaOctet_fields ton npi
  simp only [toaReader, e91, e81, eD0, h91, h81, hD0, h7, hton, hnpi, if_false, if_true]

theorem toaReader_bit7Clear (x : BitVec 7) :
    toaReader (BitVec.ofNat 8 x.toNat) = cField.read.map fun p => .toaBit7Clear x p.1 p.2 := by
  obtain ⟨h7, hx⟩ := ofSevenBits_fields x
  have hne : ∀ b : Byte, bitOf b 7 = true → BitVec.ofNat 8 x.toNat ≠ b := fun b hb e => by
    rw [e, hb] at h7
    cases h7
  simp only [toaReader, hne 0x91 rfl, hne 0x81 rfl, hne 0xD0 rfl, h7, hx, if_false, Bool.false_eq_true]

theorem ieiReader_other {iei : Byte} (h0 : iei ≠ 0x00) (h8 : iei ≠ 0x08) :
    ieiReader iei = cOctets.read.map (.ieiOther iei) := by
  simp only [ieiReader, h0, h8, if_false]

theorem smscReader_present {l : Byte} (h : l ≠ 0x00) : smscReader l = cOctets.read.map (.smscPresent l) := by
  simp only [smscReader, h, if_false]

theorem septetReader_default {q : Septet} (h : q ≠ 0x1B) :
    septetReader (BitVec.ofNat 8 q.toNat) = some (cSeptets.read.map (.gsm7Default q)) := by
  obtain ⟨h7, hq⟩ := ofSevenBits_fields q
  have hne : BitVec.ofNat 8 q.toNat ≠ 0x1B := fun e => h (by rw [← hq, e]; rfl)
  simp only [septetReader, h7, hq, hne, if_false, Bool.false_eq_true]

/-! ### Decode reads back what encode writes -/

/-- An instruction made of one operand value is read back where its code and format octets choose the reader that makes
such instructions. -/
theorem decode_encode_of_operands {i : Instr} (hw : i.wf = true) {c : Codec α} {P : α → Prop} (hc : Lawful c P) {a : α}
    (ha : P a) {code fmt : Byte} (he : encode i = header code fmt ++ c.write a) {f : α → Instr}
    (hr : operandReader code fmt = some (c.read.map f)) (hi : f a = i) (rest : Octets) :
    decode (encode i ++ rest) = .ok (i, rest) := by
  have hread : c.read.map f (c.write a ++ rest) = .ok (i, rest) := by
    simp only [Reader.map, Reader.bind, hc a ha, Reader.pure, hi]
  simp only [he, header, List.cons_append, List.nil_append, decode, hr, hread, hw, if_true]

/-- An instruction without operands is read back where its code and format octets choose the reader of it. -/
theorem decode_encode_of_no_operands {i : Instr} (hw : i.wf = true) {code fmt : Byte} (he : encode i = header code fmt)
    (hr : operandReader code fmt = some (Reader.pure i)) (rest : Octets) :
    decode (encode i ++ rest) = .ok (i, rest) := by
  simp only [he, header, List.cons_append, List.nil_append, decode, hr, Reader.pure, hw, if_true]

theorem ne_nil_of_lineWf {l : Line} (h : lineWf l = true) : l ≠ [] := by
  rintro rfl
  cases h

theorem decode_encode_toa {ton : BitVec 3} {npi : BitVec 4} {len : Byte} {val : Octets}
    (hw : (Instr.toa ton npi len val).wf = true) (rest : Octets) :
    decode (encode (.toa ton npi len val) ++ rest) = .ok (.toa ton npi len val, rest) := by
  have hnamed : (¬ (ton = 1 ∧ npi = 1) ∧ ¬ (ton = 0 ∧ npi = 1)) ∧ ¬ (ton = 5 ∧ npi = 0) := by
    simpa only [Instr.wf, Bool.not_eq_true', ← Bool.not_eq_true, Bool.or_eq_true, not_or, Bool.and_eq_true, beq_iff_eq]
      using hw
  obtain ⟨⟨h91, h81⟩, hD0⟩ := hnamed
  exact decode_encode_of_operands hw lawful_field (a := (len, val)) trivial rfl
    (congrArg some (toaReader_general h91 h81 hD0)) rfl rest

theorem decode_encode_ieiOther {iei : Byte} {ied : Octets} (hw : (Instr.ieiOther iei ied).wf = true) (rest : Octets) :
    decode (encode (.ieiOther iei ied) ++ rest) = .ok (.ieiOther iei ied, rest) := by
  have hnamed : (iei ≠ 0 ∧ iei ≠ 8) ∧ ied.length ≤ 255 := by
    simpa only [Instr.wf, Bool.and_eq_true, bne_iff_ne, decide_eq_true_eq] using hw
  obtain ⟨⟨h0, h8⟩, -⟩ := hnamed
  exact decode_encode_of_operands hw lawful_octets trivial rfl (congrArg some (ieiReader_other h0 h8)) rfl rest

/-- Settles O2: for each row, the form of its operands is lawful, and its code and format octets choose the reader that
makes its instruction of them; for a wire value the reader finds the row's fields in the octet. -/
theorem decodeEncodeAgree : Obligations.DecodeEncodeAgree := by
  unfold Obligations.DecodeEncodeAgree
  intro i rest hw
  cases i with
  | gsm7Enc t => exact decode_encode_of_operands hw lawful_text trivial rfl rfl rfl rest
  | gsm7Dec q => exact decode_encode_of_operands hw lawful_septets trivial rfl rfl rfl rest
  | pack7 q k =>
    exact decode_encode_of_operands hw (lawful_pair lawful_septets lawful_fill) ⟨trivial, trivial⟩ rfl rfl rfl rest
  | unpack7 o l k =>
    exact decode_encode_of_operands hw (lawful_pair lawful_octets (lawful_pair lawful_nat lawful_fill))
      ⟨trivial, trivial, trivial⟩ rfl rfl rfl rest
  | ucs2Enc t => exact decode_encode_of_operands hw lawful_text trivial rfl rfl rfl rest
  | ucs2Dec o => exact decode_encode_of_operands hw lawful_octets trivial rfl rfl rfl rest
  | oct8 o => exact decode_encode_of_operands hw lawful_octets trivial rfl rfl rfl rest
  | addrEnc a => exact decode_encode_of_operands hw lawful_octets trivial rfl rfl rfl rest
  | addrEncAlnum t => exact decode_encode_of_operands hw lawful_text trivial rfl rfl rfl rest
  | addrDec a => exact decode_encode_of_operands hw lawful_address trivial rfl rfl rfl rest
  | addrSer a => exact decode_encode_of_operands hw lawful_address trivial rfl rfl rfl rest
  | addrParse o pos =>
    exact decode_encode_of_operands hw (lawful_pair lawful_octets lawful_nat) ⟨trivial, trivial⟩ rfl rfl rfl rest
  | udhEnc h => exact decode_encode_of_operands hw lawful_header trivial rfl rfl rfl rest
  | udhDec o pos limit =>
    exact decode_encode_of_operands hw (lawful_pair lawful_octets (lawful_pair lawful_nat lawful_nat))
      ⟨trivial, trivial, trivial⟩ rfl rfl rfl rest
  | udhConcat8 ref total seq =>
    exact decode_encode_of_operands hw (lawful_pair lawful_nat (lawful_pair lawful_nat lawful_nat))
      ⟨trivial, trivial, trivial⟩ rfl rfl rfl rest
  | udhConcat16 ref total seq =>
    exact decode_encode_of_operands hw (lawful_pair lawful_nat (lawful_pair lawful_nat lawful_nat))
      ⟨trivial, trivial, trivial⟩ rfl rfl rfl rest
  | udhGetconcat h => exact decode_encode_of_operands hw lawful_header trivial rfl rfl rfl rest
  | dcsMk a flash =>
    exact decode_encode_of_operands hw (lawful_pair lawful_alphabet lawful_bool) ⟨trivial, trivial⟩ rfl rfl rfl rest
  | dcsAlpha d => exact decode_encode_of_operands hw lawful_byte trivial rfl rfl rfl rest
  | dcsFlash d => exact decode_encode_of_operands hw lawful_byte trivial rfl rfl rfl rest
  | sctsDec o => exact decode_encode_of_operands hw lawful_octets7 trivial rfl rfl rfl rest
  | sctsEnc ts => exact decode_encode_of_operands hw lawful_timestamp hw rfl rfl rfl rest
  | udBuild dcs udh body =>
    exact decode_encode_of_operands hw (lawful_pair lawful_byte (lawful_pair (lawful_option lawful_header) lawful_body))
      ⟨trivial, fun _ _ => trivial, trivial⟩ rfl rfl rfl rest
  | udSplit dcs udhi o pos =>
    exact decode_encode_of_operands hw
      (lawful_pair lawful_byte (lawful_pair lawful_bool (lawful_pair lawful_octets lawful_nat)))
      ⟨trivial, trivial, trivial, trivial⟩ rfl rfl rfl rest
  | tpduSerSubmit t => exact decode_encode_of_operands hw lawful_submit trivial rfl rfl rfl rest
  | tpduSerDeliver t => exact decode_encode_of_operands hw lawful_deliver trivial rfl rfl rfl rest
  | tpduParse o => exact decode_encode_of_operands hw lawful_octets trivial rfl rfl rfl rest
  | frameEnc smsc tpdu =>
    exact decode_encode_of_operands hw (lawful_pair (lawful_option lawful_smsc) lawful_octets)
      ⟨fun _ _ => trivial, trivial⟩ rfl rfl rfl rest
  | frameDec hex => exact decode_encode_of_operands hw lawful_octets trivial rfl rfl rfl rest
  | segment p dest =>
    exact decode_encode_of_operands hw (lawful_pair lawful_payload lawful_octets) ⟨trivial, trivial⟩ rfl rfl rfl rest
  | collect t => exact decode_encode_of_operands hw lawful_deliver trivial rfl rfl rfl rest
  | rsmCfg d => exact decode_encode_of_operands hw (lawful_option lawful_nat) (fun _ _ => trivial) rfl rfl rfl rest
  | lnParse l => exact decode_encode_of_operands hw lawful_line (ne_nil_of_lineWf hw) rfl rfl rfl rest
  | lnClassify l c =>
    exact decode_encode_of_operands hw (lawful_pair lawful_line lawful_octets) (a := (l, c))
      ⟨ne_nil_of_lineWf hw, trivial⟩ rfl rfl rfl rest
  | send text => exact decode_encode_of_operands hw lawful_octets trivial rfl rfl rfl rest
  | sendExpect text sub =>
    exact decode_encode_of_operands hw (lawful_pair lawful_octets lawful_octets) ⟨trivial, trivial⟩ rfl rfl rfl rest
  | simpleQuery text => exact decode_encode_of_operands hw lawful_octets trivial rfl rfl rfl rest
  | close => exact decode_encode_of_no_operands hw rfl rfl rest
  | isOpen => exact decode_encode_of_no_operands hw rfl rfl rest
  | lnCfg v => exact decode_encode_of_operands hw lawful_lineConfig trivial rfl rfl rfl rest
  | expire => exact decode_encode_of_no_operands hw rfl rfl rest
  | lnRx b => exact decode_encode_of_operands hw lawful_byte trivial rfl rfl rfl rest
  | lnTimeout => exact decode_encode_of_no_operands hw rfl rfl rest
  | lnEos => exact decode_encode_of_no_operands hw rfl rfl rest
  | foSubmitVpAbsent rp udhi srr rd o =>
    exact decode_encode_of_operands hw lawful_octets trivial rfl
      (congrArg some (firstOctetReader_submit rp udhi srr rd 0b00 (by decide))) rfl rest
  | foSubmitVpRelative rp udhi srr rd o =>
    exact decode_encode_of_operands hw lawful_octets trivial rfl
      (congrArg some (firstOctetReader_submit rp udhi srr rd 0b10 (by decide))) rfl rest
  | foSubmitVpEnhanced rp udhi srr rd o =>
    exact decode_encode_of_operands hw lawful_octets trivial rfl
      (congrArg some (firstOctetReader_submit rp udhi srr rd 0b01 (by decide))) rfl rest
  | foSubmitVpAbsolute rp udhi srr rd o =>
    exact decode_encode_of_operands hw lawful_octets trivial rfl
      (congrArg some (firstOctetReader_submit rp udhi srr rd 0b11 (by decide))) rfl rest
  | foDeliver rp udhi sri x lp mms o =>
    exact decode_encode_of_operands hw lawful_octets trivial rfl
      (congrArg some (firstOctetReader_deliver rp udhi sri x lp mms)) rfl rest
  | foStatusReport x o =>
    exact decode_encode_of_operands hw lawful_octets trivial rfl
      (congrArg some (firstOctetReader_statusReport x)) rfl rest
  | foReservedMti x o =>
    exact decode_encode_of_operands hw lawful_octets trivial rfl
      (congrArg some (firstOctetReader_reservedMti x)) rfl rest
  | dcsGsm7 hi flash lo udhi ud =>
    exact decode_encode_of_operands hw lawful_flagged trivial rfl
      (congrArg some (dcsReader_eq hi flash lo 0b00 (by decide))) rfl rest
  | dcs8bit hi flash lo udhi ud =>
    exact decode_encode_of_operands hw lawful_flagged trivial rfl
      (congrArg some (dcsReader_eq hi flash lo 0b01 (by decide))) rfl rest
  | dcsUcs2 hi flash lo udhi ud =>
    exact decode_encode_of_operands hw lawful_flagged trivial rfl
      (congrArg some (dcsReader_eq hi flash lo 0b10 (by decide))) rfl rest
  | dcsReserved hi flash lo udhi ud =>
    exact decode_encode_of_operands hw lawful_flagged trivial rfl
      (congrArg some (dcsReader_eq hi flash lo 0b11 (by decide))) rfl rest
  | toa ton npi len val => exact decode_encode_toa hw rest
  | toaInternational len val => exact decode_encode_of_operands hw lawful_field trivial rfl rfl rfl rest
  | toaUnknown len val => exact decode_encode_of_operands hw lawful_field trivial rfl rfl rfl rest
  | toaAlphanumeric len val => exact decode_encode_of_operands hw lawful_field trivial rfl rfl rfl rest
  | toaBit7Clear x len val =>
    exact decode_encode_of_operands hw lawful_field trivial rfl (congrArg some (toaReader_bit7Clear x)) rfl rest
  | ieiConcat8 ied => exact decode_encode_of_operands hw lawful_octets trivial rfl rfl rfl rest
  | ieiConcat16 ied => exact decode_encode_of_operands hw lawful_octets trivial rfl rfl rfl rest
  | ieiOther iei ied => exact decode_encode_ieiOther hw rest
  | smscNone o => exact decode_encode_of_operands hw lawful_octets trivial rfl rfl rfl rest
  | smscPresent l o =>
    exact decode_encode_of_operands hw lawful_octets trivial rfl
      (congrArg some (smscReader_present (bne_iff_ne.1 hw))) rfl rest
  | gsm7Escape q => exact decode_encode_of_operands hw lawful_septets trivial rfl rfl rfl rest
  | gsm7Default q o =>
    exact decode_encode_of_operands hw lawful_septets trivial rfl (septetReader_default (bne_iff_ne.1 hw)) rfl rest
  | frameCommit hex => exact decode_encode_of_operands hw lawful_octets trivial rfl rfl rfl rest
  | frameAbort hex => exact decode_encode_of_operands hw lawful_octets trivial rfl rfl rfl rest
  | lineCr => exact decode_encode_of_no_operands hw rfl rfl rest
  | lineLf => exact decode_encode_of_no_operands hw rfl rfl rest

/-! ### Words written out -/

/-- A word that the encoder writes decodes to its instruction. -/
theorem decode_word {w : Octets} {i : Instr} (he : encode i = w) (hw : i.wf = true) : decode w = .ok (i, []) := by
  have h := decodeEncodeAgree i [] hw
  rwa [he, List.append_nil] at h

/-- Settles O3: each word is the encoding of its instruction. -/
theorem knownWordsDecode : Obligations.KnownWordsDecode := by
  unfold Obligations.KnownWordsDecode
  exact ⟨decode_word rfl rfl, decode_word rfl rfl, decode_word rfl rfl, decode_word rfl rfl, decode_word rfl rfl,
    decode_word rfl rfl, decode_word rfl rfl, decode_word rfl rfl, decode_word rfl rfl, decode_word rfl rfl,
    decode_word rfl rfl, decode_word rfl rfl, decode_word rfl rfl, decode_word rfl rfl, decode_word rfl rfl,
    decode_word rfl rfl⟩

/-! ### The first-octet rows -/

/-- A SUBMIT first octet fixes its fields (R71). -/
theorem foSubmit_injective {rd rd' srr srr' udhi udhi' rp rp' : Bool} {vpf vpf' : Nat} (hv : vpf < 4) (hv' : vpf' < 4)
    (e : foSubmit rd vpf srr udhi rp = foSubmit rd' vpf' srr' udhi' rp') :
    rd = rd' ∧ vpf = vpf' ∧ srr = srr' ∧ udhi = udhi' ∧ rp = rp' := by
  obtain ⟨-, hrd, hvpf, hsrr, hudhi, hrp⟩ := foSubmit_fields rd srr udhi rp vpf hv
  obtain ⟨-, hrd', hvpf', hsrr', hudhi', hrp'⟩ := foSubmit_fields rd' srr' udhi' rp' vpf' hv'
  rw [e] at hrd hvpf hsrr hudhi hrp
  exact ⟨hrd.symm.trans hrd', hvpf.symm.trans hvpf', hsrr.symm.trans hsrr', hudhi.symm.trans hudhi', hrp.symm.trans hrp'⟩

/-- A DELIVER first octet fixes its fields (R72). -/
theorem foDeliver_injective {mms mms' lp lp' x x' sri sri' udhi udhi' rp rp' : Bool}
    (e : foDeliver mms lp x sri udhi rp = foDeliver mms' lp' x' sri' udhi' rp') :
    mms = mms' ∧ lp = lp' ∧ sri = sri' ∧ udhi = udhi' ∧ rp = rp' := by
  obtain ⟨-, hmms, hlp, -, hsri, hudhi, hrp⟩ := foDeliver_fields mms lp x sri udhi rp
  obtain ⟨-, hmms', hlp', -, hsri', hudhi', hrp'⟩ := foDeliver_fields mms' lp' x' sri' udhi' rp'
  rw [e] at hmms hlp hsri hudhi hrp
  exact ⟨hmms.symm.trans hmms', hlp.symm.trans hlp', hsri.symm.trans hsri', hudhi.symm.trans hudhi', hrp.symm.trans hrp'⟩

theorem head_eq_of_take_eq {n : Nat} {a b : Byte} {l m : Octets} (h : (a :: l).take n = b :: m) : a = b := by
  cases n with
  | zero => cases h
  | succ n => exact (List.cons.inj h).1

/-- The row of a SUBMIT record's first octet parses the octets that open with it. -/
theorem exec_firstOctetRow (t : Submit) (rest : Octets) (s : State) : exec (firstOctetRow t rest) s =
    parseStep (foSubmit t.rd (vpfOf t.vp) t.srr t.udh.isSome t.rp :: rest) s := by
  obtain ⟨rd, srr, rp, mr, da, pid, dcs, vp, udh, body⟩ := t
  cases vp <;> rfl

theorem parseStep_submit (rd srr udhi rp : Bool) (vpf : Nat) (hv : vpf < 4) (rest : Octets) (s : State) :
    parseStep (foSubmit rd vpf srr udhi rp :: rest) s =
      reply 0x49 (((parseSubmit (foSubmit rd vpf srr udhi rp :: rest)).map .submit).map .tpdu) s := by
  have hm := (foSubmit_fields rd srr udhi rp vpf hv).1
  rw [parseStep_reply (by rw [hm]; decide), tpduRead_cons, if_neg (by rw [hm]; decide), if_pos hm]

theorem parseStep_deliver (mms lp x sri udhi rp : Bool) (rest : Octets) (s : State) :
    parseStep (foDeliver mms lp x sri udhi rp :: rest) s =
      reply 0x49 (((parseDeliver (foDeliver mms lp x sri udhi rp :: rest)).map .deliver).map .tpdu) s := by
  have hm := (foDeliver_fields mms lp x sri udhi rp).1
  rw [parseStep_reply (by rw [hm]; decide), tpduRead_cons, if_pos hm]

theorem submitHead_cons (t : Submit) :
    submitHead t = foSubmit t.rd (vpfOf t.vp) t.srr t.udh.isSome t.rp :: (submitHead t).tail := rfl

/-- A parsed SUBMIT has the flags and the TP-VPF of the octet it opens with (R71, R75, R193). -/
theorem parseSubmit_flags {rd srr udhi rp : Bool} {vpf : Nat} (hv : vpf < 4) {rest : Octets} {t : Submit}
    (h : parseSubmit (foSubmit rd vpf srr udhi rp :: rest) = .ok t) :
    t.rd = rd ∧ vpfOf t.vp = vpf ∧ t.srr = srr ∧ t.udh.isSome = udhi ∧ t.rp = rp := by
  obtain ⟨-, -, htake, -⟩ := parseSubmit_eq_ok h (foSubmit_fields rd srr udhi rp vpf hv).1
  rw [submitHead_cons t] at htake
  exact foSubmit_injective (vpfOf_lt _) hv (head_eq_of_take_eq htake).symm

/-- A parsed DELIVER has the flags of the octet it opens with (R72, R193). -/
theorem parseDeliver_flags {mms lp x sri udhi rp : Bool} {rest : Octets} {t : Deliver}
    (h : parseDeliver (foDeliver mms lp x sri udhi rp :: rest) = .ok t) :
    t.mms = mms ∧ t.lp = lp ∧ t.sri = sri ∧ t.udh.isSome = udhi ∧ t.rp = rp := by
  obtain ⟨-, -, -, htake, -⟩ := parseDeliver_eq_ok h (foDeliver_fields mms lp x sri udhi rp).1
  exact foDeliver_injective (head_eq_of_take_eq htake).symm

/-- TP-VPF tells the form of a validity period (R75). -/
theorem form_of_vpfOf :
    (∀ v, vpfOf v = 0b00 → v = .absent) ∧ (∀ v, vpfOf v = 0b10 → ∃ b, v = .relative b) ∧
    (∀ v, vpfOf v = 0b01 → ∃ e, v = .enhanced e) ∧ (∀ v, vpfOf v = 0b11 → ∃ a, v = .absolute a) := by
  simp only [← forall_and]
  rintro (_ | _ | _ | _) <;> simp [vpfOf]

/-- A row that parses SUBMIT octets answers a record with the first octet's flags and its form of validity period, or an
error. -/
theorem submitRow_answers {i : Instr} {s : State} {rd srr udhi rp : Bool} {vpf : Nat} (hv : vpf < 4) {rest : Octets}
    (hi : exec i s = parseStep (foSubmit rd vpf srr udhi rp :: rest) s) {ofForm : VP → Prop}
    (hform : ∀ v, vpfOf v = vpf → ofForm v) :
    (∃ t, Replies i s 0x49 (.ok (.tpdu t)) ∧
      ∃ r, t = .submit r ∧ r.rp = rp ∧ r.udh.isSome = udhi ∧ r.srr = srr ∧ r.rd = rd ∧ ofForm r.vp) ∨
    ∃ k, Replies i s 0x49 (.err k) := by
  rw [parseStep_submit rd srr udhi rp vpf hv] at hi
  cases hp : parseSubmit (foSubmit rd vpf srr udhi rp :: rest) with
  | error k => exact .inr ⟨k, replies_of_error hi k (by rw [hp]; rfl)⟩
  | ok t =>
    obtain ⟨hrd, hvpf, hsrr, hudhi, hrp⟩ := parseSubmit_flags hv hp
    exact .inl ⟨.submit t, replies_of_ok hi _ (by rw [hp]; rfl), t, rfl, hrp, hudhi, hsrr, hrd, hform _ hvpf⟩

/-- The DELIVER row answers a record with the first octet's flags, or an error. -/
theorem deliverRow_answers (rp udhi sri x lp mms : Bool) (rest : Octets) (s : State) :
    (∃ t, Replies (.foDeliver rp udhi sri x lp mms rest) s 0x49 (.ok (.tpdu t)) ∧
      ∃ r, t = .deliver r ∧ r.rp = rp ∧ r.udh.isSome = udhi ∧ r.sri = sri ∧ r.lp = lp ∧ r.mms = mms) ∨
    ∃ k, Replies (.foDeliver rp udhi sri x lp mms rest) s 0x49 (.err k) := by
  have hi : exec (.foDeliver rp udhi sri x lp mms rest) s = _ := parseStep_deliver mms lp x sri udhi rp rest s
  cases hp : parseDeliver (foDeliver mms lp x sri udhi rp :: rest) with
  | error k => exact .inr ⟨k, replies_of_error hi k (by rw [hp]; rfl)⟩
  | ok t =>
    obtain ⟨hmms, hlp, hsri, hudhi, hrp⟩ := parseDeliver_flags hp
    exact .inl ⟨.deliver t, replies_of_ok hi _ (by rw [hp]; rfl), t, rfl, hrp, hudhi, hsri, hlp, hmms⟩

/-- The row of a SUBMIT record's first octet reads the record back from the octets after it. -/
theorem firstOctetRow_reads_back {t : Submit} (h : SubmitOk t) (h7 : bitOf t.da.toa 7 = true) (s : State) :
    ∃ fo rest, Replies (.tpduSerSubmit t) s 0x47 (.ok (.octets (fo :: rest))) ∧
      Replies (firstOctetRow t rest) s 0x49 (.ok (.tpdu (.submit t))) := by
  refine ⟨_, (submitHead t).tail ++ udWire t.udh t.body,
    replies_of_ok (f := .octets) rfl _ (tpduSerSubmit_eq_ok h.userData), ?_⟩
  have hexec := exec_firstOctetRow t ((submitHead t).tail ++ udWire t.udh t.body) s
  rw [parseStep_submit _ _ _ _ _ (vpfOf_lt _), ← List.cons_append, ← submitHead_cons, parseSubmit_ser h h7] at hexec
  exact replies_of_ok hexec _ rfl

/-- The row of a DELIVER record's first octet reads the record back, whatever bit 4 is. -/
theorem foDeliver_reads_back {t : Deliver} (h : DeliverOk t) (h7 : bitOf t.oa.toa 7 = true) (x : Bool) (s : State) :
    ∃ fo rest, Replies (.tpduSerDeliver t) s 0x48 (.ok (.octets (fo :: rest))) ∧
      Replies (.foDeliver t.rp t.udh.isSome t.sri x t.lp t.mms rest) s 0x49 (.ok (.tpdu (.deliver t))) := by
  refine ⟨_, deliverTail t,
    replies_of_ok (f := .octets) rfl _ ((tpduSerDeliver_eq_ok h.userData).trans (by rw [deliverHead_eq])), ?_⟩
  have hexec : exec (.foDeliver t.rp t.udh.isSome t.sri x t.lp t.mms (deliverTail t)) s = _ :=
    parseStep_deliver t.mms t.lp x t.sri t.udh.isSome t.rp (deliverTail t) s
  rw [parseDeliver_ser h h7 x] at hexec
  exact replies_of_ok hexec _ rfl

/-- Settles O33: the rows are `TPDU_PARSE` of octets that open with their first octet. -/
theorem firstOctetRows : Obligations.FirstOctetRows := by
  unfold Obligations.FirstOctetRows
  refine ⟨fun t s h h7 => firstOctetRow_reads_back h h7 s, fun t x s h h7 => foDeliver_reads_back h h7 x s, ?_⟩
  intro rp udhi srr rd sri x lp mms rest s
  obtain ⟨absent, relative, enhanced, absolute⟩ := form_of_vpfOf
  exact ⟨submitRow_answers (vpf := 0b00) (by decide) rfl absent, submitRow_answers (vpf := 0b10) (by decide) rfl relative,
    submitRow_answers (vpf := 0b01) (by decide) rfl enhanced, submitRow_answers (vpf := 0b11) (by decide) rfl absolute,
    deliverRow_answers rp udhi sri x lp mms rest s⟩

/-! ### The data-coding rows -/

/-- Well-formed user data is well-formed under every octet of the same alphabet (R79). -/
theorem userDataOk_of_alphaOf_eq {d d' : Byte} {udh : Option (List IE)} {body : Body} (h : UserDataOk d udh body)
    (e : alphaOf d' = alphaOf d) : UserDataOk d' udh body :=
  ⟨e ▸ h.alphabet, h.header, h.size⟩

/-- `UD_SPLIT` of a TP-UDL octet and the user data behind it (R184). -/
theorem udSplit_udWire_nil {d : Byte} {udh : Option (List IE)} {body : Body} (h : UserDataOk d udh body) :
    udSplit d udh.isSome (udWire udh body) 0 = .ok (udh, body, (udWire udh body).length) :=
  udSplit_udWire h []

theorem alphaOf_dcsMk (flash : Bool) (a : Alphabet) : alphaOf (dcsMk a flash) = some a := by
  cases a <;> cases flash <;> rfl

theorem alphaOf_dcsOctet (hi : BitVec 3) (flash : Bool) (lo : BitVec 2) :
    alphaOf (dcsOctet hi flash 0b00 lo) = some .gsm7 ∧ alphaOf (dcsOctet hi flash 0b01 lo) = some .bit8 ∧
    alphaOf (dcsOctet hi flash 0b10 lo) = some .ucs2 ∧ alphaOf (dcsOctet hi flash 0b11 lo) = none := by
  have ha : ∀ n < 4, (dcsOctet hi flash n lo).toNat / 4 % 4 = n := fun n hn => (dcsOctet_fields hi flash lo n hn).1
  simp only [alphaOf, ha 0 (by decide), ha 1 (by decide), ha 2 (by decide), ha 3 (by decide), and_self]

theorem dcsFlash_dcsOctet (hi : BitVec 3) (flash : Bool) (lo : BitVec 2) (n : Nat) (hn : n < 4) :
    dcsFlash (dcsOctet hi flash n lo) = flash := by
  obtain ⟨-, -, hflash, -⟩ := dcsOctet_fields hi flash lo n hn
  exact hflash

/-- A row that splits user data under an octet of the alphabet it was built for answers what it was built of. -/
theorem dcsRow_splits {i : Instr} {s : State} {a : Alphabet} {d : Byte} {flash flash' : Bool} {udh : Option (List IE)}
    {body : Body} {udl : Nat} {ud : Octets} (ha : alphaOf d = some a) (hflash : dcsFlash d = flash)
    (hi : exec i s = readDcs d udh.isSome (BitVec.ofNat 8 udl :: ud) s)
    (hb : Replies (.udBuild (dcsMk a flash') udh body) s 0x45 (.ok (.userData udl ud))) :
    Replies i s 0x46 (.ok (.dcsRead (some a) flash udh body (1 + ud.length))) := by
  obtain ⟨⟨udl', ud'⟩, hbuild, hv⟩ :=
    ok_of_replies (f := fun r : Nat × Octets => .userData r.1 r.2) (r := udBuild (dcsMk a flash') udh body) rfl _ hb
  obtain ⟨rfl, rfl⟩ := Value.userData.inj hv
  obtain ⟨hok, hr⟩ := udBuild_ok_iff.1 hbuild
  obtain ⟨rfl, rfl⟩ := Prod.mk.inj hr
  have hok' := userDataOk_of_alphaOf_eq hok (ha.trans (alphaOf_dcsMk flash' a).symm)
  rw [readDcs, ha, hflash] at hi
  have hsplit := replies_of_ok hi _ (udSplit_udWire_nil hok')
  rwa [udWire, List.length_cons, Nat.add_comm] at hsplit

/-- Settles O34: the rows are `UD_SPLIT` under an octet of the row's alphabet. -/
theorem dataCodingRows : Obligations.DataCodingRows := by
  unfold Obligations.DataCodingRows
  intro hi flash flash' lo udh body udl ud udhi any s
  obtain ⟨hgsm7, h8bit, hucs2, hreserved⟩ := alphaOf_dcsOctet hi flash lo
  have hflash := dcsFlash_dcsOctet hi flash lo
  exact ⟨dcsRow_splits hgsm7 (hflash 0b00 (by decide)) rfl, dcsRow_splits h8bit (hflash 0b01 (by decide)) rfl,
    dcsRow_splits hucs2 (hflash 0b10 (by decide)) rfl,
    replies_of_error (r := udSplit (dcsOctet hi flash 0b11 lo) udhi any 0) rfl _ (udSplit_reserved hreserved _ _ _)⟩

/-! ### The address-type rows -/

/-- `ADDR_PARSE` of a length octet, a type octet and value octets (R139). -/
theorem addrParse_cons (len toa : Byte) (val : Octets) : addrParse (len :: toa :: val) 0 =
    if bitOf toa 7 = false then .error .badAddress
    else if val.length < (len.toNat + 1) / 2 then .error .badPdu
    else .ok ({ len := len, toa := toa, val := val.take ((len.toNat + 1) / 2) }, 2 + (len.toNat + 1) / 2) := by
  have hm : ceilDiv len.toNat 2 = (len.toNat + 1) / 2 := rfl
  have hl : (len :: toa :: val).length < 0 + 2 + (len.toNat + 1) / 2 ↔ val.length < (len.toNat + 1) / 2 := by
    simp only [List.length_cons]; omega
  rw [addrParse, if_neg (by simp)]
  simp only [octetAt, List.getD_cons_zero, List.getD_cons_succ, memRead, List.drop_succ_cons, List.drop_zero, hm, hl,
    Nat.zero_add]

theorem readAddress_enough {toa len : Byte} {val : Octets} (h7 : bitOf toa 7 = true)
    (hm : (len.toNat + 1) / 2 ≤ val.length) (s : State) : readAddress toa len val s =
      reply 0x22 (addrDec { len := len, toa := toa, val := val.take ((len.toNat + 1) / 2) }) s := by
  rw [readAddress, addrParse_cons, if_neg (by simp [h7]), if_neg (by omega)]
  rfl

theorem readAddress_short {toa len : Byte} {val : Octets} (h7 : bitOf toa 7 = true)
    (hm : val.length < (len.toNat + 1) / 2) (s : State) : readAddress toa len val s = .next (s.raise 0x22 .badPdu) := by
  rw [readAddress, addrParse_cons, if_neg (by simp [h7]), if_pos hm]
  rfl

theorem readAddress_bit7Clear {toa : Byte} (h7 : bitOf toa 7 = false) (len : Byte) (val : Octets) (s : State) :
    readAddress toa len val s = .next (s.raise 0x22 .badAddress) := by
  rw [readAddress, addrParse_cons, if_pos h7]
  rfl

/-- A row that reads an address with bit 7 of its type octet set answers what `ADDR_DEC` answers, or raises `BadPdu`. -/
theorem addressRow_reads {i : Instr} {s : State} {toa len : Byte} {val : Octets} (h7 : bitOf toa 7 = true)
    (hi : exec i s = readAddress toa len val s) :
    ((len.toNat + 1) / 2 ≤ val.length →
      ∃ r, Replies (.addrDec { len := len, toa := toa, val := val.take ((len.toNat + 1) / 2) }) s 0x22 r ∧
        Replies i s 0x22 r) ∧
    (val.length < (len.toNat + 1) / 2 → Replies i s 0x22 (.err .badPdu)) :=
  ⟨fun hm => ⟨_, reply_eq 0x22 _ s, (hi.trans (readAddress_enough h7 hm s)).trans (reply_eq 0x22 _ s)⟩,
    fun hm => hi.trans (readAddress_short h7 hm s)⟩

/-- Settles O35: the rows are `ADDR_PARSE`, then `ADDR_DEC`. -/
theorem addressTypeRows : Obligations.AddressTypeRows := by
  unfold Obligations.AddressTypeRows
  intro ton npi x len val s
  exact ⟨addressRow_reads (toaOctet_fields ton npi).1 rfl, addressRow_reads rfl rfl, addressRow_reads rfl rfl,
    addressRow_reads rfl rfl, readAddress_bit7Clear (ofSevenBits_fields x).1 len val s⟩

/-! ### The element, SMSC and septet rows -/

/-- What `UDH_GETCONCAT` asks of an element's numbers (R157). -/
def ConcatInRange (total seq : Byte) : Prop := 2 ≤ total.toNat ∧ 1 ≤ seq.toNat ∧ seq.toNat ≤ total.toNat

theorem concatOf_of_inRange {e : IE} {c : Concat} (hf : concatFields e = .ok c) (hr : ConcatInRange c.total c.seq) :
    concatOf e = .ok c := by
  rw [concatOf, hf]
  exact if_pos hr

/-- An element that is not read raises `BadUdh` (R157). -/
theorem concatOf_bad {e : IE} (h : ∀ c, concatFields e = .ok c → ¬ ConcatInRange c.total c.seq) :
    concatOf e = .error .badUdh := by
  cases hc : concatOf e with
  | error k => rw [concatOf_error hc]
  | ok c =>
    have hr := concatOf_eq_ok hc
    obtain ⟨c', hf, hc'⟩ := bind_eq_ok.1 hc
    split at hc'
    · cases hc'; exact absurd hr (h _ hf)
    · cases hc'

theorem concatFields_concat8 (r total seq : Byte) : concatFields { iei := 0x00, ied := [r, total, seq] } =
    .ok { w := .w8, ref := r.setWidth 16, total := total, seq := seq } := by
  rw [← BitVec.ofNat_toNat]; rfl

theorem concatFields_concat16 (r1 r0 total seq : Byte) : concatFields { iei := 0x08, ied := [r1, r0, total, seq] } =
    .ok { w := .w16, ref := BitVec.ofNat 16 (256 * r1.toNat + r0.toNat), total := total, seq := seq } := by
  rw [Nat.mul_comm]; rfl

/-- The data of a readable 8-bit element are three octets (R83). -/
theorem concatFields_concat8_eq_ok {ied : Octets} {c : Concat} (h : concatFields { iei := 0x00, ied := ied } = .ok c) :
    ∃ r, ied = [r, c.total, c.seq] := by
  match ied, h with
  | [r, total, seq], h => rw [concatFields_concat8] at h; cases h; exact ⟨r, rfl⟩

/-- The data of a readable 16-bit element are four octets (R83). -/
theorem concatFields_concat16_eq_ok {ied : Octets} {c : Concat} (h : concatFields { iei := 0x08, ied := ied } = .ok c) :
    ∃ r1 r0, ied = [r1, r0, c.total, c.seq] := by
  match ied, h with
  | [r1, r0, total, seq], h => rw [concatFields_concat16] at h; cases h; exact ⟨r1, r0, rfl⟩

/-- `UDH_GETCONCAT` of one element with a concatenation identifier, and of one with another (R157). -/
theorem udhGetconcat_singleton (e : IE) :
    udhGetconcat [e] = if isConcat e = true then (concatOf e).map some else .ok none := by
  split
  · next h => exact udhGetconcat_one (by simp [h])
  · next h => exact udhGetconcat_none (by simp [h])

theorem elementRow_reads {i : Instr} {s : State} {e : IE} {c : Concat} (hi : exec i s = readElement e s)
    (he : isConcat e = true) (hf : concatFields e = .ok c) (hr : ConcatInRange c.total c.seq) :
    Replies i s 0x34 (.ok (.elementRead e (some c))) :=
  replies_of_ok hi _ (by rw [udhGetconcat_singleton, if_pos he, concatOf_of_inRange hf hr]; rfl)

theorem elementRow_raises {i : Instr} {s : State} {e : IE} (hi : exec i s = readElement e s) (he : isConcat e = true)
    (hbad : ∀ c, concatFields e = .ok c → ¬ ConcatInRange c.total c.seq) : Replies i s 0x34 (.err .badUdh) :=
  replies_of_error hi _ (by rw [udhGetconcat_singleton, if_pos he, concatOf_bad hbad]; rfl)

theorem elementRow_skips {i : Instr} {s : State} {e : IE} (hi : exec i s = readElement e s) (he : isConcat e = false) :
    Replies i s 0x34 (.ok (.elementRead e none)) :=
  replies_of_ok hi _ (by rw [udhGetconcat_singleton, he]; rfl)

/-- The split of a frame's octets whose SMSC length counts a type octet and the value octets (R211, R213). -/
theorem splitPrefix_present {l : Byte} {val : Octets} (toa : Byte) (rest : Octets) (hl : l.toNat = 1 + val.length) :
    splitPrefix (l :: (toa :: val ++ rest)) = .ok (some { toa := toa, val := val }, rest) := by
  have hb : l = BitVec.ofNat 8 (1 + val.length) := by rw [← hl, BitVec.ofNat_toNat, BitVec.setWidth_eq]
  have hbound : 1 + val.length ≤ 255 := by have := l.isLt; omega
  rw [hb]
  exact splitPrefix_smscPrefix (some { toa := toa, val := val }) rest fun m hm => by cases hm; exact hbound

theorem splitPrefix_short {l : Byte} {rest : Octets} (h : rest.length < l.toNat) :
    splitPrefix (l :: rest) = .error .badPdu := by
  have h0 : l ≠ 0 := by rintro rfl; exact absurd h (Nat.not_lt_zero _)
  rw [splitPrefix, if_neg h0, if_pos h]

theorem smscRow_splits {i : Instr} {s : State} {l : Byte} {rest tpdu : Octets} {smsc : Option Smsc}
    (hi : exec i s = readPrefix l rest s) (h : splitPrefix (l :: rest) = .ok (smsc, tpdu)) :
    Replies i s 0x51 (.ok (.unframed smsc tpdu)) :=
  replies_of_ok hi _ h

theorem smscRow_raises {i : Instr} {s : State} {l : Byte} {rest : Octets} {k : ErrorKind}
    (hi : exec i s = readPrefix l rest s) (h : splitPrefix (l :: rest) = .error k) : Replies i s 0x51 (.err k) :=
  replies_of_error hi _ h

/-- The escape row has the meaning of `GSM7_DEC` of the escape and the septets after it (R102). -/
theorem exec_gsm7Escape (rest : Septets) (s : State) : exec (.gsm7Escape rest) s = exec (.gsm7Dec (0x1B :: rest)) s := rfl

/-- The row of any other septet has the meaning of `GSM7_DEC` of that septet and those after it (R101). -/
theorem exec_gsm7Default (q : Septet) (rest : Septets) (s : State) :
    exec (.gsm7Default q rest) s = exec (.gsm7Dec (q :: rest)) s := rfl

theorem gsm7Dec_replies (q : Septets) (s : State) : ∃ r, Replies (.gsm7Dec q) s 0x11 r :=
  ⟨_, reply_eq 0x11 ((gsm7Dec q).map .text) s⟩

/-- Settles O36: the element rows are `UDH_GETCONCAT` of the element, the SMSC rows the split of
`FRAME_DEC`, the septet rows `GSM7_DEC`. -/
theorem carriedValueRows : Obligations.CarriedValueRows := by
  unfold Obligations.CarriedValueRows
  refine ⟨?element, ?smsc, ?septet⟩
  case element =>
    intro ied iei s
    refine ⟨?_, ?_, ?_, ?_, ?_⟩
    · rintro r total seq rfl hr
      exact elementRow_reads rfl rfl (concatFields_concat8 r total seq) hr
    · intro hbad
      refine elementRow_raises rfl rfl fun c hc => ?_
      obtain ⟨r, e⟩ := concatFields_concat8_eq_ok hc
      exact hbad r c.total c.seq e
    · rintro r1 r0 total seq rfl hr
      exact elementRow_reads rfl rfl (concatFields_concat16 r1 r0 total seq) hr
    · intro hbad
      refine elementRow_raises rfl rfl fun c hc => ?_
      obtain ⟨r1, r0, e⟩ := concatFields_concat16_eq_ok hc
      exact hbad r1 r0 c.total c.seq e
    · intro h0 h8
      exact elementRow_skips rfl (by simpa [isConcat] using ⟨h0, h8⟩)
  case smsc =>
    intro l toa val rest s
    exact ⟨smscRow_splits (l := 0) rfl rfl, fun hl => smscRow_splits rfl (splitPrefix_present toa rest hl),
      fun h => smscRow_raises rfl (splitPrefix_short h)⟩
  case septet =>
    intro q rest t k s
    have escape := exec_gsm7Escape rest s
    have plain := exec_gsm7Default q rest s
    obtain ⟨r, hr⟩ := gsm7Dec_replies (0x1B :: rest) s
    obtain ⟨r', hr'⟩ := gsm7Dec_replies (q :: rest) s
    exact ⟨escape.trans, escape.trans, plain.trans, plain.trans, ⟨r, escape.trans hr⟩, r', plain.trans hr'⟩

end Sys2Proof.Proofs

/-! PROOFS. The alphabet codec: the GSM-7 tables (O10) and their round trip (O11), septet packing (O12) and unpacking
(O13), UCS-2 (O14) and its round trip (O15); where the codecs complete on conditions on the operands alone (O60); the
commands that only configure, copy or ask (O47). -/

namespace Sys2Proof.Proofs

open Sys2Proof Sys2Proof.Machine Sys2Proof.Laws

/-! ### What an answer of a codec command says of its function -/

/-- An operation answers the value made of `a` exactly where its function answers `a`. -/
theorem replies_map_ok_iff {i : Instr} {s : State} {op : Byte} {r : Answer α} {f : α → Value}
    (hf : Function.Injective f) (h : exec i s = reply op (r.map f) s) (a : α) :
    Replies i s op (.ok (f a)) ↔ r = .ok a :=
  (replies_ok_iff h (f a)).trans (map_eq_ok_iff hf a)

/-- A function with only one error raises it wherever it has no answer. -/
theorem eq_error_of_only {r : Answer α} {k : ErrorKind} (only : ∀ e, r = .error e → e = k) (h : ∀ a, r ≠ .ok a) :
    r = .error k := by
  cases r with
  | error e => rw [only e rfl]
  | ok a => exact absurd rfl (h a)

theorem gsm7Enc_replies_iff (t : Text) (q : Septets) (s : State) :
    Replies (.gsm7Enc t) s 0x10 (.ok (.septets q)) ↔ gsm7Enc t = .ok q :=
  replies_map_ok_iff (fun _ _ => Value.septets.inj) rfl q

theorem ucs2Enc_replies_iff (t : Text) (o : Octets) (s : State) :
    Replies (.ucs2Enc t) s 0x14 (.ok (.octets o)) ↔ ucs2Enc t = o :=
  (replies_ok_iff (r := .ok (.octets (ucs2Enc t))) rfl (.octets o)).trans (by simp)

theorem ucs2Dec_replies_iff (o : Octets) (t : Text) (s : State) :
    Replies (.ucs2Dec o) s 0x15 (.ok (.text t)) ↔ ucs2Dec o = .ok t :=
  replies_map_ok_iff (fun _ _ => Value.text.inj) rfl t

/-! ### GSM-7 -/

/-- The code of a character: a septet of the default table, else the escape and a code of the extension table (R104). -/
def codeOf (c : Char) : Option Septets :=
  match septetOf defaultTable c, septetOf extTable c with
  | some q, _ => some [q]
  | none, some q => some [0x1B, q]
  | none, none => none

theorem gsm7EncChar_eq_ok_iff_codeOf (c : Char) (q : Septets) : gsm7EncChar c = .ok q ↔ codeOf c = some q := by
  unfold gsm7EncChar codeOf
  cases septetOf defaultTable c with
  | some x => simp
  | none => cases septetOf extTable c <;> simp [esc]

/-- `GSM7_ENC` answers exactly where every character has a code, and then the codes one after another (R104). -/
theorem gsm7Enc_eq_ok_iff_codeOf (t : Text) (q : Septets) :
    gsm7Enc t = .ok q ↔ (∀ c ∈ t, codeOf c ≠ none) ∧ q = t.flatMap fun c => (codeOf c).getD [] := by
  induction t generalizing q with
  | nil => simp [gsm7Enc, eq_comm]
  | cons c t ih =>
    simp only [gsm7Enc_cons_eq_ok_iff, gsm7EncChar_eq_ok_iff_codeOf, ih, List.forall_mem_cons, List.flatMap_cons]
    cases codeOf c with
    | none => simp
    | some a => simp

/-- Settles O10: `GSM7_ENC` is the codes one after another, and has one error. -/
theorem gsm7EncodesByTables : Obligations.Gsm7EncodesByTables := by
  unfold Obligations.Gsm7EncodesByTables
  intro t s code
  have hcode : code = codeOf := rfl
  rw [hcode]
  refine ⟨fun h => (gsm7Enc_replies_iff t _ s).2 ((gsm7Enc_eq_ok_iff_codeOf t _).2 ⟨h, rfl⟩), ?_⟩
  rintro ⟨c, hc, hnone⟩
  refine replies_of_error (r := gsm7Enc t) rfl _ (eq_error_of_only (gsm7Enc_error t) fun q hq => ?_)
  exact ((gsm7Enc_eq_ok_iff_codeOf t q).1 hq).1 c hc hnone

/-- Unpacking what was packed, with any fill, reads the septets back (R107). -/
theorem unpack7_pack7_replies (q : Septets) (k : Fin 7) (s : State) :
    Replies (.unpack7 (pack7 q k) q.length k) s 0x13 (.ok (.septets q)) :=
  replies_of_ok (f := .septets) rfl q (by simpa using unpack7_pack7 q k [])

/-- Settles O11: `GSM7_DEC` accepts exactly what `GSM7_ENC` writes, and has one error. -/
theorem gsm7RoundTrip : Obligations.Gsm7RoundTrip := by
  unfold Obligations.Gsm7RoundTrip
  intro q s
  constructor
  · intro t henc
    have hdec : Replies (.gsm7Dec q) s 0x11 (.ok (.text t)) :=
      replies_of_ok (f := .text) rfl t ((gsm7Dec_eq_ok_iff q t).2 ((gsm7Enc_replies_iff t q s).1 henc))
    exact ⟨hdec, fun k => ⟨pack7 q k, rfl, q, unpack7_pack7_replies q k s, hdec⟩⟩
  · intro hnone
    refine replies_of_error (r := gsm7Dec q) rfl _ (eq_error_of_only (gsm7Dec_error q) fun t ht => ?_)
    exact hnone t ((gsm7Enc_replies_iff t q s).2 ((gsm7Dec_eq_ok_iff q t).1 ht))

/-! ### Septet packing -/

/-- Packed octet `i` is bits `8i` to `8i + 7` of the sum of the shifted septets (R108). -/
theorem pack7_getD (q : Septets) (k i : Nat) (h : i < (pack7 q k).length) : ((pack7 q k).getD i 0).toNat =
    ((List.range q.length).map fun j => (q.getD j 0).toNat * 2 ^ (k + 7 * j)).sum / 2 ^ (8 * i) % 256 := by
  rw [pack7_length] at h
  rw [← streamOfSeptets_eq_sum]
  exact octetsOfStream_getD _ _ i h

/-- The accumulator form of R108 gives the same octets. -/
theorem pack7Acc_eq_pack7 (q : Septets) (k : Nat) (hk : k < 8) : pack7Acc q k = pack7 q k := by
  rw [pack7Acc, packLoop_eq q 0 k hk (by positivity), Nat.zero_add, pack7]

/-- Settles O12: the closed form, the accumulator form and the size law of `PACK7`. -/
theorem pack7BitStream : Obligations.Pack7BitStream := by
  unfold Obligations.Pack7BitStream
  intro q k s n
  have hlen : (pack7 q k).length = (k.val + 7 * q.length + 7) / 8 := pack7_length q k
  refine ⟨pack7 q k, rfl, hlen, fun i hi => pack7_getD q k i hi, pack7Acc_eq_pack7 q k (by omega), ?_⟩
  rintro rfl
  simp only [Fin.val_zero, Nat.zero_add] at hlen ⊢
  omega

/-- Unpacked septet `j` is bits `k + 7j` to `k + 7j + 6` of the octets' stream (R109). -/
theorem unpack7_getD {o : Octets} {l k : Nat} {q : Septets} (h : unpack7 o l k = .ok q) (j : Nat) (hj : j < l) :
    (q.getD j 0).toNat =
      ((List.range o.length).map fun i => (o.getD i 0).toNat * 2 ^ (8 * i)).sum / 2 ^ (k + 7 * j) % 128 := by
  unfold unpack7 at h
  split at h
  · cases h
  · cases h
    rw [septetsOfStream_getD _ _ j hj, streamOfOctets_eq_sum, Nat.div_div_eq_div_mul, pow_add]

/-- Settles O13: `UNPACK7` answers exactly where there are enough bits. -/
theorem unpack7BitStream : Obligations.Unpack7BitStream := by
  unfold Obligations.Unpack7BitStream
  intro o l k s n
  constructor
  · intro henough
    obtain ⟨q, hq⟩ : ∃ q, unpack7 o l k = .ok q := ⟨_, if_neg (by omega)⟩
    exact ⟨q, replies_of_ok (f := .septets) rfl q hq, unpack7_length o l k q hq, unpack7_getD hq⟩
  · intro hshort
    exact replies_of_error (r := unpack7 o l k) rfl _ (if_pos hshort)

/-! ### UCS-2 -/

/-- `UCS2_ENC`, character by character: one big-endian unit, or the two of a surrogate pair (R112). -/
theorem ucs2Enc_eq (t : Text) : ucs2Enc t = t.flatMap fun c =>
    if c.toNat < 0x10000 then unitOctets c.toNat
    else unitOctets (0xD800 + (c.toNat - 0x10000) / 1024) ++ unitOctets (0xDC00 + (c.toNat - 0x10000) % 1024) := by
  refine List.flatMap_congr fun c _ => ?_
  rw [unitsOf]
  split <;> simp

/-- Settles O14: the octets of each character's code units. -/
theorem ucs2EncodesBigEndian : Obligations.Ucs2EncodesBigEndian := by
  unfold Obligations.Ucs2EncodesBigEndian
  intro t s
  exact (ucs2Enc_replies_iff t _ s).2 (ucs2Enc_eq t)

/-- Settles O15: `UCS2_DEC` accepts exactly what `UCS2_ENC` writes, and has one error. -/
theorem ucs2RoundTrip : Obligations.Ucs2RoundTrip := by
  unfold Obligations.Ucs2RoundTrip
  intro o s
  have hiff (t : Text) :
      Replies (.ucs2Enc t) s 0x14 (.ok (.octets o)) ↔ Replies (.ucs2Dec o) s 0x15 (.ok (.text t)) := by
    rw [ucs2Enc_replies_iff, ucs2Dec_replies_iff, ucs2Dec_eq_ok_iff]
  refine ⟨hiff, fun hnone => ?_⟩
  refine replies_of_error (r := ucs2Dec o) rfl _ (eq_error_of_only (ucs2Dec_error o) fun t ht => ?_)
  exact hnone t ((hiff t).2 ((ucs2Dec_replies_iff o t s).2 ht))

/-! ### Completion on conditions on the operands alone -/

/-- A text of at most 11 septets has an alphanumeric address (R134). -/
theorem addrEncAlnum_eq_ok {t : Text} {q : Septets} (h : gsm7Enc t = .ok q) (hl : q.length ≤ 11) : addrEncAlnum t =
    .ok { len := BitVec.ofNat 8 ((7 * q.length + 3) / 4), toa := 0xD0, val := pack7 q 0 } := by
  rw [addrEncAlnum, h]
  exact if_neg (Nat.not_lt.2 hl)

/-- A destination with at most 20 digits has an address (R131). -/
theorem addrEnc_ok_of_digits {dest : Ascii} (h : (dest.filter isDigitOctet).length ≤ 20) :
    ∃ da, addrEnc dest = .ok da := by
  have hd : (digitsOf dest).length = (dest.filter isDigitOctet).length := by rw [digitsOf_eq, List.length_map]
  exact ⟨_, if_neg (Nat.not_lt.2 (hd ▸ h))⟩

theorem segmentRecords_length (a : Alphabet) (da : Address) (ref : Byte) (n i : Nat) (cs : List Body) :
    (segmentRecords a da ref n i cs).length = cs.length := by
  rw [segmentRecords_eq, List.length_mapIdx]

/-- `SEGMENT` answers where the address and the number of chunks allow it, and counts a reference exactly for several
records (R224, R226). -/
theorem segment_completes {p : Payload} {dest : Ascii} {da : Address} (ref : Byte) (hda : addrEnc dest = .ok da)
    (hchunks : (segmentChunks (segmentUnits p).1 (segmentUnits p).2).length ≤ Config.segMax) :
    ∃ l, l ≠ [] ∧ segment ref p dest = .ok (l, if l.length = 1 then ref else ref + 1) := by
  rcases Laws.segment_cases ref p dest with ⟨k, hk, -⟩ | ⟨da', -, ⟨-, hone⟩ | ⟨hlong, ⟨hmany, -⟩ | ⟨-, hseveral⟩⟩⟩
  · cases hk.symm.trans hda
  · exact ⟨_, by simp, hone⟩
  · omega
  · obtain ⟨htwo, -⟩ := segmentChunks_spec _ _ (segmentUnits_kind p) hlong
    obtain ⟨l, hl, hlen⟩ : ∃ l : List Submit, segment ref p dest = .ok (l, ref + 1) ∧ 2 ≤ l.length :=
      ⟨_, hseveral, by rwa [segmentRecords_length]⟩
    exact ⟨l, List.ne_nil_of_length_pos (by omega), by rw [hl, if_neg (by omega)]⟩

/-- A row that splits user data under an octet of the alphabet of its body answers the header and the body (R182). -/
theorem dcsRow_reads_udWire {i : Instr} {s : State} {a : Alphabet} {d : Byte} {flash : Bool} {udh : Option (List IE)}
    {body : Body} (ha : alphaOf d = some a) (hflash : dcsFlash d = flash) (hk : a = .gsm7 ↔ ∃ q, body = .septets q)
    (hheader : ∀ h, udh = some h → udhl h ≤ 255) (hsize : udSize udh body ≤ 140)
    (hi : exec i s = readDcs d udh.isSome (udWire udh body) s) :
    Replies i s 0x46 (.ok (.dcsRead (some a) flash udh body (udWire udh body).length)) := by
  rw [readDcs, ha, hflash] at hi
  exact replies_of_ok hi _ (udSplit_udWire_nil ⟨⟨a, ha, hk⟩, hheader, hsize⟩)

/-- The octets of user data, laid out as R181 says, are TP-UDL and TP-UD of `UD_BUILD`. -/
theorem udWire_eq (udh : Option (List IE)) (body : Body) : udWire udh body =
    BitVec.ofNat 8 (udlOf udh body) :: ((udh.map headerWire).getD [] ++ match body with
      | .octets o => o
      | .septets q => pack7 q (match udh with | none => 0 | some h => (7 - (udhl h + 1) * 8 % 7) % 7)) := by
  cases body <;> cases udh <;> rfl

/-- A body of septets is of the kind of GSM-7, and a body of octets of the kind of the other alphabets (R43). -/
theorem kind_of_septets {body : Body} (h : ∃ q, body = .septets q) : Alphabet.gsm7 = .gsm7 ↔ ∃ q, body = .septets q :=
  iff_of_true rfl h

theorem kind_of_octets {a : Alphabet} {body : Body} (ha : a ≠ .gsm7) (h : ∃ o, body = .octets o) :
    a = .gsm7 ↔ ∃ q, body = .septets q := by
  obtain ⟨o, rfl⟩ := h
  exact iff_of_false ha fun ⟨q, hq⟩ => by cases hq

/-- Settles O60: each clause from what its operation accepts. -/
theorem codecsComplete : Obligations.CodecsComplete := by
  unfold Obligations.CodecsComplete
  refine ⟨?gsm7, ?ucs2, ?segment, ?dcs⟩
  case gsm7 =>
    intro t s code q hcodes
    have henc : gsm7Enc t = .ok q := (gsm7Enc_eq_ok_iff_codeOf t q).2 ⟨hcodes, rfl⟩
    exact ⟨replies_of_ok (f := .text) rfl t ((gsm7Dec_eq_ok_iff q t).2 henc),
      fun hl => replies_of_ok (f := .address) rfl _ (addrEncAlnum_eq_ok henc hl)⟩
  case ucs2 =>
    intro t s
    exact (ucs2Dec_replies_iff _ t s).2 ((ucs2Dec_eq_ok_iff _ t).2 (ucs2Enc_eq t))
  case segment =>
    intro p dest s hdigits hchunks
    obtain ⟨da, hda⟩ := addrEnc_ok_of_digits hdigits
    obtain ⟨l, hne, hl⟩ := segment_completes s.refcnt hda hchunks
    refine ⟨l, hne, ?_⟩
    rw [exec, execSegment, hl]
    rfl
  case dcs =>
    intro hi flash lo udh body s hdr payload field answer hheader hsize
    have hfield : field = udWire udh body := (udWire_eq udh body).symm
    obtain ⟨hgsm7, h8bit, hucs2, -⟩ := alphaOf_dcsOctet hi flash lo
    have hflash := dcsFlash_dcsOctet hi flash lo
    simp only [answer, hfield]
    exact ⟨fun h => dcsRow_reads_udWire hgsm7 (hflash 0b00 (by decide)) (kind_of_septets h) hheader hsize rfl,
      fun h => dcsRow_reads_udWire h8bit (hflash 0b01 (by decide)) (kind_of_octets (by decide) h) hheader hsize rfl,
      fun h => dcsRow_reads_udWire hucs2 (hflash 0b10 (by decide)) (kind_of_octets (by decide) h) hheader hsize rfl⟩

/-! ### The commands that configure, copy or ask -/

/-- `IS_OPEN` answers the complement of `CLOSED` (R280). -/
theorem isOpen_replies (s : State) : Replies .isOpen s 0x86 (.ok (.bit !s.closed)) := rfl

/-- Settles O47: each configuration write replaces its element, `OCT8` copies, `IS_OPEN` asks. -/
theorem plainCommands : Obligations.PlainCommands := by
  unfold Obligations.PlainCommands
  intro s
  refine ⟨fun d => rfl, fun l => rfl, fun l => rfl, fun m => rfl, fun d => rfl, fun o => rfl, ?_, ?_⟩
  · intro hopen
    simpa [hopen] using isOpen_replies s
  · intro hclosed
    simpa [hclosed] using isOpen_replies s

end Sys2Proof.Proofs

/-! PROOFS. The address codec: what the two encoders write (O16), what the decoder answers (O17), that it inverts them
(O18), and the octets of an address written and read (O19). -/

namespace Sys2Proof.Proofs

open Sys2Proof Sys2Proof.Machine Sys2Proof.Laws

/-! ### The encoders -/

/-- At most 20 digits have an address (R131). -/
theorem addrEnc_eq_ok {a : Ascii} (h : (digitsOf a).length ≤ 20) : addrEnc a = .ok
    { len := BitVec.ofNat 8 (digitsOf a).length, toa := if a.head? = some 0x2B then 0x91 else 0x81,
      val := semiOctets (digitsOf a) } :=
  if_neg (Nat.not_lt.2 h)

theorem addrEnc_tooLong {a : Ascii} (h : 20 < (digitsOf a).length) : addrEnc a = .error .badAddress := if_pos h

/-- A text that `GSM7_ENC` refuses has no alphanumeric address (R134). -/
theorem addrEncAlnum_unencodable {t : Text} {k : ErrorKind} (h : gsm7Enc t = .error k) : addrEncAlnum t = .error k := by
  rw [addrEncAlnum, h]
  rfl

theorem addrEncAlnum_tooLong {t : Text} {q : Septets} (h : gsm7Enc t = .ok q) (hl : 11 < q.length) :
    addrEncAlnum t = .error .badAddress := by
  rw [addrEncAlnum, h]
  exact if_pos hl

/-- Settles O16: each encoder answers within its bound and raises its error beyond it. -/
theorem addressEncodes : Obligations.AddressEncodes := by
  unfold Obligations.AddressEncodes
  refine ⟨?numeric, ?alphanumeric⟩
  case numeric =>
    intro a s d
    have hd : d = digitsOf a := (digitsOf_eq a).symm
    rw [hd]
    refine ⟨fun h => replies_of_error (f := .address) rfl _ (addrEnc_tooLong h), fun h => ?_⟩
    exact ⟨semiOctets (digitsOf a), replies_of_ok (f := .address) rfl _ (addrEnc_eq_ok h), semiOctets_length _,
      semiOctets_getD _ (digitsOf_le a)⟩
  case alphanumeric =>
    intro t s
    constructor
    · intro h
      have henc : gsm7Enc t = .error .unsupportedAlphabet := error_of_replies rfl _ h
      exact replies_of_error (f := .address) rfl _ (addrEncAlnum_unencodable henc)
    · intro q h
      have henc : gsm7Enc t = .ok q := (gsm7Enc_replies_iff t q s).1 h
      exact ⟨fun hl => replies_of_error (f := .address) rfl _ (addrEncAlnum_tooLong henc hl),
        fun hl => ⟨pack7 q 0, rfl, replies_of_ok (f := .address) rfl _ (addrEncAlnum_eq_ok henc hl)⟩⟩

/-! ### The decoder -/

/-- `ADDR_DEC` of a numeric address: its digits, with `+` exactly for TON 001 (R136). -/
theorem addrDec_numeric {a : Address} {d : Ascii} (hton : tonOf a.toa ≠ 5) (hd : numericDigits a = .ok d) :
    addrDec a = .ok (.ascii ((if tonOf a.toa = 1 then [0x2B] else []) ++ d)) := by
  rw [addrDec, if_neg hton, hd]
  by_cases hplus : tonOf a.toa = 1 <;> simp [hplus, plus, bind, Except.bind]

theorem addrDec_numeric_error {a : Address} {k : ErrorKind} (hton : tonOf a.toa ≠ 5)
    (hd : numericDigits a = .error k) : addrDec a = .error k := by
  rw [addrDec, if_neg hton, hd]
  rfl

/-- `ADDR_DEC` of an alphanumeric address: `GSM7_DEC` of its unpacked septets (R136). -/
theorem addrDec_alphanumeric {a : Address} {q : Septets} (hton : tonOf a.toa = 5)
    (hq : unpack7 a.val (alnumSeptets a.len) 0 = .ok q) : addrDec a = (gsm7Dec q).map .text := by
  rw [addrDec, if_pos hton, hq]
  cases hdec : gsm7Dec q <;> simp [hdec, bind, Except.bind, Except.map]

/-- The value octets of an address of its type hold the septets that its length counts (R135). -/
theorem unpack7_alnumSeptets {a : Address} (hw : a.wf = true) :
    ∃ q, unpack7 a.val (alnumSeptets a.len) 0 = .ok q := by
  have hv : a.val.length = (a.len.toNat + 1) / 2 := by simpa [Address.wf, ceilDiv] using hw
  exact ⟨_, if_neg (by rw [alnumSeptets]; omega)⟩

/-- Settles O17: by TON, the digits of the nibbles or the text of the septets. -/
theorem addressDecodes : Obligations.AddressDecodes := by
  unfold Obligations.AddressDecodes
  intro a s hw ton n nib good
  obtain ⟨hgood, hbad⟩ := numericDigits_eq a hw
  refine ⟨?numeric, ?malformed, ?alphanumeric⟩
  case numeric => exact fun hton hg => (replies_ok_iff rfl _).2 (addrDec_numeric hton (hgood hg))
  case malformed => exact fun hton hg => (replies_err_iff rfl _).2 (addrDec_numeric_error hton (hbad hg))
  case alphanumeric =>
    intro hton
    obtain ⟨q, hq⟩ := unpack7_alnumSeptets hw
    have hdec : exec (.addrDec a) s = reply 0x22 ((gsm7Dec q).map .text) s :=
      congrArg (reply 0x22 · s) (addrDec_alphanumeric hton hq)
    refine ⟨q, replies_of_ok (f := .septets) rfl q hq, fun t ht => ?_, fun k hk => ?_⟩
    · exact replies_of_ok hdec t ((replies_map_ok_iff (fun _ _ => Value.text.inj) rfl t).1 ht)
    · exact replies_of_error hdec k (error_of_replies rfl k hk)

/-! ### The round trip of the host representation -/

/-- The digits of a string, written as ASCII codes again, are its digit characters. -/
theorem asciiOf_digitsOf (a : Ascii) :
    ((digitsOf a).map fun x => BitVec.ofNat 8 (0x30 + x)) = a.filter isDigitOctet := by
  rw [digitsOf_eq, List.map_map]
  refine (List.map_congr_left fun c hc => ?_).trans (List.map_id _)
  have hdigit : 0x30 ≤ c.toNat ∧ c.toNat ≤ 0x39 := by simpa [isDigitOctet] using (List.mem_filter.1 hc).2
  simp only [Function.comp, Nat.add_sub_cancel' hdigit.1, BitVec.ofNat_toNat, BitVec.setWidth_eq, id]

/-- The type octets of `ADDR_ENC` are numeric, and international exactly after a leading `+` (R131). -/
theorem tonOf_addrEnc (n : Ascii) :
    tonOf (if n.head? = some 0x2B then 0x91 else 0x81) = if n.head? = some 0x2B then 1 else 0 := by
  split <;> rfl

/-- `ADDR_DEC` of what `ADDR_ENC` writes: the digit characters, after `+` where one led the string (R137). -/
theorem addrDec_addrEnc {n : Ascii} (h : (digitsOf n).length ≤ 20) : ∃ a, addrEnc n = .ok a ∧ addrDec a =
    .ok (.ascii ((if n.head? = some 0x2B then [0x2B] else []) ++ n.filter isDigitOctet)) := by
  refine ⟨_, addrEnc_eq_ok h, ?_⟩
  have hdigits := numericDigits_semiOctets (digitsOf n) (digitsOf_le n) (if n.head? = some 0x2B then 0x91 else 0x81)
    (by omega)
  rw [asciiOf_digitsOf] at hdigits
  rw [addrDec_numeric (by rw [tonOf_addrEnc]; split <;> decide) hdigits, tonOf_addrEnc]
  split <;> rfl

/-- The length that `ADDR_ENC_ALNUM` writes counts the septets back (R135), so `ADDR_DEC` unpacks just them. -/
theorem addrDec_pack7 {q : Septets} (hl : q.length ≤ 11) :
    addrDec { len := BitVec.ofNat 8 ((7 * q.length + 3) / 4), toa := 0xD0, val := pack7 q 0 } =
      (gsm7Dec q).map .text := by
  have hcount : alnumSeptets (BitVec.ofNat 8 ((7 * q.length + 3) / 4)) = q.length := alnumSeptets_ofNat _ hl
  have hq : unpack7 (pack7 q 0) q.length 0 = .ok q := by simpa using unpack7_pack7 q 0 []
  exact addrDec_alphanumeric (show tonOf 0xD0 = 5 by decide) (hcount.symm ▸ hq)

/-- `ADDR_DEC` of what `ADDR_ENC_ALNUM` writes is the text (R137). -/
theorem addrDec_addrEncAlnum {t : Text} {q : Septets} (h : gsm7Enc t = .ok q) (hl : q.length ≤ 11) :
    ∃ a, addrEncAlnum t = .ok a ∧ addrDec a = .ok (.text t) := by
  refine ⟨_, addrEncAlnum_eq_ok h hl, ?_⟩
  rw [addrDec_pack7 hl, (gsm7Dec_eq_ok_iff q t).2 h]
  rfl

/-- The address of one digit under the national TON 010, which `ADDR_ENC` never writes (R132). -/
def nationalFive : Address := { len := 1, toa := 0xA1, val := [0xF5] }

/-- Settles O18: the decoder inverts both encoders; `nationalFive` decodes to a number whose address has TON 000. -/
theorem addressRoundTrip : Obligations.AddressRoundTrip := by
  unfold Obligations.AddressRoundTrip
  refine ⟨?number, ?text, ?converse⟩
  case number =>
    intro n s d h
    have hlen : (digitsOf n).length ≤ 20 := by rw [digitsOf_eq, List.length_map]; exact h
    obtain ⟨a, henc, hdec⟩ := addrDec_addrEnc hlen
    exact ⟨a, replies_of_ok (f := .address) rfl a henc, (replies_ok_iff rfl _).2 hdec⟩
  case text =>
    intro t q s h hl
    obtain ⟨a, henc, hdec⟩ := addrDec_addrEncAlnum ((gsm7Enc_replies_iff t q s).1 h) hl
    exact ⟨a, replies_of_ok (f := .address) rfl a henc, (replies_ok_iff rfl _).2 hdec⟩
  case converse =>
    exact ⟨nationalFive, { nationalFive with toa := 0x81 }, ascii "5", State.reset, rfl, rfl, rfl, by decide⟩

/-! ### The octets of an address -/

theorem addrSer_replies (a : Address) (s : State) :
    Replies (.addrSer a) s 0x23 (.ok (.octets (a.len :: a.toa :: a.val))) := rfl

theorem addrParse_replies_iff (o : Octets) (pos pos' : Nat) (a : Address) (s : State) :
    Replies (.addrParse o pos) s 0x24 (.ok (.addressAt a pos')) ↔ addrParse o pos = .ok (a, pos') :=
  replies_map_ok_iff (f := fun r => .addressAt r.1 r.2)
    (fun _ _ h => Prod.ext (Value.addressAt.inj h).1 (Value.addressAt.inj h).2) rfl (a, pos')

/-- `ADDR_PARSE` where both fixed octets stand: bit 7 of the type is tested before the length of the value (R139). -/
theorem addrParse_of_fixed {o : Octets} {pos : Nat} (h : pos + 2 ≤ o.length) : addrParse o pos =
    if (o.getD (pos + 1) 0).getLsbD 7 = false then .error .badAddress
    else if o.length < pos + 2 + ((o.getD pos 0).toNat + 1) / 2 then .error .badPdu
    else .ok ({ len := o.getD pos 0, toa := o.getD (pos + 1) 0,
                val := (o.drop (pos + 2)).take (((o.getD pos 0).toNat + 1) / 2) },
              pos + 2 + ((o.getD pos 0).toNat + 1) / 2) :=
  if_neg (Nat.not_lt.2 h)

/-- Settles O19: `ADDR_PARSE` reads what `ADDR_SER` writes, and each of its tests is met in order. -/
theorem addressOctetsRoundTrip : Obligations.AddressOctetsRoundTrip := by
  unfold Obligations.AddressOctetsRoundTrip
  refine ⟨addrSer_replies, ?readsBack, ?writesBack, ?tests⟩
  case readsBack =>
    intro a rest s hw h7
    exact (addrParse_replies_iff _ _ _ _ _).2 (by simpa [addrSer] using addrParse_addrSer a [] rest hw h7)
  case writesBack =>
    intro o pos pos' a s h
    obtain ⟨-, -, -, hpos, hslice⟩ := addrParse_eq_ok ((addrParse_replies_iff o pos pos' a s).1 h)
    have hread : (o.drop pos).take (pos' - pos) = a.len :: a.toa :: a.val := by
      rw [show pos' - pos = 2 + a.val.length by omega]
      exact hslice
    rw [hread]
    exact addrSer_replies a s
  case tests =>
    intro o pos s len toa m
    refine ⟨fun h => ?_, fun h h7 => ?_, fun h h7 hm => ?_, fun h7 hm => ?_⟩
    · exact replies_of_error (r := addrParse o pos) rfl _ (if_pos h)
    · exact replies_of_error (r := addrParse o pos) rfl _ ((addrParse_of_fixed h).trans (if_pos h7))
    · refine replies_of_error (r := addrParse o pos) rfl _ ((addrParse_of_fixed h).trans ?_)
      rw [if_neg (ne_false_of_eq_true h7), if_pos hm]
    · refine (addrParse_replies_iff _ _ _ _ _).2 ((addrParse_of_fixed (by omega)).trans ?_)
      rw [if_neg (ne_false_of_eq_true h7), if_neg (Nat.not_lt.2 hm)]

end Sys2Proof.Proofs

/-! PROOFS. The user-data-header codec: what `UDH_ENC` writes (O20), that `UDH_DEC` inverts it both ways (O21), and the
concatenation elements made and read (O22). -/

namespace Sys2Proof.Proofs

open Sys2Proof Sys2Proof.Machine Sys2Proof.Laws

/-! ### The octets of a header -/

theorem udhEnc_replies_iff (h : List IE) (e : Octets) (s : State) :
    Replies (.udhEnc h) s 0x30 (.ok (.octets e)) ↔ udhl h ≤ 255 ∧ e = BitVec.ofNat 8 (udhl h) :: udhBody h :=
  (replies_map_ok_iff (fun _ _ => Value.octets.inj) rfl e).trans (udhEnc_ok_iff h e)

/-- Settles O20: the bound is on UDHL, and a header within it has no element too long for its own length octet. -/
theorem headerEncodes : Obligations.HeaderEncodes := by
  unfold Obligations.HeaderEncodes
  intro h s n
  refine ⟨fun hn => ?fits, fun hn => replies_of_error rfl _ (udhEnc_eq_error h hn)⟩
  case fits =>
    have hwire : headerWire h = BitVec.ofNat 8 (udhl h) :: udhBody h := headerWire_eq h
    exact (udhEnc_replies_iff h (headerWire h) s).2 ⟨hn, hwire⟩

theorem udhDec_replies_iff (o : Octets) (pos limit : Nat) (h : List IE) (pos' : Nat) (s : State) :
    Replies (.udhDec o pos limit) s 0x31 (.ok (.elementsAt h pos')) ↔ udhDec o pos limit = .ok (h, pos') :=
  replies_map_ok_iff (f := fun r => .elementsAt r.1 r.2)
    (fun _ _ e => Prod.ext (Value.elementsAt.inj e).1 (Value.elementsAt.inj e).2) rfl (h, pos')

/-- The slice that an accepted header was read from is what `UDH_ENC` writes of it (R154). -/
theorem udhDec_slice {o : Octets} {pos limit pos' : Nat} {h : List IE} (hlim : limit ≤ o.length)
    (e : udhDec o pos limit = .ok (h, pos')) :
    pos' ≤ limit ∧ udhl h ≤ 255 ∧ (o.drop pos).take (pos' - pos) = BitVec.ofNat 8 (udhl h) :: udhBody h := by
  obtain ⟨hoctet, hpos, hle, hslice⟩ := udhDec_eq_ok hlim e
  have hbound : udhl h ≤ 255 := by have := (octetAt o pos).isLt; omega
  rw [show pos' - pos = 1 + udhl h by omega]
  exact ⟨hle, hbound, hslice⟩

/-- Where an encoded header stands within the limit, `UDH_DEC` reads it (R154). -/
theorem udhDec_of_slice {o e : Octets} {pos limit : Nat} {h : List IE} (hlim : limit ≤ o.length)
    (henc : udhEnc h = .ok e) (hfits : pos + e.length ≤ limit) (hslice : (o.drop pos).take e.length = e) :
    udhDec o pos limit = .ok (h, pos + 1 + udhl h) := by
  obtain ⟨hn, he⟩ := (udhEnc_ok_iff h e).1 henc
  have hlen : e.length = 1 + udhl h := by rw [he, List.length_cons, udhBody_length, Nat.add_comm]
  have hpre : (o.take pos).length = pos := List.length_take_of_le (by omega)
  have hrest := List.take_append_drop e.length (o.drop pos)
  rw [hslice] at hrest
  have hsplit : o.take pos ++ e ++ (o.drop pos).drop e.length = o := by
    rw [List.append_assoc, hrest, List.take_append_drop]
  have hdec := udhDec_udhEnc h (o.take pos) ((o.drop pos).drop e.length) limit hn (by omega)
  rwa [← he, hsplit, hpre] at hdec

/-- Settles O21: `UDH_DEC` reads what `UDH_ENC` writes; an input that it accepts is such a slice, and one that it does not
accept holds none, since it would read it. -/
theorem headerRoundTrip : Obligations.HeaderRoundTrip := by
  unfold Obligations.HeaderRoundTrip
  refine ⟨?readsBack, ?everyInput⟩
  case readsBack =>
    intro h rest limit s hn hl
    refine ⟨_, (udhEnc_replies_iff h _ s).2 ⟨hn, rfl⟩, (udhDec_replies_iff _ _ _ _ _ s).2 ?_⟩
    simpa using udhDec_udhEnc h [] rest limit hn (by simpa using hl)
  case everyInput =>
    intro o pos limit s hlim
    cases hdec : udhDec o pos limit with
    | ok r =>
      obtain ⟨h, pos'⟩ := r
      obtain ⟨hle, hn, hslice⟩ := udhDec_slice hlim hdec
      exact .inl ⟨h, pos', (udhDec_replies_iff _ _ _ _ _ s).2 hdec, hle, (udhEnc_replies_iff _ _ s).2 ⟨hn, hslice⟩⟩
    | error k =>
      obtain rfl := udhDec_error hdec
      refine .inr ⟨replies_of_error rfl _ hdec, fun h e hr hfits hslice => ?_⟩
      have henc : udhEnc h = .ok e := (udhEnc_ok_iff h e).2 ((udhEnc_replies_iff h e s).1 hr)
      exact absurd (hdec.symm.trans (udhDec_of_slice hlim henc hfits hslice)) nofun

/-! ### The concatenation elements -/

theorem totalSeqOk_iff (total seq : Nat) :
    totalSeqOk total seq = true ↔ 2 ≤ total ∧ total ≤ 255 ∧ 1 ≤ seq ∧ seq ≤ total := by
  simp [totalSeqOk, and_assoc]

/-- Numbers that a constructor accepts are in the range that `UDH_GETCONCAT` asks for (R158). -/
theorem concatInRange_of_totalSeqOk {total seq : Nat} (h : totalSeqOk total seq = true) :
    ConcatInRange (BitVec.ofNat 8 total) (BitVec.ofNat 8 seq) := by
  obtain ⟨h2, h255, h1, hle⟩ := (totalSeqOk_iff total seq).1 h
  simp only [ConcatInRange, BitVec.toNat_ofNat]
  omega

theorem udhConcat8_eq_ok {ref total seq : Nat} (href : ref ≤ 255) (hok : totalSeqOk total seq = true) :
    udhConcat8 ref total seq = .ok (concat8IE ref total seq) := by
  simp [udhConcat8, href, hok]

theorem udhConcat8_eq_error {ref total seq : Nat} (h : ¬ (ref ≤ 255 ∧ totalSeqOk total seq = true)) :
    udhConcat8 ref total seq = .error .badUdh :=
  if_neg (by simpa using h)

theorem udhConcat16_eq_ok {ref total seq : Nat} (href : ref ≤ 65535) (hok : totalSeqOk total seq = true) :
    udhConcat16 ref total seq = .ok (concat16IE ref total seq) := by
  simp [udhConcat16, href, hok]

theorem udhConcat16_eq_error {ref total seq : Nat} (h : ¬ (ref ≤ 65535 ∧ totalSeqOk total seq = true)) :
    udhConcat16 ref total seq = .error .badUdh :=
  if_neg (by simpa using h)

/-- The reference of the 8-bit form is one octet (R83). -/
theorem concatFields_concat8IE {ref : Nat} (href : ref ≤ 255) (total seq : Nat) :
    concatFields (concat8IE ref total seq) = .ok
      { w := .w8, ref := BitVec.ofNat 16 ref, total := BitVec.ofNat 8 total, seq := BitVec.ofNat 8 seq } := by
  have hoctet : (BitVec.ofNat 8 ref).setWidth 16 = BitVec.ofNat 16 ref := by
    rw [← BitVec.ofNat_toNat, BitVec.toNat_ofNat, Nat.mod_eq_of_lt (by omega)]
  rw [concat8IE, concatFields_concat8, hoctet]

/-- The two octets of the 16-bit form are the reference, big-endian (R83). -/
theorem concatFields_concat16IE {ref : Nat} (href : ref ≤ 65535) (total seq : Nat) :
    concatFields (concat16IE ref total seq) = .ok
      { w := .w16, ref := BitVec.ofNat 16 ref, total := BitVec.ofNat 8 total, seq := BitVec.ofNat 8 seq } := by
  have hoctets : 256 * (BitVec.ofNat 8 (ref / 256)).toNat + (BitVec.ofNat 8 ref).toNat = ref := by
    simp only [BitVec.toNat_ofNat]
    omega
  rw [concat16IE, concatFields_concat16, hoctets]

/-- One readable concatenation element gives `UDH_GETCONCAT` its numbers, whatever stands around it (R157). -/
theorem udhGetconcat_reads {h : List IE} {e : IE} {c : Concat} (s : State) (hone : h.filter isConcat = [e])
    (hf : concatFields e = .ok c) (hr : ConcatInRange c.total c.seq) :
    Replies (.udhGetconcat h) s 0x34 (.ok (.concat (some c))) :=
  replies_of_ok rfl _ (by rw [udhGetconcat_one hone, concatOf_of_inRange hf hr]; rfl)

/-- Settles O22: the range of the constructors is the range of the reader, and the reader's answer turns on the list of
the concatenation elements. -/
theorem concatElements : Obligations.ConcatElements := by
  unfold Obligations.ConcatElements
  refine ⟨?constructors, ?reader⟩
  case constructors =>
    intro ref total seq s ok e8 e16
    have hok : totalSeqOk total seq = true ↔ ok := totalSeqOk_iff total seq
    rw [← hok]
    refine ⟨fun ⟨href, hts⟩ => ⟨?_, ?_⟩, fun hbad => ?_, fun ⟨href, hts⟩ => ⟨?_, ?_⟩, fun hbad => ?_⟩
    · exact replies_of_ok rfl _ (udhConcat8_eq_ok href hts)
    · exact udhGetconcat_reads s rfl (concatFields_concat8IE href total seq) (concatInRange_of_totalSeqOk hts)
    · exact replies_of_error rfl _ (udhConcat8_eq_error hbad)
    · exact replies_of_ok rfl _ (udhConcat16_eq_ok href hts)
    · exact udhGetconcat_reads s rfl (concatFields_concat16IE href total seq) (concatInRange_of_totalSeqOk hts)
    · exact replies_of_error rfl _ (udhConcat16_eq_error hbad)
  case reader =>
    intro h s es inRange
    refine ⟨fun hnone => ?_, fun r total seq hone hr => ?_, fun r1 r0 total seq hone hr => ?_, fun hsome h8 h16 => ?_⟩
    · exact replies_of_ok rfl _ (udhGetconcat_none hnone)
    · exact udhGetconcat_reads s hone (concatFields_concat8 r total seq) hr
    · exact udhGetconcat_reads s hone (concatFields_concat16 r1 r0 total seq) hr
    · refine replies_of_error (r := udhGetconcat h) rfl _ ?_
      match hes : h.filter isConcat with
      | [] => exact absurd hes hsome
      | _ :: _ :: _ => exact udhGetconcat_more hes
      | [⟨iei, ied⟩] =>
        have he : isConcat ⟨iei, ied⟩ = true := (List.mem_filter.1 (hes ▸ List.mem_singleton_self _)).2
        have hiei : iei = 0x00 ∨ iei = 0x08 := by simpa [isConcat] using he
        have hbad : concatOf ⟨iei, ied⟩ = .error .badUdh := by
          refine concatOf_bad fun c hc => ?_
          rcases hiei with rfl | rfl
          · obtain ⟨r, rfl⟩ := concatFields_concat8_eq_ok hc
            exact h8 r c.total c.seq hes
          · obtain ⟨r1, r0, rfl⟩ := concatFields_concat16_eq_ok hc
            exact h16 r1 r0 c.total c.seq hes
        rw [udhGetconcat_one hes, hbad]
        rfl

end Sys2Proof.Proofs

/-! PROOFS. The TPDU codec: the data coding octet (O23), the time stamp (O24), what `UD_BUILD` writes (O25), that `UD_SPLIT`
reads it back (O26) and what it answers on every input (O27), the octets of a serialised record (O28), that `TPDU_PARSE`
inverts the serialisers (O29) and the canonical form (O30), the message types (O31), and every field it reads (O32). -/

namespace Sys2Proof.Proofs

open Sys2Proof Sys2Proof.Machine Sys2Proof.Laws

/-! ### What an answer of a TPDU command says of its function -/

theorem udBuild_replies_iff (dcs : Byte) (udh : Option (List IE)) (body : Body) (udl : Nat) (ud : Octets) (s : State) :
    Replies (.udBuild dcs udh body) s 0x45 (.ok (.userData udl ud)) ↔ udBuild dcs udh body = .ok (udl, ud) :=
  replies_map_ok_iff (f := fun r => .userData r.1 r.2)
    (fun _ _ e => Prod.ext (Value.userData.inj e).1 (Value.userData.inj e).2) rfl (udl, ud)

theorem udSplit_replies_of_ok {dcs : Byte} {udhi : Bool} {o : Octets} {pos : Nat} {r : Option (List IE) × Body × Nat}
    (h : udSplit dcs udhi o pos = .ok r) (s : State) :
    Replies (.udSplit dcs udhi o pos) s 0x46 (.ok (.split r.1 r.2.1 r.2.2)) :=
  replies_of_ok (f := fun r => .split r.1 r.2.1 r.2.2) rfl r h

theorem udSplit_replies_of_error {dcs : Byte} {udhi : Bool} {o : Octets} {pos : Nat} {k : ErrorKind}
    (h : udSplit dcs udhi o pos = .error k) (s : State) : Replies (.udSplit dcs udhi o pos) s 0x46 (.err k) :=
  replies_of_error rfl k h

theorem serInstr_replies_iff (t : Tpdu) (o : Octets) (s : State) :
    Replies (serInstr t) s (serCode t) (.ok (.octets o)) ↔ tpduSer t = .ok o := by
  cases t <;> exact replies_map_ok_iff (fun _ _ => Value.octets.inj) rfl o

theorem tpduRead_submit {fo : Byte} (h : mtiOf fo = 1) (rest : Octets) :
    tpduRead (fo :: rest) = (parseSubmit (fo :: rest)).map .submit := by
  rw [tpduRead_cons, if_neg (by rw [h]; decide), if_pos h]

theorem tpduRead_deliver {fo : Byte} (h : mtiOf fo = 0) (rest : Octets) :
    tpduRead (fo :: rest) = (parseDeliver (fo :: rest)).map .deliver := by
  rw [tpduRead_cons, if_pos h]

theorem tpduRead_other {fo : Byte} (h0 : mtiOf fo ≠ 0) (h1 : mtiOf fo ≠ 1) (rest : Octets) :
    tpduRead (fo :: rest) = .error .badPdu := by
  rw [tpduRead_cons, if_neg h0, if_neg h1]

/-- Octets with TP-MTI 10 raise `BadPdu` under one policy and have no meaning under the other (R196). -/
theorem parseStep_statusReport {fo : Byte} (h : mtiOf fo = 2) (rest : Octets) (s : State) :
    parseStep (fo :: rest) s =
      if s.params.statusReport = .refuse then .refused .statusReport else .next (s.raise 0x49 .badPdu) := by
  have hsr : isStatusReport (fo :: rest) = true := by
    show (true && mtiOf fo == 2) = true
    simp [h]
  rw [parseStep, hsr, tpduRead_other (by rw [h]; decide) (by rw [h]; decide)]
  simp only [Bool.true_and, beq_iff_eq]
  rfl

theorem parseStep_badPdu {fo : Byte} {s : State} (h : mtiOf fo = 2) (hp : s.params.statusReport = .badPdu)
    (rest : Octets) : parseStep (fo :: rest) s = .next (s.raise 0x49 .badPdu) :=
  (parseStep_statusReport h rest s).trans (if_neg (by rw [hp]; decide))

theorem parseStep_refused {fo : Byte} {s : State} (h : mtiOf fo = 2) (hp : s.params.statusReport = .refuse)
    (rest : Octets) : parseStep (fo :: rest) s = .refused .statusReport :=
  (parseStep_statusReport h rest s).trans (if_pos hp)

/-- Octets with TP-MTI 11 raise `BadPdu` (R193). -/
theorem parseStep_reserved {fo : Byte} (h : mtiOf fo = 3) (rest : Octets) (s : State) :
    parseStep (fo :: rest) s = .next (s.raise 0x49 .badPdu) := by
  rw [parseStep_reply (by rw [h]; decide), tpduRead_other (by rw [h]; decide) (by rw [h]; decide)]
  rfl

/-- `TPDU_PARSE` answers a record exactly where its octets read as one, whatever the policy (R193, R196). -/
theorem tpduParse_replies_iff (o : Octets) (t : Tpdu) (s : State) :
    Replies (.tpduParse o) s 0x49 (.ok (.tpdu t)) ↔ tpduRead o = .ok t := by
  match o with
  | [] => exact replies_map_ok_iff (r := tpduRead []) (fun _ _ => Value.tpdu.inj) rfl t
  | fo :: rest =>
    by_cases h : mtiOf fo = 2
    · have hexec : exec (.tpduParse (fo :: rest)) s = _ := parseStep_statusReport h rest s
      rw [Replies, hexec, tpduRead_other (by rw [h]; decide) (by rw [h]; decide)]
      split <;> simp [State.raise, State.answer, State.emit]
    · have hexec : exec (.tpduParse (fo :: rest)) s = _ := parseStep_reply h rest s
      exact replies_map_ok_iff (fun _ _ => Value.tpdu.inj) hexec t

/-- `TPDU_PARSE` of octets with TP-MTI 01 answers what their SUBMIT branch answers (R193). -/
theorem exec_tpduParse_submit {fo : Byte} (h : mtiOf fo = 1) (rest : Octets) (s : State) :
    exec (.tpduParse (fo :: rest)) s = reply 0x49 ((parseSubmit (fo :: rest)).map fun t => .tpdu (.submit t)) s := by
  refine (parseStep_reply (by rw [h]; decide) rest s).trans ?_
  rw [tpduRead_submit h]
  cases parseSubmit (fo :: rest) <;> rfl

/-- `TPDU_PARSE` of octets with TP-MTI 00 answers what their DELIVER branch answers (R193). -/
theorem exec_tpduParse_deliver {fo : Byte} (h : mtiOf fo = 0) (rest : Octets) (s : State) :
    exec (.tpduParse (fo :: rest)) s = reply 0x49 ((parseDeliver (fo :: rest)).map fun t => .tpdu (.deliver t)) s := by
  refine (parseStep_reply (by rw [h]; decide) rest s).trans ?_
  rw [tpduRead_deliver h]
  cases parseDeliver (fo :: rest) <;> rfl

/-! ### The data coding octet -/

theorem dcsFlash_eq_and : ∀ d : Byte, dcsFlash d = (d &&& 0x10 != 0) := by decide

/-- The octet of an alphabet and a flash flag, as its two bit fields (R173). -/
theorem dcsMk_eq_or (a : Alphabet) (flash : Bool) : dcsMk a flash =
    (if a = .gsm7 then 0x00 else if a = .bit8 then 0x04 else 0x08) ||| (if flash then 0x10 else 0x00) := by
  cases a <;> cases flash <;> rfl

theorem dcsFlash_dcsMk (a : Alphabet) (flash : Bool) : dcsFlash (dcsMk a flash) = flash := by
  cases a <;> cases flash <;> rfl

theorem dcsAlpha_replies {d : Byte} {a : Option Alphabet} (h : alphaOf d = a) (s : State) :
    Replies (.dcsAlpha d) s 0x41 (.ok (.alphabet a)) := by
  subst h; rfl

theorem dcsFlash_replies {d : Byte} {b : Bool} (h : dcsFlash d = b) (s : State) :
    Replies (.dcsFlash d) s 0x42 (.ok (.bit b)) := by
  subst h; rfl

/-- Settles O23: the readers look at bits [3:2] and 4, which are the bits that `DCS_MK` writes. -/
theorem dataCodingOctets : Obligations.DataCodingOctets := by
  unfold Obligations.DataCodingOctets
  refine fun s => ⟨?reads, ?writes⟩
  case reads =>
    intro d
    obtain ⟨hgsm7, h8bit, hucs2, hreserved⟩ := alphaOf_iff d
    exact ⟨fun h => dcsAlpha_replies (hgsm7.1 h) s, fun h => dcsAlpha_replies (h8bit.1 h) s,
      fun h => dcsAlpha_replies (hucs2.1 h) s, fun h => dcsAlpha_replies (hreserved.1 h) s,
      dcsFlash_replies (dcsFlash_eq_and d) s⟩
  case writes =>
    intro a flash d
    have hd : d = dcsMk a flash := (dcsMk_eq_or a flash).symm
    rw [hd]
    exact ⟨rfl, dcsAlpha_replies (alphaOf_dcsMk flash a) s, dcsFlash_replies (dcsFlash_dcsMk a flash) s⟩

/-! ### The time stamp -/

/-- Both nibbles of an octet are decimal digits (R176). -/
def IsDecimal (b : Byte) : Prop := b.toNat % 16 ≤ 9 ∧ b.toNat / 16 ≤ 9

/-- The number of a decimal pair, the low nibble the tens (R85). -/
def pairValue (b : Byte) : Nat := b.toNat % 16 * 10 + b.toNat / 16

theorem decimalPair_of_isDecimal {b : Byte} (h : IsDecimal b) : decimalPair b = .ok (pairValue b) :=
  if_neg fun hc => hc.elim (Nat.not_lt.2 h.1) (Nat.not_lt.2 h.2)

theorem decimalPair_bad {b : Byte} (h : ¬ IsDecimal b) : decimalPair b = .error .badPdu :=
  if_pos (by simp only [IsDecimal, lowNibble, highNibble] at *; omega)

theorem pairValue_le {b : Byte} (h : IsDecimal b) : pairValue b ≤ 99 := by
  obtain ⟨hlo, hhi⟩ := h
  rw [pairValue]; omega

/-- `bcd` writes the tens of a number of two digits to the low nibble, and the units to the high one (R177). -/
theorem bcd_nibbles {n : Nat} (h : n ≤ 99) : (bcd n).toNat % 16 = n / 10 ∧ (bcd n).toNat / 16 = n % 10 := by
  have htens : n / 10 < 16 := by omega
  have hunits : n % 10 < 16 := by omega
  rw [bcd, nibbles_toNat hunits htens]
  generalize n / 10 = tens at htens
  generalize n % 10 = units
  omega

theorem isDecimal_bcd {n : Nat} (h : n ≤ 99) : IsDecimal (bcd n) := by
  obtain ⟨hlo, hhi⟩ := bcd_nibbles h
  rw [IsDecimal, hlo, hhi]
  omega

theorem pairValue_bcd {n : Nat} (h : n ≤ 99) : pairValue (bcd n) = n := by
  obtain ⟨hlo, hhi⟩ := bcd_nibbles h
  rw [pairValue, hlo, hhi]
  omega

theorem bcd_pairValue {b : Byte} (h : IsDecimal b) : bcd (pairValue b) = b := by
  obtain ⟨hlo, hhi⟩ := bcd_nibbles (pairValue_le h)
  obtain ⟨hblo, hbhi⟩ := h
  apply BitVec.eq_of_toNat_eq
  simp only [pairValue] at *
  omega

/-- A two-digit year stands for the year of 1970 to 2069 that ends in it (R85). -/
theorem yearOf_range {n : Nat} (h : n ≤ 99) : 1970 ≤ yearOf n ∧ yearOf n ≤ 2069 ∧ yearOf n % 100 = n := by
  unfold yearOf
  split <;> omega

theorem yearOf_mod {y : Nat} (hlo : 1970 ≤ y) (hhi : y ≤ 2069) : yearOf (y % 100) = y := by
  unfold yearOf
  split <;> omega

/-- The quarter hours of a time-zone octet, its sign apart (R176). -/
def zoneQuarters (z : Byte) : Nat := z.toNat % 8 * 10 + z.toNat / 16

/-- The minutes of a time-zone octet: quarter hours with the sign of bit 3 (R176). -/
def zoneValue (z : Byte) : Int :=
  if z.getLsbD 3 then -(15 * (zoneQuarters z : Int)) else 15 * (zoneQuarters z : Int)

theorem zoneMinutes_of_good {z : Byte} (h : z.toNat / 16 ≤ 9) : zoneMinutes z = .ok (zoneValue z) := by
  refine (if_neg (Nat.not_lt.2 h)).trans (congrArg Except.ok ?_)
  show (if z.getLsbD 3 = true then (-1 : Int) else 1) * (zoneQuarters z : Nat) * 15 = zoneValue z
  rw [zoneValue]
  split <;> ring

theorem zoneMinutes_bad {z : Byte} (h : ¬ z.toNat / 16 ≤ 9) : zoneMinutes z = .error .badPdu :=
  if_pos (Nat.not_le.1 h)

/-- The time-zone octet of `q` quarter hours with a sign (R177). -/
def zoneOctet (q : Nat) (negative : Bool) : Byte := nibbles (q % 10) (q / 10 + if negative then 8 else 0)

theorem zoneOctet_fields : ∀ q < 80, ∀ negative : Bool,
    (zoneOctet q negative).toNat / 16 ≤ 9 ∧ zoneQuarters (zoneOctet q negative) = q ∧
    (zoneOctet q negative).getLsbD 3 = negative := by
  decide +kernel

/-- A time-zone octet is the one of its quarter hours and its sign. -/
theorem zoneOctet_of_fields : ∀ z : Byte, z.toNat / 16 ≤ 9 → zoneOctet (zoneQuarters z) (z.getLsbD 3) = z := by
  decide +kernel

/-- Minus zero is the only negative octet without a quarter hour (R178). -/
theorem eq_minusZero : ∀ z : Byte, z.toNat / 16 ≤ 9 → zoneQuarters z = 0 → z.getLsbD 3 = true → z = 0x08 := by
  decide +kernel

theorem zoneQuarters_le {z : Byte} (h : z.toNat / 16 ≤ 9) : zoneQuarters z ≤ 79 := by
  rw [zoneQuarters]; omega

/-- The time-zone octet that `SCTS_ENC` writes (R177). -/
theorem sctsEnc_zone (ts : Timestamp) : (sctsEnc ts).o6 = zoneOctet (ts.tzMin.natAbs / 15) (decide (ts.tzMin < 0)) := by
  simp only [sctsEnc, zoneOctet, decide_eq_true_eq]

/-- The octets of a time stamp whose nibbles `SCTS_DEC` accepts (R176). -/
def StampGood (o : Octets7) : Prop :=
  (∀ b ∈ [o.o0, o.o1, o.o2, o.o3, o.o4, o.o5], IsDecimal b) ∧ o.o6.toNat / 16 ≤ 9

/-- The fields of a time stamp (R176). -/
def stampValue (o : Octets7) : Timestamp :=
  { year := yearOf (pairValue o.o0), month := pairValue o.o1, day := pairValue o.o2, hour := pairValue o.o3,
    minute := pairValue o.o4, second := pairValue o.o5, tzMin := zoneValue o.o6 }

theorem stampGood_iff (o : Octets7) : StampGood o ↔ IsDecimal o.o0 ∧ IsDecimal o.o1 ∧ IsDecimal o.o2 ∧
    IsDecimal o.o3 ∧ IsDecimal o.o4 ∧ IsDecimal o.o5 ∧ o.o6.toNat / 16 ≤ 9 := by
  simp [StampGood, and_assoc]

theorem sctsDec_of_good {o : Octets7} (h : StampGood o) : sctsDec o = .ok (stampValue o) := by
  obtain ⟨h0, h1, h2, h3, h4, h5, h6⟩ := (stampGood_iff o).1 h
  rw [sctsDec, decimalPair_of_isDecimal h0, decimalPair_of_isDecimal h1, decimalPair_of_isDecimal h2,
    decimalPair_of_isDecimal h3, decimalPair_of_isDecimal h4, decimalPair_of_isDecimal h5, zoneMinutes_of_good h6]
  rfl

theorem decimalPair_eq_ok {b : Byte} {n : Nat} (h : decimalPair b = .ok n) : IsDecimal b := by
  by_contra hb
  rw [decimalPair_bad hb] at h
  cases h

theorem decimalPair_error {b : Byte} {k : ErrorKind} (h : decimalPair b = .error k) : k = .badPdu := by
  by_cases hb : IsDecimal b
  · rw [decimalPair_of_isDecimal hb] at h; cases h
  · rw [decimalPair_bad hb] at h; cases h; rfl

/-- `SCTS_DEC` accepts only good octets. -/
theorem stampGood_of_sctsDec {o : Octets7} {ts : Timestamp} (h : sctsDec o = .ok ts) : StampGood o := by
  obtain ⟨_, h0, h⟩ := bind_eq_ok.1 h
  obtain ⟨_, h1, h⟩ := bind_eq_ok.1 h
  obtain ⟨_, h2, h⟩ := bind_eq_ok.1 h
  obtain ⟨_, h3, h⟩ := bind_eq_ok.1 h
  obtain ⟨_, h4, h⟩ := bind_eq_ok.1 h
  obtain ⟨_, h5, h⟩ := bind_eq_ok.1 h
  obtain ⟨_, h6, -⟩ := bind_eq_ok.1 h
  refine (stampGood_iff o).2 ⟨decimalPair_eq_ok h0, decimalPair_eq_ok h1, decimalPair_eq_ok h2, decimalPair_eq_ok h3,
    decimalPair_eq_ok h4, decimalPair_eq_ok h5, ?_⟩
  by_contra hz
  rw [zoneMinutes_bad hz] at h6
  cases h6

theorem zoneMinutes_error {z : Byte} {k : ErrorKind} (h : zoneMinutes z = .error k) : k = .badPdu := by
  by_cases hz : z.toNat / 16 ≤ 9
  · rw [zoneMinutes_of_good hz] at h; cases h
  · rw [zoneMinutes_bad hz] at h; cases h; rfl

/-- A decimal pair before steps that raise `BadPdu` only. -/
theorem decimalPair_bind_error {b : Byte} {f : Nat → Answer Timestamp} {k : ErrorKind}
    (hf : ∀ n, f n = .error k → k = .badPdu) (h : (decimalPair b >>= f) = .error k) : k = .badPdu := by
  rcases bind_eq_error h with h | ⟨n, -, h⟩
  · exact decimalPair_error h
  · exact hf n h

theorem sctsDec_error {o : Octets7} {k : ErrorKind} (h : sctsDec o = .error k) : k = .badPdu := by
  refine decimalPair_bind_error (fun _ => decimalPair_bind_error fun _ => decimalPair_bind_error fun _ =>
    decimalPair_bind_error fun _ => decimalPair_bind_error fun _ => decimalPair_bind_error fun _ e => ?_) h
  rcases bind_eq_error e with e | ⟨_, -, e⟩
  · exact zoneMinutes_error e
  · cases e

theorem sctsDec_of_bad {o : Octets7} (h : ¬ StampGood o) : sctsDec o = .error .badPdu :=
  eq_error_of_only (fun _ => sctsDec_error) fun _ hts => h (stampGood_of_sctsDec hts)

theorem sctsDec_eq_ok_iff (o : Octets7) (ts : Timestamp) : sctsDec o = .ok ts ↔ StampGood o ∧ ts = stampValue o := by
  constructor
  · intro h
    have hgood := stampGood_of_sctsDec h
    rw [sctsDec_of_good hgood] at h
    cases h
    exact ⟨hgood, rfl⟩
  · rintro ⟨hgood, rfl⟩
    exact sctsDec_of_good hgood

/-- What `SCTS_ENC` writes of a time stamp of its type is good and has its fields (R177, R178). -/
theorem sctsEnc_reads_back {ts : Timestamp} (h : ts.wf = true) :
    StampGood (sctsEnc ts) ∧ stampValue (sctsEnc ts) = ts := by
  simp only [Timestamp.wf, Bool.and_eq_true, decide_eq_true_eq, beq_iff_eq] at h
  obtain ⟨⟨⟨⟨⟨⟨⟨⟨hylo, hyhi⟩, hmonth⟩, hday⟩, hhour⟩, hminute⟩, hsecond⟩, hquarter⟩, hrange⟩ := h
  have hyear : ts.year % 100 ≤ 99 := by omega
  obtain ⟨hz, hq, hneg⟩ := zoneOctet_fields (ts.tzMin.natAbs / 15) (by omega) (decide (ts.tzMin < 0))
  rw [← sctsEnc_zone] at hz hq hneg
  refine ⟨(stampGood_iff _).2 ⟨isDecimal_bcd hyear, isDecimal_bcd hmonth, isDecimal_bcd hday, isDecimal_bcd hhour,
    isDecimal_bcd hminute, isDecimal_bcd hsecond, hz⟩, ?_⟩
  have hzone : zoneValue (sctsEnc ts).o6 = ts.tzMin := by
    rw [zoneValue, hq, hneg]
    simp only [decide_eq_true_eq]
    omega
  rw [stampValue, hzone]
  show Timestamp.mk (yearOf (pairValue (bcd _))) (pairValue (bcd _)) (pairValue (bcd _)) (pairValue (bcd _))
    (pairValue (bcd _)) (pairValue (bcd _)) _ = _
  rw [pairValue_bcd hyear, pairValue_bcd hmonth, pairValue_bcd hday, pairValue_bcd hhour, pairValue_bcd hminute,
    pairValue_bcd hsecond, yearOf_mod hylo hyhi]

theorem zoneValue_natAbs (z : Byte) : (zoneValue z).natAbs = 15 * zoneQuarters z := by
  rw [zoneValue]; split <;> omega

theorem zoneValue_neg_iff (z : Byte) : zoneValue z < 0 ↔ z.getLsbD 3 = true ∧ zoneQuarters z ≠ 0 := by
  rw [zoneValue]
  split
  · next h => simp only [h, true_and]; omega
  · next h => exact iff_of_false (by omega) fun hneg => h hneg.1

theorem stampValue_wf {o : Octets7} (h : StampGood o) : (stampValue o).wf = true := by
  obtain ⟨h0, h1, h2, h3, h4, h5, h6⟩ := (stampGood_iff o).1 h
  obtain ⟨hylo, hyhi, -⟩ := yearOf_range (pairValue_le h0)
  have hzone := zoneQuarters_le h6
  have hquarter : 15 * zoneQuarters o.o6 % 15 = 0 := Nat.mul_mod_right ..
  have hrange : 15 * zoneQuarters o.o6 ≤ 79 * 15 := by omega
  simp [Timestamp.wf, stampValue, zoneValue_natAbs, hylo, hyhi, pairValue_le, h1, h2, h3, h4, h5, hquarter, hrange]

/-- The time-zone octet that `SCTS_ENC` writes of what was read: the one read, or plus zero for minus zero (R178). -/
theorem zoneOctet_zoneValue {z : Byte} (h : z.toNat / 16 ≤ 9) :
    zoneOctet ((zoneValue z).natAbs / 15) (decide (zoneValue z < 0)) = if z = 0x08 then 0x00 else z := by
  rw [zoneValue_natAbs, Nat.mul_div_cancel_left _ (by decide)]
  split
  · next hz => subst hz; rfl
  · next hz =>
    have hsign : decide (zoneValue z < 0) = z.getLsbD 3 := by
      rw [Bool.eq_iff_iff, decide_eq_true_iff, zoneValue_neg_iff]
      exact ⟨And.left, fun hneg => ⟨hneg, fun h0 => hz (eq_minusZero z h h0 hneg)⟩⟩
    rw [hsign, zoneOctet_of_fields z h]

/-- `SCTS_ENC` of the fields of good octets (R178). -/
theorem sctsEnc_stampValue {o : Octets7} (h : StampGood o) :
    sctsEnc (stampValue o) = { o with o6 := if o.o6 = 0x08 then 0x00 else o.o6 } := by
  obtain ⟨h0, h1, h2, h3, h4, h5, h6⟩ := (stampGood_iff o).1 h
  obtain ⟨-, -, hyear⟩ := yearOf_range (pairValue_le h0)
  have hzone := (sctsEnc_zone (stampValue o)).trans (zoneOctet_zoneValue h6)
  have hrest : sctsEnc (stampValue o) = ⟨bcd (yearOf (pairValue o.o0) % 100), bcd (pairValue o.o1), bcd (pairValue o.o2),
      bcd (pairValue o.o3), bcd (pairValue o.o4), bcd (pairValue o.o5), (sctsEnc (stampValue o)).o6⟩ := rfl
  rw [hrest, hyear, hzone, bcd_pairValue h0, bcd_pairValue h1, bcd_pairValue h2, bcd_pairValue h3, bcd_pairValue h4,
    bcd_pairValue h5]

theorem sctsDec_replies_iff (o : Octets7) (ts : Timestamp) (s : State) :
    Replies (.sctsDec o) s 0x43 (.ok (.timestamp ts)) ↔ sctsDec o = .ok ts :=
  replies_map_ok_iff (fun _ _ => Value.timestamp.inj) rfl ts

theorem sctsEnc_replies {ts : Timestamp} {o : Octets7} (h : sctsEnc ts = o) (s : State) :
    Replies (.sctsEnc ts) s 0x44 (.ok (.octets (octets7 o))) := by
  subst h; rfl

/-- Settles O24: the seven fields apart, and the sign of a zone of zero the only thing that is lost. -/
theorem timestampRoundTrip : Obligations.TimestampRoundTrip := by
  unfold Obligations.TimestampRoundTrip
  refine ⟨?readsBack, ?writesBack, ?fields⟩
  case readsBack =>
    intro ts s hw
    obtain ⟨hgood, hvalue⟩ := sctsEnc_reads_back hw
    exact ⟨sctsEnc ts, rfl, (sctsDec_replies_iff _ ts s).2 ((sctsDec_eq_ok_iff _ ts).2 ⟨hgood, hvalue.symm⟩)⟩
  case writesBack =>
    intro o ts s h
    obtain ⟨hgood, rfl⟩ := (sctsDec_eq_ok_iff o ts).1 ((sctsDec_replies_iff o ts s).1 h)
    have henc := sctsEnc_stampValue hgood
    refine ⟨stampValue_wf hgood, fun hz => ?_, fun hz => ?_⟩
    · rw [if_neg hz] at henc
      exact sctsEnc_replies henc s
    · rw [if_pos hz] at henc
      exact sctsEnc_replies henc s
  case fields =>
    intro o s lo hi v q good
    exact ⟨fun h => (sctsDec_replies_iff o _ s).2 (sctsDec_of_good h),
      fun h => replies_of_error rfl _ (sctsDec_of_bad h)⟩

/-! ### User data -/

/-- An octet names an alphabet unless its bits [3:2] are both set (R172). -/
theorem named_iff (dcs : Byte) : dcs &&& 0x0C ≠ 0x0C ↔ ∃ a, alphaOf dcs = some a := by
  obtain ⟨-, -, -, hreserved⟩ := alphaOf_iff dcs
  rw [Ne, hreserved, ← ne_eq, Option.ne_none_iff_exists']

theorem alphaOf_of_not_named {dcs : Byte} (h : ¬ dcs &&& 0x0C ≠ 0x0C) : alphaOf dcs = none := by
  rw [named_iff, ← Option.ne_none_iff_exists'] at h
  exact not_not.1 h

theorem gsm7_iff {dcs : Byte} {a : Alphabet} (ha : alphaOf dcs = some a) : dcs &&& 0x0C = 0x00 ↔ a = .gsm7 := by
  obtain ⟨hgsm7, -⟩ := alphaOf_iff dcs
  rw [hgsm7, ha, Option.some.injEq]

/-- How many octets TP-UD takes, by the data coding octet and TP-UDL (R81). -/
theorem udOctets_eq {dcs : Byte} {a : Alphabet} (ha : alphaOf dcs = some a) (udl : Nat) :
    udOctets a udl = if dcs &&& 0x0C = 0x00 then (7 * udl + 7) / 8 else udl := by
  simp only [udOctets, gsm7_iff ha, Nat.mul_comm 7]
  rfl

/-- Settles O25: the errors of `UD_BUILD` in their order, then what it answers of good user data. -/
theorem userDataBuilds : Obligations.UserDataBuilds := by
  unfold Obligations.UserDataBuilds
  intro dcs udh body s named fits headerFits hdr fill
  refine ⟨fun hnamed => ?reserved, fun hnamed hfits => ?kind, fun hnamed hfits hheader => ?header,
    fun hnamed hfits hheader hsize => ?size, fun hnamed hfits hheader hsize => ?builds⟩
  case reserved =>
    exact replies_of_error rfl _ (udBuild_reserved (alphaOf_of_not_named hnamed) udh body)
  all_goals
    obtain ⟨a, ha⟩ := (named_iff dcs).1 hnamed
    have hkind : fits ↔ (a = .gsm7 ↔ ∃ q, body = .septets q) := by rw [← gsm7_iff ha]
    rw [hkind] at hfits
  case kind => exact replies_of_error rfl _ (udBuild_kind ha udh hfits)
  case header => exact replies_of_error rfl _ (udBuild_header ha hfits hheader)
  case size => exact replies_of_error rfl _ (udBuild_size ha hfits hheader hsize)
  case builds =>
    refine ⟨udlOf_le hsize, headerPart udh ++ payloadPart udh body, ud_length udh body,
      (udBuild_replies_iff dcs udh body _ _ s).2 (udBuild_eq_ok ⟨⟨a, ha, hfits⟩, hheader, hsize⟩), ?_, ?_, ?_⟩
    · rintro o rfl; rfl
    · rintro q rfl rfl; rfl
    · rintro q h rfl rfl; rfl

/-- Settles O26: user data that `UD_BUILD` accepts is good, and good user data is read back. -/
theorem userDataRoundTrip : Obligations.UserDataRoundTrip := by
  unfold Obligations.UserDataRoundTrip
  intro dcs udh body udl ud s h
  obtain ⟨hok, he⟩ := udBuild_ok_iff.1 ((udBuild_replies_iff dcs udh body udl ud s).1 h)
  obtain ⟨rfl, rfl⟩ := Prod.mk.inj he
  have hsplit := udSplit_replies_of_ok (udSplit_udWire_nil hok) s
  rwa [udWire, List.length_cons, Nat.add_comm] at hsplit

theorem splitHeader_none (a : Alphabet) (udl : Nat) (o : Octets) (pos limit : Nat) :
    splitHeader a false udl o pos limit = .ok (none, pos, 0, 0) := rfl

/-- A header read under TP-UDHI, in GSM-7 (R182). -/
theorem splitHeader_gsm7 {udl pos limit p : Nat} {o : Octets} {h : List IE} (hd : udhDec o pos limit = .ok (h, p)) :
    splitHeader .gsm7 true udl o pos limit =
      if udl < headerSeptets (octetAt o pos).toNat then .error .badUdh
      else .ok (some h, p, headerSeptets (octetAt o pos).toNat, fillBits (octetAt o pos).toNat) := by
  rw [splitHeader, if_pos rfl, hd]
  rfl

theorem splitHeader_octets {a : Alphabet} (ha : a ≠ .gsm7) {udl pos limit p : Nat} {o : Octets} {h : List IE}
    (hd : udhDec o pos limit = .ok (h, p)) : splitHeader a true udl o pos limit = .ok (some h, p, 0, 0) := by
  rw [splitHeader, if_pos rfl, hd]
  exact if_neg ha

theorem splitHeader_unread (a : Alphabet) {udl pos limit : Nat} {o : Octets} {k : ErrorKind}
    (hd : udhDec o pos limit = .error k) : splitHeader a true udl o pos limit = .error k := by
  rw [splitHeader, if_pos rfl, hd]
  rfl

section

variable {dcs : Byte} {a : Alphabet} {udhi : Bool} {o : Octets} {pos : Nat}

/-- Where the header part raises, `UD_SPLIT` raises (R182). -/
theorem udSplit_of_header_error (ha : alphaOf dcs = some a) (hn : udOctets a (octetAt o pos).toNat ≤ 140)
    (hl : o.length = pos + 1 + udOctets a (octetAt o pos).toNat) {k : ErrorKind}
    (hh : splitHeader a udhi (octetAt o pos).toNat o (pos + 1) o.length = .error k) :
    udSplit dcs udhi o pos = .error k := by
  rw [udSplit_eq ha udhi hn hl, hh]
  rfl

/-- Where the header part answers, `UD_SPLIT` reads the rest as octets, or unpacks it (R182). -/
theorem udSplit_of_header (ha : alphaOf dcs = some a) (hn : udOctets a (octetAt o pos).toNat ≤ 140)
    (hl : o.length = pos + 1 + udOctets a (octetAt o pos).toNat) {udh : Option (List IE)} {p hs k : Nat}
    (hh : splitHeader a udhi (octetAt o pos).toNat o (pos + 1) o.length = .ok (udh, p, hs, k)) :
    (a = .gsm7 → ∃ q, unpack7 (o.drop p) ((octetAt o pos).toNat - hs) k = .ok q ∧
      udSplit dcs udhi o pos = .ok (udh, .septets q, o.length)) ∧
    (a ≠ .gsm7 → udSplit dcs udhi o pos = .ok (udh, .octets (o.drop p), o.length)) := by
  have hsplit := udSplit_eq ha udhi hn hl
  rw [hh] at hsplit
  have hrest : udSplit dcs udhi o pos =
      (splitBody a (o.drop p) ((octetAt o pos).toNat - hs) k).bind fun body => .ok (udh, body, o.length) := by
    rw [hsplit, ← memRead_rest]
    rfl
  constructor
  · rintro rfl
    cases hq : unpack7 (o.drop p) ((octetAt o pos).toNat - hs) k with
    | ok q => exact ⟨q, rfl, by rw [hrest, splitBody, if_pos rfl, hq]; rfl⟩
    | error e =>
      have hbad : udSplit dcs udhi o pos = .error e := by rw [hrest, splitBody, if_pos rfl, hq]; rfl
      have he : e = .badPdu := by
        unfold unpack7 at hq
        split at hq <;> cases hq
        rfl
      subst he
      rcases udSplit_cases ha udhi hn hl with ⟨-, hcase⟩ | ⟨_, _, hcase, -⟩
      · rw [hbad] at hcase; cases hcase
      · rw [hbad] at hcase; cases hcase
  · intro hg
    rw [hrest, splitBody, if_neg hg]
    rfl

/-- What `UD_SPLIT` answers once the header part has answered (R182). -/
theorem udSplit_replies_of_header (ha : alphaOf dcs = some a) (hn : udOctets a (octetAt o pos).toNat ≤ 140)
    (hl : o.length = pos + 1 + udOctets a (octetAt o pos).toNat) {udh : Option (List IE)} {p hs : Nat} {k : Fin 7}
    (hh : splitHeader a udhi (octetAt o pos).toNat o (pos + 1) o.length = .ok (udh, p, hs, k)) (s : State) :
    (dcs &&& 0x0C = 0x00 → ∃ q,
      Replies (.unpack7 (o.drop p) ((octetAt o pos).toNat - hs) k) s 0x13 (.ok (.septets q)) ∧
      Replies (.udSplit dcs udhi o pos) s 0x46 (.ok (.split udh (.septets q) o.length))) ∧
    (¬ dcs &&& 0x0C = 0x00 →
      Replies (.udSplit dcs udhi o pos) s 0x46 (.ok (.split udh (.octets (o.drop p)) o.length))) := by
  obtain ⟨hgsm7, hoctets⟩ := udSplit_of_header ha hn hl hh
  rw [gsm7_iff ha]
  refine ⟨fun hg => ?_, fun hg => udSplit_replies_of_ok (hoctets hg) s⟩
  obtain ⟨q, hq, hsplit⟩ := hgsm7 hg
  exact ⟨q, replies_of_ok (f := .septets) rfl q hq, udSplit_replies_of_ok hsplit s⟩

end

/-- Settles O27: the tests before TP-UD, then the header part, then the rest. -/
theorem userDataSplits : Obligations.UserDataSplits := by
  unfold Obligations.UserDataSplits
  intro dcs udhi o pos s splits named gsm7 udl n u hs fill reads
  refine ⟨fun hnamed => ?reserved, fun hnamed hbad => ?bad, fun hnamed hn hl => ⟨?noHeader, ?header, ?answers⟩⟩
  case reserved =>
    exact udSplit_replies_of_error (udSplit_reserved (alphaOf_of_not_named hnamed) udhi o pos) s
  all_goals
    obtain ⟨a, ha⟩ := (named_iff dcs).1 hnamed
    have hg : gsm7 ↔ a = .gsm7 := gsm7_iff ha
    have hlen : n = udOctets a (octetAt o pos).toNat := (udOctets_eq ha _).symm
  case bad =>
    rw [hlen] at hbad
    exact udSplit_replies_of_error (udSplit_bad ha udhi hbad) s
  all_goals rw [hlen] at hn hl
  case noHeader =>
    rintro rfl
    exact udSplit_replies_of_header (k := 0) ha hn hl (splitHeader_none a ..) s
  case header =>
    rintro rfl
    cases hd : udhDec o (pos + 1) o.length with
    | error k =>
      obtain rfl := udhDec_error hd
      refine .inl ⟨replies_of_error rfl _ hd, ?_⟩
      exact udSplit_replies_of_error (udSplit_of_header_error ha hn hl (splitHeader_unread a hd)) s
    | ok r =>
      obtain ⟨h, p⟩ := r
      refine .inr ⟨h, p, (udhDec_replies_iff _ _ _ _ _ s).2 hd, fun hgsm7 hlong => ?_, fun hgsm7 hfits => ?_,
        fun hoctets => ?_⟩
      · obtain rfl := hg.1 hgsm7
        refine udSplit_replies_of_error (udSplit_of_header_error ha hn hl ?_) s
        exact (splitHeader_gsm7 hd).trans (if_pos hlong)
      · obtain rfl := hg.1 hgsm7
        refine udSplit_replies_of_header ha hn hl ?_ s
        exact (splitHeader_gsm7 hd).trans (if_neg (Nat.not_lt.2 hfits))
      · refine ⟨fun hgsm7 => absurd hgsm7 hoctets, ?_⟩
        exact (udSplit_replies_of_header (k := 0) ha hn hl (splitHeader_octets (mt hg.2 hoctets) hd) s).2
  case answers =>
    rcases udSplit_cases ha udhi hn hl with ⟨hudhi, hbad⟩ | ⟨udh, body, hsplit, hsome, hok, hudl, -⟩
    · exact .inl ⟨hudhi, udSplit_replies_of_error hbad s⟩
    · obtain ⟨a', ha', hkind⟩ := hok.alphabet
      rw [ha'] at ha
      cases ha
      exact .inr ⟨udh, body, udSplit_replies_of_ok hsplit s, hsome, hg.trans hkind, hudl⟩

/-! ### The octets of a serialised record -/

/-- `TPDU_SER_SUBMIT` puts TP-UDL and TP-UD of `UD_BUILD` behind the other fields (R190). -/
theorem tpduSerSubmit_of_udBuild {t : Submit} {udl : Nat} {ud : Octets}
    (h : udBuild t.dcs t.udh t.body = .ok (udl, ud)) :
    tpduSerSubmit t = .ok (submitHead t ++ BitVec.ofNat 8 udl :: ud) := by
  obtain ⟨hok, he⟩ := udBuild_ok_iff.1 h
  obtain ⟨rfl, rfl⟩ := Prod.mk.inj he
  exact tpduSerSubmit_eq_ok hok

/-- `TPDU_SER_DELIVER` puts TP-UDL and TP-UD of `UD_BUILD` behind the other fields (R191). -/
theorem tpduSerDeliver_of_udBuild {t : Deliver} {udl : Nat} {ud : Octets}
    (h : udBuild t.dcs t.udh t.body = .ok (udl, ud)) :
    tpduSerDeliver t = .ok (deliverHead t ++ BitVec.ofNat 8 udl :: ud) := by
  obtain ⟨hok, he⟩ := udBuild_ok_iff.1 h
  obtain ⟨rfl, rfl⟩ := Prod.mk.inj he
  exact tpduSerDeliver_eq_ok hok

/-- Settles O28: the first octet is `foSubmit` or `foDeliver` of the record's flags. -/
theorem tpduLayout : Obligations.TpduLayout := by
  unfold Obligations.TpduLayout
  refine ⟨fun t s => ⟨fun udl ud h => ?submit, fun k h => ?submitError⟩,
    fun t s => ⟨fun udl ud h => ?deliver, fun k h => ?deliverError⟩⟩
  case submit =>
    have hbuild := (udBuild_replies_iff _ _ _ udl ud s).1 h
    have hser := replies_of_ok (s := s) (f := .octets) (i := .tpduSerSubmit t) rfl _ (tpduSerSubmit_of_udBuild hbuild)
    obtain ⟨hmti, hrd, hvpf, hsrr, hudhi, hrp⟩ :=
      foSubmit_fields t.rd t.srr t.udh.isSome t.rp (vpfOf t.vp) (vpfOf_lt _)
    refine ⟨_, hmti, hrd, hsrr, hudhi, hrp, ?_, ?_⟩
    · obtain ⟨rd, srr, rp, mr, da, pid, dcs, vp, udh, body⟩ := t
      cases vp <;> exact hvpf
    · obtain ⟨rd, srr, rp, mr, da, pid, dcs, vp, udh, body⟩ := t
      cases vp <;> exact hser
  case submitError => exact replies_of_error rfl k (tpduSerSubmit_error (error_of_replies rfl k h))
  case deliver =>
    have hbuild := (udBuild_replies_iff _ _ _ udl ud s).1 h
    obtain ⟨hmti, hmms, hlp, hbit4, hsri, hudhi, hrp⟩ := foDeliver_fields t.mms t.lp false t.sri t.udh.isSome t.rp
    refine ⟨_, hmti, hmms, hlp, hbit4, hsri, hudhi, hrp, ?_⟩
    refine (replies_of_ok (f := .octets) rfl _ (tpduSerDeliver_of_udBuild hbuild)).trans ?_
    simp [deliverHead, addrSer, octets7]
  case deliverError => exact replies_of_error rfl k (tpduSerDeliver_error (error_of_replies rfl k h))

/-! ### Parsing inverts serialising -/

/-- What the serialiser writes of a record whose user data is good (R190, R191). -/
def tpduWire : Tpdu → Octets
  | .submit t => submitHead t ++ udWire t.udh t.body
  | .deliver t => deliverHead t ++ udWire t.udh t.body

theorem tpduSer_eq_ok {t : Tpdu} (h : TpduOk t) : tpduSer t = .ok (tpduWire t) := by
  cases t with
  | submit t => exact tpduSerSubmit_eq_ok h.userData
  | deliver t => exact tpduSerDeliver_eq_ok h.userData

theorem mtiOf_submitWire (t : Submit) : mtiOf (octetAt (tpduWire (.submit t)) 0) = 1 :=
  (foSubmit_fields t.rd t.srr t.udh.isSome t.rp (vpfOf t.vp) (vpfOf_lt _)).1

theorem deliverWire_fields (t : Deliver) :
    mtiOf (octetAt (tpduWire (.deliver t)) 0) = 0 ∧ bitOf (octetAt (tpduWire (.deliver t)) 0) 4 = false := by
  obtain ⟨hmti, -, -, hbit4, -⟩ := foDeliver_fields t.mms t.lp false t.sri t.udh.isSome t.rp
  exact ⟨hmti, hbit4⟩

theorem parseSubmit_wire {t : Submit} (h : SubmitOk t) (h7 : bitOf t.da.toa 7 = true) :
    parseSubmit (tpduWire (.submit t)) = .ok t :=
  parseSubmit_ser h h7

theorem parseDeliver_wire {t : Deliver} (h : DeliverOk t) (h7 : bitOf t.oa.toa 7 = true) :
    parseDeliver (tpduWire (.deliver t)) = .ok t := by
  rw [tpduWire, deliverHead_eq]
  exact parseDeliver_ser h h7 false

/-- The octets of a well-formed record read as the record (R198). -/
theorem tpduRead_tpduWire {t : Tpdu} (h : TpduOk t) (h7 : addressTyped t) : tpduRead (tpduWire t) = .ok t := by
  cases t with
  | submit t =>
    refine (tpduRead_submit (mtiOf_submitWire t) _).trans ?_
    exact congrArg (Except.map Tpdu.submit) (parseSubmit_wire h h7)
  | deliver t =>
    refine (tpduRead_deliver (deliverWire_fields t).1 _).trans ?_
    exact congrArg (Except.map Tpdu.deliver) (parseDeliver_wire h h7)

/-- Settles O29: the octets are those of `tpduWire`. -/
theorem tpduRoundTrip : Obligations.TpduRoundTrip := by
  unfold Obligations.TpduRoundTrip
  intro t s h h7
  exact ⟨tpduWire t, (serInstr_replies_iff t _ s).2 (tpduSer_eq_ok h),
    (tpduParse_replies_iff _ t s).2 (tpduRead_tpduWire h h7)⟩

/-! ### The canonical form -/

/-- Octets that read as a record were read by the branch of its kind, under the TP-MTI of its kind (R193). -/
theorem tpduRead_cases {o : Octets} {t : Tpdu} (h : tpduRead o = .ok t) :
    (∃ r, t = .submit r ∧ mtiOf (octetAt o 0) = 1 ∧ parseSubmit o = .ok r) ∨
    (∃ r, t = .deliver r ∧ mtiOf (octetAt o 0) = 0 ∧ parseDeliver o = .ok r) := by
  match o with
  | [] => cases h
  | fo :: rest =>
    by_cases h1 : mtiOf fo = 1
    · rw [tpduRead_submit h1] at h
      cases hp : parseSubmit (fo :: rest) with
      | error k => rw [hp] at h; cases h
      | ok r => rw [hp] at h; cases h; exact .inl ⟨r, rfl, h1, rfl⟩
    · by_cases h0 : mtiOf fo = 0
      · rw [tpduRead_deliver h0] at h
        cases hp : parseDeliver (fo :: rest) with
        | error k => rw [hp] at h; cases h
        | ok r => rw [hp] at h; cases h; exact .inr ⟨r, rfl, h0, rfl⟩
      · rw [tpduRead_other h0 h1] at h
        cases h

/-- Octets accepted as SUBMIT are canonical where their user data is: the parser ignores nothing else (R199). -/
theorem tpduCanonical_submit_iff {o : Octets} {t : Submit} (hm : mtiOf (octetAt o 0) = 1) (h : parseSubmit o = .ok t) :
    tpduCanonical o ↔ udCanonical t.dcs t.udh.isSome o (submitHead t).length := by
  obtain ⟨-, -, -, hlen, hdcs, hudhi, -⟩ := parseSubmit_eq_ok h hm
  rw [tpduCanonical, if_neg (by rw [hm]; decide), hdcs, hudhi, hlen]

/-- Octets accepted as DELIVER are canonical where bit 4 of the first octet is zero and their user data is canonical: the
parser ignores nothing else (R199). -/
theorem tpduCanonical_deliver_iff {o : Octets} {t : Deliver} (hm : mtiOf (octetAt o 0) = 0)
    (h : parseDeliver o = .ok t) :
    tpduCanonical o ↔ bitOf (octetAt o 0) 4 = false ∧ udCanonical t.dcs t.udh.isSome o (deliverHead t).length := by
  obtain ⟨-, -, hlen, -, hdcs, hudhi, -⟩ := parseDeliver_eq_ok h hm
  rw [tpduCanonical, if_pos hm, hdcs, hudhi, hlen]

/-- User data that was accepted takes as many octets as those that `UD_BUILD` writes of it (R81). -/
theorem length_eq_of_udSplit {dcs : Byte} {udhi : Bool} {o : Octets} {pos pos' : Nat} {udh : Option (List IE)}
    {body : Body} (h : udSplit dcs udhi o pos = .ok (udh, body, pos')) :
    o.length = pos + (udWire udh body).length := by
  obtain ⟨-, -, -, -, hlen, -⟩ := udSplit_eq_ok h
  rw [hlen, udWire, List.length_cons, ud_length]
  omega

/-- A record that is read is well-formed, and has bit 7 of its address type set (R43, R139). -/
theorem tpduOk_of_read {o : Octets} {t : Tpdu} (h : tpduRead o = .ok t) : TpduOk t ∧ addressTyped t := by
  rcases tpduRead_cases h with ⟨r, rfl, hm, hp⟩ | ⟨r, rfl, hm, hp⟩
  · obtain ⟨hok, h7, -⟩ := parseSubmit_eq_ok hp hm
    exact ⟨hok, h7⟩
  · obtain ⟨hok, h7, -⟩ := parseDeliver_eq_ok hp hm
    exact ⟨hok, h7⟩

/-- A record serialises to as many octets as it was read from (R199). -/
theorem tpduWire_length_of_read {o : Octets} {t : Tpdu} (h : tpduRead o = .ok t) : (tpduWire t).length = o.length := by
  rcases tpduRead_cases h with ⟨r, rfl, hm, hp⟩ | ⟨r, rfl, hm, hp⟩
  · obtain ⟨-, -, -, -, -, -, hud⟩ := parseSubmit_eq_ok hp hm
    rw [tpduWire, List.length_append, length_eq_of_udSplit hud]
  · obtain ⟨-, -, -, -, -, -, hud⟩ := parseDeliver_eq_ok hp hm
    rw [tpduWire, List.length_append, length_eq_of_udSplit hud]

/-- The serialisers write canonical octets (R199). -/
theorem tpduCanonical_tpduWire {t : Tpdu} (h : TpduOk t) (h7 : addressTyped t) : tpduCanonical (tpduWire t) := by
  cases t with
  | submit t =>
    rw [tpduCanonical_submit_iff (mtiOf_submitWire t) (parseSubmit_wire h h7)]
    exact udCanonical_udWire h.userData (submitHead t)
  | deliver t =>
    obtain ⟨hmti, hbit4⟩ := deliverWire_fields t
    rw [tpduCanonical_deliver_iff hmti (parseDeliver_wire h h7)]
    exact ⟨hbit4, udCanonical_udWire h.userData (deliverHead t)⟩

/-- Canonical octets are what the serialiser writes of the record read from them (R199). -/
theorem tpduWire_of_canonical {o : Octets} {t : Tpdu} (h : tpduRead o = .ok t) (hc : tpduCanonical o) :
    tpduWire t = o := by
  rcases tpduRead_cases h with ⟨r, rfl, hm, hp⟩ | ⟨r, rfl, hm, hp⟩
  · obtain ⟨-, -, hhead, -, -, -, hud⟩ := parseSubmit_eq_ok hp hm
    have htail := udWire_of_canonical hud ((tpduCanonical_submit_iff hm hp).1 hc)
    calc tpduWire (.submit r)
        = o.take (submitHead r).length ++ o.drop (submitHead r).length := by rw [hhead, htail, tpduWire]
      _ = o := List.take_append_drop _ o
  · obtain ⟨-, -, -, hcons, -, -, hud⟩ := parseDeliver_eq_ok hp hm
    obtain ⟨hbit4, hcud⟩ := (tpduCanonical_deliver_iff hm hp).1 hc
    have htail := udWire_of_canonical hud hcud
    have hhead : o.take (deliverHead r).length = deliverHead r := by
      rw [hcons, hbit4]
      rfl
    calc tpduWire (.deliver r)
        = o.take (deliverHead r).length ++ o.drop (deliverHead r).length := by rw [hhead, htail, tpduWire]
      _ = o := List.take_append_drop _ o

/-- Settles O30: the canonical octets are those of `tpduWire`. -/
theorem canonicalForm : Obligations.CanonicalForm := by
  unfold Obligations.CanonicalForm
  intro o t s h
  have hread := (tpduParse_replies_iff o t s).1 h
  obtain ⟨hok, h7⟩ := tpduOk_of_read hread
  exact ⟨hok, h7, tpduWire t, (serInstr_replies_iff t _ s).2 (tpduSer_eq_ok hok), tpduWire_length_of_read hread,
    tpduCanonical_tpduWire hok h7, (tpduParse_replies_iff _ t s).2 (tpduRead_tpduWire hok h7),
    tpduWire_of_canonical hread⟩

/-! ### The message types -/

/-- Settles O31: TP-MTI chooses the branch, and each branch makes records of its own kind only. -/
theorem messageTypes : Obligations.MessageTypes := by
  unfold Obligations.MessageTypes
  intro x fo rest s
  obtain ⟨⟨hx2, -⟩, hx3, -⟩ := foOther_fields x
  refine ⟨rfl, fun h => parseStep_reserved h rest s, parseStep_reserved hx3 rest s,
    fun hp => ⟨fun h => parseStep_badPdu h hp rest, parseStep_badPdu hx2 hp rest⟩,
    fun hp => ⟨fun h => parseStep_refused h hp rest, parseStep_refused hx2 hp rest⟩, fun h => ?deliver,
    fun h => ?submit⟩
  case deliver =>
    refine ⟨_, (exec_tpduParse_deliver h rest s).trans (reply_eq 0x49 _ s), fun t => ?_⟩
    cases parseDeliver (fo :: rest) <;> simp [Except.map]
  case submit =>
    refine ⟨_, (exec_tpduParse_submit h rest s).trans (reply_eq 0x49 _ s), fun t => ?_⟩
    cases parseSubmit (fo :: rest) <;> simp [Except.map]

/-! ### Every field that is read -/

/-- The SUBMIT record read from octets whose address ends at `p` (R193). -/
def submitRead (o : Octets) (da : Address) (p : Nat) (udh : Option (List IE)) (body : Body) : Submit :=
  { rd := bitOf (octetAt o 0) 2, srr := bitOf (octetAt o 0) 5, rp := bitOf (octetAt o 0) 7, mr := octetAt o 1, da := da,
    pid := octetAt o p, dcs := octetAt o (p + 1), vp := vpAt (vpfBits (octetAt o 0)) o (p + 2), udh := udh, body := body }

/-- The DELIVER record read from octets whose address ends at `p` (R193). -/
def deliverRead (o : Octets) (oa : Address) (p : Nat) (udh : Option (List IE)) (body : Body) : Deliver :=
  { mms := bitOf (octetAt o 0) 2, lp := bitOf (octetAt o 0) 3, sri := bitOf (octetAt o 0) 5, rp := bitOf (octetAt o 0) 7,
    oa := oa, pid := octetAt o p, dcs := octetAt o (p + 1), scts := octets7At o (p + 2), udh := udh, body := body }

theorem parseSubmit_short {o : Octets} (h : o.length < 2) : parseSubmit o = .error .badPdu := if_pos h

theorem parseSubmit_address_error {o : Octets} {k : ErrorKind} (h : 2 ≤ o.length) (ha : addrParse o 2 = .error k) :
    parseSubmit o = .error k := by
  simp only [parseSubmit, if_neg (Nat.not_lt.2 h), ha]
  rfl

/-- An address that was read ends within the input (R139). -/
theorem addrParse_end {o : Octets} {pos p : Nat} {a : Address} (h : addrParse o pos = .ok (a, p)) :
    pos + 2 ≤ p ∧ p ≤ o.length := by
  obtain ⟨hle, -, -, hp, -⟩ := addrParse_eq_ok h
  omega

/-- A SUBMIT whose address was read: it ends before TP-UDL, or its user data decides (R193). -/
theorem parseSubmit_of_address {o : Octets} {da : Address} {p : Nat} (ha : addrParse o 2 = .ok (da, p)) :
    parseSubmit o =
      if o.length < p + 2 + vpLength (vpfBits (octetAt o 0)) then .error .badPdu
      else (udSplit (octetAt o (p + 1)) (bitOf (octetAt o 0) 6) o (p + 2 + vpLength (vpfBits (octetAt o 0)))).map
        fun r => submitRead o da p r.1 r.2.1 := by
  obtain ⟨hp, hle⟩ := addrParse_end ha
  simp only [parseSubmit, if_neg (show ¬ o.length < 2 by omega), ha, bind, Except.bind]
  by_cases h : o.length < p + 2 + vpLength (vpfBits (octetAt o 0))
  · rw [if_pos h, if_pos h, ite_self]
  · rw [if_neg h, if_neg h, if_neg (by omega)]
    cases udSplit (octetAt o (p + 1)) (bitOf (octetAt o 0) 6) o (p + 2 + vpLength (vpfBits (octetAt o 0))) <;> rfl

theorem parseDeliver_address_error {o : Octets} {k : ErrorKind} (ha : addrParse o 1 = .error k) :
    parseDeliver o = .error k := by
  simp only [parseDeliver, ha]
  rfl

/-- A DELIVER whose address was read: it ends before TP-UDL, or its user data decides (R193). -/
theorem parseDeliver_of_address {o : Octets} {oa : Address} {p : Nat} (ha : addrParse o 1 = .ok (oa, p)) :
    parseDeliver o =
      if o.length < p + 9 then .error .badPdu
      else (udSplit (octetAt o (p + 1)) (bitOf (octetAt o 0) 6) o (p + 9)).map
        fun r => deliverRead o oa p r.1 r.2.1 := by
  simp only [parseDeliver, ha, bind, Except.bind]
  by_cases h : o.length < p + 9
  · rw [if_pos h, if_pos h, ite_self]
  · rw [if_neg h, if_neg h, if_neg (by omega)]
    cases udSplit (octetAt o (p + 1)) (bitOf (octetAt o 0) 6) o (p + 9) <;> rfl

/-- An instruction whose function makes a value of the answer of `UD_SPLIT` passes on its errors. -/
theorem replies_udSplit_map {α : Type} {i : Instr} {s : State} {op dcs : Byte} {udhi : Bool} {o : Octets} {pos : Nat}
    {f : Option (List IE) × Body × Nat → α} {g : α → Value}
    (h : exec i s = reply op (((udSplit dcs udhi o pos).map f).map g) s) :
    (∃ k, Replies (.udSplit dcs udhi o pos) s 0x46 (.err k) ∧ Replies i s op (.err k)) ∨
    (∃ udh body last, Replies (.udSplit dcs udhi o pos) s 0x46 (.ok (.split udh body last)) ∧
      Replies i s op (.ok (g (f (udh, body, last))))) := by
  cases hu : udSplit dcs udhi o pos with
  | error k => exact .inl ⟨k, udSplit_replies_of_error hu s, replies_of_error h k (by rw [hu]; rfl)⟩
  | ok r =>
    obtain ⟨udh, body, last⟩ := r
    exact .inr ⟨udh, body, last, udSplit_replies_of_ok hu s, replies_of_ok h _ (by rw [hu]; rfl)⟩

/-- Settles O32: the fields in wire order, the address, and then the user data. -/
theorem tpduParses : Obligations.TpduParses := by
  unfold Obligations.TpduParses
  intro fo rest s o parses octet seven udhi
  refine ⟨?submit, ?deliver⟩
  case submit =>
    intro hm vpf vpLength vpAt
    have hexec := exec_tpduParse_submit hm rest s
    refine ⟨fun hshort => replies_of_error hexec _ (parseSubmit_short hshort), fun hlong => ?_⟩
    cases ha : addrParse o 2 with
    | error k =>
      exact .inl ⟨k, replies_of_error rfl k ha, replies_of_error hexec k (parseSubmit_address_error hlong ha)⟩
    | ok r =>
      obtain ⟨da, p⟩ := r
      have hparse := parseSubmit_of_address ha
      refine .inr ⟨da, p, (addrParse_replies_iff o 2 p da s).2 ha, fun hl => ?_, fun hl => ?_⟩
      · exact replies_of_error hexec _ (hparse.trans (if_pos hl))
      · rw [hparse.trans (if_neg (Nat.not_lt.2 hl))] at hexec
        exact replies_udSplit_map hexec
  case deliver =>
    intro hm
    have hexec := exec_tpduParse_deliver hm rest s
    cases ha : addrParse o 1 with
    | error k => exact .inl ⟨k, replies_of_error rfl k ha, replies_of_error hexec k (parseDeliver_address_error ha)⟩
    | ok r =>
      obtain ⟨oa, p⟩ := r
      have hparse := parseDeliver_of_address ha
      refine .inr ⟨oa, p, (addrParse_replies_iff o 1 p oa s).2 ha, fun hl => ?_, fun hl => ?_⟩
      · exact replies_of_error hexec _ (hparse.trans (if_pos hl))
      · rw [hparse.trans (if_neg (Nat.not_lt.2 hl))] at hexec
        exact replies_udSplit_map hexec

end Sys2Proof.Proofs

/-! PROOFS. PDU-mode frames: that `FRAME_DEC` reads back what `FRAME_ENC` writes (O37), and what `FRAME_DEC` answers on every
string (O38). -/

namespace Sys2Proof.Proofs

open Sys2Proof Sys2Proof.Machine Sys2Proof.Laws

/-! ### The characters of a hex text -/

/-- A nibble is written as an upper-case hex digit (R212). -/
theorem hexDigit_mem : ∀ v : Nat, v < 16 → hexDigit v ∈ ascii "0123456789ABCDEF" := by decide

theorem hexText_upper (o : Octets) : ∀ c ∈ hexText o, c ∈ ascii "0123456789ABCDEF" := by
  intro c hc
  obtain ⟨b, -, hb⟩ := List.mem_flatMap.1 hc
  rcases List.mem_pair.1 hb with rfl | rfl
  · exact hexDigit_mem _ (highNibble_lt b)
  · exact hexDigit_mem _ (lowNibble_lt b)

/-- The characters that have a hex value are the digits, in either case (R213). -/
theorem hexValue_isSome_iff : ∀ c : Byte, (hexValue c).isSome = true ↔ c ∈ ascii "0123456789ABCDEFabcdef" := by decide

/-- The value of a character that is a hex digit (R213). -/
def digitValue (c : Byte) : Nat :=
  if c.toNat < 0x3A then c.toNat - 0x30 else if c.toNat < 0x47 then c.toNat - 0x37 else c.toNat - 0x57

theorem hexValue_eq_digitValue : ∀ c ∈ ascii "0123456789ABCDEFabcdef", hexValue c = some (digitValue c) := by decide

/-! ### What a hex text is read as -/

/-- A text that no octets are read from raises `BadPdu` (R213). -/
theorem frameDec_unreadable {h : Ascii} (hno : ∀ o, hexOctets h ≠ .ok o) : frameDec h = .error .badPdu := by
  cases e : hexOctets h with
  | ok o => exact absurd e (hno o)
  | error k => rw [frameDec, e, hexOctets_error e]; rfl

theorem frameDec_odd {h : Ascii} (hodd : h.length % 2 = 1) : frameDec h = .error .badPdu :=
  frameDec_unreadable fun o e => by
    have := (hexOctets_eq_ok e).1
    omega

theorem frameDec_nondigit {h : Ascii} {c : Byte} (hc : c ∈ h) (hn : c ∉ ascii "0123456789ABCDEFabcdef") :
    frameDec h = .error .badPdu :=
  frameDec_unreadable fun _ e => hn ((hexValue_isSome_iff c).1 ((hexOctets_eq_ok e).2 c hc))

/-- The octet whose halves are the values of two digits. -/
theorem nibbles_eq_of_toNat {b : Byte} {x y : Nat} (h : b.toNat = 16 * x + y) : nibbles x y = b := by
  rw [nibbles, ← h, BitVec.ofNat_toNat, BitVec.setWidth_eq]

/-- A text of digit pairs is read as the octets whose values the pairs are (R213). -/
theorem hexOctets_pairs (o : Octets) (h : Ascii) (hl : h.length = 2 * o.length)
    (hd : ∀ c ∈ h, c ∈ ascii "0123456789ABCDEFabcdef")
    (hv : ∀ i, i < o.length →
      (o.getD i 0).toNat = 16 * digitValue (h.getD (2 * i) 0) + digitValue (h.getD (2 * i + 1) 0)) :
    hexOctets h = .ok o := by
  induction o generalizing h with
  | nil => rw [List.length_eq_zero_iff.1 hl]; rfl
  | cons b r ih =>
    match h, hl with
    | c :: d :: t, hl =>
      simp only [List.mem_cons, forall_eq_or_imp] at hd
      obtain ⟨hc, hd, ht⟩ := hd
      have hrest : hexOctets t = .ok r :=
        ih t (by simp only [List.length_cons] at hl; omega) ht fun i hi => hv (i + 1) (Nat.succ_lt_succ hi)
      have hfirst : nibbles (digitValue c) (digitValue d) = b := nibbles_eq_of_toNat (hv 0 (Nat.succ_pos _))
      rw [hexOctets_cons (hexValue_eq_digitValue c hc) (hexValue_eq_digitValue d hd), hrest, hfirst]
      rfl

/-! ### The SMSC prefix -/

theorem smscPrefix_none_length : (smscPrefix none).length = 1 := rfl

theorem smscPrefix_some_length (m : Smsc) : (smscPrefix (some m)).length = 2 + m.val.length :=
  Nat.add_comm _ 2

/-- A prefix length within the frame splits the octets after it at that length (R213). -/
theorem splitPrefix_within {l : Byte} {r : Octets} (h0 : l ≠ 0) (hl : l.toNat ≤ r.length) :
    splitPrefix (l :: r) =
      .ok (some { toa := r.getD 0 0, val := (r.drop 1).take (l.toNat - 1) }, r.drop l.toNat) := by
  rw [splitPrefix, if_neg h0, if_neg (Nat.not_lt.2 hl)]
  rfl

theorem frameDec_of_octets {h : Ascii} {o : Octets} (e : hexOctets h = .ok o) : frameDec h = splitPrefix o := by
  rw [frameDec, e]
  rfl

/-! ### The two commands -/

theorem frameDec_replies_ok {h : Ascii} {smsc : Option Smsc} {tpdu : Octets} (e : frameDec h = .ok (smsc, tpdu))
    (s : State) : Replies (.frameDec h) s 0x51 (.ok (.unframed smsc tpdu)) :=
  replies_of_ok (f := fun r => .unframed r.1 r.2) rfl (smsc, tpdu) e

theorem frameDec_replies_error {h : Ascii} {k : ErrorKind} (e : frameDec h = .error k) (s : State) :
    Replies (.frameDec h) s 0x51 (.err k) :=
  replies_of_error rfl k e

/-- Settles O37: the text is the hex text of prefix and TPDU, and the frame laws read it back. -/
theorem frameRoundTrip : Obligations.FrameRoundTrip := by
  unfold Obligations.FrameRoundTrip
  intro smsc tpdu s hfits
  refine ⟨(frameEnc smsc tpdu).2, rfl, frameDec_replies_ok (frameDec_frameEnc smsc tpdu hfits) s, hexText_upper _, ?_⟩
  rw [frameEnc, hexText_length, List.length_append]
  cases smsc with
  | none => rw [smscPrefix_none_length]
  | some m => rw [smscPrefix_some_length]

/-- Settles O38: what is no text of digit pairs is not read; the octets of one that is are split at the prefix length. -/
theorem frameDecodes : Obligations.FrameDecodes := by
  unfold Obligations.FrameDecodes
  intro hex s digit
  refine ⟨fun hodd => frameDec_replies_error (frameDec_odd hodd) s,
    fun ⟨c, hc, hn⟩ => frameDec_replies_error (frameDec_nondigit hc hn) s, ?empty, ?pairs⟩
  case empty =>
    rintro rfl
    exact frameDec_replies_error rfl s
  case pairs =>
    intro l r hl hd hv
    have hsplit : frameDec hex = splitPrefix (l :: r) := frameDec_of_octets (hexOctets_pairs (l :: r) hex hl hd hv)
    refine ⟨?zero, fun hshort => frameDec_replies_error (hsplit.trans (splitPrefix_short hshort)) s,
      fun h0 hle => frameDec_replies_ok (hsplit.trans (splitPrefix_within h0 hle)) s⟩
    rintro rfl
    exact frameDec_replies_ok hsplit s

end Sys2Proof.Proofs

/-! PROOFS. The segmenter: that its records travel (O42), a payload that fits one message (O39), a longer payload (O40),
and that the segments join to the payload and decode alone (O41). -/

namespace Sys2Proof.Proofs

open Sys2Proof Sys2Proof.Machine Sys2Proof.Laws

/-! ### What `SEGMENT` answers, case by case -/

/-- A bad destination is raised, whatever the payload (R226). -/
theorem segment_badDestination {dest : Ascii} {k : ErrorKind} (hda : addrEnc dest = .error k) (ref : Byte)
    (p : Payload) : segment ref p dest = .error k := by
  unfold Machine.segment
  rw [hda]
  rfl

/-- A payload within the single capacity is one record without a header (R223). -/
theorem segment_single {p : Payload} {dest : Ascii} {da : Address} {a : Alphabet} {units : Body}
    (hp : segmentUnits p = (a, units)) (hda : addrEnc dest = .ok da) (hfits : bodyLength units ≤ singleCap a)
    (ref : Byte) : segment ref p dest = .ok ([segmentBase a da units], ref) := by
  unfold Machine.segment
  rw [hp, hda]
  exact if_pos hfits

/-- More than 255 chunks are raised as `BadUdh` (R226). -/
theorem segment_tooMany {p : Payload} {dest : Ascii} {da : Address} {a : Alphabet} {units : Body}
    (hp : segmentUnits p = (a, units)) (hda : addrEnc dest = .ok da) (hlong : singleCap a < bodyLength units)
    (hmany : Config.segMax < (segmentChunks a units).length) (ref : Byte) :
    segment ref p dest = .error .badUdh := by
  unfold Machine.segment
  rw [hp, hda]
  exact (if_neg (Nat.not_le.2 hlong)).trans (if_pos hmany)

/-- A longer payload of at most 255 chunks is a record for each, under the reference as it was (R224, R226). -/
theorem segment_several {p : Payload} {dest : Ascii} {da : Address} {a : Alphabet} {units : Body}
    (hp : segmentUnits p = (a, units)) (hda : addrEnc dest = .ok da) (hlong : singleCap a < bodyLength units)
    (hmax : (segmentChunks a units).length ≤ Config.segMax) (ref : Byte) : segment ref p dest =
      .ok (segmentRecords a da ref (segmentChunks a units).length 1 (segmentChunks a units), ref + 1) := by
  unfold Machine.segment
  rw [hp, hda]
  exact (if_neg (Nat.not_le.2 hlong)).trans (if_neg (Nat.not_lt.2 hmax))

theorem exec_segment_ok {p : Payload} {dest : Ascii} {s : State} {l : List Submit} {c : Byte}
    (h : segment s.refcnt p dest = .ok (l, c)) : exec (.segment p dest) s =
      .next { s with refcnt := c, out := s.out ++ [.result 0x60 (.ok (.submits l))] } := by
  rw [exec, execSegment, h]
  rfl

theorem segment_replies_error {p : Payload} {dest : Ascii} {s : State} {k : ErrorKind}
    (h : segment s.refcnt p dest = .error k) : Replies (.segment p dest) s 0x60 (.err k) := by
  rw [Replies, exec, execSegment, h]
  rfl

theorem segment_of_answered {p : Payload} {dest : Ascii} {s s' : State} {l : List Submit}
    (h : exec (.segment p dest) s = .next s') (hout : s'.out = s.out ++ [.result 0x60 (.ok (.submits l))]) :
    ∃ c, segment s.refcnt p dest = .ok (l, c) := by
  rcases segment_cases p dest s with ⟨l', c, hl, e⟩ | ⟨k, -, e⟩
  · cases e.symm.trans h
    obtain rfl : l' = l := by simpa using hout
    exact ⟨c, hl⟩
  · cases e.symm.trans h
    simp at hout

theorem addrEnc_replies_iff (dest : Ascii) (da : Address) (s : State) :
    Replies (.addrEnc dest) s 0x20 (.ok (.address da)) ↔ addrEnc dest = .ok da :=
  replies_map_ok_iff (fun _ _ => Value.address.inj) rfl da

/-! ### The records of an answer -/

theorem segmentRecords_bodies (a : Alphabet) (da : Address) (ref : Byte) (n i : Nat) (cs : List Body) :
    ((segmentRecords a da ref n i cs).map fun r => r.body) = cs := by
  induction cs generalizing i with
  | nil => rfl
  | cons b r ih =>
    rw [segmentRecords, List.map_cons, ih]
    rfl

theorem mem_segmentRecords {a : Alphabet} {da : Address} {ref : Byte} {n i : Nat} {cs : List Body} {r : Submit}
    (h : r ∈ segmentRecords a da ref n i cs) :
    ∃ b ∈ cs, ∃ j, r = { segmentBase a da b with udh := some [concat8IE ref.toNat n j] } := by
  rw [segmentRecords_eq] at h
  obtain ⟨j, hj, rfl⟩ := List.mem_mapIdx.1 h
  exact ⟨_, List.getElem_mem hj, i + j, rfl⟩

/-- The bodies of the records are the encoded payload, whole or in its chunks (R223, R224). -/
theorem segment_bodies {ref c : Byte} {p : Payload} {dest : Ascii} {l : List Submit}
    (h : segment ref p dest = .ok (l, c)) :
    (l.map fun r => r.body) = [(segmentUnits p).2] ∨
    singleCap (segmentUnits p).1 < bodyLength (segmentUnits p).2 ∧
      (l.map fun r => r.body) = segmentChunks (segmentUnits p).1 (segmentUnits p).2 := by
  rcases Laws.segment_cases ref p dest with ⟨k, -, e⟩ | ⟨da, -, ⟨-, e⟩ | ⟨hlong, ⟨-, e⟩ | ⟨-, e⟩⟩⟩ <;>
    cases e.symm.trans h
  · exact .inl rfl
  · exact .inr ⟨hlong, segmentRecords_bodies ..⟩

/-- Every record has the destination's address, the data coding octet of the alphabet, and user data that can be built
(R226). -/
theorem segment_record {ref c : Byte} {p : Payload} {dest : Ascii} {l : List Submit}
    (h : segment ref p dest = .ok (l, c)) {r : Submit} (hr : r ∈ l) :
    addrEnc dest = .ok r.da ∧ r.dcs = dcsMk (segmentUnits p).1 false ∧ UserDataOk r.dcs r.udh r.body := by
  have hkind := segmentUnits_kind p
  rcases Laws.segment_cases ref p dest with ⟨k, -, e⟩ | ⟨da, hda, ⟨hfits, e⟩ | ⟨hlong, ⟨-, e⟩ | ⟨-, e⟩⟩⟩ <;>
    cases e.symm.trans h
  · obtain rfl := List.mem_singleton.1 hr
    exact ⟨hda, rfl, userDataOk_single hkind hfits⟩
  · obtain ⟨b, hb, j, rfl⟩ := mem_segmentRecords hr
    obtain ⟨-, -, hsize, hkinds⟩ := segmentChunks_spec _ _ hkind hlong
    exact ⟨hda, rfl, userDataOk_segment (hkinds b hb) (hsize b hb).2 ..⟩

/-- An address that `ADDR_ENC` writes is well-formed and has bit 7 of its type octet set (R131, R132). -/
theorem addrEnc_wf {dest : Ascii} {da : Address} (h : addrEnc dest = .ok da) :
    da.wf = true ∧ bitOf da.toa 7 = true := by
  by_cases hlen : (digitsOf dest).length ≤ 20
  · cases (addrEnc_eq_ok hlen).symm.trans h
    have hmod : (digitsOf dest).length % 256 = (digitsOf dest).length := Nat.mod_eq_of_lt (by omega)
    constructor
    · simp [Address.wf, semiOctets_length, hmod]
    · show bitOf (if dest.head? = some 0x2B then 0x91 else 0x81) 7 = true
      split <;> rfl
  · cases (addrEnc_tooLong (Nat.not_le.1 hlen)).symm.trans h

/-- A well-formed record with a typed address comes back through its octets and any frame (R198, R216). -/
theorem submit_travels {r : Submit} (h : SubmitOk r) (h7 : bitOf r.da.toa 7 = true) {smsc : Option Smsc}
    (hsmsc : ∀ m, smsc = some m → 1 + m.val.length ≤ 255) (s : State) : ∃ o hex,
      Replies (.tpduSerSubmit r) s 0x47 (.ok (.octets o)) ∧
      Replies (.frameEnc smsc o) s 0x50 (.ok (.frame o.length hex)) ∧
      Replies (.frameDec hex) s 0x51 (.ok (.unframed smsc o)) ∧
      Replies (.tpduParse o) s 0x49 (.ok (.tpdu (.submit r))) :=
  ⟨tpduWire (.submit r), (frameEnc smsc (tpduWire (.submit r))).2,
    (serInstr_replies_iff (.submit r) _ s).2 (tpduSer_eq_ok (t := .submit r) h), rfl,
    frameDec_replies_ok (frameDec_frameEnc smsc _ hsmsc) s,
    (tpduParse_replies_iff _ _ s).2 (tpduRead_tpduWire (t := .submit r) h h7)⟩

/-- Settles O42: every record is well-formed, and such a record travels. -/
theorem segmentsTravel : Obligations.SegmentsTravel := by
  unfold Obligations.SegmentsTravel
  intro p dest smsc s s' l h hout hsmsc r hr
  obtain ⟨c, hl⟩ := segment_of_answered h hout
  obtain ⟨hda, -, hdata⟩ := segment_record hl hr
  obtain ⟨hwf, h7⟩ := addrEnc_wf hda
  have hok : SubmitOk r := ⟨hwf, hdata⟩
  exact ⟨hok, submit_travels hok h7 hsmsc s⟩

/-! ### A payload that fits one message -/

theorem segmentUnits_auto_gsm7 {t : Text} {q : Septets} (h : gsm7Enc t = .ok q) :
    segmentUnits (.auto t) = (.gsm7, .septets q) := by
  rw [segmentUnits, h]

theorem segmentUnits_auto_ucs2 {t : Text} {k : ErrorKind} (h : gsm7Enc t = .error k) :
    segmentUnits (.auto t) = (.ucs2, .octets (ucs2Enc t)) := by
  rw [segmentUnits, h]

/-- A payload within the single capacity is answered with one record, and `REFCNT` stays (R223). -/
theorem segment_replies_single {p : Payload} {dest : Ascii} {da : Address} {a : Alphabet} {units : Body}
    (hp : segmentUnits p = (a, units)) (hda : addrEnc dest = .ok da) (hfits : bodyLength units ≤ singleCap a)
    (s : State) : Replies (.segment p dest) s 0x60 (.ok (.submits [segmentBase a da units])) :=
  exec_segment_ok (segment_single hp hda hfits s.refcnt)

/-- Settles O39: in each case the payload's units are within the single capacity of its alphabet. -/
theorem segmentSingle : Obligations.SegmentSingle := by
  unfold Obligations.SegmentSingle
  intro dest da s haddr record gives
  have hda := (addrEnc_replies_iff dest da s).1 haddr
  refine ⟨fun t q henc hlen => ?gsm7, fun t o k hno henc hlen => ?fallBack, fun t o henc hlen => ?forced,
    fun o hlen => ?data⟩
  case gsm7 =>
    have hp := segmentUnits_auto_gsm7 ((gsm7Enc_replies_iff t q s).1 henc)
    exact segment_replies_single hp hda hlen s
  case fallBack =>
    obtain rfl := (ucs2Enc_replies_iff t o s).1 henc
    have hp := segmentUnits_auto_ucs2 (error_of_replies (r := gsm7Enc t) rfl k hno)
    exact segment_replies_single hp hda hlen s
  case forced =>
    obtain rfl := (ucs2Enc_replies_iff t o s).1 henc
    exact segment_replies_single (p := .forceUcs2 t) rfl hda hlen s
  case data => exact segment_replies_single (p := .force8bit o) rfl hda hlen s

/-! ### A longer payload -/

theorem cutSeptets_eq (q : Septets) : cutSeptets q = 153 ∨ cutSeptets q = 152 := by
  unfold cutSeptets
  split
  · exact .inr rfl
  · exact .inl rfl

theorem cutUcs2_eq (o : Octets) : cutUcs2 o = 134 ∨ cutUcs2 o = 132 := by
  unfold cutUcs2
  simp only
  split
  · exact .inr rfl
  · exact .inl rfl

/-- Every chunk but the last is as long as a cut says (R225). -/
theorem length_chunk_eq_cut {cap : Nat} {cut : List α → Nat} (hcut : ∀ l, 1 ≤ cut l ∧ cut l ≤ cap) {fuel : Nat}
    {l c : List α} (h : c ∈ (chunks cap cut fuel l).dropLast) : ∃ rest, c.length = cut rest := by
  obtain ⟨pre, rest, -, hlong, rfl⟩ := (chunks_size hcut fuel l).2 c h
  exact ⟨rest, by rw [List.length_take]; exact Nat.min_eq_left ((hcut rest).2.trans hlong.le)⟩

/-- How long a chunk of each alphabet is that is not the last (R225). -/
def FullChunk (a : Alphabet) (b : Body) : Prop :=
  match a with
  | .gsm7 => 152 ≤ bodyLength b
  | .ucs2 => bodyLength b = 134 ∨ bodyLength b = 132
  | .bit8 => bodyLength b = 134

theorem segmentChunks_full {a : Alphabet} {units : Body} (hk : a = .gsm7 ↔ ∃ q, units = .septets q) {b : Body}
    (hb : b ∈ (segmentChunks a units).dropLast) : FullChunk a b := by
  cases units with
  | septets q =>
    obtain rfl := hk.2 ⟨q, rfl⟩
    rw [segmentChunks, ← List.map_dropLast] at hb
    obtain ⟨c, hc, rfl⟩ := List.mem_map.1 hb
    obtain ⟨rest, hlen⟩ := length_chunk_eq_cut cutSeptets_range hc
    show 152 ≤ c.length
    have := cutSeptets_eq rest
    omega
  | octets o =>
    rw [segmentChunks, ← List.map_dropLast] at hb
    obtain ⟨c, hc, rfl⟩ := List.mem_map.1 hb
    obtain ⟨rest, hlen⟩ := length_chunk_eq_cut (cutOctets_range a) hc
    cases a with
    | gsm7 =>
      obtain ⟨q, hq⟩ := hk.1 rfl
      cases hq
    | ucs2 => exact (cutUcs2_eq rest).imp hlen.trans hlen.trans
    | bit8 => exact hlen

theorem singleCap_eq (a : Alphabet) : singleCap a = if a = .gsm7 then 160 else 140 := rfl

theorem segCap_eq (a : Alphabet) : segCap a = if a = .gsm7 then 153 else 134 := rfl

/-- The element of a record: the reference as it was, the number of records, and the record's number (R83, R224). -/
theorem concat8IE_eq (ref : Byte) (total seq : Nat) :
    concat8IE ref.toNat total seq = { iei := 0x00, ied := [ref, BitVec.ofNat 8 total, BitVec.ofNat 8 seq] } := by
  rw [concat8IE, BitVec.ofNat_toNat, BitVec.setWidth_eq]

/-- The records of the chunks, with each field written out (R226). -/
theorem segmentRecords_fields (a : Alphabet) (da : Address) (ref : Byte) (cs : List Body) :
    segmentRecords a da ref cs.length 1 cs = cs.mapIdx fun i b =>
      { rd := false, srr := false, rp := false, mr := 0, da := da, pid := 0, dcs := dcsMk a false, vp := .absent,
        udh := some [{ iei := 0x00, ied := [ref, BitVec.ofNat 8 cs.length, BitVec.ofNat 8 (i + 1)] }],
        body := b } := by
  rw [segmentRecords_eq]
  congr 1
  funext i b
  rw [concat8IE_eq, Nat.add_comm 1 i, segmentBase]

/-- Settles O40: the bodies are the chunks of the encoded payload. -/
theorem segmentConcatenated : Obligations.SegmentConcatenated := by
  unfold Obligations.SegmentConcatenated
  intro p dest s a units hp
  have hkind : a = .gsm7 ↔ ∃ q, units = .septets q := by simpa only [hp] using segmentUnits_kind p
  refine ⟨fun hbad => ?badDestination, fun da haddr hlong => ?_⟩
  case badDestination =>
    exact segment_replies_error (segment_badDestination (error_of_replies (r := addrEnc dest) rfl _ hbad) ..)
  have hda := (addrEnc_replies_iff dest da s).1 haddr
  rw [← singleCap_eq] at hlong
  refine ⟨fun hmany => ?tooMany, fun hmax => ?several⟩
  case tooMany => exact segment_replies_error (segment_tooMany hp hda hlong hmany _)
  case several =>
    obtain ⟨htwo, hjoin, hsize, -⟩ := segmentChunks_spec a units hkind hlong
    refine ⟨segmentChunks a units, htwo, hmax, hjoin, fun b hb => segCap_eq a ▸ hsize b hb,
      fun b hb => segmentChunks_full hkind hb, ?_⟩
    rw [exec_segment_ok (segment_several hp hda hlong hmax _), segmentRecords_fields]
    cases a <;> rfl

/-! ### The segments decode alone -/

/-- The body is the encoding of the text under the alphabet of a text. -/
def EncodesAs (a : Alphabet) (body : Body) (t : Text) : Prop :=
  (a = .gsm7 ∧ ∃ q, body = .septets q ∧ gsm7Enc t = .ok q) ∨ (a = .ucs2 ∧ body = .octets (ucs2Enc t))

theorem segmentUnits_encodes {p : Payload} {t : Text} (h : p = .auto t ∨ p = .forceUcs2 t) :
    EncodesAs (segmentUnits p).1 (segmentUnits p).2 t := by
  rcases h with rfl | rfl
  · cases henc : gsm7Enc t with
    | ok q =>
      rw [segmentUnits_auto_gsm7 henc]
      exact .inl ⟨rfl, q, rfl, henc⟩
    | error k =>
      rw [segmentUnits_auto_ucs2 henc]
      exact .inr ⟨rfl, rfl⟩
  · exact .inr ⟨rfl, rfl⟩

theorem eq_nil_of_gsm7Enc_nil (t : Text) (h : gsm7Enc t = .ok []) : t = [] := by
  simpa [gsm7Dec] using ((gsm7Dec_eq_ok_iff [] t).2 h).symm

theorem eq_nil_of_ucs2Enc_nil (t : Text) (h : ucs2Enc t = []) : t = [] := by
  simpa [ucs2Dec, codeUnits, textOfUnits] using ((ucs2Dec_eq_ok_iff [] t).2 h).symm

/-- Each chunk of a text's encoding encodes a text, and those texts join to the text: no cut falls inside a character
(R225, R228). -/
theorem segmentChunks_encode {a : Alphabet} {units : Body} {t : Text} (h : EncodesAs a units t) :
    ∃ texts : List Text, texts.flatten = t ∧ List.Forall₂ (EncodesAs a) (segmentChunks a units) texts := by
  rcases h with ⟨rfl, q, rfl, henc⟩ | ⟨rfl, rfl⟩
  · obtain ⟨texts, hjoin, hall⟩ := chunks_texts (fun t q => gsm7Enc t = .ok q) gsm7Enc_cutSeptets eq_nil_of_gsm7Enc_nil
      (fun q => (cutSeptets_range q).1) q.length t q le_rfl henc
    exact ⟨texts, hjoin, List.forall₂_map_left_iff.2 (hall.imp fun q _ hq => .inl ⟨rfl, q, rfl, hq⟩)⟩
  · obtain ⟨texts, hjoin, hall⟩ := chunks_texts (fun t o => ucs2Enc t = o)
      (fun t o ho hlong => by subst ho; exact ucs2Enc_cutUcs2 t hlong) eq_nil_of_ucs2Enc_nil
      (fun o => (cutUcs2_range o).1) (ucs2Enc t).length t _ le_rfl rfl
    exact ⟨texts, hjoin, List.forall₂_map_left_iff.2 (hall.imp fun o _ ho => .inr ⟨rfl, congrArg Body.octets ho.symm⟩)⟩

/-- The texts of the records of a text's segments (R228). -/
theorem segment_texts {ref c : Byte} {p : Payload} {dest : Ascii} {l : List Submit} {t : Text}
    (h : segment ref p dest = .ok (l, c)) (ht : p = .auto t ∨ p = .forceUcs2 t) :
    ∃ texts : List Text, texts.flatten = t ∧
      List.Forall₂ (fun r x => EncodesAs (segmentUnits p).1 r.body x) l texts := by
  have hunits := segmentUnits_encodes ht
  obtain ⟨texts, hjoin, hall⟩ : ∃ texts : List Text, texts.flatten = t ∧
      List.Forall₂ (EncodesAs (segmentUnits p).1) (l.map fun r => r.body) texts := by
    rcases segment_bodies h with hone | ⟨-, hchunks⟩
    · exact ⟨[t], by simp, hone ▸ .cons hunits .nil⟩
    · exact hchunks ▸ segmentChunks_encode hunits
  exact ⟨texts, hjoin, List.forall₂_map_left_iff.1 hall⟩

/-- The bodies of an answer join to the encoded payload (R228). -/
theorem joinBodies_segment {ref c : Byte} {p : Payload} {dest : Ascii} {l : List Submit}
    (h : segment ref p dest = .ok (l, c)) : joinBodies (l.map fun r => r.body) = (segmentUnits p).2 := by
  rcases segment_bodies h with hone | ⟨hlong, hchunks⟩
  · rw [hone, joinBodies]
  · obtain ⟨-, hjoin, -⟩ := segmentChunks_spec _ _ (segmentUnits_kind p) hlong
    rw [hchunks, hjoin]

theorem gsm7Dec_replies_of_enc {t : Text} {q : Septets} (h : gsm7Enc t = .ok q) (s : State) :
    Replies (.gsm7Dec q) s 0x11 (.ok (.text t)) :=
  replies_of_ok (f := .text) rfl t ((gsm7Dec_eq_ok_iff q t).2 h)

theorem ucs2Dec_replies_of_enc (t : Text) (s : State) : Replies (.ucs2Dec (ucs2Enc t)) s 0x15 (.ok (.text t)) :=
  (ucs2Dec_replies_iff _ t s).2 ((ucs2Dec_eq_ok_iff _ t).2 rfl)

/-- A body that encodes a text is decoded to it (R107, R114). -/
theorem EncodesAs.decodes {a : Alphabet} {body : Body} {t : Text} (h : EncodesAs a body t) (s : State) :
    (∃ q, body = .septets q ∧ dcsMk a false = 0x00 ∧ Replies (.gsm7Dec q) s 0x11 (.ok (.text t))) ∨
    (∃ o, body = .octets o ∧ dcsMk a false = 0x08 ∧ Replies (.ucs2Dec o) s 0x15 (.ok (.text t))) := by
  rcases h with ⟨rfl, q, hbody, henc⟩ | ⟨rfl, hbody⟩
  · exact .inl ⟨q, hbody, rfl, gsm7Dec_replies_of_enc henc s⟩
  · exact .inr ⟨_, hbody, rfl, ucs2Dec_replies_of_enc t s⟩

/-- Settles O41: the bodies join to the encoded payload, which encodes the text as each body encodes a part of it. -/
theorem segmentsDecodeAlone : Obligations.SegmentsDecodeAlone := by
  unfold Obligations.SegmentsDecodeAlone
  intro p dest s s' l h hout units
  obtain ⟨c, hl⟩ := segment_of_answered h hout
  have hjoin : units = (segmentUnits p).2 := joinBodies_segment hl
  have hdcs : ∀ r ∈ l, r.dcs = dcsMk (segmentUnits p).1 false := fun r hr => (segment_record hl hr).2.1
  refine ⟨hjoin, ?data, fun t ht => ⟨?whole, ?parts⟩⟩
  case data =>
    rintro o rfl
    exact ⟨hjoin, hdcs⟩
  case whole =>
    rw [hjoin]
    exact ((segmentUnits_encodes ht).decodes s).imp (fun ⟨q, hq, _, hdec⟩ => ⟨q, hq, hdec⟩)
      (fun ⟨o, ho, _, hdec⟩ => ⟨o, ho, hdec⟩)
  case parts =>
    obtain ⟨texts, hflat, hall⟩ := segment_texts hl ht
    refine ⟨texts, hflat, ((List.forall₂_and_left _ _).2 ⟨hdcs, hall⟩).imp fun r x hr => ?_⟩
    rw [hr.1]
    exact hr.2.decodes s

end Sys2Proof.Proofs

/-! PROOFS. The reassembler: what a `COLLECT` stores (O43), what it answers when its group is complete (O44), the
segments of a message in any order (O45), and `EXPIRE` (O46). -/

namespace Sys2Proof.Proofs

open Sys2Proof Sys2Proof.Machine Sys2Proof.Laws

/-! ### Finite maps and groups -/

section Maps

variable {κ α : Type} {code : κ → Nat}

/-- A write at a key that the map has not adds one entry. -/
theorem put_perm {k : κ} (a : α) {m : List (κ × α)} (h : FMap.get code k m = none) :
    (FMap.put code k a m).Perm ((k, a) :: m) := by
  induction m with
  | nil => exact .refl _
  | cons x r ih =>
    simp only [FMap.get] at h
    split at h
    · cases h
    · rename_i hx
      simp only [FMap.put]
      split
      · exact .refl _
      · rw [if_neg (fun e => hx e.symm)]
        exact ((ih h).cons x).trans (.swap ..)

/-- A removal makes no difference between the map before and after a write at its key. -/
theorem erase_put_self (k : κ) (a : α) (m : List (κ × α)) :
    FMap.erase code k (FMap.put code k a m) = FMap.erase code k m := by
  induction m with
  | nil => simp [FMap.put, FMap.erase]
  | cons x r ih =>
    simp only [FMap.put]
    split
    · simp [FMap.erase]
    · split
      · rename_i hx
        simp [FMap.erase, hx]
      · simp only [FMap.erase, List.filter_cons] at ih ⊢
        rw [ih]

/-- Keys with an injective code: a write and a removal leave the other keys' values. -/
theorem get_put_of_ne (hc : Function.Injective code) {k k' : κ} (hk : k' ≠ k) (a : α) (m : List (κ × α)) :
    FMap.get code k' (FMap.put code k a m) = FMap.get code k' m :=
  get_put_other (fun e => hk (hc e)) a m

theorem get_erase_of_ne (hc : Function.Injective code) {k k' : κ} (hk : k' ≠ k) (m : List (κ × α)) :
    FMap.get code k' (FMap.erase code k m) = FMap.get code k' m :=
  get_erase_other (fun e => hk (hc e)) m

end Maps

/-- What a group holds after a write (R242). -/
theorem seg_put (g : Group) (q : Nat) (t : Deliver) (p : Nat) :
    (g.put q t).seg p = if p = q then some t else g.seg p := by
  split
  · next h => subst h; exact get_put_self p t g.segs
  · next h => exact get_put_of_ne Function.injective_id h t g.segs

theorem groupFor_of_group {s : State} {k : Key} {g : Group} (h : s.group k = some g) : groupFor s k = g := by
  rw [groupFor, h, Option.getD_some]

theorem groupFor_of_none {s : State} {k : Key} (h : s.group k = none) :
    groupFor s k = { segs := [], created := s.now } := by
  rw [groupFor, h, Option.getD_none]

theorem groupFor_of_put {s : State} {k : Key} {g : Group} {m : List (Key × Group)}
    (h : s.rsm = FMap.put keyCode k g m) : groupFor s k = g :=
  groupFor_of_group (by rw [State.group, h, get_put_self])

/-- A table below its capacity has room for a new group (R245). -/
theorem tableFull_eq_false {s : State} (h : ∀ n, s.params.rsmCap = some n → s.rsm.length < n) :
    s.tableFull = false := by
  rw [← Bool.not_eq_true, tableFull_iff]
  rintro ⟨n, hn, hle⟩
  exact absurd (h n hn) (by omega)

/-! ### What a `COLLECT` of a segment does, case by case -/

/-- A segment joins the group of its key where that group exists or has room (R242, R245). -/
theorem execCollect_segment {t : Deliver} {c : Concat} {s : State} (hc : concatIn t = .ok (some c))
    (room : s.group (keyOf t c) = none → s.tableFull = false) :
    execCollect t s = collectInto t c (groupFor s (keyOf t c)) s := by
  unfold execCollect
  rw [hc]
  cases hg : s.group (keyOf t c) with
  | some g => simp only [hg, groupFor_of_group hg]
  | none => simp [hg, groupFor_of_none hg, room hg]

section Collect

variable {k : Key} {q : Nat} {t : Deliver} {s : State}

theorem collect_held (h : SegmentFits k q t) {d : Deliver} (room : s.group k = none → s.tableFull = false)
    (held : (groupFor s k).seg q = some d) : Replies (.collect t) s 0x70 (.err .duplicateSegment) := by
  obtain ⟨c, hc, rfl, rfl⟩ := h
  refine (execCollect_segment hc room).trans ?_
  simp only [collectInto, held]
  rfl

/-- A new segment that leaves its group incomplete is stored in it (R242). -/
theorem collect_stores (h : SegmentFits k q t) (room : s.group k = none → s.tableFull = false)
    (new : (groupFor s k).seg q = none) (incomplete : (groupFor s k).segs.length + 1 ≠ k.total.toNat) :
    exec (.collect t) s = .next { s with
      rsm := FMap.put keyCode k ((groupFor s k).put q t) s.rsm
      out := s.out ++ [.result 0x70 (.ok (.delivers []))] } := by
  obtain ⟨c, hc, rfl, rfl⟩ := h
  have hlen : ((groupFor s (keyOf t c)).put c.seq.toNat t).segs.length ≠ c.total.toNat := by
    rwa [Group.put, length_put t new]
  refine (execCollect_segment hc room).trans ?_
  simp only [collectInto, new, if_neg hlen]
  rfl

/-- The last missing segment answers its group's segments and removes the group (R242). -/
theorem collect_answers (h : SegmentFits k q t) (room : s.group k = none → s.tableFull = false)
    (new : (groupFor s k).seg q = none) (complete : (groupFor s k).segs.length + 1 = k.total.toNat) :
    exec (.collect t) s = .next { s with
      rsm := FMap.erase keyCode k s.rsm
      out := s.out ++ [.result 0x70 (.ok (.delivers (((groupFor s k).put q t).segs.map Prod.snd)))] } := by
  obtain ⟨c, hc, rfl, rfl⟩ := h
  have hlen : ((groupFor s (keyOf t c)).put c.seq.toNat t).segs.length = c.total.toNat := by
    rwa [Group.put, length_put t new]
  refine (execCollect_segment hc room).trans ?_
  simp only [collectInto, new, if_pos hlen]
  rfl

/-- What the table holds after a segment is stored: its group with the segment, the other groups as before (R242). -/
theorem collect_stores_lookup (h : SegmentFits k q t) (room : s.group k = none → s.tableFull = false)
    (new : (groupFor s k).seg q = none) (incomplete : (groupFor s k).segs.length + 1 ≠ k.total.toNat) :
    ∃ m g', exec (.collect t) s = .next { s with rsm := m, out := s.out ++ [.result 0x70 (.ok (.delivers []))] } ∧
      FMap.get keyCode k m = some g' ∧ g'.created = (groupFor s k).created ∧
      (∀ p, g'.seg p = if p = q then some t else (groupFor s k).seg p) ∧
      ∀ k', k' ≠ k → FMap.get keyCode k' m = s.group k' :=
  ⟨_, _, collect_stores h room new incomplete, get_put_self k _ s.rsm, rfl, seg_put _ q t,
    fun _ hk => get_put_of_ne keyCode_injective hk _ s.rsm⟩

end Collect

/-! ### Storing (O43) -/

/-- The result of looking for a concatenation element, as `UDH_GETCONCAT` answers it (R155). -/
def concatResult : Answer (Option Concat) → Result
  | .ok c => .ok (.concat c)
  | .error k => .err k

theorem concatResult_eq_err {r : Answer (Option Concat)} {k : ErrorKind} (h : concatResult r = .err k) :
    r = .error k := by
  cases r with
  | ok c => cases h
  | error k' => cases h; rfl

theorem concatResult_eq_ok {r : Answer (Option Concat)} {c : Option Concat} (h : concatResult r = .ok (.concat c)) :
    r = .ok c := by
  cases r with
  | ok c' => cases h; rfl
  | error k => cases h

theorem collect_malformed {t : Deliver} (h : concatIn t = .error .badUdh) (s : State) :
    Replies (.collect t) s 0x70 (.err .badUdh) := by
  show execCollect t s = _
  rw [execCollect, h]
  rfl

theorem collect_single {t : Deliver} (h : concatIn t = .ok none) (s : State) :
    Replies (.collect t) s 0x70 (.ok (.delivers [t])) := by
  show execCollect t s = _
  rw [execCollect, h]
  rfl

/-- Settles O43: by what the record's header holds, and for a segment by whether its group exists and holds it. -/
theorem collectStores : Obligations.CollectStores := by
  unfold Obligations.CollectStores
  intro t s found
  have hfound : found = concatResult (concatIn t) := by
    unfold found concatIn
    cases t.udh with
    | none => rfl
    | some h => cases udhGetconcat h <;> rfl
  rw [hfound]
  refine ⟨fun k hk => ?malformed, fun hnone => collect_single (concatResult_eq_ok hnone) s, ?segment⟩
  case malformed =>
    have hk := concatResult_eq_err hk
    obtain rfl := concatIn_error hk
    exact ⟨rfl, collect_malformed hk s⟩
  intro c hc key
  have hc := concatResult_eq_ok hc
  have fits : SegmentFits key c.seq.toNat t := ⟨c, hc, rfl, rfl⟩
  refine ⟨fun g d hg held => ?held, fun g hg new incomplete => ?joins, fun hg room => ?creates⟩
  case held => exact collect_held fits (fun h => by simp [hg] at h) ((groupFor_of_group hg).symm ▸ held)
  case joins =>
    obtain rfl := groupFor_of_group hg
    exact collect_stores_lookup fits (fun h => by simp [hg] at h) new incomplete
  case creates =>
    have htotal : (groupFor s key).segs.length + 1 ≠ key.total.toNat := by
      have := (concatIn_range hc).1
      rw [groupFor_of_none hg]
      show 1 ≠ c.total.toNat
      omega
    have hnew : ∀ p, (groupFor s key).seg p = none := fun p => by rw [groupFor_of_none hg]; rfl
    obtain ⟨m, g', hexec, hget, hcreated, hseg, hother⟩ :=
      collect_stores_lookup fits (fun _ => tableFull_eq_false room) (hnew _) htotal
    refine ⟨m, g', hexec, hget, ?_, fun p => ?_, hother⟩
    · rw [hcreated, groupFor_of_none hg]
    · rw [hseg, hnew]

/-! ### Completing a group (O44) -/

/-- The `i`-th segment of a full group is the one with number `i + 1` (R244). -/
theorem full_group_getElem? {k : Key} {m : List (Nat × Deliver)} (hm : FMap.Rising id m)
    (hf : ∀ e ∈ m, SegmentFits k e.1 e.2) (hn : m.length = k.total.toNat) {i : Nat} (hi : i < m.length) :
    (m.map Prod.snd)[i]? = FMap.get id (i + 1) m := by
  have hnum : m[i].1 = i + 1 := by
    have : (m.map Prod.fst)[i]'(by simpa using hi) = 1 + 1 * i := by
      simp only [full_group_numbers hm hf hn, List.getElem_range']
    rw [List.getElem_map] at this
    omega
  have hmem : (i + 1, m[i].2) ∈ m := hnum ▸ List.getElem_mem hi
  rw [get_of_mem hm hmem]
  simp [hi]

/-- The answer to the last missing segment: as many records as the total says, the `i`-th of them the segment with number
`i + 1`, which says so itself (R242, R244). -/
theorem completed_group {s : State} (hs : TableOk s) {k : Key} {q : Nat} {t : Deliver} (h : SegmentFits k q t)
    (new : (groupFor s k).seg q = none) (complete : (groupFor s k).segs.length + 1 = k.total.toNat) :
    let l := ((groupFor s k).put q t).segs.map Prod.snd
    l.length = k.total.toNat ∧
    (∀ i, i < l.length → l[i]? = if i + 1 = q then some t else (groupFor s k).seg (i + 1)) ∧
    (∀ i d, l[i]? = some d → SegmentFits k (i + 1) d) := by
  intro l
  obtain ⟨c, hc, rfl, rfl⟩ := h
  obtain ⟨rising, fits, -⟩ := groupFor_put hs hc
  have hlen : ((groupFor s (keyOf t c)).put c.seq.toNat t).segs.length = (keyOf t c).total.toNat :=
    (length_put t new).trans complete
  have hll : l.length = (keyOf t c).total.toNat := by rw [List.length_map, hlen]
  have hget : ∀ i, i < l.length → l[i]? = ((groupFor s (keyOf t c)).put c.seq.toNat t).seg (i + 1) :=
    fun i hi => full_group_getElem? rising fits hlen (by rwa [hlen, ← hll])
  refine ⟨hll, fun i hi => by rw [hget i hi, seg_put], fun i d hd => ?_⟩
  have hi : i < l.length := (List.getElem?_eq_some_iff.1 hd).1
  exact fits _ (mem_of_get Function.injective_id ((hget i hi).symm.trans hd))

/-- Settles O44: the group with its last segment is full, so its numbers are 1 to the total in order. -/
theorem collectCompletes : Obligations.CollectCompletes := by
  unfold Obligations.CollectCompletes
  rintro t c g s hs ⟨h, hudh, hcat⟩ key hg new complete
  have hc : concatIn t = .ok (some c) := by rw [concatIn, hudh]; exact hcat
  have fits : SegmentFits key c.seq.toNat t := ⟨c, hc, rfl, rfl⟩
  obtain rfl := groupFor_of_group hg
  obtain ⟨hlen, hget, hfits⟩ := completed_group hs fits new complete
  exact ⟨_, _, collect_answers fits (fun h => by simp [hg] at h) new complete, hlen, hget, hfits,
    get_erase_self key s.rsm, fun k hk => get_erase_of_ne keyCode_injective hk s.rsm⟩

/-! ### A message in any order (O45) -/

/-- A segment has one place. -/
theorem segmentFits_unique {k : Key} {p q : Nat} {t : Deliver} (hp : SegmentFits k p t) (hq : SegmentFits k q t) :
    p = q := by
  obtain ⟨c, hc, -, rfl⟩ := hp
  obtain ⟨c', hc', -, rfl⟩ := hq
  rw [hc] at hc'
  cases hc'
  rfl

theorem groupFor_fits {s : State} (hs : TableOk s) {k : Key} : ∀ e ∈ (groupFor s k).segs, SegmentFits k e.1 e.2 := by
  cases hg : s.group k with
  | none => simp [groupFor_of_none hg]
  | some g =>
    rw [groupFor_of_group hg]
    exact (hs.groups _ (mem_of_get keyCode_injective hg)).fits

theorem execAll_cons {i : Instr} {r : List Instr} {s s' : State} (h : exec i s = .next s') :
    execAll (i :: r) s = execAll r s' := by
  rw [execAll, h]

section Message

variable {key : Key} {message : List Deliver} (hfits : ∀ i d, message[i]? = some d → SegmentFits key (i + 1) d)

include hfits

/-- A segment of the message that belongs at `i + 1` is the message's `i`-th. -/
theorem message_getElem?_of_fits {i : Nat} {d : Deliver} (hd : d ∈ message) (h : SegmentFits key (i + 1) d) :
    message[i]? = some d := by
  obtain ⟨j, hj⟩ := List.mem_iff_getElem?.1 hd
  obtain rfl : j = i := Nat.succ_injective (segmentFits_unique (hfits j d hj) h)
  exact hj

theorem message_nodup : message.Nodup := by
  refine List.nodup_iff_getElem?_ne_getElem?.2 fun i j hij hj heq => ?_
  have hi := hfits i _ (List.getElem?_eq_getElem (hij.trans hj))
  rw [List.getElem?_eq_getElem hj, List.getElem?_eq_getElem (hij.trans hj)] at heq
  have := segmentFits_unique hi (Option.some.inj heq ▸ hfits j _ (List.getElem?_eq_getElem hj))
  omega

/-- Segments of the message that stand in their places are the message. -/
theorem eq_message_of_fits {l : List Deliver} (hperm : l.Perm message)
    (hl : ∀ i d, l[i]? = some d → SegmentFits key (i + 1) d) : l = message := by
  refine List.ext_getElem hperm.length_eq fun i hi hi' => ?_
  have hd := List.getElem?_eq_getElem hi
  have := message_getElem?_of_fits hfits (hperm.mem_iff.1 (List.getElem_mem hi)) (hl i _ hd)
  rw [List.getElem?_eq_getElem hi'] at this
  exact (Option.some.inj this).symm

/-- Where what is held of the message and what is still to come make up the message, the next segment is not held, and
it is held once it has joined its group. -/
theorem next_segment {s : State} (hs : TableOk s) {t : Deliver} {r : List Deliver}
    (hperm : ((groupFor s key).segs.map Prod.snd ++ t :: r).Perm message) :
    ∃ q, SegmentFits key q t ∧ (groupFor s key).seg q = none ∧
      (((groupFor s key).put q t).segs.map Prod.snd ++ r).Perm message := by
  obtain ⟨i, hi⟩ := List.mem_iff_getElem?.1 (hperm.mem_iff.1 (by simp : t ∈ _))
  have new : (groupFor s key).seg (i + 1) = none := by
    refine Option.eq_none_iff_forall_ne_some.2 fun d hd => ?_
    have hheld : (i + 1, d) ∈ (groupFor s key).segs := mem_of_get Function.injective_id hd
    have hmem : d ∈ (groupFor s key).segs.map Prod.snd := List.mem_map.2 ⟨_, hheld, rfl⟩
    have hdt : message[i]? = some d :=
      message_getElem?_of_fits hfits (hperm.mem_iff.1 (by simp [hmem])) (groupFor_fits hs _ hheld)
    cases hi.symm.trans hdt
    exact List.disjoint_of_nodup_append (hperm.nodup_iff.2 (message_nodup hfits)) hmem List.mem_cons_self
  exact ⟨i + 1, hfits i t hi, new,
    (((put_perm t new).map Prod.snd).append_right r).trans (List.perm_middle.symm.trans hperm)⟩

section Room

variable (htotal : key.total.toNat = message.length) {s : State} (hs : TableOk s) (hcap : s.params.rsmCap = none)

include htotal hs hcap

/-- The last segment to come is answered with the message (R242, R244). -/
theorem collect_last {t : Deliver} (hperm : ((groupFor s key).segs.map Prod.snd ++ [t]).Perm message) :
    exec (.collect t) s = .next { s with
      rsm := FMap.erase keyCode key s.rsm
      out := s.out ++ [.result 0x70 (.ok (.delivers message))] } := by
  obtain ⟨q, ht, new, hput⟩ := next_segment hfits hs hperm
  have complete : (groupFor s key).segs.length + 1 = key.total.toNat := by simpa [htotal] using hperm.length_eq
  have hall : ((groupFor s key).put q t).segs.map Prod.snd = message :=
    eq_message_of_fits hfits (by simpa using hput) (completed_group hs ht new complete).2.2
  rw [collect_answers ht (fun _ => tableFull_eq_false (by simp [hcap])) new complete, hall]

/-- A segment that is not the last to come is stored (R242). -/
theorem collect_next {t u : Deliver} {r : List Deliver}
    (hperm : ((groupFor s key).segs.map Prod.snd ++ t :: u :: r).Perm message) :
    ∃ g : Group, (g.segs.map Prod.snd ++ u :: r).Perm message ∧ exec (.collect t) s = .next { s with
      rsm := FMap.put keyCode key g s.rsm
      out := s.out ++ [.result 0x70 (.ok (.delivers []))] } := by
  obtain ⟨q, ht, new, hput⟩ := next_segment hfits hs hperm
  have hlen : (groupFor s key).segs.length + (r.length + 1 + 1) = key.total.toNat := by
    simpa [htotal] using hperm.length_eq
  exact ⟨_, hput, collect_stores ht (fun _ => tableFull_eq_false (by simp [hcap])) new (by omega)⟩

end Room

/-- The rest of a message, in any order: every segment but the last is stored, the last one answers the message and
removes the group (R242, R244). -/
theorem execAll_collect_rest (htotal : key.total.toNat = message.length) {s : State} (hs : TableOk s)
    (hcap : s.params.rsmCap = none) {t : Deliver} {r : List Deliver}
    (hperm : ((groupFor s key).segs.map Prod.snd ++ t :: r).Perm message) :
    execAll ((t :: r).map .collect) s = .next { s with
      rsm := FMap.erase keyCode key s.rsm
      out := s.out ++ List.replicate r.length (.result 0x70 (.ok (.delivers []))) ++
        [.result 0x70 (.ok (.delivers message))] } := by
  induction r generalizing s t with
  | nil =>
    rw [List.map_cons, execAll_cons (collect_last hfits htotal hs hcap hperm)]
    simp [execAll]
  | cons u r ih =>
    obtain ⟨g, hg, stored⟩ := collect_next hfits htotal hs hcap hperm
    have hrest := ih (exec_tableOk hs stored) hcap (t := u) (by rwa [groupFor_of_put rfl])
    rw [List.map_cons, execAll_cons stored, hrest]
    simp [erase_put_self, List.replicate_succ]

end Message

/-- Settles O45: the whole message is the rest of a message of which nothing is held. -/
theorem collectAnyOrder : Obligations.CollectAnyOrder := by
  unfold Obligations.CollectAnyOrder
  intro key message arrivals s hs hcap hnone hne htotal hfits hperm
  obtain ⟨t, r, rfl⟩ := List.exists_cons_of_ne_nil fun h : arrivals = [] => hne (h ▸ hperm).nil_eq.symm
  have hstart : ((groupFor s key).segs.map Prod.snd ++ t :: r).Perm message := by
    rw [groupFor_of_none hnone]
    exact hperm
  have hlen : r.length = message.length - 1 := by
    rw [← hperm.length_eq, List.length_cons, Nat.add_sub_cancel]
  rw [execAll_collect_rest hfits htotal hs hcap hstart, erase_of_get_none hnone, hlen]

/-! ### Expiry (O46) -/

theorem overdue_of_no_deadline {s : State} (h : s.rsmDeadline = none) : s.overdue = [] := by
  rw [State.overdue, h]

theorem mem_overdue {s : State} {d : Nat} (h : s.rsmDeadline = some d) {e : Key × Group} :
    e ∈ s.overdue ↔ e ∈ s.rsm ∧ e.2.created + d ≤ s.now := by
  simp [State.overdue, h]

/-- The environment's choice is a place among the overdue groups (R247, R310). -/
theorem pick_eq_getElem? (s : State) : s.pick = s.overdue[s.picks.headD 0 % s.overdue.length]? := by
  unfold State.pick
  cases s.overdue with
  | nil => rfl
  | cons e r =>
    have hlt : s.picks.headD 0 % (e :: r).length < (e :: r).length := Nat.mod_lt _ (by simp)
    simp only [List.getD_eq_getElem _ _ hlt, List.getElem?_eq_getElem hlt]

theorem pick_eq_none_iff (s : State) : s.pick = none ↔ s.overdue = [] := by
  rw [pick_eq_getElem?, List.getElem?_eq_none_iff]
  refine ⟨fun hle => ?_, fun h => by simp [h]⟩
  by_contra hne
  exact absurd (Nat.mod_lt (s.picks.headD 0) (List.length_pos_of_ne_nil hne)) (by omega)

/-- The group picked is an overdue one (R247). -/
theorem pick_mem_overdue {s : State} {e : Key × Group} (h : s.pick = some e) : e ∈ s.overdue :=
  List.mem_of_getElem? ((pick_eq_getElem? s).symm.trans h)

/-- Every overdue group is picked by some choice of the environment: its place among them (R247, R310). -/
theorem exists_pick {s : State} {e : Key × Group} (h : e ∈ s.overdue) :
    ∃ n, ({ s with picks := [n] } : State).pick = some e := by
  obtain ⟨n, hn, rfl⟩ := List.mem_iff_getElem.1 h
  refine ⟨n, (pick_eq_getElem? _).trans ?_⟩
  show s.overdue[n % s.overdue.length]? = _
  rw [Nat.mod_eq_of_lt hn, List.getElem?_eq_getElem hn]

theorem expire_picked {s : State} {k : Key} {g : Group} (h : s.pick = some (k, g)) :
    exec .expire s = .next { s with
      rsm := FMap.erase keyCode k s.rsm
      picks := s.picks.tail
      out := s.out ++ [.event (.expired .reassemblyTimeout k.w k.ref k.total g.segs.length)] } := by
  rcases expire_cases s with ⟨hnone, -⟩ | ⟨k', g', hpick, e⟩
  · cases hnone.symm.trans h
  · cases hpick.symm.trans h
    exact e

/-- Settles O46: the group picked is overdue, every overdue group is some choice's, and none is picked where none is
overdue. -/
theorem expireOverdue : Obligations.ExpireOverdue := by
  unfold Obligations.ExpireOverdue
  intro s overdue
  have mem : ∀ d k g, s.rsmDeadline = some d → overdue d k g → (k, g) ∈ s.overdue := fun d k g hd ho =>
    (mem_overdue hd).2 ⟨mem_of_get keyCode_injective ho.1, ho.2⟩
  refine ⟨fun d hd ⟨k₀, g₀, ho⟩ rising => ?some, fun d k g hd ho => ?any, fun hnot => ?none⟩
  case some =>
    obtain ⟨⟨k, g⟩, hpick⟩ := Option.ne_none_iff_exists'.1 fun hnone =>
      List.ne_nil_of_mem (mem d k₀ g₀ hd ho) ((pick_eq_none_iff s).1 hnone)
    obtain ⟨hmem, hdue⟩ := (mem_overdue hd).1 (pick_mem_overdue hpick)
    exact ⟨k, g, _, ⟨get_of_mem rising hmem, hdue⟩, expire_picked hpick, get_erase_self k s.rsm,
      fun k' hk => get_erase_of_ne keyCode_injective hk s.rsm⟩
  case any =>
    obtain ⟨n, hpick⟩ := exists_pick (mem d k g hd ho)
    exact ⟨n, _, expire_picked hpick, get_erase_self k s.rsm⟩
  case none =>
    have hempty : s.overdue = [] := by
      cases hd : s.rsmDeadline with
      | none => exact overdue_of_no_deadline hd
      | some d =>
        refine List.eq_nil_iff_forall_not_mem.2 fun e he => ?_
        obtain ⟨hmem, hdue⟩ := (mem_overdue hd).1 he
        exact absurd (hnot d hd e hmem) (by omega)
    rcases expire_cases s with ⟨-, e⟩ | ⟨k, g, hpick, -⟩
    · exact e
    · cases ((pick_eq_none_iff s).2 hempty).symm.trans hpick

end Sys2Proof.Proofs

/-! PROOFS. The line unit: trimming, parsing and classifying a line (O48, O49, O50), the reader (O51), the start of a
`SEND` and its resumption (O53, O54), the take step, the time-out and `CLOSE` (O55, O56, O57), and what every step keeps
of the response queue and of the serial port, a closed unit's silence among it (O52, O58, O59). -/

namespace Sys2Proof.Proofs

open Sys2Proof Sys2Proof.Machine Sys2Proof.Laws

/-! ### Steps that are not enabled (R262, R272, R274, R281, R282) -/

theorem readError_of_not_reading {s : State} (h : s.closed = true ∨ s.rxEnded = true) : s.readError = s := by
  rcases readError_cases s with ⟨-, e⟩ | ⟨hc, he, -⟩
  · exact e
  · simp [hc, he] at h

theorem receive_of_not_reading {s : State} (h : s.closed = true ∨ s.rxEnded = true) (b : Byte) :
    receive b s = .next s := by
  rcases receive_cases b s with ⟨-, e⟩ | ⟨hc, he, -⟩
  · exact e
  · simp [hc, he] at h

theorem takeLine_disabled {s : State} (h : s.dstate ≠ .awaiting ∨ s.txn = none ∨ s.rq = []) : s.takeLine = s := by
  rcases takeLine_cases s with ⟨-, e⟩ | ⟨x, l, rest, hd, hx, hq, -⟩
  · exact e
  · simp [hd, hx, hq] at h

theorem resumeSend_disabled {s : State} (h : s.waiters = [] ∨ s.lock = .held) : s.resumeSend = s := by
  rcases resumeSend_cases s with ⟨-, e⟩ | ⟨r, ws, hw, hl, -⟩
  · exact e
  · simp [hw, hl] at h

theorem timeout_disabled {s : State} (h : s.dstate ≠ .awaiting ∨ s.txn = none ∨ ∃ x, s.txn = some x ∧ s.now < x.dl) :
    execLnTimeout s = .next s := by
  rcases timeout_cases s with ⟨-, e⟩ | ⟨x, hd, hx, due, -⟩
  · exact e
  · simp [hd, hx, Nat.not_lt.2 due] at h

/-! ### What goes out without a write, a close or an end of a `SEND` -/

/-- An output that is no write and no `PORT_CLOSE`, and that tells of no `SEND` more than that the unit is closed. -/
def Quiet (o : Output) : Prop :=
  (∀ w a, o ≠ .tx w a) ∧ o ≠ .portClose ∧
    ∀ op r, o = .result op r → op = 0x82 ∨ op = 0x83 ∨ op = 0x84 → r = .err .closed

theorem quiet_event (e : Event) : Quiet (.event e) := ⟨nofun, nofun, nofun⟩

theorem quiet_closed (op : Byte) : Quiet (.result op (.err .closed)) :=
  ⟨nofun, nofun, fun _ _ h _ => by cases h; rfl⟩

theorem quiet_result {op : Byte} (h : ¬ (op = 0x82 ∨ op = 0x83 ∨ op = 0x84)) (r : Result) : Quiet (.result op r) :=
  ⟨nofun, nofun, fun _ _ e hop => by cases e; exact absurd hop h⟩

/-- Only quiet outputs are added from `s` to `t`. -/
def AddsQuietly (s t : State) : Prop := ∃ new, t.out = s.out ++ new ∧ ∀ o ∈ new, Quiet o

theorem addsQuietly_of_out_eq {s t : State} (h : t.out = s.out) : AddsQuietly s t := ⟨[], by simpa using h, nofun⟩

theorem addsQuietly_of_quiet {s t : State} {o : Output} (h : t.out = s.out ++ [o]) (ho : Quiet o) : AddsQuietly s t :=
  ⟨[o], h, by simpa using ho⟩

theorem AddsQuietly.trans {s t u : State} (h : AddsQuietly s t) (g : AddsQuietly t u) : AddsQuietly s u := by
  obtain ⟨new, hout, hquiet⟩ := h
  obtain ⟨new', hout', hquiet'⟩ := g
  refine ⟨new ++ new', by rw [hout', hout, List.append_assoc], fun o ho => ?_⟩
  exact (List.mem_append.1 ho).elim (hquiet o) (hquiet' o)

/-- The codes of `SEND`, `SEND_EXPECT` and `SIMPLE_QUERY` are no codes of a command that writes no state (R90). -/
theorem pureCode_ne_send {i : Instr} {op : Byte} (h : pureCode i = some op) :
    ¬ (op = 0x82 ∨ op = 0x83 ∨ op = 0x84) := by
  cases i <;> cases h <;> decide

theorem route_addsQuietly (l : Line) (s : State) : AddsQuietly s (s.route l) := by
  rcases route_cases l s with ⟨-, e⟩ | ⟨-, -, e⟩ | ⟨-, -, e⟩ <;> rw [e]
  · exact addsQuietly_of_quiet rfl (quiet_event _)
  · exact addsQuietly_of_out_eq rfl
  · exact addsQuietly_of_quiet rfl (quiet_event _)

theorem endLine_addsQuietly (s : State) : AddsQuietly s s.endLine := by
  rcases endLine_cases s with ⟨-, e⟩ | ⟨-, e⟩ <;> rw [e]
  · exact addsQuietly_of_out_eq rfl
  · exact route_addsQuietly _ { s with lbuf := [] }

theorem receive_addsQuietly {b : Byte} {s t : State} (h : receive b s = .next t) : AddsQuietly s t := by
  rcases receive_cases b s with ⟨-, e⟩ | ⟨-, -, ⟨-, e⟩ | ⟨-, ⟨-, e⟩ | ⟨-, e⟩⟩⟩ <;> cases e.symm.trans h
  · exact addsQuietly_of_out_eq rfl
  · exact endLine_addsQuietly s
  · exact addsQuietly_of_out_eq rfl

theorem readError_addsQuietly (s : State) : AddsQuietly s s.readError := by
  rcases readError_cases s with ⟨-, e⟩ | ⟨-, -, e⟩ <;> rw [e]
  · exact addsQuietly_of_out_eq rfl
  · exact addsQuietly_of_quiet rfl (quiet_event _)

/-- No octet is received, no line queued or taken, and what goes out is quiet. -/
structure StaysSilent (s t : State) : Prop where
  lbuf : t.lbuf = s.lbuf
  rq : t.rq = s.rq
  out : AddsQuietly s t

theorem StaysSilent.refl (s : State) : StaysSilent s s := ⟨rfl, rfl, addsQuietly_of_out_eq rfl⟩

theorem StaysSilent.trans {s t u : State} (h : StaysSilent s t) (g : StaysSilent t u) : StaysSilent s u :=
  ⟨g.lbuf.trans h.lbuf, g.rq.trans h.rq, h.out.trans g.out⟩

theorem collect_silent {d : Deliver} {s t : State} (h : execCollect d s = .next t) : StaysSilent s t := by
  rcases collect_cases d s with ⟨k, -, e⟩ | ⟨-, e⟩ | ⟨c, -, ⟨-, -, e⟩ | ⟨-, ⟨d', -, e⟩ | ⟨-, ⟨-, e⟩ | ⟨-, e⟩⟩⟩⟩ <;>
    cases e.symm.trans h <;> exact ⟨rfl, rfl, addsQuietly_of_quiet rfl (quiet_result (by decide) _)⟩

theorem segment_silent {p : Payload} {dest : Ascii} {s t : State} (h : execSegment p dest s = .next t) :
    StaysSilent s t := by
  rcases segment_cases p dest s with ⟨l, c, -, e⟩ | ⟨k, -, e⟩ <;> cases e.symm.trans h <;>
    exact ⟨rfl, rfl, addsQuietly_of_quiet rfl (quiet_result (by decide) _)⟩

theorem expire_silent {s t : State} (h : execExpire s = .next t) : StaysSilent s t := by
  rcases expire_cases s with ⟨-, e⟩ | ⟨k, g, -, e⟩ <;> cases e.symm.trans h
  · exact .refl s
  · exact ⟨rfl, rfl, addsQuietly_of_quiet rfl (quiet_event _)⟩

/-- Only a `SEND` form, the reader, `CLOSE` and `LN_TIMEOUT` are heard in the line unit or on its ports. -/
theorem exec_silent_or {i : Instr} {s t : State} (h : exec i s = .next t) :
    StaysSilent s t ∨ (∃ k text, sendForm i = some (k, text)) ∨ isReceive i = true ∨ i = .close ∨ i = .lnTimeout := by
  rcases instr_cases i with ⟨op, hi⟩ | hi | hi | ⟨p, dest, rfl⟩ | ⟨d, rfl⟩ | ⟨d, rfl⟩ | rfl | ⟨v, rfl⟩ | rfl | rfl | rfl
  · obtain ⟨r, rfl⟩ := exec_pure_next hi h
    exact .inl ⟨rfl, rfl, addsQuietly_of_quiet rfl (quiet_result (pureCode_ne_send hi) r)⟩
  · exact .inr (.inl hi)
  · exact .inr (.inr (.inl hi))
  · exact .inl (segment_silent h)
  · exact .inl (collect_silent h)
  · cases h
    exact .inl ⟨rfl, rfl, addsQuietly_of_quiet rfl (quiet_result (by decide) _)⟩
  · exact .inr (.inr (.inr (.inl rfl)))
  · cases v <;> cases h <;> exact .inl ⟨rfl, rfl, addsQuietly_of_quiet rfl (quiet_result (by decide) _)⟩
  · exact .inl (expire_silent h)
  · exact .inr (.inr (.inr (.inr rfl)))
  · cases h
    exact .inl ⟨rfl, rfl, addsQuietly_of_out_eq rfl⟩

/-! ### A closed unit (O58) -/

theorem issueSend_closed {s : State} (hc : s.closed = true) (k : SendKind) (text : Ascii) :
    issueSend k text s = .next { s with out := s.out ++ [.result k.op (.err .closed)] } := if_pos hc

section Closed

variable {s t : State} (hc : s.closed = true) (hd : s.dstate = .closed)

include hc

theorem issueSend_silent {k : SendKind} {text : Ascii} (h : issueSend k text s = .next t) : StaysSilent s t := by
  cases (issueSend_closed hc k text).symm.trans h
  exact ⟨rfl, rfl, addsQuietly_of_quiet rfl (quiet_closed _)⟩

theorem close_silent (h : execClose s = .next t) : StaysSilent s t := by
  rcases close_cases s with ⟨-, e⟩ | ⟨hopen, -⟩ | ⟨x, hopen, -⟩
  · cases e.symm.trans h
    exact ⟨rfl, rfl, addsQuietly_of_quiet rfl (quiet_result (by decide) _)⟩
  · cases hopen.symm.trans hc
  · cases hopen.symm.trans hc

theorem resumeSend_silent : StaysSilent s s.resumeSend := by
  rcases resumeSend_cases s with ⟨-, e⟩ | ⟨r, ws, -, -, ⟨-, e⟩ | ⟨hopen, -⟩⟩
  · rw [e]
    exact .refl s
  · rw [e]
    exact ⟨rfl, rfl, addsQuietly_of_quiet rfl (quiet_closed _)⟩
  · cases hopen.symm.trans hc

theorem readError_silent : StaysSilent s s.readError := by
  rw [readError_of_not_reading (.inl hc)]
  exact .refl s

include hd

/-- An instruction on a closed unit: a `SEND` answers `Closed`, `CLOSE` only answers, the reader and the time-out do
nothing. -/
theorem exec_silent {i : Instr} (h : exec i s = .next t) : StaysSilent s t := by
  rcases exec_silent_or h with silent | ⟨k, text, hi⟩ | hi | rfl | rfl
  · exact silent
  · rw [exec_sendForm hi] at h
    exact issueSend_silent hc h
  · obtain ⟨b, hb⟩ := exec_isReceive hi
    cases (receive_of_not_reading (.inl hc) b).symm.trans ((hb s).symm.trans h)
    exact .refl s
  · exact close_silent hc h
  · cases (timeout_disabled (.inl (by simp [hd]))).symm.trans h
    exact .refl s

end Closed

theorem step_silent {s t : State} (hc : s.closed = true) (hd : s.dstate = .closed) (h : step s = .next t) :
    StaysSilent s t := by
  have turned : StaysSilent s s.turned := ⟨rfl, rfl, addsQuietly_of_out_eq rfl⟩
  refine turned.trans ?_
  rcases step_cases h with ⟨-, -, rfl⟩ | ⟨-, i, rest, -, e⟩ | ⟨-, rfl⟩ | ⟨-, rfl⟩ | ⟨-, rfl⟩
  · exact .refl _
  · have off : StaysSilent s.turned { s.turned with port := rest } := ⟨rfl, rfl, addsQuietly_of_out_eq rfl⟩
    exact off.trans (exec_silent hc hd e)
  · rw [takeLine_disabled (s := s.turned) (.inl (by simp [hd]))]
    exact .refl _
  · exact resumeSend_silent hc
  · exact readError_silent hc

/-- A run of one step more is a step that answers a next state and a run from there. -/
theorem run_succ_eq_next {M : Host.Core} {n : Nat} {s t : M.State} (h : M.run (n + 1) s = .next t) :
    ∃ u, M.step s = .next u ∧ M.run n u = .next t := by
  rw [Host.Core.run] at h
  split at h
  · rename_i u hs
    exact ⟨u, hs, h⟩
  · cases h
  · cases h

/-- A good closed state stays good, closed and silent in every run. -/
theorem run_silent {n : Nat} {s t : State} (good : Inv s) (hc : s.closed = true)
    (h : Sys2Proof.core.run n s = .next t) : Inv t ∧ t.closed = true ∧ StaysSilent s t := by
  induction n generalizing s with
  | zero =>
    cases h
    exact ⟨good, hc, .refl _⟩
  | succ n ih =>
    obtain ⟨u, hstep, hrun⟩ := run_succ_eq_next h
    obtain ⟨goodt, hct, silent⟩ := ih (stepKeepsInvariant s u good hstep) ((step_keepsHistory hstep).closed hc) hrun
    exact ⟨goodt, hct, (step_silent hc (good.line.closed.2 hc) hstep).trans silent⟩

/-- Settles O58, by induction on the run: each step of a good closed state is silent and ends in such a state. -/
theorem closedIsTerminal : Obligations.ClosedIsTerminal := by
  unfold Obligations.ClosedIsTerminal
  intro n s t good hc h
  obtain ⟨goodt, hct, silent⟩ := run_silent good hc h
  exact ⟨hct, goodt.line.closed.2 hct, silent.lbuf, silent.rq, silent.out⟩

/-! ### Who writes to the port (O59) -/

/-- From `s` to `t` nothing is written to the port. -/
def NoWrite (s t : State) : Prop := ∃ new, t.out = s.out ++ new ∧ ∀ w a, Output.tx w a ∉ new

/-- From `s` to `t` the port is written to once, by a `SEND` that has the lock to itself and has drained the queue. -/
def WritesAlone (s t : State) : Prop :=
  s.lock = .free ∧ s.closed = false ∧ t.rq = [] ∧
    ∃ w a, t.out = s.out ++ [.tx w a] ∨ ∃ op k, t.out = s.out ++ [.tx w a, .result op (.err k)]

theorem AddsQuietly.noWrite {s t : State} (h : AddsQuietly s t) : NoWrite s t := by
  obtain ⟨new, hout, hquiet⟩ := h
  exact ⟨new, hout, fun w a hw => (hquiet _ hw).1 w a rfl⟩

theorem startSend_writesAlone {s : State} (hl : s.lock = .free) (hc : s.closed = false) (k : SendKind) (text : Ascii) :
    WritesAlone s (s.startSend k text) := by
  rcases startSend_cases k text s with ⟨n, -, -, e⟩ | ⟨x, -, e⟩ <;> rw [e]
  · exact ⟨hl, hc, rfl, _, _, .inl rfl⟩
  · exact ⟨hl, hc, rfl, _, _, .inr ⟨_, _, rfl⟩⟩

theorem close_noWrite {s t : State} (h : execClose s = .next t) : NoWrite s t := by
  rcases close_cases s with ⟨-, e⟩ | ⟨-, -, e⟩ | ⟨x, -, -, e⟩ <;> cases e.symm.trans h
  · exact ⟨_, rfl, by simp⟩
  · exact ⟨_, by simp only [List.append_assoc]; rfl, by simp⟩
  · exact ⟨_, by simp only [List.append_assoc]; rfl, by simp⟩

theorem timeout_noWrite {s t : State} (h : execLnTimeout s = .next t) : NoWrite s t := by
  rcases timeout_cases s with ⟨-, e⟩ | ⟨x, -, -, -, e⟩ <;> cases e.symm.trans h
  · exact (addsQuietly_of_out_eq rfl).noWrite
  · exact ⟨_, rfl, by simp⟩

theorem takeLine_noWrite (s : State) : NoWrite s s.takeLine := by
  rcases takeLine_cases s with ⟨-, e⟩ | ⟨x, l, rest, -, -, -, ⟨-, e⟩ | ⟨-, e⟩⟩ <;> rw [e]
  · exact (addsQuietly_of_out_eq rfl).noWrite
  · exact (addsQuietly_of_out_eq rfl).noWrite
  · exact ⟨_, rfl, by simp⟩

theorem issueSend_writes {k : SendKind} {text : Ascii} {s t : State} (h : issueSend k text s = .next t) :
    NoWrite s t ∨ WritesAlone s t := by
  rcases issueSend_cases k text s with ⟨-, e⟩ | ⟨hc, hl, -, e⟩ | ⟨-, -, e⟩ <;> cases e.symm.trans h
  · exact .inl (addsQuietly_of_quiet rfl (quiet_closed _)).noWrite
  · exact .inr (startSend_writesAlone hl hc k text)
  · exact .inl (addsQuietly_of_out_eq rfl).noWrite

theorem resumeSend_writes (s : State) : NoWrite s s.resumeSend ∨ WritesAlone s s.resumeSend := by
  rcases resumeSend_cases s with ⟨-, e⟩ | ⟨r, ws, -, hl, ⟨-, e⟩ | ⟨hc, e⟩⟩ <;> rw [e]
  · exact .inl (addsQuietly_of_out_eq rfl).noWrite
  · exact .inl (addsQuietly_of_quiet rfl (quiet_closed _)).noWrite
  · exact .inr (startSend_writesAlone (s := { s with waiters := ws }) hl hc r.kind r.text)

theorem exec_writes {i : Instr} {s t : State} (h : exec i s = .next t) : NoWrite s t ∨ WritesAlone s t := by
  rcases exec_silent_or h with silent | ⟨k, text, hi⟩ | hi | rfl | rfl
  · exact .inl silent.out.noWrite
  · rw [exec_sendForm hi] at h
    exact issueSend_writes h
  · obtain ⟨b, hb⟩ := exec_isReceive hi
    exact .inl (receive_addsQuietly ((hb s).symm.trans h)).noWrite
  · exact .inl (close_noWrite h)
  · exact .inl (timeout_noWrite h)

/-- Time passing and the port's octets touch neither the lock nor the queue nor what went out, so a step writes as its
turn does. -/
theorem step_writes {s t : State} (h : step s = .next t) : NoWrite s t ∨ WritesAlone s t := by
  rcases step_cases h with ⟨-, -, rfl⟩ | ⟨-, i, rest, -, e⟩ | ⟨-, rfl⟩ | ⟨-, rfl⟩ | ⟨-, rfl⟩
  · exact .inl (addsQuietly_of_out_eq rfl).noWrite
  · exact (exec_writes e :)
  · exact .inl (takeLine_noWrite s.turned)
  · exact resumeSend_writes s.turned
  · exact .inl (readError_addsQuietly s.turned).noWrite

/-- Settles O59: what a step adds to the output is fixed by the outputs before and after it. -/
theorem exclusiveWriter : Obligations.ExclusiveWriter := by
  unfold Obligations.ExclusiveWriter
  intro s t new h hout ⟨w, a, hw⟩
  rcases step_writes h with ⟨new', hout', none⟩ | ⟨hl, hc, hrq, w', a', hnew⟩
  · obtain rfl := List.append_cancel_left (hout.symm.trans hout')
    exact absurd hw (none w a)
  · simp only [hout, List.append_cancel_left_eq] at hnew
    exact ⟨hl, hc, hrq, w', a', hnew⟩

/-! ### Who writes the response queue (O52) -/

/-- The queue lost lines at its front, or gained one line at its end, while it had room, that is final or no URC
(R263, R275). -/
def QueueMoves (s t : State) : Prop :=
  (∃ gone, s.rq = gone ++ t.rq) ∨
    ∃ l, t.rq = s.rq ++ [l] ∧ s.rq.length < s.params.rqCap ∧ (FinalLine s.finals l ∨ ¬ UrcLine s.urcs s.cur l)

theorem queueMoves_of_rq_eq {s t : State} (h : t.rq = s.rq) : QueueMoves s t := .inl ⟨[], h.symm⟩

theorem queueMoves_of_drained {s t : State} (h : t.rq = []) : QueueMoves s t := .inl ⟨s.rq, by rw [h, List.append_nil]⟩

theorem startSend_rq (k : SendKind) (text : Ascii) (s : State) : (s.startSend k text).rq = [] := by
  rcases startSend_cases k text s with ⟨n, -, -, e⟩ | ⟨x, -, e⟩ <;> rw [e]

theorem issueSend_queueMoves {k : SendKind} {text : Ascii} {s t : State} (h : issueSend k text s = .next t) :
    QueueMoves s t := by
  rcases issueSend_cases k text s with ⟨-, e⟩ | ⟨-, -, -, e⟩ | ⟨-, -, e⟩ <;> cases e.symm.trans h
  · exact queueMoves_of_rq_eq rfl
  · exact queueMoves_of_drained (startSend_rq k text s)
  · exact queueMoves_of_rq_eq rfl

theorem resumeSend_queueMoves (s : State) : QueueMoves s s.resumeSend := by
  rcases resumeSend_cases s with ⟨-, e⟩ | ⟨r, ws, -, -, ⟨-, e⟩ | ⟨-, e⟩⟩ <;> rw [e]
  · exact queueMoves_of_rq_eq rfl
  · exact queueMoves_of_rq_eq rfl
  · exact queueMoves_of_drained (startSend_rq ..)

theorem takeLine_queueMoves (s : State) : QueueMoves s s.takeLine := by
  rcases takeLine_cases s with ⟨-, e⟩ | ⟨x, l, rest, -, -, hq, ⟨-, e⟩ | ⟨-, e⟩⟩ <;> rw [e]
  · exact queueMoves_of_rq_eq rfl
  · exact .inl ⟨[l], hq⟩
  · exact .inl ⟨[l], hq⟩

theorem readError_queueMoves (s : State) : QueueMoves s s.readError := by
  rcases readError_cases s with ⟨-, e⟩ | ⟨-, -, e⟩ <;> rw [e] <;> exact queueMoves_of_rq_eq rfl

theorem route_queueMoves (l : Line) (s : State) : QueueMoves s (s.route l) := by
  rcases route_cases l s with ⟨-, e⟩ | ⟨hl, room, e⟩ | ⟨-, -, e⟩ <;> rw [e]
  · exact queueMoves_of_rq_eq rfl
  · exact .inr ⟨l, rfl, room, hl⟩
  · exact queueMoves_of_rq_eq rfl

theorem receive_queueMoves {b : Byte} {s t : State} (h : receive b s = .next t) : QueueMoves s t := by
  rcases receive_cases b s with ⟨-, e⟩ | ⟨-, -, ⟨-, e⟩ | ⟨-, ⟨-, e⟩ | ⟨-, e⟩⟩⟩ <;> cases e.symm.trans h
  · exact queueMoves_of_rq_eq rfl
  · rcases endLine_cases s with ⟨-, e⟩ | ⟨-, e⟩ <;> rw [e]
    · exact queueMoves_of_rq_eq rfl
    · exact route_queueMoves (trim s.lbuf) { s with lbuf := [] }
  · exact queueMoves_of_rq_eq rfl

/-- Only a `SEND` form and the reader write the queue (O7). -/
theorem exec_queueMoves {i : Instr} {s t : State} (h : exec i s = .next t) : QueueMoves s t := by
  obtain ⟨-, -, -, -, -, -, writers, -⟩ := stateWriters i s t h
  by_cases hrq : t.rq = s.rq
  · exact queueMoves_of_rq_eq hrq
  · rcases writers hrq with hsend | hreceive
    · obtain ⟨⟨k, text⟩, hi⟩ := Option.isSome_iff_exists.1 hsend
      rw [exec_sendForm hi] at h
      exact issueSend_queueMoves h
    · obtain ⟨b, hb⟩ := exec_isReceive hreceive
      exact receive_queueMoves ((hb s).symm.trans h)

/-- Settles O52: time passing and the port's octets touch neither the queue nor what a line is tested against, so a step
moves the queue as its turn does. -/
theorem urcNeverQueued : Obligations.UrcNeverQueued := by
  unfold Obligations.UrcNeverQueued
  intro s t h
  rcases step_cases h with ⟨-, -, rfl⟩ | ⟨-, i, rest, -, e⟩ | ⟨-, rfl⟩ | ⟨-, rfl⟩ | ⟨-, rfl⟩
  · exact queueMoves_of_rq_eq (t := s.turned) rfl
  · exact (exec_queueMoves e :)
  · exact takeLine_queueMoves s.turned
  · exact resumeSend_queueMoves s.turned
  · exact readError_queueMoves s.turned

/-! ### Trimming, parsing and classifying a line (O48, O49, O50) -/

/-- The white space of R261, octet by octet. -/
theorem isSpace_iff_mem (b : Byte) : isSpace b = true ↔ b ∈ ([0x09, 0x0A, 0x0B, 0x0C, 0x0D, 0x20] : Ascii) := by
  revert b
  decide

/-- Settles O48: `TRIM` cuts white space off both ends and stops at the first other octet. -/
theorem trimsWhiteSpace : Obligations.TrimsWhiteSpace := by
  unfold Obligations.TrimsWhiteSpace
  intro a
  simp only [← isSpace_iff_mem, Bool.not_eq_true]
  exact ⟨trim_split a, fun _ h => trim_head a h, fun _ h => trim_last a h⟩

theorem lnParse_of_no_colon {l : Line} (h : 0x3A ∉ l) : lnParse l = (l, []) := if_neg h

theorem lnParse_colon {label : Ascii} (h : 0x3A ∉ label) (rest : Ascii) :
    lnParse (label ++ 0x3A :: rest) = (trim label, (splitAt 0x2C (trim rest)).map fun p => unquote (trim p)) := by
  have before : ∀ b ∈ label, (b != 0x3A) = true := fun b hb => bne_iff_ne.2 fun e => h (e ▸ hb)
  rw [lnParse, if_pos (by simp), List.takeWhile_append_of_pos before, List.dropWhile_append_of_pos before]
  simp

/-- `UNQUOTE` takes off one pair of equal quotes, or finds none and changes nothing (R264). -/
theorem unquote_cases (v : Ascii) :
    (∃ q : Byte, (q = 0x22 ∨ q = 0x27) ∧ v = q :: unquote v ++ [q]) ∨
      ((∀ (q : Byte) mid, (q = 0x22 ∨ q = 0x27) → v ≠ q :: mid ++ [q]) ∧ unquote v = v) := by
  by_cases h : ∃ (q : Byte) (mid : Ascii), (q = 0x22 ∨ q = 0x27) ∧ v = q :: mid ++ [q]
  · obtain ⟨q, mid, hq, rfl⟩ := h
    exact .inl ⟨q, hq, by rw [unquote_quoted hq]⟩
  · have plain : ∀ (q : Byte) mid, (q = 0x22 ∨ q = 0x27) → v ≠ q :: mid ++ [q] := fun q mid hq hv => h ⟨q, mid, hq, hv⟩
    exact .inr ⟨plain, unquote_plain plain⟩

theorem lnParse_replies (l : Line) (s : State) :
    Replies (.lnParse l) s 0x80 (.ok (.parsed (lnParse l).1 (lnParse l).2)) := rfl

/-- Settles O49: the parts are those of the split, each one trimmed and unquoted. -/
theorem lineParses : Obligations.LineParses := by
  unfold Obligations.LineParses
  refine fun l s => ⟨fun h => ?_, ?_⟩
  · simpa only [lnParse_of_no_colon h] using lnParse_replies l s
  · rintro label rest rfl h
    obtain ⟨nonempty, noComma, joined⟩ := splitAt_spec 0x2C (trim rest)
    refine ⟨splitAt 0x2C (trim rest), (splitAt 0x2C (trim rest)).map fun p => unquote (trim p), nonempty, noComma,
      joined, ?_, ?_⟩
    · rw [List.forall₂_map_right_iff, List.forall₂_same]
      exact fun part _ => unquote_cases (trim part)
    · simpa only [lnParse_colon h] using lnParse_replies (label ++ 0x3A :: rest) s

theorem lnClassify_replies {l : Line} {c : Ascii} {s : State} {k : LineClass} (h : classify s.finals s.urcs l c = k) :
    Replies (.lnClassify l c) s 0x81 (.ok (.lineClass k)) := by
  subst h
  rfl

/-- Of two tokens that begin the same line one begins the other. -/
theorem prefix_comparable {t p l : Ascii} (ht : t <+: l) (hp : p <+: l) : t <+: p ∨ p <+: t :=
  List.prefix_or_prefix_of_prefix ht hp

/-- No final token of R268 agrees with `+CMTI:`. -/
theorem not_finalLine_cmti {l : Line} (h : ascii "+CMTI:" <+: l) : ¬ FinalLine defaultFinals l := by
  have apart : ∀ t ∈ defaultFinals, ¬ (t <+: ascii "+CMTI:" ∨ ascii "+CMTI:" <+: t) := by decide
  rintro ⟨t, ht, -, hl⟩
  exact apart t ht (prefix_comparable hl h)

theorem urcLine_cmti {l : Line} (h : ascii "+CMTI:" <+: l) : UrcLine defaultUrcs [] l := by
  have hp : ascii "+CMTI" <+: ascii "+CMTI:" := by decide
  exact ⟨ascii "+CMTI", by decide, by decide, hp.trans h, by decide, by decide, by decide⟩

/-- Of the prefixes of R269 only `+CREG` begins a `+CREG:` line, and it collides with the command `AT+CREG`. -/
theorem not_urcLine_creg {l c : Ascii} (h : ascii "+CREG:" <+: l) (hc : ascii "AT+CREG" <+: c) :
    ¬ UrcLine defaultUrcs c l := by
  have only : ∀ p ∈ defaultUrcs, p <+: ascii "+CREG:" ∨ ascii "+CREG:" <+: p → ascii "AT" ++ p = ascii "AT+CREG" := by
    decide
  rintro ⟨p, hp, -, hl, -, -, free⟩
  rw [only p hp (prefix_comparable hl h)] at free
  exact free hc

/-- Settles O50: the tests of `LN_CLASSIFY` in their order, and the default lists compared token by token. -/
theorem lineClasses : Obligations.LineClasses := by
  unfold Obligations.LineClasses
  refine ⟨fun l c s => ⟨fun hf => lnClassify_replies (classify_final c hf),
    fun hf hu => lnClassify_replies (classify_urc hf hu),
    fun hf hu => lnClassify_replies (classify_intermediate hf hu)⟩, fun l c s hfinals hurcs => ⟨?ok, ?cmti, ?creg, ?cme⟩⟩
  case ok =>
    refine lnClassify_replies (classify_final c ?_)
    rw [hfinals]
    exact ⟨ascii "OK", by decide, by decide, List.prefix_rfl⟩
  case cmti =>
    intro hl
    refine lnClassify_replies (classify_urc ?_ ?_)
    · rw [hfinals]; exact not_finalLine_cmti hl
    · rw [hurcs]; exact urcLine_cmti hl
  case creg =>
    intro hl hc
    refine ⟨_, fun hurc => ?_, lnClassify_replies rfl⟩
    rw [classify_eq_urc_iff, hurcs] at hurc
    exact not_urcLine_creg hl hc hurc.2
  case cme =>
    intro hl
    refine lnClassify_replies (classify_final c ?_)
    rw [hfinals]
    exact ⟨ascii "+CME ERROR", by decide, by decide, hl⟩

/-! ### The reader (O51) -/

theorem step_take {s : State} (h : s.nextTurn = .take) : step s = .next s.turned.takeLine := by
  rw [step_eq, h]; rfl

theorem step_resume {s : State} (h : s.nextTurn = .resume) : step s = .next s.turned.resumeSend := by
  rw [step_eq, h]; rfl

theorem step_readError {s : State} (h : s.nextTurn = .readError) : step s = .next s.turned.readError := by
  rw [step_eq, h]; rfl

theorem readError_of_reading {s : State} (hc : s.closed = false) (he : s.rxEnded = false) :
    s.readError = { s with out := s.out ++ [.event .log] } := by
  rcases readError_cases s with ⟨h, -⟩ | ⟨-, -, e⟩
  · simp [hc, he] at h
  · exact e

section Reading

variable {s : State} (hc : s.closed = false) (he : s.rxEnded = false)

include hc he

theorem receive_terminator {b : Byte} (hb : b = 0x0D ∨ b = 0x0A) : receive b s = .next s.endLine := by
  rcases receive_cases b s with ⟨h, -⟩ | ⟨-, -, ⟨-, e⟩ | ⟨hn, -⟩⟩
  · simp [hc, he] at h
  · exact e
  · exact absurd hb hn

theorem receive_joins {b : Byte} (hb : ¬ (b = 0x0D ∨ b = 0x0A))
    (room : ∀ n, s.params.lbufCap = some n → s.lbuf.length < n) :
    receive b s = .next { s with lbuf := s.lbuf ++ [b] } := by
  rcases receive_cases b s with ⟨h, -⟩ | ⟨-, -, ⟨hb', -⟩ | ⟨-, ⟨⟨n, hn, full⟩, -⟩ | ⟨-, e⟩⟩⟩
  · simp [hc, he] at h
  · exact absurd hb' hb
  · exact absurd (room n hn) (by omega)
  · exact e

theorem receive_full {b : Byte} (hb : ¬ (b = 0x0D ∨ b = 0x0A)) {n : Nat} (hn : s.params.lbufCap = some n)
    (full : n ≤ s.lbuf.length) : receive b s = .refused .lineBufferFull := by
  rcases receive_cases b s with ⟨h, -⟩ | ⟨-, -, ⟨hb', -⟩ | ⟨-, ⟨-, e⟩ | ⟨room, -⟩⟩⟩
  · simp [hc, he] at h
  · exact absurd hb' hb
  · exact e
  · exact absurd (room n hn) (by omega)

/-- The four presentations of a line terminator end the line (R261, R262, R91). -/
theorem exec_terminator {i : Instr} (hi : i ∈ [Instr.lnRx 0x0D, .lnRx 0x0A, .lineCr, .lineLf]) :
    exec i s = .next s.endLine := by
  have cr : receive 0x0D s = .next s.endLine := receive_terminator hc he (.inl rfl)
  have lf : receive 0x0A s = .next s.endLine := receive_terminator hc he (.inr rfl)
  simp only [List.mem_cons, List.not_mem_nil, or_false] at hi
  rcases hi with rfl | rfl | rfl | rfl
  exacts [cr, lf, cr, lf]

end Reading

theorem endLine_of_empty {s : State} (h : trim s.lbuf = []) : s.endLine = { s with lbuf := [] } := by
  rcases endLine_cases s with ⟨-, e⟩ | ⟨hn, -⟩
  · exact e
  · exact absurd h hn

theorem endLine_of_line {s : State} (h : trim s.lbuf ≠ []) :
    s.endLine = ({ s with lbuf := [] }).route (trim s.lbuf) := by
  rcases endLine_cases s with ⟨h', -⟩ | ⟨-, e⟩
  · exact absurd h' h
  · exact e

theorem route_urc {s : State} {l : Line} (hf : ¬ FinalLine s.finals l) (hu : UrcLine s.urcs s.cur l) :
    s.route l = { s with out := s.out ++ [.event (.urc (lnParse l).1 (lnParse l).2)] } := by
  rcases route_cases l s with ⟨-, e⟩ | ⟨h, -⟩ | ⟨h, -⟩
  · exact e
  · simp [hf, hu] at h
  · simp [hf, hu] at h

theorem route_queued {s : State} {l : Line} (hl : FinalLine s.finals l ∨ ¬ UrcLine s.urcs s.cur l)
    (room : s.rq.length < s.params.rqCap) : s.route l = { s with rq := s.rq ++ [l] } := by
  rcases route_cases l s with ⟨⟨hf, hu⟩, -⟩ | ⟨-, -, e⟩ | ⟨-, full, -⟩
  · simp [hf, hu] at hl
  · exact e
  · omega

theorem route_dropped {s : State} {l : Line} (hl : FinalLine s.finals l ∨ ¬ UrcLine s.urcs s.cur l)
    (full : s.params.rqCap ≤ s.rq.length) : s.route l = { s with out := s.out ++ [.event .log] } := by
  rcases route_cases l s with ⟨⟨hf, hu⟩, -⟩ | ⟨-, room, -⟩ | ⟨-, -, e⟩
  · simp [hf, hu] at hl
  · omega
  · exact e

/-- Settles O51: each clause is one case of the reader's step, and the end of a line one case of `ROUTE`. -/
theorem readerTakesOctets : Obligations.ReaderTakesOctets := by
  unfold Obligations.ReaderTakesOctets
  refine fun s => ⟨fun turn => ⟨fun hc he => ?_, fun h => ?_⟩, rfl, fun h => ?_, fun hc he => ⟨?_, ?_, ?_⟩⟩
  · rw [step_readError turn, readError_of_reading (s := s.turned) hc he, turned_out]
  · rw [step_readError turn, readError_of_not_reading (s := s.turned) h]
  · exact ⟨receive_of_not_reading h, receive_of_not_reading h 0x0D, receive_of_not_reading h 0x0A⟩
  · exact fun b hcr hlf room => receive_joins hc he (not_or.2 ⟨hcr, hlf⟩) room
  · exact fun b n hcr hlf hn full => receive_full hc he (not_or.2 ⟨hcr, hlf⟩) hn full
  · intro i hi
    dsimp only
    rw [exec_terminator hc he hi]
    refine ⟨fun hl => ?_, fun hl hf hu => ?_, fun hl hq room => ?_, fun hl hq full => ?_⟩
    · rw [endLine_of_empty hl]
    · rw [endLine_of_line hl, route_urc (s := { s with lbuf := [] }) hf hu]
    · rw [endLine_of_line hl, route_queued (s := { s with lbuf := [] }) hq room]
    · rw [endLine_of_line hl, route_dropped (s := { s with lbuf := [] }) hq full]

/-! ### The start of a `SEND` (O53, O54) -/

/-- A complete write leaves the transaction awaiting lines (R272). -/
theorem startSend_complete {s : State} {text : Ascii} {n : Nat} (h : s.txAnswer (terminate text) = .took n)
    (hn : (terminate text).length ≤ n) (k : SendKind) :
    s.startSend k text = { s with
      rq := [], cur := text, dstate := .awaiting, lock := .held,
      txn := some { kind := k, acc := [], dl := s.now + s.cmdTimeout }, txIn := s.txIn.tail,
      out := s.out ++ [.tx (terminate text) (s.txAnswer (terminate text))] } := by
  rcases startSend_cases k text s with ⟨-, -, -, e⟩ | ⟨x, ⟨h', -⟩ | ⟨m, h', hm, -⟩, -⟩
  · exact e
  · cases h.symm.trans h'
  · cases h.symm.trans h'
    omega

/-- A short or failed write ends the transaction at once, the lock free (R273). -/
theorem startSend_ended {s : State} {text : Ascii} (hc : s.closed = false) {e : ErrorKind}
    (h : (s.txAnswer (terminate text) = .failed ∧ e = .ioError) ∨
      ∃ n, s.txAnswer (terminate text) = .took n ∧ n < (terminate text).length ∧ e = .incompleteWrite) (k : SendKind) :
    s.startSend k text = { s with
      rq := [], cur := [], dstate := .idle, lock := .free, txn := none, txIn := s.txIn.tail,
      out := s.out ++ [.tx (terminate text) (s.txAnswer (terminate text)), .result k.op (.err e)] } := by
  rcases startSend_cases k text s with ⟨m, h', hm, -⟩ | ⟨x, h', eq⟩
  · rcases h with ⟨h, -⟩ | ⟨n, h, hn, -⟩ <;> cases h.symm.trans h'
    omega
  · have same : e = x := by
      rcases h with ⟨h, rfl⟩ | ⟨n, h, -, rfl⟩ <;> rcases h' with ⟨h', rfl⟩ | ⟨m, h', -, rfl⟩
      · rfl
      · cases h.symm.trans h'
      · cases h.symm.trans h'
      · rfl
    simp only [eq, same, hc, Bool.false_eq_true, if_false]

theorem issueSend_waits {s : State} (hc : s.closed = false) (h : s.lock = .held ∨ s.waiters ≠ []) (k : SendKind)
    (text : Ascii) : issueSend k text s = .next { s with waiters := s.waiters ++ [{ kind := k, text := text }] } := by
  rcases issueSend_cases k text s with ⟨hc', -⟩ | ⟨-, hl, hw, -⟩ | ⟨-, -, e⟩
  · simp [hc] at hc'
  · simp [hl, hw] at h
  · exact e

theorem issueSend_starts {s : State} (hc : s.closed = false) (hl : s.lock = .free) (hw : s.waiters = []) (k : SendKind)
    (text : Ascii) : issueSend k text s = .next (s.startSend k text) := by
  rcases issueSend_cases k text s with ⟨hc', -⟩ | ⟨-, -, -, e⟩ | ⟨-, h, -⟩
  · simp [hc] at hc'
  · exact e
  · simp [hl, hw] at h

/-- Settles O53: the start step by what the port answers to the terminated text. -/
theorem sendStarts : Obligations.SendStarts := by
  unfold Obligations.SendStarts
  intro i k text w s hi hw
  obtain rfl := (terminated_iff text w).1 hw
  intro op answer ended
  refine ⟨fun hc => ?closed, fun hc h => ?waits, fun hc hl hn => ?starts⟩
  case closed => exact (exec_sendForm hi s).trans (issueSend_closed hc k text)
  case waits => exact (exec_sendForm hi s).trans (issueSend_waits hc h k text)
  case starts =>
    have started : exec i s = .next (s.startSend k text) :=
      (exec_sendForm hi s).trans (issueSend_starts hc hl hn k text)
    refine ⟨fun n ha hlen => ?_, fun n ha hlen => ?_, fun ha => ?_⟩
    · rw [started, startSend_complete ha hlen]; rfl
    · exact started.trans (congrArg _ (startSend_ended hc (.inr ⟨n, ha, hlen, rfl⟩) k))
    · exact started.trans (congrArg _ (startSend_ended hc (.inl ⟨ha, rfl⟩) k))

section Resume

variable {s : State} {r : Request} {ws : List Request} (hw : s.waiters = r :: ws) (hl : s.lock = .free)

include hw hl

theorem resumeSend_closed (hc : s.closed = true) :
    s.resumeSend = { s with waiters := ws, out := s.out ++ [.result r.kind.op (.err .closed)] } := by
  rcases resumeSend_cases s with ⟨h, -⟩ | ⟨r', ws', hw', -, ⟨-, e⟩ | ⟨hopen, -⟩⟩
  · simp [hw, hl] at h
  · cases hw.symm.trans hw'
    exact e
  · simp [hc] at hopen

theorem resumeSend_starts (hc : s.closed = false) :
    s.resumeSend = ({ s with waiters := ws }).startSend r.kind r.text := by
  rcases resumeSend_cases s with ⟨h, -⟩ | ⟨r', ws', hw', -, ⟨hclosed, -⟩ | ⟨-, e⟩⟩
  · simp [hw, hl] at h
  · simp [hc] at hclosed
  · cases hw.symm.trans hw'
    exact e

end Resume

/-- Settles O54: the turn starts the longest waiting `SEND` as the start step of O53 does. -/
theorem waitingSendResumes : Obligations.WaitingSendResumes := by
  unfold Obligations.WaitingSendResumes
  refine fun s turn => ⟨fun h => ?_, fun r ws w hw hl hterm => ?_⟩
  · rw [step_resume turn, resumeSend_disabled (s := s.turned) h]
  · obtain rfl := (terminated_iff r.text w).1 hterm
    intro op answer ended
    have started : s.closed = false →
        step s = .next (({ s.turned with waiters := ws }).startSend r.kind r.text) := fun hc =>
      (step_resume turn).trans (congrArg _ (resumeSend_starts (s := s.turned) hw hl hc))
    refine ⟨fun hc => ?_, fun n hc ha hlen => ?_, fun hc ha => ?_, fun n hc ha hlen => ?_⟩
    · exact (step_resume turn).trans (congrArg _ (resumeSend_closed (s := s.turned) hw hl hc))
    · exact (started hc).trans (congrArg _
        (startSend_ended (s := { s.turned with waiters := ws }) hc (.inr ⟨n, ha, hlen, rfl⟩) r.kind))
    · exact (started hc).trans (congrArg _
        (startSend_ended (s := { s.turned with waiters := ws }) hc (.inl ⟨ha, rfl⟩) r.kind))
    · exact (started hc).trans (congrArg _
        (startSend_complete (s := { s.turned with waiters := ws }) ha hlen r.kind))

/-! ### The take step, the time-out, the close (O55, O56, O57) -/

section Take

variable {s : State} {x : Txn} {l : Line} {rest : List Line} (hd : s.dstate = .awaiting) (hx : s.txn = some x)
  (hq : s.rq = l :: rest)

include hd hx hq

theorem takeLine_not_final (hf : ¬ FinalLine s.finals l) :
    s.takeLine = { s with rq := rest, txn := some { x with acc := x.acc ++ [l] } } := by
  rcases takeLine_cases s with ⟨h, -⟩ | ⟨x', l', rest', -, hx', hq', taken⟩
  · simp [hd, hx, hq] at h
  · cases hx.symm.trans hx'
    cases hq.symm.trans hq'
    exact taken.elim And.right fun h => absurd h.1 hf

theorem takeLine_final (hf : FinalLine s.finals l) :
    s.takeLine = { s with
      rq := rest, cur := [], dstate := if s.closed then .closed else .idle, lock := .free, txn := none,
      out := s.out ++ [.result x.kind.op (x.kind.result (x.acc ++ [l]))] } := by
  rcases takeLine_cases s with ⟨h, -⟩ | ⟨x', l', rest', -, hx', hq', taken⟩
  · simp [hd, hx, hq] at h
  · cases hx.symm.trans hx'
    cases hq.symm.trans hq'
    exact taken.elim (fun h => absurd hf h.1) And.right

end Take

/-- Settles O55: the line taken is final or not, and a final one gives the result of the transaction's kind. -/
theorem takeStep : Obligations.TakeStep := by
  unfold Obligations.TakeStep
  refine fun s turn => ⟨fun h => ?_, fun x l rest hd hx hq => ⟨fun hf => ?_, fun hf => ?_⟩⟩
  · rw [step_take turn, takeLine_disabled (s := s.turned) h]
  · exact (step_take turn).trans (congrArg _ (takeLine_not_final (s := s.turned) hd hx hq hf))
  · exact ⟨_, finalResult_result x.kind _,
      (step_take turn).trans (congrArg _ (takeLine_final (s := s.turned) hd hx hq hf))⟩

/-- Settles O56: an overdue transaction ends with the result of its kind. -/
theorem timeoutEndsSend : Obligations.TimeoutEndsSend := by
  unfold Obligations.TimeoutEndsSend
  refine fun s => ⟨fun x hd hx due => ?_, fun h => ?_⟩
  · intro timedOut
    rcases timeout_cases s with ⟨h, -⟩ | ⟨x', -, hx', -, e⟩
    · simp [hd, hx, Nat.not_lt.2 due] at h
    · cases hx.symm.trans hx'
      refine Eq.trans e ?_
      cases x.kind <;> rfl
  · exact timeout_disabled h

/-- Settles O57: the three cases of `CLOSE`. -/
theorem closeEndsAll : Obligations.CloseEndsAll := by
  unfold Obligations.CloseEndsAll
  intro s code
  rcases close_cases s with ⟨hc, e⟩ | ⟨hc, hx, e⟩ | ⟨x, hc, hx, e⟩
  · refine ⟨fun _ => e, fun h => ?_, fun x h => ?_⟩
    · cases hc.symm.trans h
    · cases hc.symm.trans h
  · refine ⟨fun h => ?_, fun _ _ => e, fun x _ h => ?_⟩
    · cases hc.symm.trans h
    · cases hx.symm.trans h
  · refine ⟨fun h => ?_, fun _ h => ?_, fun x' _ h => ?_⟩
    · cases hc.symm.trans h
    · cases hx.symm.trans h
    · cases hx.symm.trans h
      exact e

end Sys2Proof.Proofs

/-! PROOFS. The exceptions: which state an operation that answers an error has written (O8). -/

namespace Sys2Proof.Proofs

open Sys2Proof Sys2Proof.Machine Sys2Proof.Laws

theorem ok_not_err {v : Value} : ¬ ∃ k, Result.ok v = .err k := by simp

/-- `SEGMENT` writes at most `REFCNT`, and not even that where it raises (R226, R306). -/
theorem segment_precise {p : Payload} {dest : Ascii} {s t : State} (h : execSegment p dest s = .next t) :
    ∃ r, t = { s with out := s.out ++ [.result 0x60 r], refcnt := t.refcnt } ∧
      ((∃ k, r = .err k) → t.refcnt = s.refcnt) := by
  rcases segment_cases p dest s with ⟨l, c, -, records⟩ | ⟨k, -, raised⟩
  · cases records.symm.trans h
    exact ⟨_, rfl, fun isErr => absurd isErr ok_not_err⟩
  · cases raised.symm.trans h
    exact ⟨_, rfl, fun _ => rfl⟩

/-- `COLLECT` writes at most `RSM`, and not even that where it raises: the header of the segment or a segment already held
makes it raise before it stores (R242, R306). -/
theorem collect_precise {d : Deliver} {s t : State} (h : execCollect d s = .next t) :
    ∃ r, t = { s with out := s.out ++ [.result 0x70 r], rsm := t.rsm } ∧ ((∃ k, r = .err k) → t.rsm = s.rsm) := by
  rcases collect_cases d s with ⟨k, -, badHeader⟩ | ⟨-, single⟩ | ⟨c, -, ⟨-, -, refused⟩ | ⟨-, inGroup⟩⟩
  · cases badHeader.symm.trans h
    exact ⟨_, rfl, fun _ => rfl⟩
  · cases single.symm.trans h
    exact ⟨_, rfl, fun _ => rfl⟩
  · cases refused.symm.trans h
  · rcases inGroup with ⟨held, -, duplicate⟩ | ⟨-, ⟨-, completed⟩ | ⟨-, stored⟩⟩
    · cases duplicate.symm.trans h
      exact ⟨_, rfl, fun _ => rfl⟩
    · cases completed.symm.trans h
      exact ⟨_, rfl, fun isErr => absurd isErr ok_not_err⟩
    · cases stored.symm.trans h
      exact ⟨_, rfl, fun isErr => absurd isErr ok_not_err⟩

/-- Settles O8: the operations that write no state, `SEGMENT` and `COLLECT`, each from what it can do. -/
theorem errorsArePrecise : Obligations.ErrorsArePrecise := by
  unfold Obligations.ErrorsArePrecise
  exact ⟨fun _ _ _ _ pure h => exec_pure_next pure h, fun _ _ _ _ h => segment_precise h,
    fun _ _ _ h => collect_precise h⟩

end Sys2Proof.Proofs
